-- ==== Sys2Proof/Word.lean ====
section
/-!
DEFINITION. The word types of the GVL-816's fields and their plainest arithmetic.
-/

namespace Sys2Proof

/-- One byte of a message, frame or record. -/
abbrev Byte := BitVec 8

/-- A two-byte field: seqs, tags, days, minutes, fares, codes (R193). -/
abbrev Half := BitVec 16

/-- A four-byte field: versions, CRC-32 values, validator IDs. -/
abbrev Word32 := BitVec 32

/-- A card number: the shelf in the top 8 bits, the offset in the low 48 (R26). -/
abbrev Card := BitVec 56

/-- A flag set: three bytes read as one 24-bit value, bit n being flag n (R197). -/
abbrev FlagSet := BitVec 24

/-- A link number, 0 to 7. -/
abbrev LinkId := Fin 8

/-- A counter that stops at its greatest value. -/
def satAdd (top n k : Nat) : Nat := min top (n + k)

/-- A setting brought into its stated range. -/
def clamp (lo hi n : Nat) : Nat := max lo (min hi n)

end Sys2Proof
end

