-- ==== Sys2Proof/Machine/Bytes.lean ====
section
/-!
DEFINITION. Fields as bytes: every multi-byte field is sent most significant byte first (00_scope.md, Byte order).
-/

namespace Sys2Proof.Machine

/-- A two-byte field as sent. -/
def be16 (v : Half) : List Byte := [v.extractLsb' 8 8, v.extractLsb' 0 8]

/-- A three-byte field as sent. -/
def be24 (v : BitVec 24) : List Byte := [v.extractLsb' 16 8, v.extractLsb' 8 8, v.extractLsb' 0 8]

/-- A four-byte field as sent. -/
def be32 (v : Word32) : List Byte :=
  [v.extractLsb' 24 8, v.extractLsb' 16 8, v.extractLsb' 8 8, v.extractLsb' 0 8]

/-- A card number as sent: seven bytes, shelf first (R200). -/
def be56 (v : Card) : List Byte :=
  [v.extractLsb' 48 8, v.extractLsb' 40 8, v.extractLsb' 32 8, v.extractLsb' 24 8, v.extractLsb' 16 8,
    v.extractLsb' 8 8, v.extractLsb' 0 8]

/-- The low 48 bits of a card number as sent: its offset (R200). -/
def be48 (v : Card) : List Byte :=
  [v.extractLsb' 40 8, v.extractLsb' 32 8, v.extractLsb' 24 8, v.extractLsb' 16 8, v.extractLsb' 8 8, v.extractLsb' 0 8]

/-- A count in one byte. -/
def n8 (n : Nat) : Byte := BitVec.ofNat 8 n

/-- A count in two bytes. -/
def n16 (n : Nat) : List Byte := be16 (BitVec.ofNat 16 n)

/-- A count in three bytes. -/
def n24 (n : Nat) : List Byte := be24 (BitVec.ofNat 24 n)

/-- A count in four bytes. -/
def n32 (n : Nat) : List Byte := be32 (BitVec.ofNat 32 n)

/-- A yes-or-no field: 1 or 0. -/
def flagByte (b : Bool) : Byte := if b then 1#8 else 0#8

/-- The two-byte field whose bytes arrive as `h`, `l`. -/
def half (h l : Byte) : Half := h ++ l

/-- The three-byte field whose bytes arrive in this order. -/
def word24 (a b c : Byte) : BitVec 24 := a ++ b ++ c

/-- The four-byte field whose bytes arrive in this order. -/
def word32 (a b c d : Byte) : Word32 := a ++ b ++ c ++ d

/-- The card number whose bytes arrive in this order. -/
def card56 (a b c d e f g : Byte) : Card := a ++ b ++ c ++ d ++ e ++ f ++ g

/-- An optional field with no coding of absence of its own: a presence byte and the field, zeros when absent (R195). -/
def optional {α : Type} (width : Nat) (enc : α → List Byte) : Option α → List Byte
  | none => 0#8 :: List.replicate width 0#8
  | some x => 1#8 :: enc x

end Sys2Proof.Machine
end

