-- ==== Sys2Proof/Machine/Crc.lean ====
section
/-!
DEFINITION. The two checksums of the part: the CRC-32 of R17 and the CRC-16 of R116.
-/

namespace Sys2Proof.Machine

/-- One of the eight shifts of R17. -/
def crc32Shift (c : Word32) : Word32 :=
  if c.getLsbD 0 then (c >>> 1) ^^^ 0xEDB88320#32 else c >>> 1

/-- One byte taken into the CRC-32 register (R17). -/
def crc32Byte (c : Word32) (b : Byte) : Word32 := Nat.repeat crc32Shift 8 (c ^^^ b.setWidth 32)

/-- Bytes taken in order into the CRC-32 register. -/
def crc32Feed (c : Word32) (bs : List Byte) : Word32 := bs.foldl crc32Byte c

/-- The preset of the CRC-32 register (R17). -/
def crc32Preset : Word32 := 0xFFFFFFFF#32

/-- The final combination of R17. -/
def crc32Finish (c : Word32) : Word32 := c ^^^ 0xFFFFFFFF#32

/-- The CRC-32 of R17. -/
def crc32 (bs : List Byte) : Word32 := crc32Finish (crc32Feed crc32Preset bs)

/-- One of the eight shifts of R116. -/
def crc16Shift (c : Half) : Half :=
  if c.getLsbD 15 then (c <<< 1) ^^^ 0x1021#16 else c <<< 1

/-- One byte taken into the CRC-16 register (R116). -/
def crc16Byte (c : Half) (b : Byte) : Half := Nat.repeat crc16Shift 8 (c ^^^ (b.setWidth 16 <<< 8))

/-- Bytes taken in order into the CRC-16 register. -/
def crc16Feed (c : Half) (bs : List Byte) : Half := bs.foldl crc16Byte c

/-- The preset of the CRC-16 register (R116). -/
def crc16Preset : Half := 0xFFFF#16

/-- The CRC-16 of R116; there is no final combination. -/
def crc16 (bs : List Byte) : Half := crc16Feed crc16Preset bs

end Sys2Proof.Machine
end

