-- ==== Sys2Proof/Syntax.lean ====
section
/-!
DEFINITION. The commands of the GVL-816: one constructor for each row of spec/opcode_table.json, with the operands
the rules give it. Gateway commands carry the tag of their message and their body fields as R193 sizes them, so that a
field outside its range can still be written down and refused by the rule that refuses it.
-/

namespace Sys2Proof

/-- The two image banks. -/
inductive BankId where
  | bankA
  | bankB
deriving DecidableEq, Repr, Inhabited

/-- The regions of a bank in the Image Store; the shelf directory is part of RANGES (R180). -/
inductive Region where
  | header
  | tariff
  | ranges
deriving DecidableEq, Repr, Inhabited

/-- A word of the Image Store: an area, a region within a bank, and a word offset (R180). -/
inductive WordLoc where
  | bank (bank : BankId) (region : Region) (offset : Nat)
  | buffer (offset : Nat)
deriving DecidableEq, Repr, Inhabited

/-- What is wrong with a word: one bit in error, one bit stuck in the memory (R181), two bits in error (R182), or two of
which one is stuck (log 10). -/
inductive UpsetKind where
  | single
  | stuck
  | double
  | stuckDouble
deriving DecidableEq, Repr, Inhabited

/-- A word that holds a memory error. -/
structure Upset where
  loc : WordLoc
  kind : UpsetKind
deriving DecidableEq, Repr, Inhabited

/-- The commands and events of the part. The rule named with each is the one its row of the table names. -/
inductive Instr where
  /-- POWER_ON (R198). -/
  | powerOn
  /-- RESET_N_LOW (R198). -/
  | resetNLow
  /-- RESET_END (R198). -/
  | resetEnd
  /-- DEVICE_RESET, a message with an empty body (R198). -/
  | deviceReset (tag : Half)
  /-- WRITE_MESSAGE (R193): the MOSI bytes received whole after the kind byte (DESIGN CHOICE, log 41: a byte that the rise of
  SS_N cuts short is dropped), and whether RDY was low when the kind byte arrived. -/
  | writeMessage (kindWhileLow : Bool) (bytes : List Byte)
  /-- READ_RESPONSE (R195): the bytes clocked out after the kind byte, and whether the response now held was placed
  only after the kind byte (the response sent is fixed at the kind byte). -/
  | readResponse (placedAfterKind : Bool) (clocked : Nat)
  /-- IGNORED_TRANSACTION (R192): the bytes that were sent, the kind byte first; none when it ended before its kind byte was
  complete. -/
  | ignoredTransaction (bytes : List Byte)
  /-- OPEN_BUILD (R5). -/
  | openBuild (tag : Half) (option : Byte)
  /-- CLOSE_BUILD (R10). -/
  | closeBuild (tag : Half) (mode : Byte) (day minute : Half)
  /-- WITHDRAW (R19). -/
  | withdraw (tag : Half)
  /-- DISCARD_BUILD (R20). -/
  | discardBuild (tag : Half)
  /-- BANK_READ (R24). -/
  | bankRead (tag : Half) (bank selector : Byte) (firstShelf : Half)
  /-- RANGE_READ (R47). -/
  | rangeRead (tag : Half) (bank : Byte) (shelf index : Half)
  /-- TARIFF_READ (R67): the three bytes after the item are its arguments in the order R67 lists them. -/
  | tariffRead (tag : Half) (bank item arg1 arg2 arg3 : Byte)
  /-- SEGMENT (R71). -/
  | segment (tag packageId index count : Half) (payload : List Byte)
  /-- CAROUSEL_CONFIG (R87). -/
  | carouselConfig (tag : Half) (interleave refresh leadIn frameGap : Byte) (cycleGap : Half)
  /-- CAROUSEL_START (R89). -/
  | carouselStart (tag : Half)
  /-- CAROUSEL_STOP (R90). -/
  | carouselStop (tag : Half)
  /-- LINK_CONFIG (R113). -/
  | linkConfig (tag : Half) (link divider : Byte) (threshold : Half)
  /-- LINK_ENABLE (R114). -/
  | linkEnable (tag : Half) (link : Byte)
  /-- LINK_DISABLE (R115). -/
  | linkDisable (tag : Half) (link : Byte)
  /-- LINK_TEST (R129). -/
  | linkTest (tag : Half) (link mode count : Byte)
  /-- LINK_READ (R132). -/
  | linkRead (tag : Half) (link : Byte)
  /-- VALIDATOR_CONFIG (R145). -/
  | validatorConfig (tag silenceLimit : Half) (mismatchLimit : Byte)
  /-- VALIDATOR_READ (R151). -/
  | validatorRead (tag : Half) (link : Byte)
  /-- VALIDATOR_EXCLUDE (R144). -/
  | validatorExclude (tag : Half) (link : Byte)
  /-- VALIDATOR_INCLUDE (R144). -/
  | validatorInclude (tag : Half) (link : Byte)
  /-- TIME_SET (R153). -/
  | timeSet (tag day minute : Half)
  /-- CUTOVER_CONFIG (R155). -/
  | cutoverConfig (tag : Half) (waitLimit : Byte) (grace : Half)
  /-- CUTOVER_NOW (R163). -/
  | cutoverNow (tag : Half) (option : Byte)
  /-- QUERY (R169): the kind, the query's own tag and the argument bytes (R201). -/
  | query (tag : Half) (kind : Byte) (queryTag : Half) (args : List Byte)
  /-- EVENTS_READ (R190). -/
  | eventsRead (tag : Half)
  /-- EVENTS_CLEAR (R191). -/
  | eventsClear (tag : Half) (flags : FlagSet)
  /-- EVENT_MASK (R189). -/
  | eventMask (tag : Half) (masks : FlagSet)
  /-- SCRUB_CONFIG (R184). -/
  | scrubConfig (tag : Half) (period : Byte)
  /-- IDENTIFY (R197). -/
  | identify (tag : Half)
  /-- STATUS (R197). -/
  | status (tag : Half)
  /-- COPY_COMPLETE (R8). -/
  | copyComplete
  /-- DRAIN_COMPLETE (R7). -/
  | drainComplete
  /-- CLOSE_RUN_COMPLETE (R14). -/
  | closeRunComplete
  /-- CHECK_PHASE_END (R76). -/
  | checkPhaseEnd
  /-- APPLY_PHASE_END (R78). -/
  | applyPhaseEnd
  /-- CYCLE_START (R99). -/
  | cycleStart (link : LinkId)
  /-- REFILL_SERVICE (R106, R107), with what has passed on the lines since the service before, link by link: how many bytes
  the transmitter has taken of the carousel frame it sends (log 21), and the bytes of the frame being received that have
  arrived (R121, log 23). A missing entry counts as none. -/
  | refillService (passed : List (Nat × List Byte))
  /-- TRANSMIT_BOUNDARY (R117). -/
  | transmitBoundary (link : LinkId)
  /-- FRAME_TRANSMITTED (R120). -/
  | frameTransmitted (link : LinkId)
  /-- UNDERRUN (R119). -/
  | underrun (link : LinkId)
  /-- FRAME_RECEIVED (R122): the complete bytes of the envelope that have arrived since the service before, the bits
  beyond them, whether a byte of them was dropped at a full FIFO (R121), and whether the envelope was already asserted at
  the enable (R114). -/
  | frameReceived (link : LinkId) (bytes : List Byte) (extraBits : Nat) (dropped begunBeforeEnable : Bool)
  /-- REPORT (R135): the table takes the report at the head of the link's receive FIFO. -/
  | report (link : LinkId)
  /-- VALIDATOR_SILENT (R142). -/
  | validatorSilent (link : LinkId)
  /-- MINUTE_EVENT (R152). -/
  | minuteEvent
  /-- WAIT_EXPIRED (R158). -/
  | waitExpired
  /-- INHIBIT_ASSERTION (R161). -/
  | inhibitAssertion
  /-- INHIBIT_DEASSERTION (R162). -/
  | inhibitDeassertion
  /-- GRACE_RUN_OUT (R162). -/
  | graceRunOut
  /-- LOOKUP_COMPLETE (R172). -/
  | lookupComplete
  /-- SCRUB_PERIOD (R184). -/
  | scrubPeriod
  /-- SCRUB_READ (R186): the memory errors that have struck the Image Store since the read before. -/
  | scrubRead (strikes : List Upset)
  /-- TEST_FRAME_RETURNED (R130): the complete bytes of the returning envelope and the bits beyond them. -/
  | testFrameReturned (link : LinkId) (bytes : List Byte) (extraBits : Nat)
  /-- TEST_NO_ECHO (R131). -/
  | testNoEcho (link : LinkId)
  /-- TEST_FRAME_START (R130). -/
  | testFrameStart (link : LinkId)
  /-- COPY_FAILURE (R8): the word of the source that the copy could not read. -/
  | copyFailure (region : Region) (offset : Nat)
  /-- CLOSING_RUN_FAILURE (R15): the word the run could not read, and how often it had read that word before. -/
  | closingRunFailure (region : Region) (offset again : Nat)
deriving DecidableEq, Repr

end Sys2Proof
end

