-- ==== Sys2Proof/Decode.lean ====
section
/-!
DEFINITION. The gateway's messages and the commands they spell (R193), the encoder, and `decodeTableWord`. The opcode
table gives no row any bits, so no table word spells a command.
-/

namespace Sys2Proof

open Sys2Proof.Machine

/-- The command a word of the table's bits spells: the table gives none of its rows bits. -/
def decodeTableWord (_nbits _w : Nat) : Option Instr := none

/-- What the envelope checks of R193 make of a message. -/
inductive Judged where
  | badCrc
  | badType
  | badArg
  | good (i : Instr)
deriving DecidableEq, Repr

/-- Checks 3 and 4 of R193: the type is one of the table's and the body length is one it allows for that type. -/
def decodeBody (type : Byte) (tag : Half) (body : List Byte) : Judged :=
  match type.toNat with
  | 0x10 => match body with
    | [o] => .good (.openBuild tag o)
    | _ => .badArg
  | 0x11 => match body with
    | [m, d1, d0, m1, m0] => .good (.closeBuild tag m (half d1 d0) (half m1 m0))
    | _ => .badArg
  | 0x12 => match body with
    | [] => .good (.withdraw tag)
    | _ => .badArg
  | 0x13 => match body with
    | [] => .good (.discardBuild tag)
    | _ => .badArg
  | 0x14 => match body with
    | [b, s, f1, f0] => .good (.bankRead tag b s (half f1 f0))
    | _ => .badArg
  | 0x18 => match body with
    | [b, s1, s0, i1, i0] => .good (.rangeRead tag b (half s1 s0) (half i1 i0))
    | _ => .badArg
  | 0x19 => match body with
    | [b, i, a1, a2, a3] => .good (.tariffRead tag b i a1 a2 a3)
    | _ => .badArg
  | 0x1C => match body with
    | p1 :: p0 :: i1 :: i0 :: c1 :: c0 :: x :: payload =>
      if payload.length ≤ 239 then .good (.segment tag (half p1 p0) (half i1 i0) (half c1 c0) (x :: payload)) else .badArg
    | _ => .badArg
  | 0x20 => match body with
    | [il, rf, li, fg, c1, c0] => .good (.carouselConfig tag il rf li fg (half c1 c0))
    | _ => .badArg
  | 0x21 => match body with
    | [] => .good (.carouselStart tag)
    | _ => .badArg
  | 0x22 => match body with
    | [] => .good (.carouselStop tag)
    | _ => .badArg
  | 0x28 => match body with
    | [k, d, t1, t0] => .good (.linkConfig tag k d (half t1 t0))
    | _ => .badArg
  | 0x29 => match body with
    | [k] => .good (.linkEnable tag k)
    | _ => .badArg
  | 0x2A => match body with
    | [k] => .good (.linkDisable tag k)
    | _ => .badArg
  | 0x2B => match body with
    | [k, m, c] => .good (.linkTest tag k m c)
    | _ => .badArg
  | 0x2C => match body with
    | [k] => .good (.linkRead tag k)
    | _ => .badArg
  | 0x30 => match body with
    | [s1, s0, m] => .good (.validatorConfig tag (half s1 s0) m)
    | _ => .badArg
  | 0x31 => match body with
    | [k] => .good (.validatorRead tag k)
    | _ => .badArg
  | 0x32 => match body with
    | [k] => .good (.validatorExclude tag k)
    | _ => .badArg
  | 0x33 => match body with
    | [k] => .good (.validatorInclude tag k)
    | _ => .badArg
  | 0x38 => match body with
    | [d1, d0, m1, m0] => .good (.timeSet tag (half d1 d0) (half m1 m0))
    | _ => .badArg
  | 0x39 => match body with
    | [w, g1, g0] => .good (.cutoverConfig tag w (half g1 g0))
    | _ => .badArg
  | 0x3A => match body with
    | [o] => .good (.cutoverNow tag o)
    | _ => .badArg
  | 0x40 => match body with
    | k :: t1 :: t0 :: args =>
      if args.length = 2 ∨ args.length = 3 ∨ args.length = 7 then .good (.query tag k (half t1 t0) args) else .badArg
    | _ => .badArg
  | 0x48 => match body with
    | [] => .good (.eventsRead tag)
    | _ => .badArg
  | 0x49 => match body with
    | [a, b, c] => .good (.eventsClear tag (word24 a b c))
    | _ => .badArg
  | 0x4A => match body with
    | [a, b, c] => .good (.eventMask tag (word24 a b c))
    | _ => .badArg
  | 0x4B => match body with
    | [p] => .good (.scrubConfig tag p)
    | _ => .badArg
  | 0x50 => match body with
    | [] => .good (.identify tag)
    | _ => .badArg
  | 0x51 => match body with
    | [] => .good (.status tag)
    | _ => .badArg
  | 0x52 => match body with
    | [] => .good (.deviceReset tag)
    | _ => .badArg
  | _ => .badType

/-- The tag of a message as received; each tag byte missing counts as 00h (R193). -/
def messageTag (bytes : List Byte) : Half := half (bytes[1]?.getD 0#8) (bytes[2]?.getD 0#8)

/-- The four checks of R193 on the bytes of a message, every byte received included. -/
def judgeMessage (bytes : List Byte) : Judged :=
  match bytes with
  | type :: t1 :: t0 :: len :: rest =>
    if bytes.length < 6 ∨ 250 < len.toNat ∨ bytes.length ≠ 6 + len.toNat then .badCrc
    else if be16 (crc16 (type :: t1 :: t0 :: len :: rest.take len.toNat)) ≠ rest.drop len.toNat then .badCrc
    else decodeBody type (half t1 t0) (rest.take len.toNat)
  | _ => .badCrc

/-- The type, tag and body of the message that carries a gateway command (R193); `none` for an event of the part. -/
def messageOf : Instr → Option (Byte × Half × List Byte)
  | .powerOn => none
  | .resetNLow => none
  | .resetEnd => none
  | .deviceReset t => some (0x52#8, t, [])
  | .writeMessage _ _ => none
  | .readResponse _ _ => none
  | .ignoredTransaction _ => none
  | .openBuild t o => some (0x10#8, t, [o])
  | .closeBuild t m d n => some (0x11#8, t, m :: (be16 d ++ be16 n))
  | .withdraw t => some (0x12#8, t, [])
  | .discardBuild t => some (0x13#8, t, [])
  | .bankRead t b s f => some (0x14#8, t, b :: s :: be16 f)
  | .rangeRead t b s i => some (0x18#8, t, b :: (be16 s ++ be16 i))
  | .tariffRead t b i x y z => some (0x19#8, t, [b, i, x, y, z])
  | .segment t p i c payload => some (0x1C#8, t, be16 p ++ be16 i ++ be16 c ++ payload)
  | .carouselConfig t il rf li fg cg => some (0x20#8, t, il :: rf :: li :: fg :: be16 cg)
  | .carouselStart t => some (0x21#8, t, [])
  | .carouselStop t => some (0x22#8, t, [])
  | .linkConfig t k d th => some (0x28#8, t, k :: d :: be16 th)
  | .linkEnable t k => some (0x29#8, t, [k])
  | .linkDisable t k => some (0x2A#8, t, [k])
  | .linkTest t k m c => some (0x2B#8, t, [k, m, c])
  | .linkRead t k => some (0x2C#8, t, [k])
  | .validatorConfig t s m => some (0x30#8, t, be16 s ++ [m])
  | .validatorRead t k => some (0x31#8, t, [k])
  | .validatorExclude t k => some (0x32#8, t, [k])
  | .validatorInclude t k => some (0x33#8, t, [k])
  | .timeSet t d m => some (0x38#8, t, be16 d ++ be16 m)
  | .cutoverConfig t w g => some (0x39#8, t, w :: be16 g)
  | .cutoverNow t o => some (0x3A#8, t, [o])
  | .query t k q args => some (0x40#8, t, k :: (be16 q ++ args))
  | .eventsRead t => some (0x48#8, t, [])
  | .eventsClear t f => some (0x49#8, t, be24 f)
  | .eventMask t m => some (0x4A#8, t, be24 m)
  | .scrubConfig t p => some (0x4B#8, t, [p])
  | .identify t => some (0x50#8, t, [])
  | .status t => some (0x51#8, t, [])
  | .copyComplete => none
  | .drainComplete => none
  | .closeRunComplete => none
  | .checkPhaseEnd => none
  | .applyPhaseEnd => none
  | .cycleStart _ => none
  | .refillService _ => none
  | .transmitBoundary _ => none
  | .frameTransmitted _ => none
  | .underrun _ => none
  | .frameReceived _ _ _ _ _ => none
  | .report _ => none
  | .validatorSilent _ => none
  | .minuteEvent => none
  | .waitExpired => none
  | .inhibitAssertion => none
  | .inhibitDeassertion => none
  | .graceRunOut => none
  | .lookupComplete => none
  | .scrubPeriod => none
  | .scrubRead _ => none
  | .testFrameReturned _ _ _ => none
  | .testNoEcho _ => none
  | .testFrameStart _ => none
  | .copyFailure _ _ => none
  | .closingRunFailure _ _ _ => none

/-- A message with its envelope (R193). -/
def sealMessage (type : Byte) (tag : Half) (body : List Byte) : List Byte :=
  let covered := type :: (be16 tag ++ n8 body.length :: body)
  covered ++ be16 (crc16 covered)

/-- The bytes of the message that carries a gateway command; none for an event of the part. -/
def encodeMessage (i : Instr) : List Byte :=
  match messageOf i with
  | some (type, tag, body) => sealMessage type tag body
  | none => []

end Sys2Proof
end

