-- ==== Sys2Proof/Config.lean ====
section
/-!
DEFINITION. What the GVL-816 fixes (the parameters of 00_scope.md and R197), and the free values: constants with no
body, for what the spec leaves open. No proof can learn anything of a free value.
-/

namespace Sys2Proof

/-- A thing held in a bank's regions of the Image Store: the dimensions (HEADER), a class record, base fare, expanded
price or product record at its position (TARIFF), the range count, a directory entry or a range record (RANGES). -/
inductive Item where
  | dims
  | classRec (pos : Nat)
  | base (pos : Nat)
  | price (pos : Nat)
  | product (pos : Nat)
  | rangeCount
  | dirEntry (shelf : Nat)
  | record (pos : Nat)
deriving DecidableEq, Repr, Inhabited

/-- How far a closing run has come when it fails (R11, R15): so many ranges pruned; so many prices expanded; so many
shelf CRCs written; every CRC written; the comparison made; the sequence number drawn. -/
inductive ClosePoint where
  | prune (removed : Nat)
  | expand (prices : Nat)
  | checksum (shelves : Nat)
  | checksummed
  | compared
  | sequenced
deriving DecidableEq, Repr, Inhabited

/-- DESIGN CHOICE (free value, log 9), safe: the word offsets, within its region, of the words that hold an item. The
spec counts words from the start of a region (R180) and does not say which word holds what; `Item.dims` stands for
every word of the HEADER region (R185). -/
opaque Config.itemWords : Item → List Nat

/-- DESIGN CHOICE (free value, log 18), safe: which of an item's words the byte at a place of its frame encoding comes
from; used only for words that `Config.itemWords` gives the item. -/
opaque Config.byteWords : Item → Nat → List Nat

/-- DESIGN CHOICE (free value, log 16), safe: how far, as a word offset in a region, a copy in progress has written
when another step looks (R185). -/
opaque Config.copyReached : Nat → Region → Nat

/-- DESIGN CHOICE (free value, log 15), safe: how many of its acts a closing run has made when another reader's error fails
it (R15). -/
opaque Config.closeSteps : Nat → Nat

/-- DESIGN CHOICE (free value, log 15), safe: how many of the expired ranges that it has read a closing run has pruned, or
how many of the shelf CRCs that it can compute it has written, when it fails in that step (R15). -/
opaque Config.closeCount : Nat → Nat

/-- DESIGN CHOICE (free value, log 15), safe: whether a closing run that has written every CRC has made its comparison and
drawn its number when another reader's error fails it (R15). -/
opaque Config.closeReached : Nat → ClosePoint

/-- DESIGN CHOICE (free value, log 18), safe: a byte a carousel frame carries in place of an unreadable word (R105). -/
opaque Config.unreadableByte : Nat → Byte

/-- DESIGN CHOICE (free value, log 19), safe: the count a package result holds when the true count is above 65535 (R80). -/
opaque Config.wideCount : Nat → Half

/-- DESIGN CHOICE (free value, log 2), safe: the rank by which events that come due in the same millisecond are ordered. -/
opaque Config.dueRank : Nat → Nat

/-- Block range records per bank (00_scope.md, R28). -/
def Config.rangeCapacity : Nat := 16384

/-- Fare product records per bank (00_scope.md, R54). -/
def Config.productCapacity : Nat := 256

/-- Bytes of a link transmit FIFO (R106). -/
def Config.txFifoBytes : Nat := 1024

/-- Bytes of a link receive FIFO (R121). -/
def Config.rxFifoBytes : Nat := 256

/-- Bytes of a package at most (R70). -/
def Config.packageBytes : Nat := 65536

/-- Bytes of the receive message buffer (R193). -/
def Config.messageBytes : Nat := 256

/-- Lookup slots of a link (R124). -/
def Config.linkSlots : Nat := 4

/-- The vendor code (R197). -/
def Config.vendorCode : Half := 0x0F5C#16

/-- The part code (R197). -/
def Config.partCode : Half := 0x0816#16

/-- The revision (R197). -/
def Config.revision : Byte := 1#8

end Sys2Proof
end

