-- ==== Sys2Proof/Machine/PerLink.lean ====
section
/-!
DEFINITION. Eight like things, one for each validator link.
-/

namespace Sys2Proof.Machine

/-- One value for each of the links 0 to 7. -/
structure PerLink (α : Type) where
  l0 : α
  l1 : α
  l2 : α
  l3 : α
  l4 : α
  l5 : α
  l6 : α
  l7 : α
deriving DecidableEq, Repr

/-- The links in ascending order. -/
def allLinks : List LinkId := [0, 1, 2, 3, 4, 5, 6, 7]

/-- The value of link `k`. -/
def PerLink.get {α : Type} (p : PerLink α) (k : LinkId) : α :=
  match k with
  | 0 => p.l0
  | 1 => p.l1
  | 2 => p.l2
  | 3 => p.l3
  | 4 => p.l4
  | 5 => p.l5
  | 6 => p.l6
  | 7 => p.l7

/-- `p` with the value of link `k` replaced. -/
def PerLink.set {α : Type} (p : PerLink α) (k : LinkId) (x : α) : PerLink α :=
  match k with
  | 0 => { p with l0 := x }
  | 1 => { p with l1 := x }
  | 2 => { p with l2 := x }
  | 3 => { p with l3 := x }
  | 4 => { p with l4 := x }
  | 5 => { p with l5 := x }
  | 6 => { p with l6 := x }
  | 7 => { p with l7 := x }

/-- Every link holding `x`. -/
def PerLink.all {α : Type} (x : α) : PerLink α := ⟨x, x, x, x, x, x, x, x⟩

/-- `f` applied at every link. -/
def PerLink.map {α β : Type} (f : α → β) (p : PerLink α) : PerLink β :=
  ⟨f p.l0, f p.l1, f p.l2, f p.l3, f p.l4, f p.l5, f p.l6, f p.l7⟩

/-- The values in ascending link order. -/
def PerLink.toList {α : Type} (p : PerLink α) : List α :=
  [p.l0, p.l1, p.l2, p.l3, p.l4, p.l5, p.l6, p.l7]

end Sys2Proof.Machine
end

