-- ==== Sys2Proof/Machine/State.lean ====
section
/-!
DEFINITION. The state of the GVL-816, unit by unit, as plain data; its faults and refusals; the state after a device
reset. INVENTORY.md lists every field with the rule that names it.
-/

namespace Sys2Proof.Machine

/-! ### Why a step can stop -/

/-- No rule of the spec stops the part: its failures are result codes, events and damage marks, all of them state.
So nothing raises a fault (log 37), and the type has no constructor. -/
inductive Fault where
deriving DecidableEq, Repr

/-- Refusals. Safe: a refused command proves nothing about the part. -/
inductive Refusal where
  /-- Raised by `exec` alone, for a command that has no meaning yet (none is left). Safe. -/
  | notModelled (mnemonic : String)
deriving DecidableEq, Repr

/-! ### Result codes (R196) -/

/-- The result codes of responses and of the package result, in the order of their numbers 00h to 10h (R196). -/
inductive ResultCode where
  | ok
  | accepted
  | busy
  | badState
  | badArg
  | badCrc
  | badType
  | sequence
  | noBuild
  | incomplete
  | damaged
  | noImage
  | capacity
  | badContent
  | order
  | memory
  | notReady
deriving DecidableEq, Repr, Inhabited

/-! ### Content of a bank -/

/-- Why the cards of a range are listed, codes 0 to 4 (R25). -/
inductive Reason where
  | lost
  | stolen
  | fraud
  | damaged
  | withdrawn
deriving DecidableEq, Repr, Inhabited

/-- A range record (R25). -/
structure RangeRec where
  first : Card
  last : Card
  reason : Reason
  priority : BitVec 2
  expiry : Option Half
deriving DecidableEq, Repr, Inhabited

/-- A shelf's entry in the range region: its range count and first position (R28). -/
structure DirEntry where
  count : Nat
  first : Nat
deriving DecidableEq, Repr, Inhabited

/-- The range region of a bank (R28). -/
structure RangeRegion where
  count : Nat
  directory : List DirEntry
  records : List RangeRec
deriving DecidableEq, Repr

/-- A concession class record (R51). -/
structure ClassRec where
  factor : Half
  unit : Byte
  minCharge : Half
  cap : Half
deriving DecidableEq, Repr, Inhabited

/-- The kinds of fare product, codes 0 to 3 (R52, R65). -/
inductive ProductKind where
  | single
  | pass
  | value
  | transfer
deriving DecidableEq, Repr, Inhabited

/-- A fare product record (R52); an empty zone list is the zone set ALL. -/
structure Product where
  code : Half
  kind : ProductKind
  cls : Byte
  validFrom : Half
  validTo : Option Half
  zones : List Byte
  duration : Option Half
  window : Option Half
  fixedPrice : Option Half
deriving DecidableEq, Repr, Inhabited

/-- The HEADER and TARIFF regions of a bank (R49). -/
structure Tariff where
  zones : Nat
  classCount : Nat
  productCount : Nat
  classes : List ClassRec
  base : List Half
  prices : List Half
  products : List Product
deriving DecidableEq, Repr

/-! ### Bank records (R1) -/

/-- Life-cycle states, codes 0 to 7 in this order (R1, R3). -/
inductive BankState where
  | empty
  | draining
  | copying
  | building
  | closing
  | pending
  | inForce
  | stale
deriving DecidableEq, Repr, Inhabited

/-- Progress of the blocklist (R30). -/
inductive BlockStatus where
  | none
  | inProgress (nextPart partCount : Half) (version : Word32)
  | complete
deriving DecidableEq, Repr, Inhabited

/-- When an image may take effect (R1); an absent activation is `none` of the option. -/
inductive Activation where
  | onReady
  | atTime (day minute : Half)
deriving DecidableEq, Repr, Inhabited

/-- The option of OPEN_BUILD (R5). -/
inductive BuildOption where
  | fromInForce
  | empty
deriving DecidableEq, Repr, Inhabited

/-- The damage marks of a bank, each with the first word offset (R22). -/
structure Marks where
  header : Option Nat
  tariff : Option Nat
  ranges : Option Nat
deriving DecidableEq, Repr, Inhabited

/-- A bank record (R1). -/
structure BankRecord where
  state : BankState
  seq : Half
  tariffPresent : Bool
  tariffVersion : Word32
  expansionDue : Bool
  blockStatus : BlockStatus
  blockVersion : Word32
  activation : Option Activation
  tariffCrc : Word32
  imageCrc : Word32
  shelfCrcs : List Word32
  comparedSeq : Half
  tariffChanged : Bool
  shelfChanged : List Bool
  openOption : Option BuildOption
  readers : Nat
  marks : Marks
  evictions : Nat
  pruned : Nat
  capped : Nat
deriving DecidableEq, Repr

/-- A bank: its record in Bank Control and its regions in the Image Store. -/
structure Bank where
  record : BankRecord
  tariff : Tariff
  ranges : RangeRegion
deriving DecidableEq, Repr

/-- The two banks. -/
structure Banks where
  a : Bank
  b : Bank
deriving DecidableEq, Repr

/-- Outcome of the last CLOSE (R16). -/
inductive CloseOutcome where
  | none
  | done
  | failed
deriving DecidableEq, Repr, Inhabited

/-- The last CLOSE result (R16). The reason is MEMORY exactly when the outcome is FAILED. -/
structure CloseResult where
  outcome : CloseOutcome
  bank : BankId
  pruned : Nat
  capped : Nat
  seq : Half
  imageCrc : Word32
deriving DecidableEq, Repr

/-! ### Package Loader (R69, R80) -/

/-- Package kinds, codes 01h to 03h (R200). -/
inductive PackageKind where
  | tariff
  | blockBase
  | blockDelta
deriving DecidableEq, Repr, Inhabited

/-- The receiving record (R69). -/
structure Receiving where
  packageId : Half
  kind : PackageKind
  count : Half
  expected : Half
  bytes : Nat
  total : Nat
  packageCrc : Word32
  running : Word32
deriving DecidableEq, Repr

/-- The two phases of APPLYING (R76, R78). -/
inductive LoadPhase where
  | check
  | apply
deriving DecidableEq, Repr, Inhabited

/-- Loader states with what each keeps (R69). -/
inductive LoaderState where
  | idle
  | receiving (r : Receiving)
  | applying (packageId : Half) (kind : PackageKind) (total : Nat) (phase : LoadPhase)
deriving DecidableEq, Repr

/-- Outcome of the last package (R80). -/
inductive PackageOutcome where
  | none
  | done
  | refused
deriving DecidableEq, Repr, Inhabited

/-- The package result (R80). -/
structure PackageResult where
  outcome : PackageOutcome
  packageId : Half
  kind : Option PackageKind
  code : ResultCode
  index : Option Half
  records : Half
  evictions : Half
  splits : Half
deriving DecidableEq, Repr

/-- The Package Loader and the package buffer. -/
structure Loader where
  state : LoaderState
  result : PackageResult
  buffer : List Byte
deriving DecidableEq, Repr

/-! ### Carousel (R86 to R98) -/

/-- Carousel states (R86). -/
inductive CarouselState where
  | stopped
  | running
  | stopping
deriving DecidableEq, Repr, Inhabited

/-- The five carousel settings (R87). -/
structure Settings where
  interleave : Nat
  refresh : Nat
  leadIn : Nat
  frameGap : Nat
  cycleGap : Nat
deriving DecidableEq, Repr

/-- The Carousel Engine's device-wide state (R86, R87, R107). -/
structure Carousel where
  state : CarouselState
  settings : Settings
  pointer : LinkId
deriving DecidableEq, Repr

/-- Carousel phases of a link (R91). -/
inductive Phase where
  | off
  | gap
  | inCycle
deriving DecidableEq, Repr, Inhabited

/-- Compositions of a cycle, codes 0 to 2 (R92, R199). -/
inductive Composition where
  | full
  | changed
  | hold
deriving DecidableEq, Repr, Inhabited

/-- Carousel frame kinds (R199). -/
inductive FrameKind where
  | cycleHead
  | directory
  | classes
  | matrix
  | products
  | shelf
  | cycleEnd
deriving DecidableEq, Repr, Inhabited

/-- A frame of a cycle before its CYCLE_END (R92). -/
inductive FrameSpec where
  | head
  | directory (half : Nat)
  | classes
  | matrix (part : Nat)
  | products (part : Nat)
  | shelf (shelf part : Nat)
deriving DecidableEq, Repr, Inhabited

/-- What is left to write of a frame: bytes outside its CRC-16 (lead-in, CRC), bytes under it, an item still to be
read from the content bank, or the place of the CRC-16 itself. -/
inductive Piece where
  | plain (bytes : List Byte)
  | covered (bytes : List Byte)
  | item (item : Item)
  | crc
deriving DecidableEq, Repr

/-- The frame being written (R107): its kind, what is left of it, the running CRC-16, the bytes written, whether a word
of it was unreadable (R105), and whether it is already counted as aborted (R105, R109). -/
structure Wip where
  kind : FrameKind
  pieces : List Piece
  crc : Half
  written : Nat
  unreadable : Bool
  aborted : Bool
deriving DecidableEq, Repr

/-- The cycle context (R98). `head` is the CYCLE_HEAD body fixed at the start (R101), `todo` the frames before the
CYCLE_END not yet begun, `wip` the frame being written, `ending` the composed CYCLE_END body not yet begun (R97). -/
structure Context where
  number : Half
  content : Option BankId
  contentSeq : Half
  composition : Composition
  inForceSeq : Half
  pendingSeq : Half
  activation : Option Activation
  tariffIncluded : Bool
  shelvesIncluded : Nat
  following : Nat
  frameIndex : Nat
  sent : Nat
  aborted : Nat
  cut : Bool
  head : List Byte
  todo : List FrameSpec
  wip : Option Wip
  ending : Option (List Byte)
deriving DecidableEq, Repr

/-! ### Lookups (R124, R167 to R177) -/

/-- Query kinds, codes 41h to 43h (R199). -/
inductive QueryKind where
  | cardCheck
  | fareQuote
  | productInfo
deriving DecidableEq, Repr, Inhabited

/-- The arguments of a query (R201). -/
inductive QueryArgs where
  | cardCheck (card : Card)
  | fareQuote (cls origin dest : Byte)
  | productInfo (code : Half)
deriving DecidableEq, Repr

/-- An accepted query (R167). -/
structure Query where
  tag : Half
  args : QueryArgs
deriving DecidableEq, Repr

/-- Why a verdict is UNKNOWN, codes 1 and 2 (R201). -/
inductive UnknownCause where
  | noImage
  | damaged
deriving DecidableEq, Repr, Inhabited

/-- Verdicts with their further fields (R177). -/
inductive Verdict where
  | blocked (record : RangeRec)
  | clear (lapsed : Option Half)
  | price (price : Half)
  | product (validToday : Bool) (product : Product)
  | notFound
  | badQuery
  | unknown (cause : UnknownCause)
deriving DecidableEq, Repr

/-- An answer (R177). -/
structure Answer where
  tag : Half
  kind : QueryKind
  verdict : Verdict
  seq : Half
  day : Option Half
deriving DecidableEq, Repr

/-- The nine requesters (R167). -/
inductive Requester where
  | link (k : LinkId)
  | gateway
deriving DecidableEq, Repr

/-- The lookup in service (R171). -/
structure Service where
  requester : Requester
  query : Query
  bank : Option BankId
  day : Option Half
  discard : Bool
deriving DecidableEq, Repr

/-- The gateway slot (R167, R169). -/
inductive GatewaySlot where
  | free
  | waiting (q : Query)
  | inService
  | answered
deriving DecidableEq, Repr

/-- The Lookup Engine (R167). -/
structure Lookups where
  queues : PerLink (List Query)
  slot : GatewaySlot
  pointer : Requester
  service : Option Service
deriving DecidableEq, Repr

/-! ### Links (R112 to R132) -/

/-- Link states (R112). -/
inductive LinkState where
  | disabled
  | enabled
  | testing
deriving DecidableEq, Repr, Inhabited

/-- The bytes of one carousel frame in the transmit FIFO; `whole` when its last byte has been written. -/
structure FifoFrame where
  kind : FrameKind
  bytes : List Byte
  whole : Bool
deriving DecidableEq, Repr

/-- What the transmitter does (R117): waits out a frame gap, idles at a transmit boundary, or sends a BUSY notice, an
answer, a carousel frame (whose bytes come from the FIFO) or, in an EXTERNAL test run, a test frame (R130). -/
inductive TxLine where
  | gap
  | idle
  | notice (frame : List Byte)
  | answer (frame : List Byte)
  | carousel (kind : FrameKind)
  | test (frame : List Byte)
deriving DecidableEq, Repr

/-- Upstream frame kinds, codes 40h to 43h (R199). -/
inductive UpKind where
  | report
  | query (kind : QueryKind)
deriving DecidableEq, Repr

/-- A good frame waiting in the receive FIFO (R123). -/
structure RxFrame where
  kind : UpKind
  body : List Byte
deriving DecidableEq, Repr

/-- The counters of a link (R120, R122, R124, R132). -/
structure Counters where
  framesSent : Nat
  answersSent : Nat
  noticesSent : Nat
  framesAborted : Nat
  framesGood : Nat
  discFraming : Nat
  discLength : Nat
  discCrc : Nat
  discKind : Nat
  busyOverflows : Nat
deriving DecidableEq, Repr

/-- Loopback modes (R129). -/
inductive TestMode where
  | internal
  | external
deriving DecidableEq, Repr, Inhabited

/-- Results of a loopback run (R131); NONE after a device reset (R112). -/
inductive TestResult where
  | none
  | pass
  | fail
  | noEcho
deriving DecidableEq, Repr, Inhabited

/-- The last test result with its indexes (R131). -/
structure LastTest where
  result : TestResult
  frame : Nat
  byte : Nat
deriving DecidableEq, Repr

/-- A loopback run in progress (R130). -/
structure TestRun where
  mode : TestMode
  count : Nat
  frame : Nat
  sent : Bool
  frameGap : Nat
deriving DecidableEq, Repr

/-- A link controller with its carousel state. `rxFifo` holds the good frames that wait, `rxFrame` the bytes of the
frame being received; `rxDropped` says that a byte of it found the FIFO full (R121). -/
structure Link where
  state : LinkState
  divider : Nat
  threshold : Nat
  settings : Settings
  phase : Phase
  cycleCounter : Half
  ctx : Context
  interleave : Nat
  refresh : Nat
  txFifo : List FifoFrame
  discard : Nat
  tx : TxLine
  rxFifo : List RxFrame
  rxFrame : List Byte
  rxDropped : Bool
  slots : Nat
  answers : List Answer
  notice : Option (Half × QueryKind)
  counters : Counters
  lastTest : LastTest
  run : Option TestRun
deriving DecidableEq, Repr

/-! ### Validator Table (R133) -/

/-- Presence of a validator (R133). -/
inductive Presence where
  | absent
  | active
  | silent
deriving DecidableEq, Repr, Inhabited

/-- In-force holding (R133). -/
inductive Holding where
  | unknown
  | holds
  | lacks
deriving DecidableEq, Repr, Inhabited

/-- Pending holding (R133). -/
inductive PendingHolding where
  | none
  | loading
  | ready
deriving DecidableEq, Repr, Inhabited

/-- What the last report said (R133, R135). -/
structure LastReport where
  usingSeq : Half
  usingCrc : Word32
  nextSeq : Half
  nextComplete : Bool
  nextCrc : Word32
  shelvesLacking : Nat
deriving DecidableEq, Repr

/-- An entry of the Validator Table (R133). -/
structure Entry where
  validatorId : Option Word32
  presence : Presence
  excluded : Bool
  suspect : Bool
  holding : Holding
  pending : PendingHolding
  lastReport : LastReport
  interval : Nat
  lastInterval : Nat
  mismatches : Nat
  reports : Nat
  lookups : Nat
deriving DecidableEq, Repr

/-- The Validator Table: entries, settings (R145) and the all-ready flag (R146). -/
structure Table where
  entries : PerLink Entry
  silenceLimit : Nat
  mismatchLimit : Nat
  allReady : Bool
deriving DecidableEq, Repr

/-! ### Cutover Control (R152 to R166) -/

/-- The service clock (R152). -/
structure Clock where
  valid : Bool
  day : Half
  minute : Half
  ms : Nat
deriving DecidableEq, Repr

/-- States of Cutover Control (R156). -/
inductive CutState where
  | idle
  | waiting
  | deferred
deriving DecidableEq, Repr, Inhabited

/-- Trigger causes, in the order of R166. -/
inductive Cause where
  | ready
  | wait
  | atTime
  | command
  | force
deriving DecidableEq, Repr, Inhabited

/-- How a cutover came about, in the order of R166. -/
inductive CutEnd where
  | immediate
  | release
  | grace
  | force
deriving DecidableEq, Repr, Inhabited

/-- The last cutover record (R166); outcome DONE is `done`, and an absent cause or end stands for the 0 after reset. -/
structure CutRecord where
  done : Bool
  seq : Half
  formerSeq : Half
  cause : Option Cause
  deferred : Bool
  cutEnd : Option CutEnd
  deferral : Nat
  waited : Nat
  time : Option (Half × Half)
  lacks : Nat
deriving DecidableEq, Repr

/-- Cutover Control (R155 to R166). -/
structure Cutover where
  state : CutState
  waitTimer : Nat
  graceTimer : Nat
  waitLimit : Nat
  grace : Nat
  cause : Option Cause
  inhibit : Bool
  lastSample : Bool
  pin : Bool
  last : CutRecord
deriving DecidableEq, Repr

/-! ### Events and errors (R180 to R191) -/

/-- Readers of the Image Store (R180). -/
inductive Reader where
  | carousel
  | lookup
  | copy
  | close
  | loader
  | scrub
  | gatewayRead
deriving DecidableEq, Repr, Inhabited

/-- The capture (R183): the word (whose area and region it tells), the reader, and the bank's state at the error. -/
structure Capture where
  loc : WordLoc
  reader : Reader
  bankState : Option BankState
deriving DecidableEq, Repr

/-- The links on which each of five events has happened (R188), bit k being link k. -/
structure LinkSets where
  changed : Byte
  silent : Byte
  mismatch : Byte
  fault : Byte
  testDone : Byte
deriving DecidableEq, Repr

/-- The Event and Error Unit, the scrubber apart (R181 to R189). -/
structure Events where
  flags : FlagSet
  masks : FlagSet
  sets : LinkSets
  cutoverSeq : Half
  corrected : Nat
  uncorrectable : Nat
  capture : Option Capture
deriving DecidableEq, Repr

/-- Scrubber states; WALKING holds the position from which the next word is sought (R184). -/
inductive ScrubMode where
  | off
  | resting
  | walking (bank : BankId) (region : Region) (offset : Nat)
deriving DecidableEq, Repr

/-- The scrubber (R184). -/
structure Scrub where
  period : Nat
  mode : ScrubMode
  timer : Nat
  passes : Nat
deriving DecidableEq, Repr

/-! ### Gateway Port (R192 to R196) -/

/-- A response (R195). -/
structure Response where
  tag : Half
  code : ResultCode
  body : List Byte
deriving DecidableEq, Repr

/-- The response buffer (R195). -/
inductive ResponseBuffer where
  | empty
  | held (r : Response)
  | fetched (r : Response)
deriving DecidableEq, Repr

/-- The Gateway Port. `dispatched` is the message that has passed the checks and that its owner has not taken yet;
`awaiting` the tag of the message whose answer is awaited; `miso` the bytes the part put on MISO in the last transaction
whose kind byte was complete, that byte's included (R192). -/
structure Port where
  rdy : Bool
  rx : List Byte
  dispatched : Option Instr
  awaiting : Option Half
  response : ResponseBuffer
  overruns : Nat
  miso : List Byte
deriving DecidableEq, Repr

/-! ### The whole part -/

/-- How far the copy in progress has written the target: in each region, the word offset below which it has (R8, R185;
the model's own, log 16). -/
structure Copied where
  header : Nat
  tariff : Nat
  ranges : Nat
deriving DecidableEq, Repr

/-- The state of the part, with the queue of the commands that wait. -/
structure State where
  inReset : Bool
  banks : Banks
  lastSeq : Half
  closeResult : CloseResult
  closeDay : Option Half
  copied : Copied
  upsets : List Upset
  loader : Loader
  carousel : Carousel
  links : PerLink Link
  table : Table
  clock : Clock
  cutover : Cutover
  lookups : Lookups
  events : Events
  scrub : Scrub
  port : Port
  free : Nat
  pending : List Instr
deriving DecidableEq, Repr

/-! ### Reset values -/

/-- Reset values of a bank record (R1). -/
def BankRecord.reset : BankRecord where
  state := .empty
  seq := 0#16
  tariffPresent := false
  tariffVersion := 0#32
  expansionDue := false
  blockStatus := .none
  blockVersion := 0#32
  activation := none
  tariffCrc := 0#32
  imageCrc := 0#32
  shelfCrcs := List.replicate 256 0#32
  comparedSeq := 0#16
  tariffChanged := false
  shelfChanged := List.replicate 256 false
  openOption := none
  readers := 0
  marks := ⟨none, none, none⟩
  evictions := 0
  pruned := 0
  capped := 0

/-- A range region that holds no record (R29). -/
def RangeRegion.empty : RangeRegion := ⟨0, List.replicate 256 ⟨0, 0⟩, []⟩

/-- A tariff with no content (R49). -/
def Tariff.empty : Tariff := ⟨0, 0, 0, [], [], [], []⟩

/-- A bank after reset; its regions are not read while it is EMPTY (R2, DESIGN CHOICE log 6 for their content). -/
def Bank.reset : Bank := ⟨BankRecord.reset, Tariff.empty, RangeRegion.empty⟩

/-- The last CLOSE result after a device reset (R16). -/
def CloseResult.reset : CloseResult := ⟨.none, .bankA, 0, 0, 0#16, 0#32⟩

/-- The package result after a device reset (R80). -/
def PackageResult.reset : PackageResult := ⟨.none, 0#16, none, .ok, none, 0#16, 0#16, 0#16⟩

/-- The loader after a device reset (R69). -/
def Loader.reset : Loader := ⟨.idle, PackageResult.reset, []⟩

/-- The carousel settings after a device reset (R87). -/
def Settings.reset : Settings := ⟨3, 16, 8, 4, 64⟩

/-- The carousel after a device reset (R86, R107). -/
def Carousel.reset : Carousel := ⟨.stopped, Settings.reset, 7⟩

/-- A context that holds no cycle (R98). -/
def Context.reset : Context where
  number := 0#16
  content := none
  contentSeq := 0#16
  composition := .full
  inForceSeq := 0#16
  pendingSeq := 0#16
  activation := none
  tariffIncluded := false
  shelvesIncluded := 0
  following := 0
  frameIndex := 0
  sent := 0
  aborted := 0
  cut := false
  head := []
  todo := []
  wip := none
  ending := none

/-- Zeroed counters (R132). -/
def Counters.reset : Counters := ⟨0, 0, 0, 0, 0, 0, 0, 0, 0, 0⟩

/-- A link after a device reset (R112, R113). The frame index and byte index beside the test result NONE are 0 (DESIGN CHOICE,
log 43), and the transmitter stands at the frame gap (DESIGN CHOICE, log 21). -/
def Link.reset : Link where
  state := .disabled
  divider := 3
  threshold := 256
  settings := Settings.reset
  phase := .off
  cycleCounter := 0#16
  ctx := Context.reset
  interleave := 0
  refresh := 0
  txFifo := []
  discard := 0
  tx := .gap
  rxFifo := []
  rxFrame := []
  rxDropped := false
  slots := 0
  answers := []
  notice := none
  counters := Counters.reset
  lastTest := ⟨.none, 0, 0⟩
  run := none

/-- A table entry after a device reset (R133). -/
def Entry.reset : Entry where
  validatorId := none
  presence := .absent
  excluded := false
  suspect := false
  holding := .unknown
  pending := .none
  lastReport := ⟨0#16, 0#32, 0#16, false, 0#32, 0⟩
  interval := 0
  lastInterval := 0
  mismatches := 0
  reports := 0
  lookups := 0

/-- The Validator Table after a device reset (R134, R145). -/
def Table.reset : Table := ⟨PerLink.all Entry.reset, 5000, 3, false⟩

/-- The service clock after a device reset (R152). -/
def Clock.reset : Clock := ⟨false, 0#16, 0#16, 0⟩

/-- The last cutover record after a device reset (R166). -/
def CutRecord.reset : CutRecord := ⟨false, 0#16, 0#16, none, false, none, 0, 0, none, 0⟩

/-- Cutover Control after a device reset (R155, R156, R161). -/
def Cutover.reset : Cutover := ⟨.idle, 0, 0, 30, 120, none, false, false, false, CutRecord.reset⟩

/-- The Lookup Engine after a device reset (R167). -/
def Lookups.reset : Lookups := ⟨PerLink.all [], .free, .link 0, none⟩

/-- The Event and Error Unit after a device reset (R181 to R189): every mask bit set, all else clear. -/
def Events.reset : Events := ⟨0#24, 0x07FFFF#24, ⟨0#8, 0#8, 0#8, 0#8, 0#8⟩, 0#16, 0, 0, none⟩

/-- The scrubber after a device reset (R184). -/
def Scrub.reset : Scrub := ⟨10, .resting, 0, 0⟩

/-- The Gateway Port after a device reset has ended (R198). -/
def Port.reset : Port := ⟨true, [], none, none, .empty, 0, []⟩

/-- The part right after a device reset has ended: every block at its reset values (R198). -/
def State.reset : State where
  inReset := false
  banks := ⟨Bank.reset, Bank.reset⟩
  lastSeq := 0#16
  closeResult := CloseResult.reset
  closeDay := none
  copied := ⟨0, 0, 0⟩
  upsets := []
  loader := Loader.reset
  carousel := Carousel.reset
  links := PerLink.all Link.reset
  table := Table.reset
  clock := Clock.reset
  cutover := Cutover.reset
  lookups := Lookups.reset
  events := Events.reset
  scrub := Scrub.reset
  port := Port.reset
  free := 0
  pending := []

end Sys2Proof.Machine
end

