-- ==== Sys2Proof/Machine/Flags.lean ====
section
/-!
DEFINITION. Event flags: their numbers, raising them with their link sets, ALERT (R187 to R189).
-/

namespace Sys2Proof.Machine

/-- The nineteen events (R187). -/
inductive Event where
  | packageDone
  | packageRefused
  | buildOpened
  | buildFailed
  | closeDone
  | closeFailed
  | pendingWithdrawn
  | readyAll
  | waitExpired
  | cutover
  | validatorChanged
  | validatorSilent
  | validatorMismatch
  | linkFault
  | linkTestDone
  | eviction
  | eccCorrected
  | eccUncorrectable
  | carouselStopped
deriving DecidableEq, Repr, Inhabited

/-- The number of a flag, its position in a flag set (R187). -/
def Event.number : Event → Nat
  | .packageDone => 0
  | .packageRefused => 1
  | .buildOpened => 2
  | .buildFailed => 3
  | .closeDone => 4
  | .closeFailed => 5
  | .pendingWithdrawn => 6
  | .readyAll => 7
  | .waitExpired => 8
  | .cutover => 9
  | .validatorChanged => 10
  | .validatorSilent => 11
  | .validatorMismatch => 12
  | .linkFault => 13
  | .linkTestDone => 14
  | .eviction => 15
  | .eccCorrected => 16
  | .eccUncorrectable => 17
  | .carouselStopped => 18

/-- The flag set that holds one flag. -/
def Event.bit (e : Event) : FlagSet := 1#24 <<< e.number

/-- A link's bit in a link set (R197). -/
def linkBit (k : LinkId) : Byte := 1#8 <<< k.val

/-- The flag becomes, or stays, set (R188). -/
def Events.raise (e : Event) (u : Events) : Events := { u with flags := u.flags ||| e.bit }

/-- The link joins the event's link set, where the event has one (R188). -/
def Events.joinSet (e : Event) (k : LinkId) (u : Events) : Events :=
  match e with
  | .validatorChanged => { u with sets := { u.sets with changed := u.sets.changed ||| linkBit k } }
  | .validatorSilent => { u with sets := { u.sets with silent := u.sets.silent ||| linkBit k } }
  | .validatorMismatch => { u with sets := { u.sets with mismatch := u.sets.mismatch ||| linkBit k } }
  | .linkFault => { u with sets := { u.sets with fault := u.sets.fault ||| linkBit k } }
  | .linkTestDone => { u with sets := { u.sets with testDone := u.sets.testDone ||| linkBit k } }
  | _ => u

/-- The named flags, with their link sets, cleared; the capture too when ECC_UNCORRECTABLE is named (R191). -/
def Events.clear (named : FlagSet) (u : Events) : Events :=
  let has (e : Event) : Bool := named.getLsbD e.number
  { u with
    flags := u.flags &&& ~~~named
    sets :=
      { changed := if has .validatorChanged then 0#8 else u.sets.changed
        silent := if has .validatorSilent then 0#8 else u.sets.silent
        mismatch := if has .validatorMismatch then 0#8 else u.sets.mismatch
        fault := if has .linkFault then 0#8 else u.sets.fault
        testDone := if has .linkTestDone then 0#8 else u.sets.testDone }
    capture := if has .eccUncorrectable then none else u.capture }

/-- A flag set holds no bit above number 18 (R189, R191). -/
def flagSetOk (s : FlagSet) : Bool := decide (s.toNat < 2 ^ 19)

/-- ALERT is asserted while at least one flag is set whose mask bit is also set (R189). -/
def Events.alert (u : Events) : Bool := decide (u.flags &&& u.masks ≠ 0#24)

/-- The event's flag is set. -/
def Events.has (u : Events) (e : Event) : Bool := u.flags.getLsbD e.number

/-- Raise an event of the device. -/
def State.raise (e : Event) (s : State) : State := { s with events := s.events.raise e }

/-- Raise an event of a link. -/
def State.raiseLink (e : Event) (k : LinkId) (s : State) : State :=
  { s with events := (s.events.raise e).joinSet e k }

/-- The level of ALERT. -/
def State.alert (s : State) : Bool := s.events.alert

end Sys2Proof.Machine
end

