-- ==== Sys2Proof/Machine/Operands.lean ====
section
/-!
DEFINITION. Operand forms: the codes of enumerated fields. An enumerated field is coded from 0 in the order its rule
lists the values (R193), unless chapter 11 gives codes of its own. The `…Of` functions read a code and answer `none`
for a value that is none of them; the `…Code` functions write one.
-/

namespace Sys2Proof.Machine

/-- A link number, 0 to 7. -/
def linkOf (b : Byte) : Option LinkId := if h : b.toNat < 8 then some ⟨b.toNat, h⟩ else none

/-- A bank, A or B (R193). -/
def bankOf (b : Byte) : Option BankId :=
  if b = 0#8 then some .bankA else if b = 1#8 then some .bankB else none

/-- The option of OPEN_BUILD (R193). -/
def buildOptionOf (b : Byte) : Option BuildOption :=
  if b = 0#8 then some .fromInForce else if b = 1#8 then some .empty else none

/-- The selector of BANK_READ: SHELVES is `true` (R24). -/
def selectorOf (b : Byte) : Option Bool :=
  if b = 0#8 then some false else if b = 1#8 then some true else none

/-- The option of CUTOVER_NOW: FORCE is `true` (R163). -/
def cutoverOptionOf (b : Byte) : Option Bool :=
  if b = 0#8 then some false else if b = 1#8 then some true else none

/-- The mode of LINK_TEST (R129). -/
def testModeOf (b : Byte) : Option TestMode :=
  if b = 0#8 then some .internal else if b = 1#8 then some .external else none

/-- The activation of CLOSE_BUILD (R10, check 5): an AT activation has a minute up to 1439. DESIGN CHOICE (log 40): the mode
is coded from 0 in the order in which R10 lists its values (R193), ON_READY 0 and AT 1; the codes that R199 gives the
activation mode of a CYCLE_HEAD (0 absent, 1 ON_READY, 2 AT) are taken for activations that the part sends only. -/
def activationOf (mode : Byte) (day minute : Half) : Option Activation :=
  if mode = 0#8 then some .onReady
  else if mode = 1#8 then if minute.toNat ≤ 1439 then some (.atTime day minute) else none
  else none

/-- The items of TARIFF_READ (R67). -/
inductive TariffItem where
  | dimensions
  | cls (c : Nat)
  | base (origin dest : Nat)
  | price (c origin dest : Nat)
  | product (pos : Nat)
deriving DecidableEq, Repr

/-- The item of a TARIFF_READ with its arguments in range (R67); the argument bytes an item does not use are ignored
(R193, DESIGN CHOICE log 25 for which bytes those are). -/
def tariffItemOf (item a1 a2 a3 : Byte) : Option TariffItem :=
  let zone (z : Byte) : Bool := 1 ≤ z.toNat && z.toNat ≤ 32
  if item = 0#8 then some .dimensions
  else if item = 1#8 then if a1.toNat ≤ 7 then some (.cls a1.toNat) else none
  else if item = 2#8 then if zone a1 && zone a2 then some (.base a1.toNat a2.toNat) else none
  else if item = 3#8 then
    if decide (a1.toNat ≤ 7) && zone a2 && zone a3 then some (.price a1.toNat a2.toNat a3.toNat) else none
  else if item = 4#8 then some (.product a1.toNat)
  else none

/-- Package kinds (R200). -/
def packageKindOf (b : Byte) : Option PackageKind :=
  if b = 1#8 then some .tariff else if b = 2#8 then some .blockBase else if b = 3#8 then some .blockDelta else none

/-- The reason of an attribute byte: bits 7 to 5; codes 5 to 7 are none (R25, R200). -/
def reasonOf (attr : Byte) : Option Reason :=
  match (attr >>> 5).toNat with
  | 0 => some .lost
  | 1 => some .stolen
  | 2 => some .fraud
  | 3 => some .damaged
  | 4 => some .withdrawn
  | _ => none

/-- Product kinds (R65). -/
def productKindOf (b : Byte) : Option ProductKind :=
  match b.toNat with
  | 0 => some .single
  | 1 => some .pass
  | 2 => some .value
  | 3 => some .transfer
  | _ => none

/-- The query with its tag and argument bytes, `none` for an unknown kind or a length that does not match (R193, R201). -/
def queryOf (kind : Byte) (tag : Half) (args : List Byte) : Option Query :=
  match kind.toNat, args with
  | 0x41, [a, b, c, d, e, f, g] => some ⟨tag, .cardCheck (card56 a b c d e f g)⟩
  | 0x42, [c, o, d] => some ⟨tag, .fareQuote c o d⟩
  | 0x43, [h, l] => some ⟨tag, .productInfo (half h l)⟩
  | _, _ => none

/-- Upstream kinds with the body length each must have (R199). -/
def upKindOf (kind : Byte) (bodyLength : Nat) : Option UpKind :=
  match kind.toNat, bodyLength with
  | 0x40, 19 => some .report
  | 0x41, 9 => some (.query .cardCheck)
  | 0x42, 5 => some (.query .fareQuote)
  | 0x43, 4 => some (.query .productInfo)
  | _, _ => none

/-- Codes of query kinds (R199). -/
def QueryKind.code : QueryKind → Byte
  | .cardCheck => 0x41#8
  | .fareQuote => 0x42#8
  | .productInfo => 0x43#8

/-- The kind of a query. -/
def QueryArgs.kind : QueryArgs → QueryKind
  | .cardCheck _ => .cardCheck
  | .fareQuote _ _ _ => .fareQuote
  | .productInfo _ => .productInfo

/-- Codes of carousel frame kinds (R199). -/
def FrameKind.code : FrameKind → Byte
  | .cycleHead => 0x10#8
  | .directory => 0x11#8
  | .classes => 0x12#8
  | .matrix => 0x13#8
  | .products => 0x14#8
  | .shelf => 0x15#8
  | .cycleEnd => 0x16#8

/-- Codes of results (R196). -/
def ResultCode.code : ResultCode → Byte
  | .ok => 0x00#8
  | .accepted => 0x01#8
  | .busy => 0x02#8
  | .badState => 0x03#8
  | .badArg => 0x04#8
  | .badCrc => 0x05#8
  | .badType => 0x06#8
  | .sequence => 0x07#8
  | .noBuild => 0x08#8
  | .incomplete => 0x09#8
  | .damaged => 0x0A#8
  | .noImage => 0x0B#8
  | .capacity => 0x0C#8
  | .badContent => 0x0D#8
  | .order => 0x0E#8
  | .memory => 0x0F#8
  | .notReady => 0x10#8

/-- Codes of banks. -/
def bankCode : BankId → Byte
  | .bankA => 0#8
  | .bankB => 1#8

/-- Codes of bank states (R1). -/
def BankState.code : BankState → Byte
  | .empty => 0#8
  | .draining => 1#8
  | .copying => 2#8
  | .building => 3#8
  | .closing => 4#8
  | .pending => 5#8
  | .inForce => 6#8
  | .stale => 7#8

/-- The activation as CYCLE_HEAD carries it: mode, day, minute (R199). -/
def activationBytes : Option Activation → List Byte
  | none => [0#8, 0#8, 0#8, 0#8, 0#8]
  | some .onReady => [1#8, 0#8, 0#8, 0#8, 0#8]
  | some (.atTime d m) => 2#8 :: (be16 d ++ be16 m)

/-- Codes of the open option, listed absent, FROM_IN_FORCE, EMPTY (R1). -/
def openOptionCode : Option BuildOption → Byte
  | none => 0#8
  | some .fromInForce => 1#8
  | some .empty => 2#8

/-- Codes of the outcome of CLOSE (R16). -/
def CloseOutcome.code : CloseOutcome → Byte
  | .none => 0#8
  | .done => 1#8
  | .failed => 2#8

/-- Codes of package kinds, 0 when there is none yet (R80, R200). -/
def packageKindCode : Option PackageKind → Byte
  | none => 0#8
  | some .tariff => 1#8
  | some .blockBase => 2#8
  | some .blockDelta => 3#8

/-- Codes of the package outcome (R80). -/
def PackageOutcome.code : PackageOutcome → Byte
  | .none => 0#8
  | .done => 1#8
  | .refused => 2#8

/-- Codes of reasons (R25). -/
def Reason.code : Reason → Byte
  | .lost => 0#8
  | .stolen => 1#8
  | .fraud => 2#8
  | .damaged => 3#8
  | .withdrawn => 4#8

/-- Codes of product kinds (R65). -/
def ProductKind.code : ProductKind → Byte
  | .single => 0#8
  | .pass => 1#8
  | .value => 2#8
  | .transfer => 3#8

/-- Codes of carousel states (R86). -/
def CarouselState.code : CarouselState → Byte
  | .stopped => 0#8
  | .running => 1#8
  | .stopping => 2#8

/-- Codes of carousel phases (R91). -/
def Phase.code : Phase → Byte
  | .off => 0#8
  | .gap => 1#8
  | .inCycle => 2#8

/-- Codes of compositions (R199). -/
def Composition.code : Composition → Byte
  | .full => 0#8
  | .changed => 1#8
  | .hold => 2#8

/-- Codes of link states (R112). -/
def LinkState.code : LinkState → Byte
  | .disabled => 0#8
  | .enabled => 1#8
  | .testing => 2#8

/-- Codes of presence (R133). -/
def Presence.code : Presence → Byte
  | .absent => 0#8
  | .active => 1#8
  | .silent => 2#8

/-- Codes of the in-force holding (R133). -/
def Holding.code : Holding → Byte
  | .unknown => 0#8
  | .holds => 1#8
  | .lacks => 2#8

/-- Codes of the pending holding (R133). -/
def PendingHolding.code : PendingHolding → Byte
  | .none => 0#8
  | .loading => 1#8
  | .ready => 2#8

/-- Codes of the states of Cutover Control (R156). -/
def CutState.code : CutState → Byte
  | .idle => 0#8
  | .waiting => 1#8
  | .deferred => 2#8

/-- Codes of trigger causes, 0 also when there is none (R166). -/
def causeCode : Option Cause → Byte
  | none => 0#8
  | some .ready => 0#8
  | some .wait => 1#8
  | some .atTime => 2#8
  | some .command => 3#8
  | some .force => 4#8

/-- Codes of the end of a cutover, 0 also when there is none (R166). -/
def cutEndCode : Option CutEnd → Byte
  | none => 0#8
  | some .immediate => 0#8
  | some .release => 1#8
  | some .grace => 2#8
  | some .force => 3#8

/-- Codes of regions (R180). -/
def regionCode : Region → Byte
  | .header => 0#8
  | .tariff => 1#8
  | .ranges => 2#8

/-- Codes of readers, in the order of R180. -/
def Reader.code : Reader → Byte
  | .carousel => 0#8
  | .lookup => 1#8
  | .copy => 2#8
  | .close => 3#8
  | .loader => 4#8
  | .scrub => 5#8
  | .gatewayRead => 6#8

end Sys2Proof.Machine
end

