-- ==== Sys2Proof/Machine/RangeTable.lean ====
section
/-!
DEFINITION. The block range table as a list of records: shelves, coalescing, the delta operations, eviction, pruning,
the directory, the record encoding and the shelf CRC (chapter 2, R18, R200). Nothing here touches the machine's state.
-/

namespace Sys2Proof.Machine

/-- The shelf of a card number: its top 8 bits (R26). -/
def shelfOf (c : Card) : Nat := (c >>> 48).toNat

/-- The first card number of a shelf (R26). -/
def shelfFirst (s : Nat) : Card := BitVec.ofNat 56 (s * 2 ^ 48)

/-- The last card number of a shelf (R26). -/
def shelfLast (s : Nat) : Card := BitVec.ofNat 56 (s * 2 ^ 48 + (2 ^ 48 - 1))

/-- Identical attributes: reason, priority and expiry (R25). -/
def RangeRec.sameAttrs (x y : RangeRec) : Bool :=
  decide (x.reason = y.reason) && decide (x.priority = y.priority) && decide (x.expiry = y.expiry)

/-- The higher record begins one above the end of the lower, in the same shelf (R26). -/
def RangeRec.touches (lower higher : RangeRec) : Bool :=
  decide (lower.last.toNat + 1 = higher.first.toNat) && decide (shelfOf lower.last = shelfOf higher.first)

/-- Touching records with identical attributes are coalesced (R27). -/
def RangeRec.joins (lower higher : RangeRec) : Bool := lower.touches higher && lower.sameAttrs higher

/-- The record lists the card number (R25). -/
def RangeRec.lists (r : RangeRec) (c : Card) : Bool := decide (r.first ≤ c) && decide (c ≤ r.last)

/-- The pieces of a range at the shelf boundaries, in ascending order (R26). -/
def splitRange (r : RangeRec) : List RangeRec :=
  let s := shelfOf r.first
  let t := shelfOf r.last
  (List.range (t - s + 1)).map fun i =>
    { r with
      first := if i = 0 then r.first else shelfFirst (s + i)
      last := if s + i = t then r.last else shelfLast (s + i) }

/-- The extra pieces a range makes at shelf boundaries (R43). -/
def extraPieces (r : RangeRec) : Nat := shelfOf r.last - shelfOf r.first

/-- A piece appended after the highest record, or coalesced into it (R35). -/
def appendPiece : List RangeRec → RangeRec → List RangeRec
  | [], p => [p]
  | [r], p => if r.joins p then [{ r with last := p.last }] else [r, p]
  | r :: r' :: rs, p => r :: appendPiece (r' :: rs) p

/-- A base entry appended (R35). -/
def appendEntry (rs : List RangeRec) (entry : RangeRec) : List RangeRec := (splitRange entry).foldl appendPiece rs

/-- The remnants of a record after the span `lo` to `hi` is cut out of it (R38). -/
def cutRecord (lo hi : Card) (r : RangeRec) : List RangeRec :=
  if r.last < lo ∨ hi < r.first then [r]
  else
    (if r.first < lo then [{ r with last := lo - 1#56 }] else []) ++
      (if hi < r.last then [{ r with first := hi + 1#56 }] else [])

/-- The table with the span cut out (R38). -/
def cutSpan (lo hi : Card) (rs : List RangeRec) : List RangeRec := rs.flatMap (cutRecord lo hi)

/-- The existing records the span splits in two (R43). -/
def splitByCut (lo hi : Card) (rs : List RangeRec) : Nat :=
  (rs.filter fun r => decide (r.first < lo) && decide (hi < r.last)).length

/-- A record whose successor it may join on the upper side (R39). -/
def joinAbove (p : RangeRec) : List RangeRec → List RangeRec
  | [] => [p]
  | r :: rs => if p.joins r then { p with last := r.last } :: rs else p :: r :: rs

/-- A piece placed in ascending order and coalesced with its neighbours (R39). -/
def insertPiece (p : RangeRec) : List RangeRec → List RangeRec
  | [] => [p]
  | r :: rs =>
    if r.last < p.first then
      if r.joins p then joinAbove { r with last := p.last } rs else r :: insertPiece p rs
    else joinAbove p (r :: rs)

/-- An ADD before its eviction: cutting, then insertion (R37 to R39). -/
def addRange (rs : List RangeRec) (r : RangeRec) : List RangeRec :=
  (splitRange r).foldl (fun acc p => insertPiece p acc) (cutSpan r.first r.last rs)

/-- A REMOVE before its eviction (R40). -/
def removeRange (rs : List RangeRec) (lo hi : Card) : List RangeRec := cutSpan lo hi rs

/-- Test 2 of the eviction order: `x` expires earlier than `y`, an absent expiry counting as later than every day (R41). -/
def expiresEarlier (x y : Option Half) : Bool :=
  match x, y with
  | some d, some e => decide (d < e)
  | some _, none => true
  | none, _ => false

/-- `x` comes before `y` in the eviction order (R41). -/
def evictsBefore (x y : RangeRec) : Bool :=
  if x.priority ≠ y.priority then decide (x.priority < y.priority)
  else if x.expiry ≠ y.expiry then expiresEarlier x.expiry y.expiry
  else decide (y.first < x.first)

/-- The record that comes first in the eviction order (R41). -/
def evictionChoice : List RangeRec → Option RangeRec
  | [] => none
  | r :: rs =>
    match evictionChoice rs with
    | none => some r
    | some b => if evictsBefore r b then some r else some b

/-- The record that comes first in the eviction order is removed entirely (R42). -/
def evictOne (rs : List RangeRec) : List RangeRec :=
  match evictionChoice rs with
  | none => rs
  | some r => rs.erase r

/-- Eviction while the range count exceeds the capacity (R42). -/
def evict (rs : List RangeRec) : List RangeRec := Nat.repeat evictOne (rs.length - Config.rangeCapacity) rs

/-- The expiry is present and earlier than the day (R45, R174). -/
def expired (day : Half) (r : RangeRec) : Bool :=
  match r.expiry with
  | some e => decide (e < day)
  | none => false

/-- The first `n` records that expired before `day` removed (R45; all of them when `n` is large enough). -/
def pruneFirst (day : Half) : Nat → List RangeRec → List RangeRec
  | _, [] => []
  | n, r :: rs =>
    if expired day r then
      match n with
      | 0 => r :: rs
      | n + 1 => pruneFirst day n rs
    else r :: pruneFirst day n rs

/-- The records of a shelf, in order. -/
def shelfRecords (rs : List RangeRec) (s : Nat) : List RangeRec := rs.filter fun r => shelfOf r.first = s

/-- The directory of a table: counts, and first positions as the sum of the lower shelves' counts (R28). -/
def directoryFrom (rs : List RangeRec) (pos : Nat) : List Nat → List DirEntry
  | [] => []
  | s :: ss =>
    let n := (shelfRecords rs s).length
    ⟨n, pos⟩ :: directoryFrom rs (pos + n) ss

/-- The range region that holds a table: count and directory follow the records in the same write (R28). -/
def RangeRegion.ofRecords (rs : List RangeRec) : RangeRegion := ⟨rs.length, directoryFrom rs 0 (List.range 256), rs⟩

/-- The attribute byte (R200). -/
def attrByte (r : RangeRec) : Byte :=
  (r.reason.code <<< 5) ||| (r.priority.setWidth 8 <<< 3) ||| (if r.expiry.isSome then 4#8 else 0#8)

/-- The 15-byte range record encoding (R200). -/
def encodeRecord (r : RangeRec) : List Byte :=
  be48 r.first ++ be48 r.last ++ [attrByte r] ++ be16 (r.expiry.getD 0#16)

/-- The shelf CRC of a table's shelf (R18). -/
def shelfCrc (rs : List RangeRec) (s : Nat) : Word32 := crc32 ((shelfRecords rs s).flatMap encodeRecord)

/-- A package entry of 17 bytes; `none` when its reason code is above 4 or it has another length (R70, R200). -/
def entryOf (bs : List Byte) : Option RangeRec :=
  match bs with
  | [a, b, c, d, e, f, g, a', b', c', d', e', f', g', attr, x1, x0] =>
    match reasonOf attr with
    | none => none
    | some reason =>
      some
        { first := card56 a b c d e f g
          last := card56 a' b' c' d' e' f' g'
          reason := reason
          priority := attr.extractLsb' 3 2
          expiry := if attr.getLsbD 2 then some (half x1 x0) else none }
  | _ => none

/-- An operation of a BLOCK_DELTA (R36). -/
inductive DeltaOp where
  | add (r : RangeRec)
  | remove (lo hi : Card)
deriving DecidableEq, Repr

/-- A delta operation of 18 bytes; `none` when its kind is neither ADD nor REMOVE, or an ADD's reason code is above 4.
A REMOVE's attribute byte and expiry are not examined (R36, R70). -/
def deltaOpOf (bs : List Byte) : Option DeltaOp :=
  match bs with
  | kind :: rest =>
    if kind = 0#8 then (entryOf rest).map .add
    else if kind = 1#8 then
      match rest with
      | [a, b, c, d, e, f, g, a', b', c', d', e', f', g', _, _, _] =>
        some (.remove (card56 a b c d e f g) (card56 a' b' c' d' e' f' g'))
      | _ => none
    else none
  | [] => none

/-- First and last card number of an operation. -/
def DeltaOp.span : DeltaOp → Card × Card
  | .add r => (r.first, r.last)
  | .remove lo hi => (lo, hi)

/-- The table after an operation, before its eviction (R37, R40). -/
def DeltaOp.applyTo (rs : List RangeRec) : DeltaOp → List RangeRec
  | .add r => addRange rs r
  | .remove lo hi => removeRange rs lo hi

/-- The splits an operation counts (R43). -/
def DeltaOp.splits (rs : List RangeRec) : DeltaOp → Nat
  | .add r => extraPieces r + splitByCut r.first r.last rs
  | .remove lo hi => splitByCut lo hi rs

/-- A body cut into records of `width` bytes each (R76). -/
def chunks (width : Nat) : Nat → List Byte → List (List Byte)
  | 0, _ => []
  | n + 1, bs => bs.take width :: chunks width n (bs.drop width)

end Sys2Proof.Machine
end

