-- ==== Sys2Proof/Machine/TariffContent.lean ====
section
/-!
DEFINITION. Tariff content: encodings, the parse and checks of a TARIFF package, fare expansion and the tariff CRC
(chapter 3). Nothing here touches the machine's state.
-/

namespace Sys2Proof.Machine

/-- A class record in its tariff encoding (R65). -/
def encodeClass (c : ClassRec) : List Byte := be16 c.factor ++ [c.unit] ++ be16 c.minCharge ++ be16 c.cap

/-- The presence byte of a product record (R65). -/
def presenceByte (p : Product) : Byte :=
  (if p.validTo.isSome then 1#8 else 0#8) ||| (if p.fixedPrice.isSome then 2#8 else 0#8)

/-- An optional two-byte field that is simply left out when absent (R65). -/
def maybe16 : Option Half → List Byte
  | none => []
  | some v => be16 v

/-- A product record in its tariff encoding (R65). -/
def encodeProduct (p : Product) : List Byte :=
  be16 p.code ++ [p.kind.code, p.cls, presenceByte p] ++ be16 p.validFrom ++ maybe16 p.validTo ++
    [n8 p.zones.length] ++ p.zones ++ maybe16 p.duration ++ maybe16 p.window ++ maybe16 p.fixedPrice

/-- A two-byte field read from the front of a body. -/
def take16 : List Byte → Option (Half × List Byte)
  | h :: l :: rest => some (half h l, rest)
  | _ => none

/-- A two-byte field read when its presence is given. -/
def take16If (present : Bool) (bs : List Byte) : Option (Option Half × List Byte) :=
  if present then (take16 bs).map fun p => (some p.1, p.2) else some (none, bs)

/-- One product record parsed from the front of a body; `none` when the record gives no length or the body ends inside
it (R54). -/
def parseProduct (bs : List Byte) : Option (Product × List Byte) :=
  match bs with
  | c1 :: c0 :: kind :: cls :: presence :: f1 :: f0 :: rest =>
    match productKindOf kind with
    | none => none
    | some k =>
      if 3 < presence.toNat then none
      else
        match take16If (presence.getLsbD 0) rest with
        | none => none
        | some (validTo, r1) =>
          match r1 with
          | [] => none
          | zc :: r2 =>
            if r2.length < zc.toNat then none
            else
              match take16If (decide (k = .pass)) (r2.drop zc.toNat) with
              | none => none
              | some (duration, r3) =>
                match take16If (decide (k = .transfer)) r3 with
                | none => none
                | some (window, r4) =>
                  match take16If (presence.getLsbD 1) r4 with
                  | none => none
                  | some (price, r5) =>
                    some
                      ({ code := half c1 c0
                         kind := k
                         cls := cls
                         validFrom := half f1 f0
                         validTo := validTo
                         zones := r2.take zc.toNat
                         duration := duration
                         window := window
                         fixedPrice := price }, r5)
  | _ => none

/-- Exactly `n` product records and nothing after them (R54). -/
def parseProducts : Nat → List Byte → Option (List Product)
  | 0, [] => some []
  | 0, _ :: _ => none
  | n + 1, bs =>
    match parseProduct bs with
    | none => none
    | some (p, rest) => (parseProducts n rest).map (p :: ·)

/-- `n` class records of 7 bytes (R53). -/
def parseClasses : Nat → List Byte → Option (List ClassRec × List Byte)
  | 0, bs => some ([], bs)
  | n + 1, f1 :: f0 :: u :: m1 :: m0 :: c1 :: c0 :: rest =>
    (parseClasses n rest).map fun p => (⟨half f1 f0, u, half m1 m0, half c1 c0⟩ :: p.1, p.2)
  | _ + 1, _ => none

/-- `n` fares of two bytes (R53). -/
def parseFares : Nat → List Byte → Option (List Half × List Byte)
  | 0, bs => some ([], bs)
  | n + 1, h :: l :: rest => (parseFares n rest).map fun p => (half h l :: p.1, p.2)
  | _ + 1, _ => none

/-- A TARIFF package after its common header (R53, R200). -/
structure TariffPackage where
  version : Word32
  zones : Nat
  classCount : Nat
  productCount : Nat
  classes : List ClassRec
  base : List Half
  products : List Product
deriving DecidableEq, Repr

/-- The whole-tariff checks of R54: dimensions first, then the parse of the body. -/
def parseTariff (bs : List Byte) : Option TariffPackage :=
  match bs with
  | v3 :: v2 :: v1 :: v0 :: z :: k :: p1 :: p0 :: body =>
    let zn := z.toNat
    let kn := k.toNat
    let pn := (half p1 p0).toNat
    if zn = 0 ∨ 32 < zn ∨ kn = 0 ∨ 8 < kn ∨ Config.productCapacity < pn then none
    else
      match parseClasses kn body with
      | none => none
      | some (classes, r1) =>
        match parseFares (zn * zn) r1 with
        | none => none
        | some (base, r2) =>
          match parseProducts pn r2 with
          | none => none
          | some products => some ⟨word32 v3 v2 v1 v0, zn, kn, pn, classes, base, products⟩
  | _ => none

/-- The class record checks of R55. -/
def classRecOk (c : ClassRec) : Bool :=
  decide (c.factor.toNat ≤ 32767) && [1, 2, 5, 10, 20, 25, 50, 100].contains c.unit.toNat

/-- Zones from 1 to Z, each above the one before it (R56). -/
def zonesOk (z : Nat) : Nat → List Byte → Bool
  | _, [] => true
  | low, x :: xs => decide (low < x.toNat) && decide (x.toNat ≤ z) && zonesOk z x.toNat xs

/-- A pass duration is 1 to 366 and a transfer window 1 to 480, where the kind carries one (R56). -/
def spanOk (top : Nat) : Option Half → Bool
  | none => true
  | some v => decide (1 ≤ v.toNat) && decide (v.toNat ≤ top)

/-- The content checks of R56. -/
def productOk (z k : Nat) (p : Product) : Bool :=
  decide (p.code ≠ 0#16) && decide (p.code ≠ 65535#16) && decide (p.cls.toNat < k) &&
    (match p.validTo with
      | none => true
      | some d => decide (p.validFrom ≤ d)) &&
    decide (p.zones.length ≤ 32) && zonesOk z 0 p.zones && spanOk 366 p.duration && spanOk 480 p.window &&
    (match p.kind with
      | .pass => p.fixedPrice.isSome
      | .transfer => true
      | .single => p.fixedPrice.isNone
      | .value => p.fixedPrice.isNone)

/-- The price of a base fare in a class and whether it is counted as capped (R61 to R63). -/
def expandPrice (c : ClassRec) (fare : Half) : Half × Bool :=
  if fare = 0#16 then (0#16, false)
  else
    let b := fare.toNat
    let u := c.unit.toNat
    let cap := if c.cap = 0#16 then 65535 else c.cap.toNat
    let p1 := (b * c.factor.toNat + 8192) / 16384
    let p2 := (p1 + u / 2) / u * u
    let p3 := max (max p2 c.minCharge.toNat) 1
    (BitVec.ofNat 16 (min p3 cap), decide (cap < p3))

/-- Every price with its capped flag, class by class, origin by origin, destination by destination (R60). -/
def expandAll (t : Tariff) : List (Half × Bool) := t.classes.flatMap fun c => t.base.map (expandPrice c)

/-- The number of capped prices among those computed (R63). -/
def cappedCount (ps : List (Half × Bool)) : Nat := (ps.filter (·.2)).length

/-- The bytes the tariff CRC covers (R65). -/
def tariffBytes (t : Tariff) : List Byte :=
  t.classes.flatMap encodeClass ++ t.base.flatMap be16 ++ t.prices.flatMap be16 ++ t.products.flatMap encodeProduct

/-- The tariff CRC (R65). -/
def tariffCrc (t : Tariff) : Word32 := crc32 (tariffBytes t)

/-- The image CRC: versions, tariff CRC and the 256 shelf CRCs (R18). -/
def imageCrc (tariffVersion blockVersion tariff : Word32) (shelves : List Word32) : Word32 :=
  crc32 (be32 tariffVersion ++ be32 blockVersion ++ be32 tariff ++ shelves.flatMap be32)

/-- The tariff a bank holds; with tariff present no it has no content (R49). -/
def Bank.tariffHeld (b : Bank) : Tariff := if b.record.tariffPresent then b.tariff else Tariff.empty

end Sys2Proof.Machine
end

