-- ==== Sys2Proof/Machine/Ops.lean ====
section
/-!
DEFINITION. Shared operations: the parts of the state, bank roles, readers and drains, readiness, triggers and the
cutover, cuts, withdrawal, and what a memory error does.
-/

namespace Sys2Proof.Machine

/-! ### Parts of the state -/

/-- A bank. -/
def Banks.get (p : Banks) : BankId → Bank
  | .bankA => p.a
  | .bankB => p.b

/-- A bank replaced. -/
def Banks.set (p : Banks) (b : BankId) (x : Bank) : Banks :=
  match b with
  | .bankA => { p with a := x }
  | .bankB => { p with b := x }

/-- The other bank. -/
def other : BankId → BankId
  | .bankA => .bankB
  | .bankB => .bankA

/-- A bank of the state. -/
def State.bank (s : State) (b : BankId) : Bank := s.banks.get b

/-- The record of a bank (R1). -/
def State.recOf (s : State) (b : BankId) : BankRecord := (s.bank b).record

/-- A bank replaced. -/
def State.setBank (b : BankId) (x : Bank) (s : State) : State := { s with banks := s.banks.set b x }

/-- A bank record replaced. -/
def State.setRec (b : BankId) (r : BankRecord) (s : State) : State := s.setBank b { s.bank b with record := r }

/-- A link. -/
def State.link (s : State) (k : LinkId) : Link := s.links.get k

/-- A link replaced. -/
def State.setLink (k : LinkId) (l : Link) (s : State) : State := { s with links := s.links.set k l }

/-- A table entry. -/
def State.entry (s : State) (k : LinkId) : Entry := s.table.entries.get k

/-- A table entry replaced. -/
def State.setEntry (k : LinkId) (e : Entry) (s : State) : State :=
  { s with table := { s.table with entries := s.table.entries.set k e } }

/-- The bank, A before B, whose state is `t`; by R3 at most one is IN_FORCE and at most one on the build side. -/
def State.findBank (s : State) (t : BankState) : Option BankId :=
  if (s.recOf .bankA).state = t then some .bankA else if (s.recOf .bankB).state = t then some .bankB else none

/-- The bank in force. -/
def State.inForce (s : State) : Option BankId := s.findBank .inForce

/-- The pending bank. -/
def State.pendingBank (s : State) : Option BankId := s.findBank .pending

/-- The seq of a bank, 0 when there is none. -/
def State.seqOf (s : State) : Option BankId → Half
  | some b => (s.recOf b).seq
  | none => 0#16

/-- DRAINING, COPYING, BUILDING, CLOSING and PENDING make up the build side (R3). -/
def BankState.buildSide : BankState → Bool
  | .draining => true
  | .copying => true
  | .building => true
  | .closing => true
  | .pending => true
  | .empty => false
  | .inForce => false
  | .stale => false

/-- A bank is on the build side (R3). -/
def State.buildSideTaken (s : State) : Bool := (s.recOf .bankA).state.buildSide || (s.recOf .bankB).state.buildSide

/-- The mark of a region (R22). -/
def Marks.get (m : Marks) : Region → Option Nat
  | .header => m.header
  | .tariff => m.tariff
  | .ranges => m.ranges

/-- A region's mark becomes present with the offset, or keeps its first offset (R22). -/
def Marks.mark (m : Marks) (r : Region) (offset : Nat) : Marks :=
  match r with
  | .header => { m with header := some (m.header.getD offset) }
  | .tariff => { m with tariff := some (m.tariff.getD offset) }
  | .ranges => { m with ranges := some (m.ranges.getD offset) }

/-- A damage mark in any region (R22). -/
def BankRecord.damaged (r : BankRecord) : Bool := r.marks.header.isSome || r.marks.tariff.isSome || r.marks.ranges.isSome

/-- PENDING, or IN_FORCE with no damage mark (R102). -/
def BankRecord.sendable (r : BankRecord) : Bool :=
  decide (r.state = .pending) || (decide (r.state = .inForce) && !r.damaged)

/-- The link is in a cycle (R91). -/
def Link.inCycle (l : Link) : Bool := decide (l.phase = .inCycle)

/-- Some link is in a cycle (R90). -/
def State.anyInCycle (s : State) : Bool := s.links.toList.any Link.inCycle

/-- Bytes in a transmit FIFO (R132). -/
def Link.txFill (l : Link) : Nat := (l.txFifo.map fun f => f.bytes.length).sum

/-- Bytes in a receive FIFO: the good frames waiting, each with its 5 bytes of envelope, and the frame being received
(R121, R116). -/
def Link.rxFill (l : Link) : Nat := (l.rxFifo.map fun f => f.body.length + 5).sum + l.rxFrame.length

/-! ### Words and their errors (R180 to R182) -/

/-- The rank of a location in the canonical order of the list of words in error. It orders that list alone; reads go
item by item (`hitsIn`). -/
def locKey : WordLoc → Nat
  | .bank .bankA .header o => 8 * o
  | .bank .bankA .tariff o => 8 * o + 1
  | .bank .bankA .ranges o => 8 * o + 2
  | .bank .bankB .header o => 8 * o + 3
  | .bank .bankB .tariff o => 8 * o + 4
  | .bank .bankB .ranges o => 8 * o + 5
  | .buffer o => 8 * o + 6

/-- The canonical form of the list of words in error: locations strictly rising. -/
abbrev upsetsWf (us : List Upset) : Prop := us.Pairwise fun x y => locKey x.loc < locKey y.loc

/-- One of the bits in error is stuck (R181). -/
def hasStuck : UpsetKind → Bool
  | .single => false
  | .stuck => true
  | .double => false
  | .stuckDouble => true

/-- Two bits are in error: no word can be given (R182). -/
def fatal : UpsetKind → Bool
  | .single => false
  | .stuck => false
  | .double => true
  | .stuckDouble => true

/-- Two errors in one word: two bits in error, one of them stuck if either was (DEDUCED, log 10). -/
def joined (x y : UpsetKind) : UpsetKind := if hasStuck x || hasStuck y then .stuckDouble else .double

/-- A memory error strikes a word; a second error in a word makes it uncorrectable (DEDUCED, log 10). -/
def strike (u : Upset) : List Upset → List Upset
  | [] => [u]
  | v :: vs =>
    if locKey u.loc < locKey v.loc then u :: v :: vs
    else if locKey u.loc = locKey v.loc then { v with kind := joined v.kind u.kind } :: vs
    else v :: strike u vs

/-- The error at a location, if the word there holds one. -/
def State.upsetAt (s : State) (l : WordLoc) : Option UpsetKind :=
  (s.upsets.find? fun u => decide (u.loc = l)).map (·.kind)

/-- A write leaves a word no error but a bit stuck in the memory, which reappears (R180, R181). -/
def afterWrite (u : Upset) : Option Upset := if hasStuck u.kind then some { u with kind := .stuck } else none

/-- The words selected are stored whole with fresh check bits (R180). -/
def State.refresh (written : WordLoc → Bool) (s : State) : State :=
  { s with upsets := s.upsets.filterMap fun u => if written u.loc then afterWrite u else some u }

/-- The region that holds an item (R28, R49). -/
def itemRegion : Item → Region
  | .dims => .header
  | .classRec _ => .tariff
  | .base _ => .tariff
  | .price _ => .tariff
  | .product _ => .tariff
  | .rangeCount => .ranges
  | .dirEntry _ => .ranges
  | .record _ => .ranges

/-- The location is a word of one of the items of the bank. -/
def inItems (b : BankId) (items : List Item) (l : WordLoc) : Bool :=
  match l with
  | .bank b' r o => decide (b' = b) && items.any fun i => decide (itemRegion i = r) && decide (o ∈ Config.itemWords i)
  | .buffer _ => false

/-- The words in error among those of the items, in the order in which the items are read: item by item as listed,
within an item in ascending offset, and each word once (DEDUCED, log 12). -/
def hitsIn (b : BankId) : List Item → List Upset → List Upset
  | [], _ => []
  | i :: items, us =>
    (us.filter fun u => inItems b [i] u.loc) ++ hitsIn b items (us.filter fun u => !inItems b [i] u.loc)

/-- The location is one of the package buffer's words that hold bytes `lo` up to, not including, `hi`. -/
def inBuffer (lo hi : Nat) (l : WordLoc) : Bool :=
  match l with
  | .bank _ _ _ => false
  | .buffer o => decide (lo / 8 ≤ o) && decide (o * 8 < hi) && decide (lo < hi)

/-- An error of one bit: corrected, written back, counted, ECC_CORRECTED raised; a stuck bit reappears (R181). -/
def correctWord (u : Upset) (s : State) : State :=
  let s1 := s.refresh fun l => decide (l = u.loc)
  State.raise .eccCorrected
    { s1 with events := { s1.events with corrected := satAdd 4294967295 s1.events.corrected 1 } }

/-- Steps 2 to 4 of R182: the count, the capture when it is empty, the event. -/
def reportUncorrectable (loc : WordLoc) (reader : Reader) (s : State) : State :=
  let bankState :=
    match loc with
    | .bank b _ _ => some (s.recOf b).state
    | .buffer _ => none
  State.raise .eccUncorrectable
    { s with
      events :=
        { s.events with
          uncorrectable := satAdd 65535 s.events.uncorrectable 1
          capture := some (s.events.capture.getD ⟨loc, reader, bankState⟩) } }

/-! ### Where the scrubber is (R184, R185) -/

/-- The period in milliseconds. -/
def Scrub.periodMs (c : Scrub) : Nat := c.period * 1000

/-- A pass begins; the timer restarts from 0 (R184, R185). -/
def Scrub.beginPass (c : Scrub) : Scrub := { c with mode := .walking .bankA .header 0, timer := 0 }

/-- A pass reaches its end: it is counted, and the scrubber rests or begins the next (R184). -/
def Scrub.endPass (c : Scrub) : Scrub :=
  let c1 := { c with passes := satAdd 65535 c.passes 1 }
  if c1.timer < c1.periodMs then { c1 with mode := .resting } else c1.beginPass

/-- The regions in the order of a pass (R185). -/
def scrubOrder : List (BankId × Region) :=
  [(.bankA, .header), (.bankA, .tariff), (.bankA, .ranges), (.bankB, .header), (.bankB, .tariff), (.bankB, .ranges)]

/-- The regions of a pass from one on. -/
def regionsFrom (b : BankId) (r : Region) : List (BankId × Region) :=
  scrubOrder.dropWhile fun p => decide (p ≠ (b, r))

/-- The scrubber goes on with the first of the regions that are left of its pass, or ends the pass (R185). -/
def Scrub.goTo (left : List (BankId × Region)) (c : Scrub) : Scrub :=
  match left with
  | (b, r) :: _ => { c with mode := .walking b r 0 }
  | [] => c.endPass

/-- A bank has gone to EMPTY: a scrubber in it leaves it at once (R185). -/
def Scrub.leaveBank (b : BankId) (c : Scrub) : Scrub :=
  match c.mode with
  | .walking b' r _ => if b' = b then c.goTo ((regionsFrom b' r).filter fun p => decide (p.1 ≠ b)) else c
  | .off => c
  | .resting => c

/-- A region has been marked: a scrubber in it leaves it at that point (R185, R186). -/
def Scrub.leaveRegion (b : BankId) (r : Region) (c : Scrub) : Scrub :=
  match c.mode with
  | .walking b' r' _ => if b' = b ∧ r' = r then c.goTo (regionsFrom b r).tail else c
  | .off => c
  | .resting => c

/-! ### Builds, readers and drains (R4 to R8) -/

/-- A bank enters EMPTY with the reset values of R1; its regions keep their words and are not read (R29, R49). The scrubber
leaves it (R185). -/
def emptyBank (b : BankId) (s : State) : State :=
  { s.setRec b BankRecord.reset with scrub := s.scrub.leaveBank b }

/-- The directory entries in which two tables differ (R28). -/
def entriesMoved (old new : RangeRegion) : List Item :=
  ((List.range 256).filter fun i => decide (old.directory[i]? ≠ new.directory[i]?)).map Item.dirEntry

/-- The items whose words a new table writes: the count, the directory entries and the records that change (R28;
DEDUCED, log 13). -/
def rangeItemsWritten (old new : RangeRegion) : List Item :=
  (if old.count = new.count then [] else [Item.rangeCount]) ++ entriesMoved old new ++
    ((List.range new.records.length).filter fun i => decide (old.records[i]? ≠ new.records[i]?)).map Item.record

/-- One write of a bank's range region (R28). -/
def writeRanges (b : BankId) (new : RangeRegion) (s : State) : State :=
  let old := (s.bank b).ranges
  (s.setBank b { s.bank b with ranges := new }).refresh (inItems b (rangeItemsWritten old new))

/-- The words an emptied table writes: the range count and every directory entry (R6, R29, R35). -/
def tableItems : List Item := Item.rangeCount :: (List.range 256).map Item.dirEntry

/-- A bank's table is emptied: the count, every shelf count and every first position become 0 (R6, R29, R35). -/
def emptyTable (b : BankId) (s : State) : State :=
  (s.setBank b { s.bank b with ranges := RangeRegion.empty }).refresh (inItems b tableItems)

/-- The record changes at the beginning of every build (R6). -/
def BankRecord.begun (r : BankRecord) : BankRecord :=
  { r with
    marks := ⟨none, none, none⟩
    seq := 0#16
    activation := none
    comparedSeq := 0#16
    tariffChanged := false
    shelfChanged := List.replicate 256 false
    evictions := 0
    pruned := 0
    openOption := none }

/-- A build begins on a bank (R6). With option EMPTY the table is written empty, with its count and every directory
entry; with FROM_IN_FORCE the copy of R8 starts. -/
def beginBuild (b : BankId) (option : BuildOption) (s : State) : State :=
  let r := (s.recOf b).begun
  match option with
  | .empty =>
    let r' : BankRecord :=
      { r with
        state := .building
        tariffPresent := false
        tariffVersion := 0#32
        expansionDue := true
        blockStatus := .none
        blockVersion := 0#32
        tariffCrc := 0#32
        imageCrc := 0#32
        shelfCrcs := List.replicate 256 0#32
        capped := 0 }
    State.raise .buildOpened (emptyTable b (s.setRec b r'))
  | .fromInForce => { s.setRec b { r with state := .copying } with copied := ⟨0, 0, 0⟩ }

/-- The drain of a bank completes and the build begins with the recorded option, or fails on a damaged source (R7). -/
def drainDone (b : BankId) (s : State) : State :=
  match (s.recOf b).openOption with
  | some .fromInForce =>
    match s.inForce with
    | some f => if (s.recOf f).damaged then State.raise .buildFailed (emptyBank b s) else beginBuild b .fromInForce s
    | none => beginBuild b .fromInForce s
  | _ => beginBuild b .empty s

/-- One reader more (R4). -/
def addReader (b : BankId) (s : State) : State := s.setRec b { s.recOf b with readers := (s.recOf b).readers + 1 }

/-- One reader fewer; the subtraction that takes a DRAINING bank's count to 0 completes its drain (R4, R7). -/
def releaseReader (b : BankId) (s : State) : State :=
  let s1 := s.setRec b { s.recOf b with readers := (s.recOf b).readers - 1 }
  if (s1.recOf b).state = .draining ∧ (s1.recOf b).readers = 0 then drainDone b s1 else s1

/-- The copy fails when a mark is set on its source: the target goes to EMPTY with BUILD_FAILED (R8). -/
def failCopyFrom (source : BankId) (s : State) : State :=
  if (s.recOf (other source)).state = .copying then State.raise .buildFailed (emptyBank (other source) s) else s

/-! ### Cycle ends and cuts (R97, R101, R102) -/

/-- The body of a CYCLE_END (R97, R199). -/
def endBody (c : Context) (cut : Bool) : List Byte :=
  be16 c.number ++ n16 c.sent ++ n16 c.aborted ++ [flagByte cut]

/-- A frame has been written whole and the next has not begun (R102). -/
def Context.atBoundary (c : Context) : Bool := c.wip.isNone && decide (0 < c.frameIndex)

/-- The cut is taken: the CYCLE_END is composed with the cut flag, the content bank becomes none and its reader is
released (R102). -/
def takeCut (k : LinkId) (s : State) : State :=
  let l := s.link k
  match l.ctx.content with
  | none => s
  | some b =>
    releaseReader b
      (s.setLink k
        { l with ctx := { l.ctx with cut := true, content := none, todo := [], ending := some (endBody l.ctx true) } })

/-- A cycle that is not cut reaches its end: the CYCLE_END is composed and the reader released (R101). -/
def composeEnd (k : LinkId) (s : State) : State :=
  let l := s.link k
  let s1 := s.setLink k { l with ctx := { l.ctx with content := none, ending := some (endBody l.ctx false) } }
  match l.ctx.content with
  | none => s1
  | some b => releaseReader b s1

/-- The cycles of a bank that are at a frame boundary when it stops being sendable are cut at once; the others when
the frame in progress has been written (R102). -/
def cutCyclesOf (b : BankId) (s : State) : State :=
  allLinks.foldl
    (fun s k =>
      if (s.link k).inCycle && decide ((s.link k).ctx.content = some b) && (s.link k).ctx.atBoundary then takeCut k s
      else s) s

/-! ### Readiness (R146) -/

/-- The entry is a member of the readiness set (R146). -/
def Entry.member (e : Entry) : Bool := decide (e.presence = .active) && !e.excluded && !e.suspect

/-- All-ready holds: a bank is PENDING and every member is READY (R146). -/
def State.allReadyHolds (s : State) : Bool :=
  s.pendingBank.isSome && s.table.entries.toList.all fun e => !e.member || decide (e.pending = .ready)

/-- A readiness evaluation: the flag follows the condition, READY_ALL is raised at a rise (R146). -/
def evalReady (s : State) : State :=
  if s.allReadyHolds && !s.table.allReady then
    State.raise .readyAll { s with table := { s.table with allReady := true } }
  else { s with table := { s.table with allReady := s.allReadyHolds } }

/-- The evaluation of this state makes the flag rise (R146). -/
def State.readyRises (s : State) : Bool := s.allReadyHolds && !s.table.allReady

/-- Every entry changed by `f`. -/
def mapEntries (f : Entry → Entry) (s : State) : State :=
  { s with table := { s.table with entries := s.table.entries.map f } }

/-- Every link changed by `f`. -/
def mapLinks (f : Link → Link) (s : State) : State := { s with links := s.links.map f }

/-! ### Cutover (R160 to R166) -/

/-- Cutover Control in IDLE, its timers stopped at 0 and its cause dropped (R156, R164). -/
def Cutover.toIdle (c : Cutover) : Cutover := { c with state := .idle, waitTimer := 0, graceTimer := 0, cause := none }

/-- The cutover update of an entry (R150). -/
def Entry.atCutover (e : Entry) : Entry :=
  { e with
    holding :=
      if e.presence = .absent then e.holding else if e.pending = .ready then .holds else .lacks
    pending := .none }

/-- The entries a cutover leaves LACKS: not ABSENT and not READY (R150). -/
def State.lacksAtCutover (s : State) : Nat :=
  (s.table.entries.toList.filter fun e => decide (e.presence ≠ .absent) && decide (e.pending ≠ .ready)).length

/-- The record a cutover writes (R166). -/
def cutRecordOf (s : State) (p : BankId) (cause : Option Cause) (cutEnd : CutEnd) : CutRecord where
  done := true
  seq := (s.recOf p).seq
  formerSeq := s.seqOf s.inForce
  cause := cause
  deferred := decide (s.cutover.state = .deferred)
  cutEnd := some cutEnd
  deferral := if s.cutover.state = .deferred then s.cutover.graceTimer else 0
  waited := s.cutover.waitTimer
  time := if s.clock.valid then some (s.clock.day, s.clock.minute) else none
  lacks := s.lacksAtCutover

/-- The changes of bank states at a cutover (R21). -/
def promote (p : BankId) (s : State) : State :=
  let s1 :=
    match s.inForce with
    | some f => s.setRec f { s.recOf f with state := .stale }
    | none => s
  s1.setRec p { s1.recOf p with state := .inForce }

/-- The cutover, one event with all its changes (R165): bank states, table, carousel counts, record, IDLE, event with
the latest cutover seq, readiness, and the cuts of the new STALE bank's cycles. -/
def performCutover (cause : Option Cause) (cutEnd : CutEnd) (s : State) : State :=
  match s.pendingBank with
  | none => s
  | some p =>
    let record := cutRecordOf s p cause cutEnd
    let former := s.inForce
    let s1 := mapEntries Entry.atCutover (promote p s)
    let s2 := mapLinks (fun l => { l with interleave := 0, refresh := 0 }) s1
    let s3 := { s2 with cutover := { s2.cutover.toIdle with last := record } }
    let s4 := State.raise .cutover { s3 with events := { s3.events with cutoverSeq := (s.recOf p).seq } }
    let s5 := evalReady s4
    match former with
    | some f => cutCyclesOf f s5
    | none => s5

/-- A trigger is taken in WAITING and decided by the taken INHIBIT level and the grace (R160). -/
def takeTrigger (cause : Cause) (s : State) : State :=
  if s.cutover.inhibit then
    if s.cutover.grace = 0 then performCutover (some cause) .grace s
    else { s with cutover := { s.cutover with state := .deferred, cause := some cause, graceTimer := 0 } }
  else performCutover (some cause) .immediate s

/-- The activation of the pending bank. -/
def State.activation (s : State) : Option Activation := s.pendingBank.bind fun p => (s.recOf p).activation

/-- Cutover Control is told that all-ready has risen (R158). -/
def tellReady (s : State) : State :=
  if s.cutover.state = .waiting ∧ s.activation = some .onReady then takeTrigger .ready s else s

/-- Readiness re-evaluated, with what Cutover Control does at a rise (R146, R158). -/
def reevaluate (s : State) : State := if s.readyRises then tellReady (evalReady s) else evalReady s

/-- A service time is not earlier than another (R159). -/
def notEarlier (day minute day' minute' : Half) : Bool :=
  decide (day' < day) || (decide (day = day') && decide (minute' ≤ minute))

/-- The AT comparison (R159). -/
def State.atHolds (s : State) : Bool :=
  match s.activation with
  | some (.atTime d m) => s.clock.valid && notEarlier s.clock.day s.clock.minute d m
  | _ => false

/-- The AT trigger is examined while WAITING (R159). -/
def examineAt (s : State) : State :=
  if s.cutover.state = .waiting ∧ s.atHolds then takeTrigger .atTime s else s

/-- The wait expires: WAIT_EXPIRED is raised and the WAIT trigger taken (R158). -/
def expireWait (s : State) : State := takeTrigger .wait (State.raise .waitExpired s)

/-- The grace runs out in DEFERRED, or INHIBIT is released: the cutover with the cause already recorded (R162). -/
def endDeferral (cutEnd : CutEnd) (s : State) : State := performCutover s.cutover.cause cutEnd s

/-! ### Withdrawal (R19, R23, R104, R149, R164) -/

/-- The pending bank is withdrawn. -/
def withdrawBank (b : BankId) (s : State) : State :=
  let s1 := s.setRec b { s.recOf b with state := .stale }
  let s2 := { s1 with cutover := s1.cutover.toIdle }
  let s3 := evalReady (mapEntries (fun e => { e with pending := .none }) s2)
  cutCyclesOf b (State.raise .pendingWithdrawn s3)

/-! ### Items (R28, R49, R65, R200) -/

/-- The items of a bank's header region. -/
def headerItems : List Item := [.dims]

/-- The items of a bank's tariff region in its extent: prices only when expansion is not due (R185). -/
def tariffItems (b : Bank) : List Item :=
  (List.range b.tariff.classes.length).map Item.classRec ++ (List.range b.tariff.base.length).map Item.base ++
    (if b.record.expansionDue then [] else (List.range b.tariff.prices.length).map Item.price) ++
    (List.range b.tariff.products.length).map Item.product

/-- The items of a bank's range region in its extent (R185). -/
def rangeItems (b : Bank) : List Item :=
  Item.rangeCount :: ((List.range 256).map Item.dirEntry ++ (List.range b.ranges.count).map Item.record)

/-- The items of a region in the extent of a bank that is neither EMPTY nor COPYING (R185). -/
def extentItems (b : Bank) : Region → List Item
  | .header => if b.record.tariffPresent then headerItems else []
  | .tariff => if b.record.tariffPresent then tariffItems b else []
  | .ranges => rangeItems b

/-- Every item in a bank's extent (R8, R185). -/
def allExtentItems (b : Bank) : List Item := extentItems b .header ++ extentItems b .tariff ++ extentItems b .ranges

/-- The items the tariff CRC's computation reads: the HEADER, then what the CRC covers (R65, R66). -/
def tariffCrcItems (b : Bank) : List Item :=
  Item.dims ::
    ((List.range b.tariff.classes.length).map Item.classRec ++ (List.range b.tariff.base.length).map Item.base ++
      (List.range (b.tariff.classes.length * b.tariff.base.length)).map Item.price ++
      (List.range b.tariff.products.length).map Item.product)

/-- The bytes a carousel frame carries for an item (R94 to R96); the CRC and flag of a directory entry come from the
bank record. -/
def itemBytes (b : Bank) : Item → List Byte
  | .dims => [n8 b.tariff.zones, n8 b.tariff.classCount] ++ n16 b.tariff.productCount
  | .classRec i => (b.tariff.classes[i]?.map encodeClass).getD []
  | .base i => (b.tariff.base[i]?.map be16).getD []
  | .price i => (b.tariff.prices[i]?.map be16).getD []
  | .product i => (b.tariff.products[i]?.map encodeProduct).getD []
  | .rangeCount => n16 b.ranges.count
  | .dirEntry i =>
    n16 (b.ranges.directory.getD i ⟨0, 0⟩).count ++ be32 (b.record.shelfCrcs.getD i 0#32) ++
      [flagByte (b.record.shelfChanged.getD i false)]
  | .record i => (b.ranges.records[i]?.map encodeRecord).getD []

/-! ### The closing run (R11 to R16) -/

/-- What the steps of a closing run have made of a bank, with the counts of steps 1 and 2. -/
structure CloseWork where
  bank : Bank
  pruned : Nat
  capped : Nat
deriving DecidableEq, Repr

/-- Step 1, stopped after `n` records (R11, R45); the whole step when `n` is the table's size or more. -/
def prunePart (day : Option Half) (n : Nat) (b : Bank) : CloseWork :=
  match day with
  | none => ⟨b, 0, 0⟩
  | some d =>
    let kept := pruneFirst d n b.ranges.records
    let removed := b.ranges.records.length - kept.length
    ⟨⟨{ b.record with pruned := satAdd 65535 b.record.pruned removed }, b.tariff, RangeRegion.ofRecords kept⟩, removed, 0⟩

/-- Step 1 in full. -/
def pruneStep (day : Option Half) (b : Bank) : CloseWork := prunePart day b.ranges.records.length b

/-- Step 2, stopped after `n` prices: they stay, and expansion due stays yes (R60). -/
def expandPart (n : Nat) (w : CloseWork) : CloseWork :=
  if w.bank.record.expansionDue then
    let new := (expandAll w.bank.tariff).take n
    { w with
      bank := { w.bank with tariff := { w.bank.tariff with prices := new.map (·.1) ++ w.bank.tariff.prices.drop n } }
      capped := cappedCount new }
  else w

/-- Step 2 in full (R60). -/
def expandStep (w : CloseWork) : CloseWork :=
  if w.bank.record.expansionDue then
    let new := expandAll w.bank.tariff
    { bank :=
        { w.bank with
          record := { w.bank.record with expansionDue := false, capped := cappedCount new }
          tariff := { w.bank.tariff with prices := new.map (·.1) } }
      pruned := w.pruned
      capped := cappedCount new }
  else w

/-- Step 3, stopped after `n` shelf CRCs. -/
def checksumPart (n : Nat) (w : CloseWork) : CloseWork :=
  let new := ((List.range 256).take n).map (shelfCrc w.bank.ranges.records)
  { w with
    bank := { w.bank with record := { w.bank.record with shelfCrcs := new ++ w.bank.record.shelfCrcs.drop n } } }

/-- Step 3 in full: shelf CRCs, tariff CRC, image CRC (R11, R18, R66). -/
def checksumStep (w : CloseWork) : CloseWork :=
  let r := w.bank.record
  let shelves := (List.range 256).map (shelfCrc w.bank.ranges.records)
  let t := tariffCrc w.bank.tariff
  { w with
    bank :=
      { w.bank with
        record :=
          { r with shelfCrcs := shelves, tariffCrc := t, imageCrc := imageCrc r.tariffVersion r.blockVersion t shelves } } }

/-- Step 4: the comparison with the bank in force, when there is one and it is undamaged (R12). -/
def compareStep (inForce : Option BankRecord) (w : CloseWork) : CloseWork :=
  let r := w.bank.record
  let r' : BankRecord :=
    match inForce with
    | some f =>
      if f.damaged then { r with tariffChanged := true, shelfChanged := List.replicate 256 true, comparedSeq := 0#16 }
      else
        { r with
          tariffChanged := decide (r.tariffCrc ≠ f.tariffCrc)
          shelfChanged := (List.range 256).map fun i => decide (r.shelfCrcs[i]? ≠ f.shelfCrcs[i]?)
          comparedSeq := f.seq }
    | none => { r with tariffChanged := true, shelfChanged := List.replicate 256 true, comparedSeq := 0#16 }
  { w with bank := { w.bank with record := r' } }

/-- The number after `n`: 65535 is followed by 1 (R13). -/
def seqAfter (n : Half) : Half := if n = 65535#16 then 1#16 else n + 1#16

/-- Step 5: the candidate, advanced once more when it is the seq in force (R13). -/
def drawSeq (last : Half) (inForceSeq : Half) : Half :=
  if seqAfter last = inForceSeq then seqAfter (seqAfter last) else seqAfter last

/-- The bank and counts when a run has come to `pt` (R15). -/
def closeWorkAt (pt : ClosePoint) (day : Option Half) (inForce : Option BankRecord) (b : Bank) : CloseWork :=
  match pt with
  | .prune n => prunePart day n b
  | .expand n => expandPart n (pruneStep day b)
  | .checksum n => checksumPart n (expandStep (pruneStep day b))
  | .checksummed => checksumStep (expandStep (pruneStep day b))
  | .compared => compareStep inForce (checksumStep (expandStep (pruneStep day b)))
  | .sequenced => compareStep inForce (checksumStep (expandStep (pruneStep day b)))

/-- The words a closing run has written by `pt`: range words that changed, and prices (R45, R60; DEDUCED, log 13). -/
def closeItemsWritten (pt : ClosePoint) (old new : Bank) : List Item :=
  rangeItemsWritten old.ranges new.ranges ++
    (if old.record.expansionDue then
      match pt with
      | .prune _ => []
      | .expand n => (List.range (min n new.tariff.prices.length)).map Item.price
      | _ => (List.range new.tariff.prices.length).map Item.price
    else [])

/-! ### The closing run at the Image Store (R45, R60, R66) -/

/-- What a closing run does at the Image Store, one act after the other: it reads a word of the bank, writes the words of
items, or has come to a point. -/
inductive CloseAct where
  | read (region : Region) (offset : Nat)
  | write (items : List Item)
  | reach (point : ClosePoint)
deriving DecidableEq, Repr

/-- A number put in its place in an ascending list, once. -/
def putOnce (n : Nat) : List Nat → List Nat
  | [] => [n]
  | m :: ms => if n < m then n :: m :: ms else if n = m then m :: ms else m :: putOnce n ms

/-- An item is read: its words in ascending offset (DEDUCED, log 12). -/
def itemReads (i : Item) : List CloseAct :=
  ((Config.itemWords i).foldr putOnce []).map (CloseAct.read (itemRegion i))

/-- The table is read: the count, the directory and the records in ascending order, each word once (DEDUCED, log 12); with
`n` records read the run may have come to `reached n`. -/
def tableReads (t : RangeRegion) (reached : Nat → ClosePoint) : List CloseAct :=
  (tableItems.flatMap itemReads ++
    CloseAct.reach (reached 0) ::
      (List.range t.count).flatMap fun i => itemReads (.record i) ++ [CloseAct.reach (reached (i + 1))]).eraseDups

/-- Step 1, when there is a day: the table is read, then written. Of the records read, those that have expired may be gone
(R45, log 15). -/
def pruneActs (day : Option Half) (b : Bank) : List CloseAct :=
  match day with
  | none => [.reach (.expand 0)]
  | some d =>
    (tableReads b.ranges fun n => .prune ((b.ranges.records.take n).filter (expired d)).length) ++
      [.reach (.expand 0), .write (rangeItemsWritten b.ranges (pruneStep (some d) b).bank.ranges)]

/-- Step 2: the HEADER; then class by class its record and, journey by journey, the base fare read and the price written
(R60). -/
def expandActs (b : Bank) : List CloseAct :=
  let journeys := b.tariff.base.length
  if b.record.expansionDue then
    itemReads .dims ++
      (List.range b.tariff.classes.length).flatMap fun c =>
        itemReads (.classRec c) ++
          (List.range journeys).flatMap fun j =>
            itemReads (.base j) ++
              [.reach (.expand (c * journeys + j + 1)), .write [.price (c * journeys + j)]]
  else []

/-- The shelves whose records all lie among the first `n` of the table. -/
def shelvesRead (t : RangeRegion) (n : Nat) : Nat := ((t.records[n]?).map fun r => shelfOf r.first).getD 256

/-- Step 3: the table for the shelf CRCs, then the tariff regions, each word once (R11, R66). Of the shelves whose records
have been read, the CRCs may be written (log 15). -/
def checksumActs (b : Bank) : List CloseAct :=
  (tableReads b.ranges fun n => .checksum (shelvesRead b.ranges n)) ++
    .reach (.checksum 256) :: ((tariffCrcItems b).flatMap itemReads).eraseDups

/-- The whole run (R11); steps 4 and 5 read no word. -/
def closeActs (day : Option Half) (b : Bank) : List CloseAct :=
  pruneActs day b ++ expandActs b ++ .reach (.checksum 0) :: checksumActs (pruneStep day b).bank ++ [.reach .checksummed]

/-- The acts of a run on bank `b` that stands at `pt`, up to the first read of a word that cannot be given: the state, the
point come to, and the acts left, of which that read is the first. One-bit errors are corrected as reader CLOSE; a write
stores words whole, but for the one at `kept` (R180, R181; DEDUCED, log 13). -/
def runActs (b : BankId) (kept : Option WordLoc) : List CloseAct → ClosePoint → State → State × ClosePoint × List CloseAct
  | [], pt, s => (s, pt, [])
  | .reach pt :: acts, _, s => runActs b kept acts pt s
  | .write items :: acts, pt, s =>
    runActs b kept acts pt (s.refresh fun l => inItems b items l && decide (kept ≠ some l))
  | .read r o :: acts, pt, s =>
    match s.upsetAt (.bank b r o) with
    | none => runActs b kept acts pt s
    | some k =>
      if fatal k then (s, pt, .read r o :: acts) else runActs b kept acts pt (correctWord ⟨.bank b r o, k⟩ s)

/-- Where a run that can have come to `pt` stands when it fails: how many of the ranges are gone and of the shelf CRCs are
written is free, and so is whether steps 4 and 5 have been made when every CRC is written (DESIGN CHOICE, log 15). -/
def failPoint (free : Nat) : ClosePoint → ClosePoint
  | .prune n => .prune (min n (Config.closeCount free))
  | .expand n => .expand n
  | .checksum n => if n < 256 then .checksum (min n (Config.closeCount free)) else .checksum n
  | .checksummed =>
    match Config.closeReached free with
    | .compared => .compared
    | .sequenced => .sequenced
    | _ => .checksummed
  | .compared => .compared
  | .sequenced => .sequenced

/-- The words that a closing run on bank `b`, failed at `pt` by the word at `found`, has renewed: those of the items it
has written, but for that word, whose error is there after its last write (R180, R182; DEDUCED, log 13). -/
def closeRenewed (b : BankId) (pt : ClosePoint) (old new : Bank) (found : WordLoc) (l : WordLoc) : Bool :=
  inItems b (closeItemsWritten pt old new) l && decide (l ≠ found)

/-- The closing run on bank `b` fails at `pt` by the word at `found`: the bank returns to BUILDING, its activation absent
and its seq 0; what earlier steps wrote stays; the CLOSE result and the event are written (R15, R16). -/
def failClose (b : BankId) (pt : ClosePoint) (found : WordLoc) (s : State) : State :=
  let w := closeWorkAt pt s.closeDay (s.inForce.map s.recOf) (s.bank b)
  let bank := { w.bank with record := { w.bank.record with state := .building, activation := none, seq := 0#16 } }
  let lastSeq := if pt = .sequenced then drawSeq s.lastSeq (s.seqOf s.inForce) else s.lastSeq
  let s1 := (s.setBank b bank).refresh (closeRenewed b pt (s.bank b) w.bank found)
  State.raise .closeFailed
    { s1 with
      lastSeq := lastSeq
      closeDay := none
      closeResult := ⟨.failed, b, w.pruned, w.capped, 0#16, 0#32⟩ }

/-- Another reader's error, at `found`, fails the closing run on bank `b`: the run has made a free number of its acts, but
has come past no word that it could not read (R15; DESIGN CHOICE, log 15). -/
def failCloseAt (b : BankId) (found : WordLoc) (s : State) : State :=
  let acts := (closeActs s.closeDay (s.bank b)).take (Config.closeSteps s.free)
  let run := runActs b (some found) acts (.prune 0) s
  failClose b (failPoint s.free run.2.1) found run.1

/-! ### Damage marks and reads (R22, R23, R180 to R182) -/

/-- The mark of a region is set (R22). -/
def markRegion (b : BankId) (region : Region) (offset : Nat) (s : State) : State :=
  s.setRec b { s.recOf b with marks := (s.recOf b).marks.mark region offset }

/-- A region of a bank has been marked: the scrubber leaves it (R185). -/
def scrubLeaves (b : BankId) (region : Region) (s : State) : State :=
  { s with scrub := s.scrub.leaveRegion b region }

/-- Bank Control sets a damage mark for a reader other than the closing run, the mark acts by the bank's state, and the
scrubber leaves the region (R22, R23, R185). -/
def setMark (b : BankId) (region : Region) (offset : Nat) (s : State) : State :=
  let s1 := markRegion b region offset s
  scrubLeaves b region
    (match (s.recOf b).state with
    | .inForce => cutCyclesOf b (failCopyFrom b s1)
    | .pending => withdrawBank b s1
    | .closing => failCloseAt b (.bank b region offset) s1
    | .copying => s1
    | .building => s1
    | .stale => s1
    | .draining => s1
    | .empty => s1)

/-- An error of two bits is found: count, capture, event and, for a word of a bank, the damage mark (R182). -/
def uncorrectable (loc : WordLoc) (reader : Reader) (s : State) : State :=
  let s1 := reportUncorrectable loc reader s
  match loc with
  | .bank b r o => setMark b r o s1
  | .buffer _ => s1

/-- The same at a read of the closing run on bank `b` itself, which can have come to `pt`: the mark fails the run there
(R15, R182). -/
def failOwnRead (b : BankId) (region : Region) (offset : Nat) (pt : ClosePoint) (s : State) : State :=
  let s1 := markRegion b region offset (reportUncorrectable (.bank b region offset) .close s)
  let s2 := scrubLeaves b region (failClose b (failPoint s.free pt) (.bank b region offset) s1)
  { s2 with free := s2.free + 1 }

/-- The words that hold an error among those read, in the order of the reads: corrected one after the other up to the
first that cannot be (R181, R182). `false` when one could not. -/
def readHits (reader : Reader) : List Upset → State → State × Bool
  | [], s => (s, true)
  | u :: us, s =>
    if fatal u.kind then (uncorrectable u.loc reader s, false) else readHits reader us (correctWord u s)

/-- The same of a reader that reads on: each word in error is corrected or reported, and the locations of those that
gave no word are collected (R105). -/
def readOn (reader : Reader) : List Upset → State → State × List WordLoc
  | [], s => (s, [])
  | u :: us, s =>
    if fatal u.kind then
      let (s1, bad) := readOn reader us (uncorrectable u.loc reader s)
      (s1, u.loc :: bad)
    else readOn reader us (correctWord u s)

/-- The words selected by `sel` are read on behalf of `reader`, in ascending offset. -/
def readWords (reader : Reader) (sel : WordLoc → Bool) (s : State) : State × Bool :=
  readHits reader (s.upsets.filter fun u => sel u.loc) s

/-- Items of a bank are read, in the order listed, by a reader other than the closing run. -/
def readItems (reader : Reader) (b : BankId) (items : List Item) (s : State) : State × Bool :=
  readHits reader (hitsIn b items s.upsets) s

/-- Bytes `lo` up to, not including, `hi` of the package buffer are read by the loader (R76, R78). -/
def readBuffer (lo hi : Nat) (s : State) : State × Bool := readWords .loader (inBuffer lo hi) s

/-! ### The copy (R8, R185) -/

/-- How far the copy has written a region (R185). -/
def Copied.get (c : Copied) : Region → Nat
  | .header => c.header
  | .tariff => c.tariff
  | .ranges => c.ranges

/-- How far a copy in progress has come when another step looks: at least as far as before (R185, DESIGN CHOICE log 16). -/
def Copied.onward (free : Nat) (c : Copied) : Copied :=
  ⟨max c.header (Config.copyReached free .header), max c.tariff (Config.copyReached free .tariff),
    max c.ranges (Config.copyReached free .ranges)⟩

/-- The copy has come to offset `o` of a region. -/
def Copied.to (c : Copied) (r : Region) (o : Nat) : Copied :=
  match r with
  | .header => { c with header := o }
  | .tariff => { c with tariff := o }
  | .ranges => { c with ranges := o }

/-- The word of bank `b` is one of the items and the copy comes to it between the points `c` and `c'`; without an end it
comes to all that are left (R8, R180). -/
def copyPasses (b : BankId) (items : List Item) (c : Copied) (c' : Option Copied) (l : WordLoc) : Bool :=
  match l with
  | .bank _ r o => inItems b items l && decide (c.get r ≤ o) && c'.all fun c' => decide (o < c'.get r)
  | .buffer _ => false

/-- The offset of a word in a region, when that is where it lies. -/
def offsetIn (r : Region) : WordLoc → Option Nat
  | .bank _ r' o => if r' = r then some o else none
  | .buffer _ => none

/-- The words in error among those of the source `f` that the copy reads between the points `c` and `c'`: region by region
as R8 lists them, in ascending offset (DEDUCED, log 16). -/
def copyHits (f : BankId) (items : List Item) (c : Copied) (c' : Option Copied) (us : List Upset) : List Upset :=
  [Region.header, .tariff, .ranges].flatMap fun r =>
    us.filter fun u => copyPasses f items c c' u.loc && (offsetIn r u.loc).isSome

/-- The points `c` cut short, in each region, at the first of the words in error that cannot be read: the copy goes past
no such word (R8, R182). -/
def Copied.short (hits : List Upset) (c : Copied) : Copied :=
  let stop (r : Region) : Nat :=
    (((hits.filter fun u => fatal u.kind).filterMap fun u => offsetIn r u.loc).min?).getD (c.get r)
  ⟨stop .header, stop .tariff, stop .ranges⟩

/-- The copy from `f` into `t` goes on to the points `c`: it reads the source's words as reader COPY and writes the target's
with fresh check bits (R8, R180 to R182). `false` when a word could not be read, whose mark has failed the copy. -/
def copyTo (t f : BankId) (c : Copied) (s : State) : State × Bool :=
  let items := allExtentItems (s.bank f)
  let (s1, ok) := readHits .copy (copyHits f items s.copied (some c) s.upsets) s
  if ok then ({ s1.refresh (copyPasses t items s.copied (some c)) with copied := c }, true) else (s1, false)

/-- A copy in progress goes on by a free amount, but past no word it cannot read; such a word fails the copy in an event of
its own (R8, R185; DESIGN CHOICE log 16). -/
def copyOn (s : State) : State :=
  match s.findBank .copying, s.inForce with
  | some t, some f =>
    let c := s.copied.onward s.free
    let hits := copyHits f (allExtentItems (s.bank f)) s.copied (some c) s.upsets
    { (copyTo t f (c.short hits) s).1 with free := s.free + 1 }
  | _, _ => s

/-! ### Responses (R169, R194, R195) -/

/-- A response is made: the buffer holds it, RDY goes high, and a gateway slot whose answer has been lost to this
later message is freed (R169, R194, R195). -/
def respond (code : ResultCode) (body : List Byte) (s : State) : State :=
  { s with
    port :=
      { s.port with
        rdy := true
        dispatched := none
        awaiting := none
        response := .held ⟨s.port.awaiting.getD 0#16, code, body⟩ }
    lookups := { s.lookups with slot := if s.lookups.slot = .answered then .free else s.lookups.slot } }

/-- What an owner makes of a message: the state, and its answer, unless the answer comes later (a QUERY that took the
slot, R194) or never (DEVICE_RESET, R198). -/
structure Reply where
  state : State
  answer : Option (ResultCode × List Byte)

/-- An answer given when the message is taken. -/
def answer (code : ResultCode) (body : List Byte) (s : State) : Reply := ⟨s, some (code, body)⟩

/-- A refusal with an empty body, the state unchanged. -/
def refuse (code : ResultCode) (s : State) : Reply := ⟨s, some (code, [])⟩

/-- What MISO carries in a transaction that sends nothing: FFh during the kind byte and during the `clocked` bytes after
it (R192). -/
def idleMiso (clocked : Nat) : List Byte := List.replicate (clocked + 1) 0xFF#8

/-- The end of a message judged under R193: RDY goes low and the response buffer becomes EMPTY (R194, R195). -/
def beginMessage (tag : Half) (bytes : List Byte) (s : State) : State :=
  { s with
    port :=
      { s.port with
        rdy := false
        rx := bytes.take Config.messageBytes
        awaiting := some tag
        response := .empty
        miso := idleMiso bytes.length } }

/-- A message of so many bytes that came while RDY was low is discarded and counted (R192, R194). -/
def overrun (length : Nat) (s : State) : State :=
  { s with port := { s.port with overruns := satAdd 65535 s.port.overruns 1, miso := idleMiso length } }

/-- A message meets the port and its owner (R193 to R195, log 7). When the command is the message already dispatched, its
owner takes it. Otherwise the message arrives now: with RDY high it has passed the checks and is taken at once; with
RDY low it is discarded and counted. During a device reset nothing is taken (log 5). -/
def gateway (i : Instr) (own : State → Reply) (s : State) : State :=
  match messageOf i with
  | none => s
  | some (type, tag, body) =>
    if s.inReset then s
    else
      let reply : Option Reply :=
        if s.port.dispatched = some i then some (own { s with port := { s.port with dispatched := none } })
        else if s.port.rdy then some (own (beginMessage tag (sealMessage type tag body) s))
        else none
      match reply with
      | none => overrun (sealMessage type tag body).length s
      | some r =>
        match r.answer with
        | none => r.state
        | some (code, body) => respond code body r.state

/-- An event of the part: during a device reset nothing happens (log 5). -/
def event (f : State → State) (s : State) : State := if s.inReset then s else f s

/-- What a step answers. -/
abbrev Result := Host.Outcome State Fault Refusal

end Sys2Proof.Machine
end

