-- ==== Sys2Proof/Machine/BankCommands.lean ====
section
/-!
DEFINITION. Bank Control: OPEN_BUILD, CLOSE_BUILD, WITHDRAW, DISCARD_BUILD, BANK_READ and the events of copies, drains
and closing runs (chapter 1).
-/

namespace Sys2Proof.Machine

/-! ### OPEN_BUILD (R5, R6) -/

/-- The target of OPEN_BUILD: the bank not in force, and bank A when neither is (R5). -/
def State.openTarget (s : State) : BankId :=
  match s.inForce with
  | some f => other f
  | none => .bankA

/-- OPEN_BUILD taken: the target drains, or the build begins at once (R6). -/
def takeOpenBuild (option : BuildOption) (s : State) : Reply :=
  let t := s.openTarget
  if 0 < (s.recOf t).readers then
    answer .accepted [] (s.setRec t { s.recOf t with state := .draining, openOption := some option })
  else
    match option with
    | .empty => answer .ok [] (beginBuild t .empty s)
    | .fromInForce => answer .accepted [] (beginBuild t .fromInForce s)

/-- OPEN_BUILD at Bank Control (R5). -/
def openBuild (option : Byte) (s : State) : Reply :=
  match buildOptionOf option with
  | none => refuse .badArg s
  | some o =>
    if s.buildSideTaken then refuse .badState s
    else
      match o with
      | .empty => takeOpenBuild .empty s
      | .fromInForce =>
        match s.inForce with
        | none => refuse .noImage s
        | some f => if (s.recOf f).damaged then refuse .damaged s else takeOpenBuild .fromInForce s

/-- OPEN_BUILD. -/
def execOpenBuild (tag : Half) (option : Byte) (s : State) : Result :=
  .next (gateway (.openBuild tag option) (openBuild option) s)

/-! ### CLOSE_BUILD (R10) -/

/-- The blocklist is whole (R30). -/
def BlockStatus.isComplete : BlockStatus → Bool
  | .complete => true
  | .none => false
  | .inProgress _ _ _ => false

/-- CLOSE_BUILD at Bank Control: the checks of R10 in their order; the prune step of the run that starts takes the
service day now (R11, DEDUCED log 14). -/
def closeBuild (mode : Byte) (day minute : Half) (s : State) : Reply :=
  match s.findBank .building with
  | none => refuse .noBuild s
  | some b =>
    let r := s.recOf b
    if s.loader.state ≠ .idle then refuse .busy s
    else if !r.tariffPresent || !r.blockStatus.isComplete then refuse .incomplete s
    else if r.damaged then refuse .damaged s
    else
      match activationOf mode day minute with
      | none => refuse .badArg s
      | some act =>
        answer .accepted []
          { s.setRec b { r with activation := some act, state := .closing } with
            closeDay := if s.clock.valid then some s.clock.day else none }

/-- CLOSE_BUILD. -/
def execCloseBuild (tag : Half) (mode : Byte) (day minute : Half) (s : State) : Result :=
  .next (gateway (.closeBuild tag mode day minute) (closeBuild mode day minute) s)

/-! ### WITHDRAW and DISCARD_BUILD (R19, R20) -/

/-- WITHDRAW at Bank Control (R19). -/
def withdraw (s : State) : Reply :=
  match s.pendingBank with
  | none => refuse .badState s
  | some b => answer .ok [] (withdrawBank b s)

/-- WITHDRAW. -/
def execWithdraw (tag : Half) (s : State) : Result := .next (gateway (.withdraw tag) withdraw s)

/-- The bank COPYING, BUILDING or CLOSING (R20). -/
def State.workBank (s : State) : Option BankId :=
  match s.findBank .copying with
  | some b => some b
  | none =>
    match s.findBank .building with
    | some b => some b
    | none => s.findBank .closing

/-- The loader returns to IDLE with the package buffer emptied; the package result stands (R82). -/
def idleLoader (s : State) : State := { s with loader := { s.loader with state := .idle, buffer := [] } }

/-- DISCARD_BUILD at Bank Control (R20, R82). A check or apply phase that it abandons has read and written nothing in the
model: R82 does not say how far the phase had come, and CHECK_PHASE_END and APPLY_PHASE_END do the whole of its work (DESIGN
CHOICE, log 45); a closing run likewise (DESIGN CHOICE, log 15). -/
def discardBuild (s : State) : Reply :=
  match s.workBank with
  | some b => answer .ok [] { idleLoader (emptyBank b s) with closeDay := none }
  | none =>
    match s.findBank .draining with
    | some b => answer .ok [] (idleLoader (s.setRec b { s.recOf b with state := .stale, openOption := none }))
    | none => refuse .badState s

/-- DISCARD_BUILD. -/
def execDiscardBuild (tag : Half) (s : State) : Result := .next (gateway (.discardBuild tag) discardBuild s)

/-! ### BANK_READ (R24) -/

/-- The blocklist status with its optional fields (R24; DESIGN CHOICE log 20). -/
def blockStatusBytes : BlockStatus → List Byte
  | .none => 0#8 :: (optional 2 be16 none ++ optional 2 be16 none ++ optional 4 be32 none)
  | .inProgress p c v => 1#8 :: (optional 2 be16 (some p) ++ optional 2 be16 (some c) ++ optional 4 be32 (some v))
  | .complete => 2#8 :: (optional 2 be16 none ++ optional 2 be16 none ++ optional 4 be32 none)

/-- The last CLOSE result as BANK_READ carries it (R16, R24). Its reason is one byte, MEMORY's code (R196) after a failure
and 0 otherwise, as R16 resets it; that it is no optional field is the model's choice (DESIGN CHOICE log 20). -/
def closeResultBytes (c : CloseResult) : List Byte :=
  [c.outcome.code, bankCode c.bank] ++
    [if c.outcome = .failed then ResultCode.memory.code else 0#8] ++
    n16 c.pruned ++ n16 c.capped ++ be16 c.seq ++ be32 c.imageCrc

/-- The record summary (R24). -/
def summaryBytes (r : BankRecord) (lastSeq : Half) (result : CloseResult) : List Byte :=
  [r.state.code] ++ be16 r.seq ++ [flagByte r.tariffPresent] ++ be32 r.tariffVersion ++ [flagByte r.expansionDue] ++
    blockStatusBytes r.blockStatus ++ be32 r.blockVersion ++ activationBytes r.activation ++ be32 r.tariffCrc ++
    be32 r.imageCrc ++ be16 r.comparedSeq ++ [flagByte r.tariffChanged] ++
    n16 (r.shelfChanged.filter id).length ++ [openOptionCode r.openOption, n8 r.readers] ++
    optional 2 n16 r.marks.header ++ optional 2 n16 r.marks.tariff ++ optional 2 n16 r.marks.ranges ++
    n16 r.evictions ++ n16 r.pruned ++ n16 r.capped ++ be16 lastSeq ++ closeResultBytes result

/-- Shelf numbers, CRCs and changed flags from the first shelf on, at most 32 (R24). -/
def shelvesBytes (r : BankRecord) (first : Nat) : List Byte :=
  ((List.range 256).filter fun i => decide (first ≤ i) && decide (i ≤ first + 31)).flatMap fun i =>
    n8 i :: (be32 (r.shelfCrcs.getD i 0#32) ++ [flagByte (r.shelfChanged.getD i false)])

/-- BANK_READ at Bank Control: it changes nothing (R24). -/
def bankRead (bank selector : Byte) (firstShelf : Half) (s : State) : Reply :=
  match bankOf bank, selectorOf selector with
  | some b, some false => answer .ok (summaryBytes (s.recOf b) s.lastSeq s.closeResult) s
  | some b, some true =>
    if 255 < firstShelf.toNat then refuse .badArg s else answer .ok (shelvesBytes (s.recOf b) firstShelf.toNat) s
  | _, _ => refuse .badArg s

/-- BANK_READ. -/
def execBankRead (tag : Half) (bank selector : Byte) (firstShelf : Half) (s : State) : Result :=
  .next (gateway (.bankRead tag bank selector firstShelf) (bankRead bank selector firstShelf) s)

/-! ### The copy and the drain (R7, R8) -/

/-- What the target's record holds when the copy completes (R8). The shelf CRCs are the source's; the changed flags are not
copied and stay no, as the beginning of the build left them: R8 says so where R28 has a copy carry them over (DESIGN CHOICE
log 50). -/
def BankRecord.copiedFrom (target source : BankRecord) : BankRecord :=
  { target with
    state := .building
    tariffPresent := source.tariffPresent
    tariffVersion := source.tariffVersion
    blockVersion := source.blockVersion
    capped := source.capped
    blockStatus := .complete
    tariffCrc := source.tariffCrc
    imageCrc := source.imageCrc
    shelfCrcs := source.shelfCrcs
    expansionDue := false }

/-- The copy reads what is left of the source's extent and completes, writing those words of the target; a word it cannot
read marks the source, which fails the copy (R8). -/
def copyComplete (s : State) : State :=
  match s.findBank .copying, s.inForce with
  | some t, some f =>
    let items := allExtentItems (s.bank f)
    let (s1, ok) := readHits .copy (copyHits f items s.copied none s.upsets) s
    if ok then
      let source := s1.bank f
      State.raise .buildOpened
        ((s1.setBank t ⟨(s1.recOf t).copiedFrom source.record, source.tariff, source.ranges⟩).refresh
          (copyPasses t items s1.copied none))
    else s1
  | _, _ => s

/-- COPY_COMPLETE. -/
def execCopyComplete (s : State) : Result := .next (event copyComplete s)

/-- The copy comes to a word of the source that it has not read yet and finds an uncorrectable error in it: the mark fails
the copy (R8, R23). Where the copy never reads the word, because it lies outside the source's extent or the copy has read
it already, a COPY_FAILURE that names it changes nothing (DESIGN CHOICE, logs 3 and 16). -/
def copyFailure (region : Region) (offset : Nat) (s : State) : State :=
  match s.findBank .copying, s.inForce with
  | some t, some f =>
    let loc := WordLoc.bank f region offset
    if copyPasses f (allExtentItems (s.bank f)) s.copied none loc then
      let (s1, ok) := copyTo t f (s.copied.to region offset) s
      if ok then uncorrectable loc .copy { s1 with upsets := strike ⟨loc, .double⟩ s1.upsets } else s1
    else s
  | _, _ => s

/-- COPY_FAILURE. -/
def execCopyFailure (region : Region) (offset : Nat) (s : State) : Result := .next (event (copyFailure region offset) s)

/-- A DRAINING bank without readers: its drain completes (R7; the release of its last reader has the same effect in
the same step, log 17). -/
def drainComplete (s : State) : State :=
  match s.findBank .draining with
  | some b => if (s.recOf b).readers = 0 then drainDone b s else s
  | none => s

/-- DRAIN_COMPLETE. -/
def execDrainComplete (s : State) : Result := .next (event drainComplete s)

/-! ### The closing run (R11 to R16) -/

/-- The table's update of an entry at a CLOSE completion (R148). -/
def Entry.atClose (e : Entry) : Entry := { e with pending := .loading, mismatches := 0, suspect := false }

/-- Cutover Control enters WAITING and examines the triggers its activation allows (R157). -/
def enterWaiting (s : State) : State :=
  let s1 := { s with cutover := { s.cutover with state := .waiting, waitTimer := 0, graceTimer := 0, cause := none } }
  if s1.activation = some .onReady then
    if s1.table.allReady then takeTrigger .ready s1 else s1
  else examineAt s1

/-- The completed run's work on the closing bank (R11, R12). -/
def State.closeWork (s : State) (b : BankId) : CloseWork :=
  compareStep (s.inForce.map s.recOf) (checksumStep (expandStep (pruneStep s.closeDay (s.bank b))))

/-- The seq the run draws (R13). -/
def State.drawnSeq (s : State) : Half := drawSeq s.lastSeq (s.seqOf s.inForce)

/-- The run completes: the bank is PENDING with its seq, the result and the event are written (R13, R14, R16). -/
def completeClose (b : BankId) (s : State) : State :=
  let w := s.closeWork b
  let seq := s.drawnSeq
  let bank := { w.bank with record := { w.bank.record with state := .pending, seq := seq } }
  State.raise .closeDone
    { s.setBank b bank with
      lastSeq := seq
      closeDay := none
      closeResult := ⟨.done, b, w.pruned, w.capped, seq, w.bank.record.imageCrc⟩ }

/-- The closing run comes to its end, making all its acts (R11 to R14, R148, R157), or fails at the first read of a word
that cannot be given (R15). R157 lets the readiness evaluation come before or after the entry into WAITING: here it comes first
(DESIGN CHOICE, log 44). -/
def closeRunComplete (s : State) : State :=
  match s.findBank .closing with
  | none => s
  | some b =>
    match runActs b none (closeActs s.closeDay (s.bank b)) (.prune 0) s with
    | (s1, pt, .read r o :: _) => failOwnRead b r o pt s1
    | (s1, _, _) => enterWaiting (evalReady (mapEntries Entry.atClose (completeClose b s1)))

/-- CLOSE_RUN_COMPLETE. -/
def execCloseRunComplete (s : State) : Result := .next (event closeRunComplete s)

/-- The acts before the one that makes act `a` when it has been made `again` times before; none where it is not made so
often. -/
def actsBefore (a : CloseAct) : Nat → List CloseAct → Option (List CloseAct)
  | _, [] => none
  | again, x :: acts =>
    if x = a then
      match again with
      | 0 => some []
      | again + 1 => (actsBefore a again acts).map (x :: ·)
    else (actsBefore a again acts).map (x :: ·)

/-- A read of the closing run itself finds an uncorrectable error in the closing bank (R15): the run makes the acts before
that read, and the word is struck as it comes to it. An earlier word that cannot be given fails the run there. A read that
the run does not make is no read of R15's: nothing happens (DESIGN CHOICE, log 3). -/
def closingRunFailure (region : Region) (offset again : Nat) (s : State) : State :=
  match s.findBank .closing with
  | none => s
  | some b =>
    match actsBefore (.read region offset) again (closeActs s.closeDay (s.bank b)) with
    | none => s
    | some acts =>
      match runActs b none acts (.prune 0) s with
      | (s1, pt, .read r o :: _) => failOwnRead b r o pt s1
      | (s1, pt, _) =>
        failOwnRead b region offset pt { s1 with upsets := strike ⟨.bank b region offset, .double⟩ s1.upsets }

/-- CLOSING_RUN_FAILURE. -/
def execClosingRunFailure (region : Region) (offset again : Nat) (s : State) : Result :=
  .next (event (closingRunFailure region offset again) s)

end Sys2Proof.Machine
end

