-- ==== Sys2Proof/Machine/LinkOps.lean ====
section
/-!
DEFINITION. Operations shared by the commands of the links, the carousel and the Lookup Engine: link frames, what a
transmitter begins, the take-up of settings, and the link reset.
-/

namespace Sys2Proof.Machine

/-! ### Link frames (R116, R199, R201) -/

/-- A link frame: kind, body length, body, CRC-16 (R116). -/
def linkFrame (kind : Byte) (body : List Byte) : List Byte :=
  let covered := kind :: (n16 body.length ++ body)
  covered ++ be16 (crc16 covered)

/-- Codes of verdicts (R201). -/
def Verdict.code : Verdict → Byte
  | .blocked _ => 0#8
  | .clear _ => 1#8
  | .price _ => 2#8
  | .product _ _ => 3#8
  | .notFound => 4#8
  | .badQuery => 5#8
  | .unknown _ => 6#8

/-- Codes of the causes of UNKNOWN (R201). -/
def UnknownCause.code : UnknownCause → Byte
  | .noImage => 1#8
  | .damaged => 2#8

/-- The fields that follow a verdict (R201). -/
def Verdict.fields : Verdict → List Byte
  | .blocked r => attrByte r :: (be16 (r.expiry.getD 0#16) ++ be56 r.first ++ be56 r.last)
  | .clear lapsed => flagByte lapsed.isSome :: be16 (lapsed.getD 0#16)
  | .price p => be16 p
  | .product today p => flagByte today :: encodeProduct p
  | .notFound => []
  | .badQuery => []
  | .unknown c => [c.code]

/-- The body of an answer (R177, R201). -/
def answerBody (a : Answer) : List Byte :=
  be16 a.tag ++ [a.kind.code, a.verdict.code] ++ be16 a.seq ++ [flagByte a.day.isSome] ++ be16 (a.day.getD 0#16) ++
    a.verdict.fields

/-- An ANSWER frame (R199). -/
def answerFrame (a : Answer) : List Byte := linkFrame 0x20#8 (answerBody a)

/-- A BUSY frame: the refused query's tag and kind (R126, R199). -/
def busyFrame (tag : Half) (kind : QueryKind) : List Byte := linkFrame 0x21#8 (be16 tag ++ [kind.code])

/-! ### The transmitter (R117) -/

/-- The next carousel frame, if its first byte is in the transmit FIFO and nothing is left to discard (R117, R119). -/
def Link.nextCarousel (l : Link) : Option FrameKind :=
  match l.txFifo with
  | [] => none
  | f :: _ => if l.discard = 0 ∧ f.bytes ≠ [] then some f.kind else none

/-- What an idle transmitter does: it begins the BUSY notice, else the oldest answer, else the next carousel frame,
else it goes on idling (R117, R125, R126). -/
def Link.begin (l : Link) : Link :=
  match l.notice with
  | some (tag, kind) => { l with notice := none, tx := .notice (busyFrame tag kind) }
  | none =>
    match l.answers with
    | a :: rest => { l with answers := rest, tx := .answer (answerFrame a) }
    | [] =>
      match l.nextCarousel with
      | some kind => { l with tx := .carousel kind }
      | none => l

/-- An ENABLED link that idles begins whatever has come into existence (R117). -/
def tryBegin (k : LinkId) (s : State) : State :=
  let l := s.link k
  if l.state = .enabled ∧ l.tx = .idle then s.setLink k l.begin else s

/-! ### Settings (R88) -/

/-- A link takes up the device-wide settings, and its counts are brought into their ranges (R88). -/
def Link.takeUp (settings : Settings) (l : Link) : Link :=
  { l with
    settings := settings
    interleave := min l.interleave settings.interleave
    refresh := min l.refresh (settings.refresh - 1) }

/-! ### Leaving a cycle (R90) -/

/-- A link has left its cycle: while STOPPING, the last one to leave stops the carousel (R90, R110). -/
def leftCycle (s : State) : State :=
  if s.carousel.state = .stopping ∧ !s.anyInCycle then
    State.raise .carouselStopped { s with carousel := { s.carousel with state := .stopped } }
  else s

/-! ### The link reset (R127, R134) -/

/-- The reset values of an entry, with its excluded field kept; a pending bank makes the pending holding LOADING (R133,
R134). -/
def freshEntry (s : State) (excluded : Bool) : Entry :=
  { Entry.reset with
    excluded := excluded
    pending := if s.pendingBank.isSome then .loading else .none }

/-- A link after its reset: the configuration, the copy of the settings and the last test result are kept (R88, R127). -/
def Link.afterReset (l : Link) : Link :=
  { Link.reset with
    divider := l.divider
    threshold := l.threshold
    settings := l.settings
    lastTest := l.lastTest }

/-- The link's queries leave the Lookup Engine, and its lookup in service is marked for discard (R128, R179). -/
def Lookups.dropLink (k : LinkId) (u : Lookups) : Lookups :=
  { u with
    queues := u.queues.set k []
    service :=
      u.service.map fun v => if v.requester = .link k then { v with discard := true } else v }

/-- The link reset (R127). -/
def linkReset (k : LinkId) (s : State) : State :=
  let l := s.link k
  let s1 := { s.setLink k l.afterReset with lookups := s.lookups.dropLink k }
  let s2 :=
    match l.ctx.content with
    | some b => releaseReader b s1
    | none => s1
  let s3 := leftCycle s2
  reevaluate (s3.setEntry k (freshEntry s3 (s3.entry k).excluded))

end Sys2Proof.Machine
end

