-- ==== Sys2Proof/Machine/Carousel.lean ====
section
/-!
DEFINITION. The Carousel Engine: CAROUSEL_CONFIG, CAROUSEL_START, CAROUSEL_STOP, CYCLE_START and REFILL_SERVICE
(chapter 5).
-/

namespace Sys2Proof.Machine

/-! ### Settings and states (R86 to R91) -/

/-- The five settings brought into their ranges (R87). -/
def settingsTaken (interleave refresh leadIn frameGap : Byte) (cycleGap : Half) : Settings :=
  ⟨clamp 0 15 interleave.toNat, clamp 1 255 refresh.toNat, clamp 2 64 leadIn.toNat, frameGap.toNat,
    clamp 0 4095 cycleGap.toNat⟩

/-- The five settings as sent. -/
def settingsBytes (c : Settings) : List Byte :=
  [n8 c.interleave, n8 c.refresh, n8 c.leadIn, n8 c.frameGap] ++ n16 c.cycleGap

/-- CAROUSEL_CONFIG at the Carousel Engine (R87). -/
def carouselConfig (interleave refresh leadIn frameGap : Byte) (cycleGap : Half) (s : State) : Reply :=
  let c := settingsTaken interleave refresh leadIn frameGap cycleGap
  answer .ok (settingsBytes c) { s with carousel := { s.carousel with settings := c } }

/-- CAROUSEL_CONFIG. -/
def execCarouselConfig (tag : Half) (interleave refresh leadIn frameGap : Byte) (cycleGap : Half) (s : State) : Result :=
  .next
    (gateway (.carouselConfig tag interleave refresh leadIn frameGap cycleGap)
      (carouselConfig interleave refresh leadIn frameGap cycleGap) s)

/-- An ENABLED link that is OFF enters its cycle gap (R89, R91). -/
def Link.enterGap (l : Link) : Link := if l.state = .enabled ∧ l.phase = .off then { l with phase := .gap } else l

/-- CAROUSEL_START at the Carousel Engine (R89). -/
def carouselStart (s : State) : Reply :=
  if s.carousel.state = .running then answer .ok [] s
  else answer .ok [] (mapLinks Link.enterGap { s with carousel := { s.carousel with state := .running } })

/-- CAROUSEL_START. -/
def execCarouselStart (tag : Half) (s : State) : Result := .next (gateway (.carouselStart tag) carouselStart s)

/-- A link in its cycle gap leaves it (R90, R91). -/
def Link.leaveGap (l : Link) : Link := if l.phase = .gap then { l with phase := .off } else l

/-- CAROUSEL_STOP at the Carousel Engine: STOPPING, and at once STOPPED when no link is in a cycle (R90). -/
def carouselStop (s : State) : Reply :=
  if s.carousel.state = .running then
    answer .ok [] (leftCycle (mapLinks Link.leaveGap { s with carousel := { s.carousel with state := .stopping } }))
  else answer .ok [] s

/-- CAROUSEL_STOP. -/
def execCarouselStop (tag : Half) (s : State) : Result := .next (gateway (.carouselStop tag) carouselStop s)

/-! ### The choice of a cycle (R99, R100) -/

/-- What a cycle start chooses: content, composition, and the counts as they will stand. -/
structure Choice where
  content : Option BankId
  composition : Composition
  interleave : Nat
  refresh : Nat
deriving DecidableEq, Repr

/-- The choice of content with the interleave count that follows (R99). -/
def chooseContent (l : Link) (s : State) : Option BankId × Nat :=
  match s.pendingBank with
  | some p =>
    match s.inForce with
    | some f =>
      if 0 < l.settings.interleave ∧ l.interleave = l.settings.interleave ∧ !(s.recOf f).damaged then (some f, 0)
      else (some p, min (l.interleave + 1) l.settings.interleave)
    | none => (some p, min (l.interleave + 1) l.settings.interleave)
  | none => (s.inForce, l.interleave)

/-- The entry already holds the content (R100, step 2). -/
def satisfied (e : Entry) (b : BankId) (s : State) : Bool :=
  (decide (e.pending = .ready) && decide (s.pendingBank = some b)) ||
    (decide (e.holding = .holds) && decide (s.inForce = some b))

/-- CHANGED is eligible (R100, step 3). -/
def changedEligible (e : Entry) (b : BankId) (s : State) : Bool :=
  decide (s.pendingBank = some b) && decide (e.holding = .holds) &&
    s.inForce.any fun f => decide ((s.recOf b).comparedSeq = (s.recOf f).seq)

/-- The choice of content and composition on link `k` (R99, R100). -/
def chooseCycle (k : LinkId) (s : State) : Choice :=
  let l := s.link k
  let (content, interleave) := chooseContent l s
  match content with
  | none => ⟨none, .hold, interleave, l.refresh⟩
  | some b =>
    if (s.recOf b).damaged then ⟨none, .hold, interleave, l.refresh⟩
    else if satisfied (s.entry k) b s then
      if l.refresh + 1 = l.settings.refresh then ⟨some b, .full, interleave, 0⟩
      else ⟨some b, .hold, interleave, l.refresh + 1⟩
    else if changedEligible (s.entry k) b s then ⟨some b, .changed, interleave, l.refresh⟩
    else ⟨some b, .full, interleave, l.refresh⟩

/-- The words a start reads: HEADER and the directory, none for HOLD (R101). A directory entry is one item, so its first
position is read with its count (DESIGN CHOICE log 49). -/
def startItems : Composition → List Item
  | .full => Item.dims :: (List.range 256).map Item.dirEntry
  | .changed => Item.dims :: (List.range 256).map Item.dirEntry
  | .hold => []

/-- The choice is made again after each read that meets an uncorrectable error; a bank that fails is withdrawn or
marked, so a third choice reads nothing (R101). -/
def settleChoice (k : LinkId) : Nat → State → State × Choice
  | 0, s => (s, chooseCycle k s)
  | fuel + 1, s =>
    let c := chooseCycle k s
    match c.content with
    | none => (s, c)
    | some b =>
      let (s1, ok) := readItems .carousel b (startItems c.composition) s
      if ok then (s1, c) else settleChoice k fuel s1

/-! ### The frames of a cycle (R92 to R97) -/

/-- Parts of `size` that hold `n` things, rounded up. -/
def partsOf (size n : Nat) : Nat := (n + (size - 1)) / size

/-- The tariff frames (R95). -/
def tariffFrames (t : Tariff) : List FrameSpec :=
  FrameSpec.classes ::
    ((List.range (partsOf 510 (t.zones * t.zones + t.classCount * (t.zones * t.zones)))).map FrameSpec.matrix ++
      (List.range (max 1 (partsOf 22 t.productCount))).map FrameSpec.products)

/-- The shelves a cycle includes (R92). -/
def includedShelves (b : Bank) (c : Composition) : List Nat :=
  (List.range 256).filter fun i =>
    decide (0 < (b.ranges.directory.getD i ⟨0, 0⟩).count) &&
      match c with
      | .full => true
      | .changed => b.record.shelfChanged.getD i false
      | .hold => false

/-- Position 3 of R92 is present. -/
def tariffIncluded (b : Bank) : Composition → Bool
  | .full => true
  | .changed => b.record.tariffChanged
  | .hold => false

/-- The frames of a cycle before its CYCLE_END, in order (R92). -/
def cycleFrames (content : Option BankId) (c : Composition) (s : State) : List FrameSpec :=
  match content with
  | none => [.head]
  | some b =>
    let bank := s.bank b
    FrameSpec.head ::
      ((match c with
        | .hold => []
        | .full => [FrameSpec.directory 0, FrameSpec.directory 1]
        | .changed => [FrameSpec.directory 0, FrameSpec.directory 1]) ++
        (if tariffIncluded bank c then tariffFrames bank.tariff else []) ++
        (includedShelves bank c).flatMap fun i =>
          (List.range (partsOf 68 (bank.ranges.directory.getD i ⟨0, 0⟩).count)).map (FrameSpec.shelf i))

/-- A bank's record, or the reset record when there is no bank: its seq, CRC and versions are 0 (R93). -/
def State.recOrZero (s : State) : Option BankId → BankRecord
  | some b => s.recOf b
  | none => BankRecord.reset

/-- The flags of a CYCLE_HEAD (R93, R199). -/
def headFlags (tariff : Bool) (s : State) : Byte :=
  (if tariff then 1#8 else 0#8) ||| (if s.inForce.isNone && s.pendingBank.isNone then 2#8 else 0#8) |||
    (if s.inForce.any fun f => (s.recOf f).damaged then 4#8 else 0#8)

/-- The CYCLE_HEAD body (R93, R199). -/
def headBody (k : LinkId) (c : Context) (s : State) : List Byte :=
  let r := s.recOrZero c.content
  [n8 k.val] ++ be16 c.number ++ [c.composition.code] ++ be16 c.inForceSeq ++ be16 c.pendingSeq ++ be16 c.contentSeq ++
    be32 r.imageCrc ++ be32 r.tariffVersion ++ be32 r.blockVersion ++ activationBytes c.activation ++
    n16 c.shelvesIncluded ++ n16 c.following ++ [headFlags c.tariffIncluded s]

/-- The context a start fixes (R98, R101). -/
def contextOf (k : LinkId) (number : Half) (c : Choice) (s : State) : Context :=
  let frames := cycleFrames c.content c.composition s
  let ctx : Context :=
    { number := number
      content := c.content
      contentSeq := s.seqOf c.content
      composition := c.composition
      inForceSeq := s.seqOf s.inForce
      pendingSeq := s.seqOf s.pendingBank
      activation := s.activation
      tariffIncluded := c.content.any fun b => tariffIncluded (s.bank b) c.composition
      shelvesIncluded :=
        match c.content with
        | some b => (includedShelves (s.bank b) c.composition).length
        | none => 0
      following := frames.length
      frameIndex := 0
      sent := 0
      aborted := 0
      cut := false
      head := []
      todo := frames
      wip := none
      ending := none }
  { ctx with head := headBody k ctx s }

/-- The context is fixed as one act, with the counts and the reader (R101). -/
def fixCycle (k : LinkId) (c : Choice) (s : State) : State :=
  let l := s.link k
  let s1 :=
    s.setLink k
      { l with
        ctx := contextOf k l.cycleCounter c s
        interleave := c.interleave
        refresh := c.refresh
        phase := .inCycle }
  match c.content with
  | some b => addReader b s1
  | none => s1

/-- The cycle gap of link `k` has run and a cycle starts: the take-up, the counter, the choice, the context (R88, R91,
R99 to R101). -/
def cycleStart (k : LinkId) (s : State) : State :=
  let l := s.link k
  if l.state = .enabled ∧ l.phase = .gap ∧ s.carousel.state = .running then
    let l1 := l.takeUp s.carousel.settings
    let (s1, c) := settleChoice k 3 (s.setLink k { l1 with cycleCounter := l1.cycleCounter + 1#16 })
    fixCycle k c s1
  else s

/-- CYCLE_START. -/
def execCycleStart (link : LinkId) (s : State) : Result := .next (event (cycleStart link) s)

/-! ### Writing a frame (R94 to R97, R105, R107) -/

/-- The kind of a frame. -/
def FrameSpec.kind : FrameSpec → FrameKind
  | .head => .cycleHead
  | .directory _ => .directory
  | .classes => .classes
  | .matrix _ => .matrix
  | .products _ => .products
  | .shelf _ _ => .shelf

/-- The place of fare value `i` of the sequence MATRIX carries: base fares, then prices (R95). -/
def valueItem (t : Tariff) (i : Nat) : Item :=
  if i < t.zones * t.zones then .base i else .price (i - t.zones * t.zones)

/-- The positions of part `i` of `n` things in parts of `size`. -/
def partRange (size i n : Nat) : List Nat := (List.range (min size (n - size * i))).map (size * i + ·)

/-- The part header and the items of a content frame (R94 to R96, R199). The frame reads the words of its items and no
others: a SHELF frame does not read its shelf's directory entry again, nor a MATRIX or PRODUCTS frame the HEADER for its
part count (DESIGN CHOICE log 49). -/
def frameContent (b : Bank) : FrameSpec → List Byte × List Item
  | .head => ([], [])
  | .directory h => ([n8 h], (partRange 128 h 256).map Item.dirEntry)
  | .classes => (be32 b.record.tariffVersion, Item.dims :: (List.range b.tariff.classCount).map Item.classRec)
  | .matrix i =>
    let n := b.tariff.zones * b.tariff.zones + b.tariff.classCount * (b.tariff.zones * b.tariff.zones)
    ([n8 i, n8 (partsOf 510 n)], (partRange 510 i n).map (valueItem b.tariff))
  | .products i =>
    ([n8 i, n8 (max 1 (partsOf 22 b.tariff.productCount))], (partRange 22 i b.tariff.productCount).map Item.product)
  | .shelf sh i =>
    let d := b.ranges.directory.getD sh ⟨0, 0⟩
    ([n8 sh, n8 i, n8 (partsOf 68 d.count)], (partRange 68 i d.count).map fun p => Item.record (d.first + p))

/-- The pieces of a frame whose body is known: lead-in, covered bytes, CRC (R91, R116). -/
def wholePieces (leadIn : Nat) (kind : FrameKind) (body : List Byte) : List Piece :=
  (if leadIn = 0 then [] else [Piece.plain (List.replicate leadIn 0xAA#8)]) ++
    [Piece.covered (kind.code :: (n16 body.length ++ body)), Piece.crc]

/-- The pieces of a content frame (R116). -/
def contentPieces (b : Bank) (spec : FrameSpec) : List Piece :=
  let (header, items) := frameContent b spec
  let length := header.length + (items.map fun i => (itemBytes b i).length).sum
  Piece.covered (spec.kind.code :: (n16 length ++ header)) :: (items.map Piece.item ++ [Piece.crc])

/-- A frame about to be written. -/
def newWip (kind : FrameKind) (pieces : List Piece) : Wip := ⟨kind, pieces, crc16Preset, 0, false, false⟩

/-- The frame of a spec on a link (R92 to R96): the head from the context, the others from the content bank. -/
def wipOf (l : Link) (bank : Option Bank) (spec : FrameSpec) : Wip :=
  match spec, bank with
  | .head, _ => newWip .cycleHead (wholePieces l.settings.leadIn .cycleHead l.ctx.head)
  | spec, some b => newWip spec.kind (contentPieces b spec)
  | spec, none => newWip spec.kind (wholePieces 0 spec.kind [])

/-- The next frame of the cycle begins, unless one is in progress (R92, R107). -/
def Link.beginFrame (bank : Option Bank) (l : Link) : Link :=
  match l.ctx.wip with
  | some _ => l
  | none =>
    match l.ctx.ending with
    | some body => { l with ctx := { l.ctx with ending := none, wip := some (newWip .cycleEnd (wholePieces 0 .cycleEnd body)) } }
    | none =>
      match l.ctx.todo with
      | spec :: rest => { l with ctx := { l.ctx with todo := rest, wip := some (wipOf l bank spec) } }
      | [] => l

/-- How far the writing of a frame has come within one service. -/
structure Emit where
  state : State
  left : List Piece
  crc : Half
  out : List Byte
  room : Nat
  unreadable : Bool

/-- Bytes go out as far as there is room; `rest` holds the others in a piece of their kind. -/
def Emit.push (bs : List Byte) (covered : Bool) (ps : List Piece) (e : Emit) : Emit :=
  let now := bs.take e.room
  let later := bs.drop e.room
  { e with
    left := if later = [] then ps else (if covered then Piece.covered later else Piece.plain later) :: ps
    crc := if covered then crc16Feed e.crc now else e.crc
    out := e.out ++ now
    room := e.room - now.length }

/-- The byte at place `n` of an item comes from one of the unreadable words. A directory entry's CRC and flag, bytes 2 to
6, come from the bank record (R94). -/
def comesFrom (bad : List WordLoc) (b : BankId) (i : Item) (n : Nat) : Bool :=
  match i with
  | .dirEntry _ => decide (n < 2) && held
  | _ => held
where
  held : Bool :=
    bad.any fun l =>
      (Config.byteWords i n).any fun o => decide (o ∈ Config.itemWords i) && decide (l = .bank b (itemRegion i) o)

/-- The bytes of an item as read: those of its readable words as they are, and a free value for each of the others
(R105, DESIGN CHOICE log 18). -/
def bytesRead (bad : List WordLoc) (b : BankId) (i : Item) (free : Nat) (bytes : List Byte) : List Byte :=
  bytes.mapIdx fun n x => if comesFrom bad b i n then Config.unreadableByte (free + n) else x

/-- An item is read as reader CAROUSEL, every word of it, and its bytes go out (R105). All its words are read in the
service that writes its first byte, and the bytes that do not fit the FIFO are held for a later one (DESIGN CHOICE log
48). A word that two items of a frame share is read for each of them (DESIGN CHOICE log 12). -/
def Emit.item (b : BankId) (i : Item) (ps : List Piece) (e : Emit) : Emit :=
  let (s1, bad) := readOn .carousel (hitsIn b [i] e.state.upsets) e.state
  let bytes := itemBytes (s1.bank b) i
  if bad = [] then Emit.push bytes true ps { e with state := s1 }
  else
    Emit.push (bytesRead bad b i s1.free bytes) true ps
      { e with state := { s1 with free := s1.free + bytes.length }, unreadable := true }

/-- The CRC-16 of a frame, inverted when a word of it was unreadable (R105). -/
def Emit.closing (e : Emit) : List Byte := be16 (if e.unreadable then ~~~e.crc else e.crc)

/-- Pieces go out one after the other until the frame is written or the FIFO is full (R107). -/
def emitPieces (content : Option BankId) : List Piece → Emit → Emit
  | [], e => { e with left := [] }
  | p :: ps, e =>
    if e.room = 0 then { e with left := p :: ps }
    else
      let e1 :=
        match p, content with
        | .plain bs, _ => e.push bs false ps
        | .covered bs, _ => e.push bs true ps
        | .crc, _ => e.push e.closing false ps
        | .item i, some b => e.item b i ps
        | .item _, none => e.push [] true ps
      if e1.left = ps then emitPieces content ps e1 else e1

/-- The bytes written join the FIFO as the frame's, behind the others; the bytes of an aborted frame are dropped
(R106, R109, R119). -/
def Link.storeBytes (kind : FrameKind) (first whole : Bool) (out : List Byte) (l : Link) : Link :=
  if 0 < l.discard then { l with discard := l.discard - out.length }
  else if first then { l with txFifo := l.txFifo ++ [⟨kind, out, whole⟩] }
  else
    match l.txFifo.getLast? with
    | some f => { l with txFifo := l.txFifo.dropLast ++ [{ f with bytes := f.bytes ++ out, whole := whole }] }
    | none => { l with txFifo := [⟨kind, out, whole⟩] }

/-- What the context holds after a service has written part of frame `w` (R97, R98, R105). A frame that cannot be read
joins the frames aborted at the end of the service that reads the word, the frame whole or not (DESIGN CHOICE log 47). -/
def Context.wrote (w : Wip) (e : Emit) (c : Context) : Context :=
  let aborted := w.aborted || e.unreadable
  let c1 := { c with aborted := c.aborted + (if e.unreadable && !w.aborted then 1 else 0) }
  if e.left = [] then
    { c1 with
      wip := none
      frameIndex := c.frameIndex + 1
      sent := c.sent + (if aborted || decide (w.kind = .cycleEnd) then 0 else 1) }
  else
    { c1 with
      wip :=
        some
          { w with
            pieces := e.left
            crc := e.crc
            written := w.written + e.out.length
            unreadable := e.unreadable
            aborted := aborted } }

/-- The boundary after a frame: the cut when the content bank has stopped being sendable (R102), else the CYCLE_END
when no other frame is left (R101). A CYCLE_END composed here stands: a HOLD with content whose CYCLE_HEAD was whole
while its bank was sendable is not cut when the bank is lost before its CYCLE_END is written (DESIGN CHOICE log 46). -/
def frameBoundary (k : LinkId) (s : State) : State :=
  let l := s.link k
  match l.ctx.content with
  | some b =>
    if !(s.recOf b).sendable then takeCut k s else if l.ctx.todo = [] then composeEnd k s else s
  | none => if l.ctx.todo = [] then composeEnd k s else s

/-- A service of link `k`: at most one frame, as far as the FIFO has room (R107). The frame is begun before its words
are read, so that a mark one of them sets does not cut this cycle before the frame is whole (R102, R105). -/
def serveLink (k : LinkId) (s : State) : State :=
  let l := (s.link k).beginFrame ((s.link k).ctx.content.map s.bank)
  match l.ctx.wip with
  | none => s
  | some w =>
    let room := if 0 < l.discard then l.discard else Config.txFifoBytes - l.txFill
    let e := emitPieces l.ctx.content w.pieces ⟨s.setLink k l, w.pieces, w.crc, [], room, w.unreadable⟩
    let l1 := e.state.link k
    let s1 :=
      e.state.setLink k
        ({ l1 with ctx := l1.ctx.wrote w e }.storeBytes w.kind (decide (w.written = 0)) (decide (e.left = [])) e.out)
    let s2 := if e.left = [] ∧ w.kind ≠ .cycleEnd then frameBoundary k s1 else s1
    tryBegin k s2

/-! ### What has passed on the lines (R106, R121) -/

/-- The bytes a transmitter has taken leave the carousel frame on the line (log 21). -/
def Link.drain (taken : Nat) (l : Link) : Link :=
  match l.tx, l.txFifo with
  | .carousel _, f :: rest => { l with txFifo := { f with bytes := f.bytes.drop taken } :: rest }
  | _, _ => l

/-- Bytes of the frame being received reach an ENABLED link: they join its receive FIFO as far as there is room, and a
byte beyond is dropped, which is noted (R121; log 23). -/
def Link.arrive (bytes : List Byte) (l : Link) : Link :=
  if l.state = .enabled then
    let room := Config.rxFifoBytes - l.rxFill
    { l with rxFrame := l.rxFrame ++ bytes.take room, rxDropped := l.rxDropped || decide (room < bytes.length) }
  else l

/-- What has passed on each line since the service before (logs 21 and 23). -/
def passLines (passed : List (Nat × List Byte)) (s : State) : State :=
  allLinks.foldl
    (fun s k =>
      let (taken, arrived) := passed.getD k.val (0, [])
      s.setLink k (((s.link k).drain taken).arrive arrived)) s

/-! ### REFILL_SERVICE (R106, R107) -/

/-- Some part of the cycle is still to be written (R106). -/
def Context.unfinished (c : Context) : Bool := c.wip.isSome || c.ending.isSome || decide (c.todo ≠ [])

/-- The link needs refill (R106). -/
def Link.needsRefill (l : Link) : Bool :=
  decide (l.state = .enabled) && l.inCycle && l.ctx.unfinished && decide (l.txFill ≤ l.threshold)

/-- The links after the pointer in rotating order, the pointer's own last (R107). -/
def linksAfter (p : LinkId) : List LinkId := allLinks.drop (p.val + 1) ++ allLinks.take (p.val + 1)

/-- One refill service: the first link after the pointer that needs refill, if any (R107). -/
def refillService (passed : List (Nat × List Byte)) (s : State) : State :=
  let s1 := passLines passed s
  match (linksAfter s1.carousel.pointer).find? fun k => (s1.link k).needsRefill with
  | none => s1
  | some k => serveLink k { s1 with carousel := { s1.carousel with pointer := k } }

/-- REFILL_SERVICE. -/
def execRefillService (passed : List (Nat × List Byte)) (s : State) : Result := .next (event (refillService passed) s)

end Sys2Proof.Machine
end

