-- ==== Sys2Proof/Machine/CutoverCommands.lean ====
section
/-!
DEFINITION. Cutover Control and the service clock: TIME_SET, CUTOVER_CONFIG, CUTOVER_NOW and the timed events (chapter 8).
-/

namespace Sys2Proof.Machine

/-! ### The service clock (R152, R153) -/

/-- TIME_SET at Cutover Control (R153). -/
def timeSet (day minute : Half) (s : State) : Reply :=
  if 1439 < minute.toNat then refuse .badArg s
  else answer .ok (be16 day ++ be16 minute) (examineAt { s with clock := ⟨true, day, minute, 0⟩ })

/-- TIME_SET. -/
def execTimeSet (tag day minute : Half) (s : State) : Result := .next (gateway (.timeSet tag day minute) (timeSet day minute) s)

/-- The clock holds: day 65535, minute 1439 (R152). -/
def Clock.atEnd (c : Clock) : Bool := decide (c.day = 65535#16) && decide (c.minute = 1439#16)

/-- The minute after (R152). -/
def Clock.nextMinute (c : Clock) : Clock :=
  if c.minute.toNat < 1439 then { c with minute := c.minute + 1#16, ms := 0 }
  else { c with day := c.day + 1#16, minute := 0#16, ms := 0 }

/-- The minute of a VALID clock is due to advance (R152). -/
def Clock.minuteDue (c : Clock) : Bool := c.valid && decide (59999 ≤ c.ms) && !c.atEnd

/-- The minute of a VALID clock advances when its milliseconds have run, and the AT trigger is examined; after a TIME_SET
taken first they have not (R152, R153, R159, log 4). -/
def minuteEvent (s : State) : State :=
  if s.clock.minuteDue then examineAt { s with clock := s.clock.nextMinute } else s

/-- MINUTE_EVENT. -/
def execMinuteEvent (s : State) : Result := .next (event minuteEvent s)

/-! ### Settings and limits (R155, R158, R162) -/

/-- The wait limit in milliseconds (R158). -/
def Cutover.waitMs (c : Cutover) : Nat := c.waitLimit * 60000

/-- The inhibit grace in milliseconds (R162). -/
def Cutover.graceMs (c : Cutover) : Nat := c.grace * 1000

/-- The wait timer stands at the wait limit in WAITING under ON_READY (R158). -/
abbrev State.waitOver (s : State) : Prop :=
  s.cutover.state = .waiting ∧ s.activation = some .onReady ∧ s.cutover.waitMs ≤ s.cutover.waitTimer

/-- The grace timer stands at the inhibit grace in DEFERRED (R162). -/
abbrev State.graceOver (s : State) : Prop := s.cutover.state = .deferred ∧ s.cutover.graceMs ≤ s.cutover.graceTimer

/-- The wait expires or the grace runs out at a configuration (R155). -/
def applyLimits (s : State) : State :=
  if s.waitOver then expireWait s else if s.graceOver then endDeferral .grace s else s

/-- CUTOVER_CONFIG at Cutover Control (R155). -/
def cutoverConfig (waitLimit : Byte) (grace : Half) (s : State) : Reply :=
  let w := clamp 1 240 waitLimit.toNat
  let g := clamp 0 600 grace.toNat
  answer .ok (n8 w :: n16 g) (applyLimits { s with cutover := { s.cutover with waitLimit := w, grace := g } })

/-- CUTOVER_CONFIG. -/
def execCutoverConfig (tag : Half) (waitLimit : Byte) (grace : Half) (s : State) : Result :=
  .next (gateway (.cutoverConfig tag waitLimit grace) (cutoverConfig waitLimit grace) s)

/-- The wait timer has reached the wait limit under ON_READY (R158, log 4). -/
def waitExpired (s : State) : State := if s.waitOver then expireWait s else s

/-- WAIT_EXPIRED. -/
def execWaitExpired (s : State) : Result := .next (event waitExpired s)

/-- The grace timer has reached the inhibit grace in DEFERRED (R162, log 4). -/
def graceRunOut (s : State) : State := if s.graceOver then endDeferral .grace s else s

/-- GRACE_RUN_OUT. -/
def execGraceRunOut (s : State) : Result := .next (event graceRunOut s)

/-! ### INHIBIT (R161, R162) -/

/-- The taken level becomes `level`: two successive samples of the pin have agreed on it (R161, log 26). -/
def takeInhibit (level : Bool) (s : State) : State :=
  { s with cutover := { s.cutover with inhibit := level, lastSample := level, pin := level } }

/-- The taken INHIBIT level becomes asserted (R161). -/
def inhibitAssertion (s : State) : State := takeInhibit true s

/-- INHIBIT_ASSERTION. -/
def execInhibitAssertion (s : State) : Result := .next (event inhibitAssertion s)

/-- The taken INHIBIT level becomes deasserted, which ends a deferral (R161, R162). -/
def inhibitDeassertion (s : State) : State :=
  if s.cutover.state = .deferred then endDeferral .release (takeInhibit false s) else takeInhibit false s

/-- INHIBIT_DEASSERTION. -/
def execInhibitDeassertion (s : State) : Result := .next (event inhibitDeassertion s)

/-! ### CUTOVER_NOW (R163) -/

/-- The answer of a CUTOVER_NOW that may have performed the cutover: OK with the new seq when it has, ACCEPTED when the
cutover waits (R163). -/
def cutoverAnswer (seq : Half) (s : State) : Reply :=
  if s.cutover.state = .deferred then answer .accepted [] s else answer .ok (be16 seq) s

/-- CUTOVER_NOW at Cutover Control (R163). -/
def cutoverNow (option : Byte) (s : State) : Reply :=
  match cutoverOptionOf option with
  | none => refuse .badArg s
  | some force =>
    let seq := s.seqOf s.pendingBank
    match s.cutover.state with
    | .idle => refuse .noImage s
    | .waiting =>
      if force then answer .ok (be16 seq) (performCutover (some .force) .force s)
      else cutoverAnswer seq (takeTrigger .command s)
    | .deferred =>
      if force then answer .ok (be16 seq) (endDeferral .force s) else answer .accepted [] s

/-- CUTOVER_NOW. -/
def execCutoverNow (tag : Half) (option : Byte) (s : State) : Result :=
  .next (gateway (.cutoverNow tag option) (cutoverNow option) s)

end Sys2Proof.Machine
end

