-- ==== Sys2Proof/Machine/EventCommands.lean ====
section
/-!
DEFINITION. The Event and Error Unit and the scrubber (chapter 10).
-/

namespace Sys2Proof.Machine

/-! ### EVENTS_READ, EVENTS_CLEAR, EVENT_MASK (R189 to R191) -/

/-- The package result as EVENTS_READ carries it (R80, R190). -/
def packageResultBytes (r : PackageResult) : List Byte :=
  [r.outcome.code] ++ be16 r.packageId ++ [packageKindCode r.kind, r.code.code] ++ optional 2 be16 r.index ++
    be16 r.records ++ be16 r.evictions ++ be16 r.splits

/-- Area, region and offset of a word; the region is absent in the package buffer (R183). -/
def locBytes : WordLoc → List Byte
  | .bank b r o => [bankCode b] ++ optional 1 (fun r => [regionCode r]) (some r) ++ n16 o
  | .buffer o => [2#8] ++ optional 1 (fun r => [regionCode r]) none ++ n16 o

/-- The capture, or an indication that it is empty (R183, R190; DESIGN CHOICE log 20). -/
def captureBytes (c : Option Capture) : List Byte :=
  optional 8
    (fun c => locBytes c.loc ++ [c.reader.code] ++ optional 1 (fun (t : BankState) => [t.code]) c.bankState) c

/-- The scrubber's period, state, timer, position and passes completed (R184, R190). -/
def scrubBytes (c : Scrub) : List Byte :=
  let (state, position) :=
    match c.mode with
    | .off => (0#8, none)
    | .resting => (1#8, none)
    | .walking b r o => (2#8, some (b, r, o))
  [n8 c.period, state] ++ n32 c.timer ++
    optional 4 (fun (p : BankId × Region × Nat) => [bankCode p.1, regionCode p.2.1] ++ n16 p.2.2) position ++ n16 c.passes

/-- The response of EVENTS_READ (R190). -/
def eventsBytes (s : State) : List Byte :=
  let u := s.events
  be24 u.flags ++ be24 u.masks ++ [u.sets.changed, u.sets.silent, u.sets.mismatch, u.sets.fault, u.sets.testDone] ++
    be16 u.cutoverSeq ++ packageResultBytes s.loader.result ++ captureBytes u.capture ++ n32 u.corrected ++
    n16 u.uncorrectable ++ scrubBytes s.scrub

/-- EVENTS_READ at the Event and Error Unit: it changes nothing (R190). -/
def eventsRead (s : State) : Reply := answer .ok (eventsBytes s) s

/-- EVENTS_READ. -/
def execEventsRead (tag : Half) (s : State) : Result := .next (gateway (.eventsRead tag) eventsRead s)

/-- EVENTS_CLEAR at the Event and Error Unit (R191). -/
def eventsClear (named : FlagSet) (s : State) : Reply :=
  if !flagSetOk named then refuse .badArg s
  else
    let u := s.events.clear named
    answer .ok (be24 u.flags) { s with events := u }

/-- EVENTS_CLEAR. -/
def execEventsClear (tag : Half) (flags : FlagSet) (s : State) : Result :=
  .next (gateway (.eventsClear tag flags) (eventsClear flags) s)

/-- EVENT_MASK at the Event and Error Unit (R189). The level of ALERT is sent as 1 when asserted and 0 when deasserted
(DESIGN CHOICE log 20). -/
def eventMask (masks : FlagSet) (s : State) : Reply :=
  if !flagSetOk masks then refuse .badArg s
  else
    let u := { s.events with masks := masks }
    answer .ok (be24 masks ++ [flagByte u.alert]) { s with events := u }

/-- EVENT_MASK. -/
def execEventMask (tag : Half) (masks : FlagSet) (s : State) : Result :=
  .next (gateway (.eventMask tag masks) (eventMask masks) s)

/-! ### The scrubber (R184 to R186) -/

/-- SCRUB_CONFIG by the table of R184. -/
def Scrub.configure (period : Nat) (c : Scrub) : Scrub :=
  let c1 := { c with period := period }
  if period = 0 then { c1 with mode := .off, timer := 0 }
  else
    match c.mode with
    | .off => { c1 with mode := .resting, timer := 0 }
    | .resting => if c1.periodMs ≤ c1.timer then c1.beginPass else c1
    | .walking _ _ _ => c1

/-- SCRUB_CONFIG at the scrubber (R184). -/
def scrubConfig (period : Byte) (s : State) : Reply :=
  answer .ok [period] { s with scrub := s.scrub.configure period.toNat }

/-- SCRUB_CONFIG. -/
def execScrubConfig (tag : Half) (period : Byte) (s : State) : Result :=
  .next (gateway (.scrubConfig tag period) (scrubConfig period) s)

/-- A pass is due: the period timer has reached the period while RESTING (R184). -/
def Scrub.periodDue (c : Scrub) : Bool := decide (c.mode = .resting) && decide (c.periodMs ≤ c.timer)

/-- The period timer has reached the period while RESTING: a pass begins (R184, log 4). -/
def scrubPeriod (s : State) : State := if s.scrub.periodDue then { s with scrub := s.scrub.beginPass } else s

/-- SCRUB_PERIOD. -/
def execScrubPeriod (s : State) : Result := .next (event scrubPeriod s)

/-- The words of a region in a bank's extent: those the copy has written so far while it is COPYING, none while it is
EMPTY or the region is marked (R185, log 16). -/
def scrubExtent (b : BankId) (region : Region) (s : State) : List Nat :=
  let words (items : List Item) : List Nat := items.flatMap Config.itemWords
  if (s.recOf b).state = .empty ∨ ((s.recOf b).marks.get region).isSome then []
  else if (s.recOf b).state = .copying then
    match s.inForce with
    | some f => (words (extentItems (s.bank f) region)).filter fun o => decide (o < s.copied.get region)
    | none => []
  else words (extentItems (s.bank b) region)

/-- The first word of the pass at or after a position (R185). -/
def scrubNext (s : State) : List (BankId × Region) → Nat → Option (BankId × Region × Nat)
  | [], _ => none
  | (b, r) :: rest, lo =>
    match ((scrubExtent b r s).filter fun o => decide (lo ≤ o)).min? with
    | some o => some (b, r, o)
    | none => scrubNext s rest 0

/-- The next word the scrubber reads, if any is left in its pass. -/
def State.scrubWord (s : State) : Option (BankId × Region × Nat) :=
  match s.scrub.mode with
  | .walking b r o => scrubNext s (regionsFrom b r) o
  | .off => none
  | .resting => none

/-- The scrubber moves on behind the word, which is read as reader SCRUB; a mark that the read sets makes it leave the region
(R185, R186). -/
def scrubOne (b : BankId) (r : Region) (o : Nat) (s : State) : State :=
  let s1 := { s with scrub := { s.scrub with mode := .walking b r (o + 1) } }
  let s2 := (readWords .scrub (fun l => decide (l = .bank b r o)) s1).1
  { s2 with free := s2.free + 1 }

/-- The pass ends when no word is left in it (R185). -/
def endPassIfDone (s : State) : State :=
  match s.scrub.mode with
  | .walking _ _ _ => if s.scrubWord.isNone then { s with scrub := s.scrub.endPass } else s
  | .off => s
  | .resting => s

/-- Memory errors strike the Image Store (R180 to R182, log 10). -/
def strikeAll (us : List Upset) (s : State) : State :=
  { s with upsets := us.foldl (fun acc u => strike u acc) s.upsets }

/-- The scrubber reads the next word of its pass, and moves on or ends the pass (R186). Where the read has marked the last
region of the pass, leaving that region has ended the pass, and a pass that has begun at once is not judged in this step. -/
def scrubRead (strikes : List Upset) (s : State) : State :=
  let s1 := strikeAll strikes (copyOn s)
  match s1.scrubWord with
  | some (b, r, o) =>
    let s2 := scrubOne b r o s1
    if s2.scrub.mode = .walking .bankA .header 0 then s2 else endPassIfDone s2
  | none => endPassIfDone s1

/-- SCRUB_READ. -/
def execScrubRead (strikes : List Upset) (s : State) : Result := .next (event (scrubRead strikes) s)

end Sys2Proof.Machine
end

