-- ==== Sys2Proof/Machine/Lookup.lean ====
section
/-!
DEFINITION. The Lookup Engine: QUERY and LOOKUP_COMPLETE, the take, the search and the verdicts (chapter 9).
-/

namespace Sys2Proof.Machine

/-! ### Arbitration (R167, R170) -/

/-- The requesters in their order (R167). -/
def requesters : List Requester :=
  [.link 0, .link 1, .link 2, .link 3, .link 4, .link 5, .link 6, .link 7, .gateway]

/-- A requester's place in that order. -/
def Requester.place : Requester → Nat
  | .link k => k.val
  | .gateway => 8

/-- The requester after this one, round again (R167). -/
def Requester.after : Requester → Requester
  | .link k => if k = 7 then .gateway else .link (k + 1)
  | .gateway => .link 0

/-- The requesters from the pointer on, round again (R170). -/
def requestersFrom (p : Requester) : List Requester := requesters.drop p.place ++ requesters.take p.place

/-- The oldest waiting query of a requester. -/
def Lookups.oldest (u : Lookups) : Requester → Option Query
  | .link k => (u.queues.get k).head?
  | .gateway =>
    match u.slot with
    | .waiting q => some q
    | .free => none
    | .inService => none
    | .answered => none

/-- The requester whose query is taken next, with that query (R170). -/
def Lookups.next (u : Lookups) : Option (Requester × Query) :=
  (requestersFrom u.pointer).findSome? fun r => (u.oldest r).map fun q => (r, q)

/-- The number of queries waiting (R167). -/
def Lookups.waiting (u : Lookups) : Nat :=
  (u.queues.toList.map List.length).sum +
    match u.slot with
    | .waiting _ => 1
    | .free => 0
    | .inService => 0
    | .answered => 0

/-- The query leaves its queue, or its slot goes into service, and the pointer moves to the requester after (R168,
R170). -/
def Lookups.removeOldest (r : Requester) (u : Lookups) : Lookups :=
  match r with
  | .link k => { u with queues := u.queues.set k (u.queues.get k).tail, pointer := r.after }
  | .gateway => { u with slot := .inService, pointer := r.after }

/-! ### The marks a lookup examines (R171, R172) -/

/-- A region that the kind needs carries a mark (R171). -/
def QueryKind.needsMarked (kind : QueryKind) (m : Marks) : Bool :=
  match kind with
  | .cardCheck => m.ranges.isSome
  | .fareQuote => m.header.isSome || m.tariff.isSome
  | .productInfo => m.header.isSome || m.tariff.isSome

/-! ### Delivery (R177, R179) -/

/-- The answer of a lookup (R177). -/
def answerOf (s : State) (v : Service) (verdict : Verdict) : Answer :=
  ⟨v.query.tag, v.query.args.kind, verdict, s.seqOf v.bank, v.day⟩

/-- An answer for a link joins its answer queue and is counted; an idle link sends it at once (R125, R151, R177). -/
def deliverLink (k : LinkId) (a : Answer) (s : State) : State :=
  let l := s.link k
  let e := s.entry k
  tryBegin k ((s.setLink k { l with answers := l.answers ++ [a] }).setEntry k { e with lookups := satAdd 65535 e.lookups 1 })

/-- An answer for the gateway becomes the QUERY's response and stands in the slot until it is fetched or lost (R169,
R177). -/
def deliverGateway (a : Answer) (s : State) : State :=
  let s1 := respond .ok (answerBody a) s
  { s1 with lookups := { s1.lookups with slot := .answered } }

/-- The lookup in service completes: its reader is released, it becomes absent, and its answer is delivered or
discarded (R172, R177, R179). -/
def finishLookup (v : Service) (verdict : Verdict) (s : State) : State :=
  let a := answerOf s v verdict
  let s1 :=
    match v.bank with
    | some b => releaseReader b s
    | none => s
  let s2 := { s1 with lookups := { s1.lookups with service := none } }
  if v.discard then s2
  else
    match v.requester with
    | .link k => deliverLink k a s2
    | .gateway => deliverGateway a s2

/-! ### The take (R170, R171) -/

/-- The record of a lookup taken now (R171). -/
def serviceOf (r : Requester) (q : Query) (s : State) : Service :=
  ⟨r, q, s.inForce, if s.clock.valid then some s.clock.day else none, false⟩

/-- The verdict of a lookup that completes at its take: no image, or a mark on a region it needs (R171). -/
def verdictAtTake (v : Service) (s : State) : Option Verdict :=
  match v.bank with
  | none => some (.unknown .noImage)
  | some b => if v.query.args.kind.needsMarked (s.recOf b).marks then some (.unknown .damaged) else none

/-- The query of requester `r` goes into service; the bank taken gains a reader (R171). -/
def takeQuery (r : Requester) (q : Query) (s : State) : State :=
  let s1 := { s with lookups := { s.lookups.removeOldest r with service := some (serviceOf r q s) } }
  match s.inForce with
  | some b => addReader b s1
  | none => s1

/-- Takes are attempted until a lookup stays in service or no query waits; `fuel` is at least the number waiting
(R170, R171). -/
def takeNext : Nat → State → State
  | 0, s => s
  | fuel + 1, s =>
    if s.lookups.service.isSome then s
    else
      match s.lookups.next with
      | none => s
      | some (r, q) =>
        let v := serviceOf r q s
        let s1 := takeQuery r q s
        match verdictAtTake v s1 with
        | some verdict => takeNext fuel (finishLookup v verdict s1)
        | none => s1

/-- A take is attempted (R170). -/
def attemptTake (s : State) : State := takeNext s.lookups.waiting s

/-! ### QUERY (R169) -/

/-- QUERY at the Lookup Engine: a query that takes the slot is answered when its lookup completes (R169, R194). -/
def query (kind : Byte) (queryTag : Half) (args : List Byte) (s : State) : Reply :=
  match queryOf kind queryTag args with
  | none => refuse .badArg s
  | some q =>
    if s.lookups.slot ≠ .free then refuse .busy s
    else ⟨attemptTake { s with lookups := { s.lookups with slot := .waiting q } }, none⟩

/-- QUERY. -/
def execQuery (tag : Half) (kind : Byte) (queryTag : Half) (args : List Byte) (s : State) : Result :=
  .next (gateway (.query tag kind queryTag args) (query kind queryTag args) s)

/-! ### The three questions (R173 to R176) -/

/-- The middle of the positions `lo` up to, not including, `lo + n`: the lower of two (R173). -/
def middle (lo n : Nat) : Nat := lo + (n - 1) / 2

/-- The search of a shelf by halving over `n` positions from `lo`; `none` when a word could not be read, else the
record found, if any (R173). -/
def searchCard (b : BankId) (c : Card) : Nat → Nat → Nat → State → State × Option (Option RangeRec)
  | 0, _, _, s => (s, some none)
  | fuel + 1, lo, n, s =>
    if n = 0 then (s, some none)
    else
      let mid := middle lo n
      let (s1, ok) := readItems .lookup b [.record mid] s
      if !ok then (s1, none)
      else
        match (s1.bank b).ranges.records[mid]? with
        | none => (s1, some none)
        | some r =>
          if c < r.first then searchCard b c fuel lo (mid - lo) s1
          else if r.last < c then searchCard b c fuel (mid + 1) (lo + n - (mid + 1)) s1
          else (s1, some (some r))

/-- The verdict on a record found, or on none (R173, R174). -/
def cardVerdict (day : Option Half) : Option RangeRec → Verdict
  | none => .clear none
  | some r =>
    match day, r.expiry with
    | some d, some e => if e < d then .clear (some e) else .blocked r
    | _, _ => .blocked r

/-- CARD_CHECK (R173, R174). -/
def lookUpCard (b : BankId) (day : Option Half) (c : Card) (s : State) : State × Option Verdict :=
  let (s1, ok) := readItems .lookup b [.dirEntry (shelfOf c)] s
  if !ok then (s1, none)
  else
    let d := (s1.bank b).ranges.directory.getD (shelfOf c) ⟨0, 0⟩
    let (s2, found) := searchCard b c d.count d.first d.count s1
    (s2, found.map (cardVerdict day))

/-- FARE_QUOTE (R175). -/
def lookUpFare (b : BankId) (cls origin dest : Byte) (s : State) : State × Option Verdict :=
  let (s1, ok) := readItems .lookup b [.dims] s
  if !ok then (s1, none)
  else
    let t := (s1.bank b).tariff
    let inRange (z : Byte) : Bool := decide (1 ≤ z.toNat) && decide (z.toNat ≤ t.zones)
    if !decide (cls.toNat < t.classCount) || !inRange origin || !inRange dest then (s1, some .badQuery)
    else
      let pos := cls.toNat * t.zones * t.zones + (origin.toNat - 1) * t.zones + (dest.toNat - 1)
      let (s2, readable) := readItems .lookup b [.price pos] s1
      if readable then (s2, some (.price (t.prices.getD pos 0#16))) else (s2, none)

/-- The search of the products by halving (R176). -/
def searchProduct (b : BankId) (code : Half) : Nat → Nat → Nat → State → State × Option (Option Product)
  | 0, _, _, s => (s, some none)
  | fuel + 1, lo, n, s =>
    if n = 0 then (s, some none)
    else
      let mid := middle lo n
      let (s1, ok) := readItems .lookup b [.product mid] s
      if !ok then (s1, none)
      else
        match (s1.bank b).tariff.products[mid]? with
        | none => (s1, some none)
        | some p =>
          if p.code = code then (s1, some (some p))
          else if code < p.code then searchProduct b code fuel lo (mid - lo) s1
          else searchProduct b code fuel (mid + 1) (lo + n - (mid + 1)) s1

/-- The product is valid on the service day taken (R176). -/
def validToday (day : Option Half) (p : Product) : Bool :=
  match day with
  | none => false
  | some d =>
    decide (p.validFrom ≤ d) &&
      match p.validTo with
      | none => true
      | some e => decide (d ≤ e)

/-- PRODUCT_INFO (R176). -/
def lookUpProduct (b : BankId) (day : Option Half) (code : Half) (s : State) : State × Option Verdict :=
  let (s1, ok) := readItems .lookup b [.dims] s
  if !ok then (s1, none)
  else
    let n := (s1.bank b).tariff.productCount
    let (s2, found) := searchProduct b code n 0 n s1
    (s2, found.map fun p =>
      match p with
      | some p => .product (validToday day p) p
      | none => .notFound)

/-- The reads of a lookup and what they find; `none` when a word could not be read (R172). -/
def lookUp (b : BankId) (day : Option Half) (args : QueryArgs) (s : State) : State × Option Verdict :=
  match args with
  | .cardCheck c => lookUpCard b day c s
  | .fareQuote cls o d => lookUpFare b cls o d s
  | .productInfo code => lookUpProduct b day code s

/-! ### LOOKUP_COMPLETE (R172) -/

/-- The verdict at completion: the marks of the bank taken are examined again (R172). -/
def verdictAtEnd (b : BankId) (kind : QueryKind) (s : State) (found : Option Verdict) : Verdict :=
  if kind.needsMarked (s.recOf b).marks then .unknown .damaged else found.getD (.unknown .damaged)

/-- The lookup in service reads, completes, and the next take is attempted (R170, R172). All its reads are made here: R172
does not say when between the take and the completion a word is read, and a lookup that a device reset ends has read none
(DESIGN CHOICE log 51). -/
def lookupComplete (s : State) : State :=
  match s.lookups.service with
  | none => s
  | some v =>
    match v.bank with
    | none => attemptTake (finishLookup v (.unknown .noImage) s)
    | some b =>
      let (s1, found) := lookUp b v.day v.query.args s
      attemptTake (finishLookup v (verdictAtEnd b v.query.args.kind s1 found) s1)

/-- LOOKUP_COMPLETE. -/
def execLookupComplete (s : State) : Result := .next (event lookupComplete s)

end Sys2Proof.Machine
end

