-- ==== Sys2Proof/Machine/Links.lean ====
section
/-!
DEFINITION. The validator links: configuration, enable, disable, loopback test, sending and receiving (chapter 6).
-/

namespace Sys2Proof.Machine

/-! ### Configuration and states (R112 to R115) -/

/-- The transmit rate in bits per second: the 16 MHz reference divided by 2^n (R113). -/
def rateOf (divider : Nat) : Nat := 16000000 / 2 ^ divider

/-- LINK_CONFIG at a link (R113). -/
def linkConfig (link divider : Byte) (threshold : Half) (s : State) : Reply :=
  match linkOf link with
  | none => refuse .badArg s
  | some k =>
    let l := s.link k
    if l.state ≠ .disabled then refuse .badState s
    else
      let d := clamp 1 8 divider.toNat
      let t := clamp 64 960 threshold.toNat
      answer .ok (n8 k.val :: n8 d :: (n16 t ++ n32 (rateOf d))) (s.setLink k { l with divider := d, threshold := t })

/-- LINK_CONFIG. -/
def execLinkConfig (tag : Half) (link divider : Byte) (threshold : Half) (s : State) : Result :=
  .next (gateway (.linkConfig tag link divider threshold) (linkConfig link divider threshold) s)

/-- A DISABLED link is enabled: the take-up, the frame gap, and the cycle gap while the carousel is RUNNING (R91,
R114). -/
def enableLink (k : LinkId) (s : State) : State :=
  let l := (s.link k).takeUp s.carousel.settings
  s.setLink k
    { l with
      state := .enabled
      tx := .gap
      phase := if s.carousel.state = .running then .gap else .off }

/-- LINK_ENABLE at a link (R114). -/
def linkEnable (link : Byte) (s : State) : Reply :=
  match linkOf link with
  | none => refuse .badArg s
  | some k =>
    match (s.link k).state with
    | .testing => refuse .badState s
    | .enabled => answer .ok [] s
    | .disabled => answer .ok [] (enableLink k s)

/-- LINK_ENABLE. -/
def execLinkEnable (tag : Half) (link : Byte) (s : State) : Result :=
  .next (gateway (.linkEnable tag link) (linkEnable link) s)

/-- LINK_DISABLE at a link (R115). -/
def linkDisable (link : Byte) (s : State) : Reply :=
  match linkOf link with
  | none => refuse .badArg s
  | some k => if (s.link k).state = .testing then refuse .badState s else answer .ok [] (linkReset k s)

/-- LINK_DISABLE. -/
def execLinkDisable (tag : Half) (link : Byte) (s : State) : Result :=
  .next (gateway (.linkDisable tag link) (linkDisable link) s)

/-! ### Sending (R117 to R120) -/

/-- The frame gap of an ENABLED link has run: a transmit boundary (R117). -/
def transmitBoundary (k : LinkId) (s : State) : State :=
  let l := s.link k
  if l.state = .enabled ∧ l.tx = .gap then tryBegin k (s.setLink k { l with tx := .idle }) else s

/-- TRANSMIT_BOUNDARY. -/
def execTransmitBoundary (link : LinkId) (s : State) : Result := .next (event (transmitBoundary link) s)

/-- A counter of a link gains 1 and stops at its greatest value (R120). -/
def tick32 (n : Nat) : Nat := satAdd 4294967295 n 1

/-- The CYCLE_END has been transmitted: the link goes to GAP or OFF, and the last to leave stops a STOPPING carousel
(R90, R91). -/
def endCycle (k : LinkId) (s : State) : State :=
  let l := s.link k
  leftCycle (s.setLink k { l with phase := if s.carousel.state = .running then .gap else .off })

/-- A carousel frame's last CRC bit has been sent: its entry, written whole, leaves the FIFO (R120). -/
def carouselSent (k : LinkId) (s : State) : State :=
  let l := s.link k
  match l.txFifo with
  | [] => s
  | f :: rest =>
    if f.whole then
      let s1 :=
        s.setLink k
          { l with
            txFifo := rest
            tx := .gap
            counters := { l.counters with framesSent := tick32 l.counters.framesSent } }
      if f.kind = .cycleEnd then endCycle k s1 else s1
    else s

/-- The last CRC bit of the frame on the line has been sent (R120, R125). -/
def frameTransmitted (k : LinkId) (s : State) : State :=
  let l := s.link k
  if l.state = .enabled then
    match l.tx with
    | .notice _ =>
      s.setLink k
        { l with tx := .gap, counters := { l.counters with noticesSent := tick32 l.counters.noticesSent } }
    | .answer _ =>
      s.setLink k
        { l with
          tx := .gap
          slots := l.slots - 1
          counters := { l.counters with answersSent := tick32 l.counters.answersSent } }
    | .carousel _ => carouselSent k s
    | .gap => s
    | .idle => s
    | .test _ => s
  else s

/-- FRAME_TRANSMITTED. -/
def execFrameTransmitted (link : LinkId) (s : State) : Result := .next (event (frameTransmitted link) s)

/-- The bytes a piece still has to give. -/
def pieceLength (bank : Option Bank) : Piece → Nat
  | .plain bs => bs.length
  | .covered bs => bs.length
  | .item i => (bank.map fun b => (itemBytes b i).length).getD 0
  | .crc => 2

/-- The bytes of the frame being written that the engine has not written yet (R119). -/
def Context.unwritten (bank : Option Bank) (c : Context) : Nat :=
  match c.wip with
  | none => 0
  | some w => (w.pieces.map (pieceLength bank)).sum

/-- The abort is counted once in the context, and not for a CYCLE_END (R97, R109). -/
def Context.abortWip (c : Context) : Context :=
  match c.wip with
  | none => c
  | some w =>
    { c with
      aborted := c.aborted + (if w.aborted || decide (w.kind = .cycleEnd) then 0 else 1)
      wip := some { w with aborted := true } }

/-- The transmitter needs a byte that the FIFO does not hold (R119): only a frame not yet written whole can underrun. -/
def underrun (k : LinkId) (s : State) : State :=
  let l := s.link k
  match l.tx, l.txFifo with
  | .carousel _, f :: rest =>
    if l.state = .enabled ∧ !f.whole then
      State.raiseLink .linkFault k
        (s.setLink k
          { l with
            tx := .gap
            txFifo := rest
            discard := l.ctx.unwritten (l.ctx.content.map s.bank)
            ctx := l.ctx.abortWip
            counters := { l.counters with framesAborted := tick32 l.counters.framesAborted } })
    else s
  | _, _ => s

/-- UNDERRUN. -/
def execUnderrun (link : LinkId) (s : State) : Result := .next (event (underrun link) s)

/-! ### Receiving (R121 to R124) -/

/-- Why a received frame is discarded, in the order of the checks (R122). -/
inductive Discard where
  | framing
  | length
  | crc
  | kind
deriving DecidableEq, Repr

/-- The four checks of R122; a good frame is its kind and body. -/
def judgeFrame (bytes : List Byte) (extraBits : Nat) (overflowed : Bool) : Except Discard RxFrame :=
  if extraBits ≠ 0 then .error .framing
  else
    match bytes with
    | kind :: h :: l :: rest =>
      if overflowed || decide (64 < bytes.length) || decide (bytes.length < 5) || decide ((half h l).toNat + 5 ≠ bytes.length)
      then .error .length
      else
        let body := rest.take (half h l).toNat
        if be16 (crc16 (kind :: h :: l :: body)) ≠ rest.drop (half h l).toNat then .error .crc
        else
          match upKindOf kind body.length with
          | none => .error .kind
          | some u => .ok ⟨u, body⟩
    | _ => .error .length

/-- A discard counted under its cause (R122). -/
def Counters.discarded (d : Discard) (c : Counters) : Counters :=
  match d with
  | .framing => { c with discFraming := tick32 c.discFraming }
  | .length => { c with discLength := tick32 c.discLength }
  | .crc => { c with discCrc := tick32 c.discCrc }
  | .kind => { c with discKind := tick32 c.discKind }

/-- The query a body carries (R201). -/
def queryOfBody (kind : QueryKind) (body : List Byte) : Option Query :=
  match body with
  | t1 :: t0 :: args => queryOf kind.code (half t1 t0) args
  | _ => none

/-- A query is judged against the link's slots (R124): accepted, or refused with the BUSY notice. -/
def judgeQuery (k : LinkId) (kind : QueryKind) (q : Query) (s : State) : State :=
  let l := s.link k
  if l.slots < 4 then
    let u := s.lookups
    attemptTake
      { s.setLink k { l with slots := l.slots + 1 } with
        lookups := { u with queues := u.queues.set k (u.queues.get k ++ [q]) } }
  else
    tryBegin k
      (s.setLink k
        { l with
          notice := some (q.tag, kind)
          counters := { l.counters with busyOverflows := tick32 l.counters.busyOverflows } })

/-- The queries at the head of the receive FIFO are judged in order, up to the first report, which waits for the
Validator Table (R123); `fuel` is at least the number of frames. -/
def judgeQueries (k : LinkId) : Nat → State → State
  | 0, s => s
  | fuel + 1, s =>
    let l := s.link k
    match l.rxFifo with
    | [] => s
    | f :: rest =>
      match f.kind with
      | .report => s
      | .query kind =>
        let s1 := s.setLink k { l with rxFifo := rest }
        match queryOfBody kind f.body with
        | none => judgeQueries k fuel s1
        | some q => judgeQueries k fuel (judgeQuery k kind q s1)

/-- The queries waiting at the head are judged. -/
def handOn (k : LinkId) (s : State) : State := judgeQueries k (s.link k).rxFifo.length s

/-- The envelope of a received frame has ended: what had arrived of it and the bytes that ended it are judged as one
frame, and leave the FIFO or wait in it whole (R121 to R123). -/
def frameReceived (k : LinkId) (bytes : List Byte) (extraBits : Nat) (dropped begunBeforeEnable : Bool) (s : State) : State :=
  let l := s.link k
  if l.state = .enabled ∧ !begunBeforeEnable then
    let overflowed := dropped || l.rxDropped || decide (Config.rxFifoBytes < l.rxFill + bytes.length)
    let l1 := { l with rxFrame := [], rxDropped := false }
    match judgeFrame (l.rxFrame ++ bytes) extraBits overflowed with
    | .error d => s.setLink k { l1 with counters := l.counters.discarded d }
    | .ok f =>
      handOn k
        (s.setLink k
          { l1 with
            rxFifo := l.rxFifo ++ [f]
            counters := { l.counters with framesGood := tick32 l.counters.framesGood } })
  else s

/-- FRAME_RECEIVED. -/
def execFrameReceived (link : LinkId) (bytes : List Byte) (extraBits : Nat) (dropped begunBeforeEnable : Bool)
    (s : State) : Result :=
  .next (event (frameReceived link bytes extraBits dropped begunBeforeEnable) s)

/-! ### Loopback test (R129 to R131) -/

/-- Test frame `i` (R130). -/
def testFrame (i : Nat) : List Byte := linkFrame 0x30#8 ((List.range 32).map fun j => n8 (47 * i + 29 * j + 91))

/-- What the line carries while a test frame is sent: the frame in EXTERNAL, nothing in INTERNAL (R130). -/
def TestMode.line (m : TestMode) (frame : List Byte) : TxLine :=
  match m with
  | .internal => .gap
  | .external => .test frame

/-- LINK_TEST at a link: frame 0 is sent as the run starts (R129, R130; DEDUCED log 24). -/
def linkTest (link mode count : Byte) (s : State) : Reply :=
  match linkOf link, testModeOf mode with
  | some k, some m =>
    if count = 0#8 then refuse .badArg s
    else
      let l := s.link k
      if l.state ≠ .disabled then refuse .badState s
      else
        answer .accepted []
          (s.setLink k
            { l with
              state := .testing
              tx := m.line (testFrame 0)
              run := some ⟨m, count.toNat, 0, true, s.carousel.settings.frameGap⟩ })
  | _, _ => refuse .badArg s

/-- LINK_TEST. -/
def execLinkTest (tag : Half) (link mode count : Byte) (s : State) : Result :=
  .next (gateway (.linkTest tag link mode count) (linkTest link mode count) s)

/-- The frame gap of a run has passed and its next frame is sent (R130). -/
def testFrameStart (k : LinkId) (s : State) : State :=
  let l := s.link k
  match l.state, l.run with
  | .testing, some r => s.setLink k { l with tx := r.mode.line (testFrame r.frame), run := some { r with sent := true } }
  | _, _ => s

/-- TEST_FRAME_START. -/
def execTestFrameStart (link : LinkId) (s : State) : Result := .next (event (testFrameStart link) s)

/-- A run ends (R131). -/
def endTest (k : LinkId) (result : LastTest) (s : State) : State :=
  State.raiseLink .linkTestDone k
    (s.setLink k { s.link k with state := .disabled, tx := .gap, run := none, lastTest := result })

/-- The first position at which two byte strings differ, a position past the end of one being one (R131). -/
def firstDifference : List Byte → List Byte → Nat
  | x :: xs, y :: ys => if x = y then firstDifference xs ys + 1 else 0
  | [], _ => 0
  | _ :: _, [] => 0

/-- The frame returned equals the frame sent; in INTERNAL it is the frame sent, fed back inside the part (R130). -/
def returnedEqual (m : TestMode) (i : Nat) (bytes : List Byte) (extraBits : Nat) : Bool :=
  match m with
  | .internal => true
  | .external => decide (extraBits = 0) && decide (bytes = testFrame i)

/-- The returning envelope of the frame in progress has ended and is compared (R130, R131; log 33). The next frame is
then the one in progress, through the gap before it too (DESIGN CHOICE log 24). -/
def testFrameReturned (k : LinkId) (bytes : List Byte) (extraBits : Nat) (s : State) : State :=
  let l := s.link k
  match l.state, l.run with
  | .testing, some r =>
    if r.sent then
      if returnedEqual r.mode r.frame bytes extraBits then
        if r.frame + 1 = r.count then endTest k ⟨.pass, r.count, 0⟩ s
        else s.setLink k { l with tx := .gap, run := some { r with frame := r.frame + 1, sent := false } }
      else endTest k ⟨.fail, r.frame, firstDifference bytes (testFrame r.frame)⟩ s
    else s
  | _, _ => s

/-- TEST_FRAME_RETURNED. -/
def execTestFrameReturned (link : LinkId) (bytes : List Byte) (extraBits : Nat) (s : State) : Result :=
  .next (event (testFrameReturned link bytes extraBits) s)

/-- No returning envelope has begun 10 ms after the last bit of the frame (R131); in INTERNAL the frame sent is fed back,
so that its envelope has (R130, log 24). -/
def testNoEcho (k : LinkId) (s : State) : State :=
  let l := s.link k
  match l.state, l.run with
  | .testing, some r => if r.sent ∧ r.mode = .external then endTest k ⟨.noEcho, r.frame, 0⟩ s else s
  | _, _ => s

/-- TEST_NO_ECHO. -/
def execTestNoEcho (link : LinkId) (s : State) : Result := .next (event (testNoEcho link) s)

/-! ### LINK_READ (R132) -/

/-- The content bank, coded A, B, none (R98; DESIGN CHOICE log 20). -/
def contentCode : Option BankId → Byte
  | some b => bankCode b
  | none => 2#8

/-- The context as LINK_READ carries it (R98, R132). The cycle number, the first field of R98's context, is sent ahead of the
content bank, in two bytes: R132's list of the context's fields begins with the content bank, and whether the number is sent
too is left open (DESIGN CHOICE log 20). The position is coded by the model (DESIGN CHOICE log 20): the number
of frames of the cycle written whole, which is the next frame's number counted from 0, and the bytes of that frame written
so far, the lead-in of a CYCLE_HEAD counted in; two bytes each. -/
def contextBytes (c : Context) : List Byte :=
  be16 c.number ++ [contentCode c.content] ++ be16 c.contentSeq ++ [c.composition.code] ++ be16 c.inForceSeq ++
    be16 c.pendingSeq ++ activationBytes c.activation ++ [flagByte c.tariffIncluded] ++ n16 c.shelvesIncluded ++
    n16 c.following ++ n16 c.frameIndex ++ n16 ((c.wip.map Wip.written).getD 0) ++ n16 c.sent ++ n16 c.aborted ++
    [flagByte c.cut]

/-- The counters in the order of R132. -/
def countersBytes (c : Counters) : List Byte :=
  n32 c.framesSent ++ n32 c.answersSent ++ n32 c.noticesSent ++ n32 c.framesAborted ++ n32 c.framesGood ++
    n32 c.discFraming ++ n32 c.discLength ++ n32 c.discCrc ++ n32 c.discKind ++ n32 c.busyOverflows

/-- Codes of test results, from 0 in the order of R131 (R193); NONE is 3, and TESTING during a run 4 (R131, R132; DESIGN
CHOICE log 20 for these two). -/
def TestResult.code : TestResult → Byte
  | .pass => 0#8
  | .fail => 1#8
  | .noEcho => 2#8
  | .none => 3#8

/-- The last test result, or TESTING with the frame in progress (R132). -/
def testBytes (l : Link) : List Byte :=
  match l.run with
  | some r => [4#8, n8 r.frame, 0#8]
  | none => [l.lastTest.result.code, n8 l.lastTest.frame, n8 l.lastTest.byte]

/-- A link as LINK_READ carries it (R132). -/
def linkBytes (l : Link) : List Byte :=
  [l.state.code, n8 l.divider] ++ n32 (rateOf l.divider) ++ n16 l.threshold ++ settingsBytes l.settings ++
    [l.phase.code] ++ be16 l.cycleCounter ++ contextBytes l.ctx ++ [n8 l.interleave, n8 l.refresh] ++ n16 l.txFill ++
    n16 l.discard ++ n16 l.rxFill ++ [n8 l.slots, n8 l.answers.length] ++
    optional 3 (fun p => be16 p.1 ++ [p.2.code]) l.notice ++ countersBytes l.counters ++ testBytes l

/-- LINK_READ at a link: it changes nothing (R132). -/
def linkRead (link : Byte) (s : State) : Reply :=
  match linkOf link with
  | none => refuse .badArg s
  | some k => answer .ok (linkBytes (s.link k)) s

/-- LINK_READ. -/
def execLinkRead (tag : Half) (link : Byte) (s : State) : Result := .next (gateway (.linkRead tag link) (linkRead link) s)

end Sys2Proof.Machine
end

