-- ==== Sys2Proof/Machine/Loader.lean ====
section
/-!
DEFINITION. The Package Loader with the Range Merger: SEGMENT, CHECK_PHASE_END and APPLY_PHASE_END (chapters 2, 3, 4).
-/

namespace Sys2Proof.Machine

/-! ### Package results (R80) -/

/-- The least total length of a kind, which is the length of its two headers (R70). -/
def PackageKind.least : PackageKind → Nat
  | .tariff => 16
  | .blockBase => 18
  | .blockDelta => 18

/-- A count of the package result: above 65535 its value is free (R80, DESIGN CHOICE log 19). -/
def countField (free n : Nat) : Half := if n ≤ 65535 then BitVec.ofNat 16 n else Config.wideCount free

/-- The counts reached by a package (R78, R79). -/
structure Counts where
  records : Nat
  evictions : Nat
  splits : Nat
deriving DecidableEq, Repr

/-- No count. -/
def Counts.zero : Counts := ⟨0, 0, 0⟩

/-- The package result is written and the loader returns to IDLE with the package buffer emptied; EVICTION is raised
when there were evictions (R43, R79, R80). -/
def finishWith (result : PackageResult) (evictions : Nat) (e : Event) (s : State) : State :=
  let s1 := State.raise e { s with loader := ⟨.idle, result, []⟩ }
  if 0 < evictions then State.raise .eviction s1 else s1

/-- A package ends DONE (R80). -/
def packageDone (packageId : Half) (kind : PackageKind) (c : Counts) (s : State) : State :=
  finishWith
    ⟨.done, packageId, some kind, .ok, none, countField s.free c.records, countField (s.free + 1) c.evictions,
      countField (s.free + 2) c.splits⟩
    c.evictions .packageDone { s with free := s.free + 3 }

/-- A package is refused (R74 to R76, R79, R80). -/
def packageRefused (packageId : Half) (kind : PackageKind) (code : ResultCode) (index : Option Nat) (c : Counts)
    (s : State) : State :=
  finishWith
    ⟨.refused, packageId, some kind, code, index.map (BitVec.ofNat 16), countField s.free c.records,
      countField (s.free + 1) c.evictions, countField (s.free + 2) c.splits⟩
    c.evictions .packageRefused { s with free := s.free + 3 }

/-! ### SEGMENT (R71 to R75) -/

/-- The common header of a package: kind, total length, package CRC (R70, R200). -/
structure CommonHeader where
  kind : PackageKind
  total : Nat
  crc : Word32
deriving DecidableEq, Repr

/-- Check 3 of R72 on the payload of segment 0. -/
def headerOf (payload : List Byte) : Option CommonHeader :=
  match payload with
  | k :: t2 :: t1 :: t0 :: c3 :: c2 :: c1 :: c0 :: _ =>
    match packageKindOf k with
    | none => none
    | some kind =>
      let total := (word24 t2 t1 t0).toNat
      if total < kind.least ∨ Config.packageBytes < total ∨ payload.length < kind.least then none
      else some ⟨kind, total, word32 c3 c2 c1 c0⟩
  | _ => none

/-- The field checks of R71. -/
def segmentFieldsOk (index count : Half) (payload : List Byte) : Bool :=
  decide (1 ≤ count.toNat) && decide (count.toNat ≤ 274) && decide (index < count) && decide (1 ≤ payload.length) &&
    decide (payload.length ≤ 240)

/-- The end of the bytes whose words a segment stores with fresh check bits: the words it completes, and for the last
segment the word it leaves incomplete too (R74). -/
def freshEnd (last : Bool) (bytes : Nat) : Nat := if last then bytes else bytes / 8 * 8

/-- The progress an accepted segment is answered with (R72, R74; widths of R195). -/
def progressBytes (r : Receiving) : List Byte := be16 r.packageId ++ be16 r.expected ++ n24 r.bytes

/-- What a SEQUENCE refusal in RECEIVING carries (R73). -/
def expectedBytes (r : Receiving) : List Byte := be16 r.packageId ++ be16 r.expected

/-- The package is abandoned: REFUSED with BAD_CRC, and the segment answered BAD_CRC (R74, R75). R80 gives the result's counts
for refusals in the check and apply phases only, and R74 and R75 name none: the model writes 0 (DESIGN CHOICE log 42). -/
def abandonPackage (r : Receiving) (s : State) : Reply :=
  answer .badCrc [] (packageRefused r.packageId r.kind .badCrc none Counts.zero s)

/-- A payload stored from byte `from` on: the buffer and its fresh words (R72, R74). -/
def storePayload (start : Nat) (last : Bool) (payload : List Byte) (s : State) : State :=
  { s with loader := { s.loader with buffer := s.loader.buffer.take start ++ payload } }.refresh
    (inBuffer start (freshEnd last (start + payload.length)))

/-- The whole-package checks of R75, whose success starts the check phase. -/
def wholePackage (r : Receiving) (s : State) : Reply :=
  if r.bytes ≠ r.total ∨ crc32Finish r.running ≠ r.packageCrc then abandonPackage r s
  else
    answer .accepted [] { s with loader := { s.loader with state := .applying r.packageId r.kind r.total .check } }

/-- A segment has been stored: R75 after the last, OK with the progress otherwise (R72, R74). -/
def segmentStored (last : Bool) (r : Receiving) (s : State) : Reply :=
  if last then wholePackage r s
  else answer .ok (progressBytes r) { s with loader := { s.loader with state := .receiving r } }

/-- A segment 0 that passes R71 (R72). -/
def startPackage (packageId count : Half) (payload : List Byte) (s : State) : Reply :=
  match s.loader.state with
  | .applying _ _ _ _ => refuse .busy s
  | _ =>
    match s.findBank .building with
    | none => refuse .noBuild s
    | some _ =>
      match headerOf payload with
      | none => refuse .badArg s
      | some h =>
        let last := decide (count = 1#16)
        let r : Receiving :=
          { packageId := packageId
            kind := h.kind
            count := count
            expected := 1#16
            bytes := payload.length
            total := h.total
            packageCrc := h.crc
            running := crc32Feed crc32Preset (payload.drop 8) }
        segmentStored last r (storePayload 0 last payload s)

/-- A continuing segment is taken (R74). -/
def takeSegment (r : Receiving) (payload : List Byte) (s : State) : Reply :=
  if r.total < r.bytes + payload.length then abandonPackage r s
  else
    let last := decide (r.expected + 1#16 = r.count)
    let r' : Receiving :=
      { r with
        expected := r.expected + 1#16
        bytes := r.bytes + payload.length
        running := crc32Feed r.running payload }
    segmentStored last r' (storePayload r.bytes last payload s)

/-- A segment above 0 that passes R71 (R73). -/
def continuePackage (packageId index count : Half) (payload : List Byte) (s : State) : Reply :=
  match s.loader.state with
  | .idle => refuse .sequence s
  | .applying _ _ _ _ => refuse .busy s
  | .receiving r =>
    if packageId ≠ r.packageId ∨ count ≠ r.count ∨ index ≠ r.expected then answer .sequence (expectedBytes r) s
    else takeSegment r payload s

/-- SEGMENT at the Package Loader (R71 to R75). -/
def segment (packageId index count : Half) (payload : List Byte) (s : State) : Reply :=
  if !segmentFieldsOk index count payload then refuse .badArg s
  else if index = 0#16 then startPackage packageId count payload s
  else continuePackage packageId index count payload s

/-- SEGMENT. -/
def execSegment (tag packageId index count : Half) (payload : List Byte) (s : State) : Result :=
  .next (gateway (.segment tag packageId index count payload) (segment packageId index count payload) s)

/-! ### The kind headers (R31, R36, R200) -/

/-- The kind header of a BLOCK_BASE package and its body. -/
structure BaseHeader where
  version : Word32
  part : Half
  parts : Half
  entries : Half
deriving DecidableEq, Repr

/-- Base header and body of a package in the buffer. -/
def baseHeaderOf (buffer : List Byte) : Option (BaseHeader × List Byte) :=
  match buffer.drop 8 with
  | v3 :: v2 :: v1 :: v0 :: p1 :: p0 :: c1 :: c0 :: n1 :: n0 :: body =>
    some (⟨word32 v3 v2 v1 v0, half p1 p0, half c1 c0, half n1 n0⟩, body)
  | _ => none

/-- The kind header of a BLOCK_DELTA package. -/
structure DeltaHeader where
  fromVersion : Word32
  toVersion : Word32
  ops : Half
deriving DecidableEq, Repr

/-- Delta header and body of a package in the buffer. -/
def deltaHeaderOf (buffer : List Byte) : Option (DeltaHeader × List Byte) :=
  match buffer.drop 8 with
  | f3 :: f2 :: f1 :: f0 :: t3 :: t2 :: t1 :: t0 :: n1 :: n0 :: body =>
    some (⟨word32 f3 f2 f1 f0, word32 t3 t2 t1 t0, half n1 n0⟩, body)
  | _ => none

/-! ### The check phase (R76, R77) -/

/-- What the content checks of a package find: nothing, or a code with the index of the record it names. -/
abbrev Finding := Option (ResultCode × Option Nat)

/-- The class records in order (R55). -/
def checkClasses : Nat → List ClassRec → Finding
  | _, [] => none
  | i, c :: cs => if classRecOk c then checkClasses (i + 1) cs else some (.badContent, some i)

/-- The product records one at a time: content, then order (R56, R57). -/
def checkProducts (z k : Nat) : Nat → Option Half → List Product → Finding
  | _, _, [] => none
  | i, prev, p :: ps =>
    if !productOk z k p then some (.badContent, some i)
    else
      match prev with
      | some c => if p.code ≤ c then some (.order, some i) else checkProducts z k (i + 1) (some p.code) ps
      | none => checkProducts z k (i + 1) (some p.code) ps

/-- The checks of a TARIFF package (R54 to R57). -/
def checkTariff (buffer : List Byte) : Finding :=
  match parseTariff (buffer.drop 8) with
  | none => some (.badContent, none)
  | some t =>
    match checkClasses 0 t.classes with
    | some f => some f
    | none => checkProducts t.zones t.classCount (t.classCount + t.zones * t.zones) none t.products

/-- The records an entry adds: one per shelf, less one when its first piece coalesces with the record before (R34). -/
def entryAdds (prev : Option RangeRec) (e : RangeRec) : Nat :=
  extraPieces e + 1 -
    (match prev with
      | some p => if p.joins e then 1 else 0
      | none => 0)

/-- The entries of a base part one at a time: content, order, running count (R31, R33, R34). `prev` is the record
before, `count` the records there would be. -/
def checkEntries : Nat → Option RangeRec → Nat → List (List Byte) → Finding
  | _, _, _, [] => none
  | i, prev, count, bs :: rest =>
    match entryOf bs with
    | none => some (.badContent, some i)
    | some e =>
      if e.last < e.first then some (.badContent, some i)
      else if prev.any (fun p => decide (e.first ≤ p.last)) then some (.order, some i)
      else if Config.rangeCapacity < count + entryAdds prev e then some (.capacity, some i)
      else checkEntries (i + 1) (some e) (count + entryAdds prev e) rest

/-- The checks of R31 on the kind header and the body length. -/
def baseHeaderOk (h : BaseHeader) (body : List Byte) : Bool :=
  decide (h.parts ≠ 0#16) && decide (h.part ≠ 0#16) && decide (h.part ≤ h.parts) &&
    decide (body.length = 17 * h.entries.toNat)

/-- The part sequence (R32). -/
def partInSequence (h : BaseHeader) (status : BlockStatus) : Bool :=
  decide (h.part = 1#16) || decide (status = .inProgress h.part h.parts h.version)

/-- The bank words the check of a base part above 1 reads: range count and highest record (R77). -/
def appendItems (t : RangeRegion) : List Item :=
  Item.rangeCount :: (if 0 < t.count then [Item.record (t.count - 1)] else [])

/-- The operations of a delta in order (R36, step 3). -/
def checkOps : Nat → List (List Byte) → Finding
  | _, [] => none
  | i, bs :: rest =>
    match deltaOpOf bs with
    | none => some (.badContent, some i)
    | some op => if op.span.2 < op.span.1 then some (.badContent, some i) else checkOps (i + 1) rest

/-- The checks of a BLOCK_DELTA package (R36). -/
def checkDelta (r : BankRecord) (buffer : List Byte) : Finding :=
  match deltaHeaderOf buffer with
  | none => some (.badContent, none)
  | some (h, body) =>
    if body.length ≠ 18 * h.ops.toNat then some (.badContent, none)
    else if r.blockStatus ≠ .complete ∨ r.blockVersion ≠ h.fromVersion then some (.sequence, none)
    else checkOps 0 (chunks 18 h.ops.toNat body)

/-- The checks of a BLOCK_BASE part against a building bank (R31 to R34). -/
def checkBase (b : Bank) (buffer : List Byte) : Finding :=
  match baseHeaderOf buffer with
  | none => some (.badContent, none)
  | some (h, body) =>
    if !baseHeaderOk h body then some (.badContent, none)
    else if !partInSequence h b.record.blockStatus then some (.sequence, none)
    else
      let entries := chunks 17 h.entries.toNat body
      if h.part = 1#16 then checkEntries 0 none 0 entries
      else checkEntries 0 b.ranges.records.getLast? b.ranges.records.length entries

/-- What the checks of a package find, by its kind (R76). -/
def checkContent (b : Bank) (kind : PackageKind) (buffer : List Byte) : Finding :=
  match kind with
  | .tariff => checkTariff buffer
  | .blockBase => checkBase b buffer
  | .blockDelta => checkDelta b.record buffer

/-! The check phase reads as it checks: a record's bytes, then its checks, and nothing beyond the check that ends the
phase (R76). Checks change nothing, so the phase is the reads up to that check, in order, and then what it finds. -/

/-- A read of the check phase: bytes of the package buffer, or items of the building bank. -/
inductive CheckRead where
  | bytes (lo hi : Nat)
  | items (items : List Item)

/-- How far the parse of a body reads into a product record that it cannot parse: to the kind or presence byte that
gives no length, else to the body's end (R54; DESIGN CHOICE log 12). -/
def productReach (bs : List Byte) : Nat :=
  match bs with
  | _ :: _ :: kind :: _ :: presence :: _ =>
    if (productKindOf kind).isNone || decide (3 < presence.toNat) then 5 else bs.length
  | _ => bs.length

/-- How far the parse of `n` product records reads from byte `place` on: past the last, or into the first that it cannot
parse (R54). -/
def productsReach : Nat → Nat → List Byte → Nat
  | place, 0, _ => place
  | place, n + 1, bs =>
    match parseProduct bs with
    | some (_, rest) => productsReach (place + (bs.length - rest.length)) n rest
    | none => place + productReach bs

/-- How far the checks of a TARIFF package read: the dimensions when they are out of range, else as far as the parse of
the body gets, which no later check goes beyond (R54; DESIGN CHOICE log 12). -/
def tariffReach (buffer : List Byte) : Nat :=
  match buffer.drop 12 with
  | z :: k :: p1 :: p0 :: body =>
    let fixed := 7 * k.toNat + 2 * (z.toNat * z.toNat)
    if z = 0#8 ∨ 32 < z.toNat ∨ k = 0#8 ∨ 8 < k.toNat ∨ Config.productCapacity < (half p1 p0).toNat then 16
    else if body.length < fixed then buffer.length
    else productsReach (16 + fixed) (half p1 p0).toNat (body.drop fixed)
  | _ => buffer.length

/-- How far the checks of a range package read: both headers, and its records of `width` bytes up to the one that fails
(R76). -/
def recordsReach (width count : Nat) : Finding → Nat
  | none => 18 + width * count
  | some (_, some i) => 18 + width * (i + 1)
  | some (_, none) => 18

/-- The reads of the check phase of a base part: the headers; after the checks on them, for a part above 1, the bank's
count and highest record; then the entries (R76, R77). -/
def baseReads (b : Bank) (buffer : List Byte) : List CheckRead :=
  match baseHeaderOf buffer with
  | none => [.bytes 0 18]
  | some (h, body) =>
    if baseHeaderOk h body && partInSequence h b.record.blockStatus then
      [.bytes 0 18] ++ (if h.part = 1#16 then [] else [.items (appendItems b.ranges)]) ++
        [.bytes 18 (recordsReach 17 h.entries.toNat (checkBase b buffer))]
    else [.bytes 0 18]

/-- The reads of the check phase of a delta (R76, R77). -/
def deltaReads (b : Bank) (buffer : List Byte) : List CheckRead :=
  match deltaHeaderOf buffer with
  | none => [.bytes 0 18]
  | some (h, _) => [.bytes 0 (recordsReach 18 h.ops.toNat (checkDelta b.record buffer))]

/-- The reads of the check phase, in order (R76, R77). -/
def checkReads (b : Bank) (kind : PackageKind) (buffer : List Byte) : List CheckRead :=
  match kind with
  | .tariff => [.bytes 0 (tariffReach buffer)]
  | .blockBase => baseReads b buffer
  | .blockDelta => deltaReads b buffer

/-- The words that bytes `lo` up to `hi` add to those already read: the word that holds byte `lo - 1` was read with
it (DEDUCED, log 12). -/
def readNewBytes (lo hi : Nat) (s : State) : State × Bool := readBuffer ((lo + 7) / 8 * 8) hi s

/-- The reads of a check phase up to the first unreadable word (R76, R77). -/
def runCheckReads (b : BankId) : List CheckRead → State → State × Bool
  | [], s => (s, true)
  | r :: rs, s =>
    let (s1, ok) :=
      match r with
      | .bytes lo hi => readNewBytes lo hi s
      | .items items => readItems .loader b items s
    if ok then runCheckReads b rs s1 else (s1, false)

/-- The check phase runs to its end: the package is refused, or the apply phase begins (R76). -/
def checkPhaseEnd (s : State) : State :=
  match s.loader.state, s.findBank .building with
  | .applying id kind total .check, some b =>
    let (s1, readable) := runCheckReads b (checkReads (s.bank b) kind s.loader.buffer) s
    if readable then
      match checkContent (s.bank b) kind s.loader.buffer with
      | none => { s1 with loader := { s1.loader with state := .applying id kind total .apply } }
      | some (code, index) => packageRefused id kind code index Counts.zero s1
    else packageRefused id kind .memory none Counts.zero s1
  | _, _ => s

/-- CHECK_PHASE_END. -/
def execCheckPhaseEnd (s : State) : Result := .next (event checkPhaseEnd s)

/-! ### The apply phase (R78, R79) -/

/-- How a run of the apply phase ended: at the package's end, at an unreadable word of the buffer, or at one of the
bank's range region. -/
inductive ApplyEnd where
  | whole
  | bufferError
  | rangeError
deriving DecidableEq, Repr

/-- Where the apply phase stands. -/
structure ApplyRun where
  state : State
  counts : Counts
  ended : ApplyEnd

/-- Records of the given widths read one after the other from byte `lo`: how many were read whole. -/
def readRecords : Nat → List Nat → Nat → State → State × Nat × Bool
  | _, [], n, s => (s, n, true)
  | lo, w :: ws, n, s =>
    let (s1, ok) := readNewBytes lo (lo + w) s
    if ok then readRecords (lo + w) ws (n + 1) s1 else (s1, n, false)

/-- The widths of the records of a TARIFF body (R53, R65). -/
def tariffWidths (t : TariffPackage) : List Nat :=
  t.classes.map (fun _ => 7) ++ t.base.map (fun _ => 2) ++ t.products.map fun p => (encodeProduct p).length

/-- The first `n` of the new records written over the old ones; a section written whole is the new one. -/
def writtenOver {α : Type} (n : Nat) (new old : List α) : List α :=
  if new.length ≤ n then new else new.take n ++ old.drop n

/-- The regions after the dimensions and the first `n` records of a TARIFF package have been written: prices keep their
former words (R58, R59). -/
def TariffPackage.over (t : TariffPackage) (n : Nat) (old : Tariff) : Tariff :=
  ⟨t.zones, t.classCount, t.productCount, writtenOver n t.classes old.classes,
    writtenOver (n - t.classes.length) t.base old.base, old.prices,
    writtenOver (n - t.classes.length - t.base.length) t.products old.products⟩

/-- The items a TARIFF package writes, in the package's order: the dimensions, then its records (R58; DEDUCED, log
13). -/
def tariffWritten (t : TariffPackage) : List Item :=
  Item.dims ::
    ((List.range t.classes.length).map Item.classRec ++ (List.range t.base.length).map Item.base ++
      (List.range t.products.length).map Item.product)

/-- The dimensions and the first `n` records of a TARIFF package are written, and the words they stand in renewed (R58,
R59). -/
def writeTariff (b : BankId) (t : TariffPackage) (n : Nat) (s : State) : State :=
  (s.setBank b { s.bank b with tariff := t.over n (s.bank b).tariff }).refresh (inItems b ((tariffWritten t).take (n + 1)))

/-- The apply phase of a TARIFF package (R58). At an unreadable word of the buffer the tariff is no longer present, and
what has been written by then stays in the regions: nothing while the headers are read, else the dimensions and the
records read whole (R59). -/
def applyTariff (b : BankId) (id : Half) (s : State) : State :=
  match parseTariff (s.loader.buffer.drop 8) with
  | none => s
  | some t =>
    let absent (s : State) : State := s.setRec b { s.recOf b with tariffPresent := false, expansionDue := true }
    let (s1, headerOk) := readBuffer 0 16 s
    if !headerOk then packageRefused id .tariff .memory none Counts.zero (absent s1)
    else
      let (s2, n, bodyOk) := readRecords 16 (tariffWidths t) 0 s1
      let s3 := writeTariff b t n s2
      if bodyOk then
        packageDone id .tariff ⟨n, 0, 0⟩
          (s3.setRec b { s3.recOf b with tariffPresent := true, tariffVersion := t.version, expansionDue := true })
      else packageRefused id .tariff .memory none ⟨n, 0, 0⟩ (absent s3)

/-- The items read to append an entry: the count, the directory entries that follow, the highest record (R28, R35, R44;
DEDUCED, log 12). -/
def entryItems (old new : RangeRegion) : List Item :=
  Item.rangeCount :: (entriesMoved old new ++ if 0 < old.count then [Item.record (old.count - 1)] else [])

/-- The entries of a base part appended one after the other, the words of each read first (R35, R44, R79). -/
def applyEntries (b : BankId) : Nat → List (List Byte) → Counts → State → ApplyRun
  | _, [], c, s => ⟨s, c, .whole⟩
  | lo, bs :: rest, c, s =>
    let (s1, ok) := readNewBytes lo (lo + 17) s
    if !ok then ⟨s1, c, .bufferError⟩
    else
      match entryOf bs with
      | none => ⟨s1, c, .whole⟩
      | some e =>
        let old := (s1.bank b).ranges
        let new := RangeRegion.ofRecords (appendEntry old.records e)
        let (s2, readable) := readItems .loader b (entryItems old new) s1
        if !readable then ⟨s2, c, .rangeError⟩
        else
          applyEntries b (lo + 17) rest ⟨c.records + 1, c.evictions, c.splits + extraPieces e⟩ (writeRanges b new s2)

/-- The table after an operation and its evictions (R42). -/
def DeltaOp.result (op : DeltaOp) (t : RangeRegion) : RangeRegion := RangeRegion.ofRecords (evict (op.applyTo t.records))

/-- The items an operation of a delta reads: the range count; the directory entries of the shelves its span touches and
those that follow the change; the records of those shelves and those that the change moves or removes, every record when
it must evict (R28, R38, R39, R41, R44; DEDUCED, log 12). -/
def opItems (t : RangeRegion) (op : DeltaOp) : List Item :=
  let new := op.result t
  let touched (i : Nat) : Bool := decide (shelfOf op.span.1 ≤ i) && decide (i ≤ shelfOf op.span.2)
  let evicts := decide (Config.rangeCapacity < (op.applyTo t.records).length)
  Item.rangeCount ::
    (((List.range 256).filter fun i => touched i || decide (t.directory[i]? ≠ new.directory[i]?)).map Item.dirEntry ++
      ((List.range t.records.length).filter fun i =>
        evicts || (t.records[i]?.any fun r => touched (shelfOf r.first)) ||
          decide (t.records[i]? ≠ new.records[i]?)).map Item.record)

/-- One operation applied with its evictions, as one write (R37 to R42). -/
def applyOp (b : BankId) (op : DeltaOp) (s : State) : State :=
  let t := (s.bank b).ranges
  let s1 := writeRanges b (op.result t) s
  s1.setRec b
    { s1.recOf b with
      evictions := satAdd 65535 (s1.recOf b).evictions ((op.applyTo t.records).length - Config.rangeCapacity) }

/-- The operations of a delta applied one after the other (R37 to R44, R79). -/
def applyOps (b : BankId) : Nat → List (List Byte) → Counts → State → ApplyRun
  | _, [], c, s => ⟨s, c, .whole⟩
  | lo, bs :: rest, c, s =>
    let (s1, ok) := readNewBytes lo (lo + 18) s
    if !ok then ⟨s1, c, .bufferError⟩
    else
      match deltaOpOf bs with
      | none => ⟨s1, c, .whole⟩
      | some op =>
        let (s2, readable) := readItems .loader b (opItems (s1.bank b).ranges op) s1
        if !readable then ⟨s2, c, .rangeError⟩
        else
          let rs := (s2.bank b).ranges.records
          applyOps b (lo + 18) rest
            ⟨c.records + 1, c.evictions + ((op.applyTo rs).length - Config.rangeCapacity), c.splits + op.splits rs⟩
            (applyOp b op s2)

/-- The end of the apply phase of a range package: `done` is the bank record's change at completion (R35, R43); an
unreadable buffer word makes the blocklist status NONE (R79), an unreadable range word changes nothing more (R44). -/
def endRangeApply (b : BankId) (id : Half) (kind : PackageKind) (done : BankRecord → BankRecord) (r : ApplyRun) : State :=
  match r.ended with
  | .whole => packageDone id kind r.counts (r.state.setRec b (done (r.state.recOf b)))
  | .bufferError =>
    packageRefused id kind .memory none r.counts (r.state.setRec b { r.state.recOf b with blockStatus := .none })
  | .rangeError => packageRefused id kind .memory none r.counts r.state

/-- The blocklist fields after a base part (R30, R35). -/
def BankRecord.afterPart (h : BaseHeader) (r : BankRecord) : BankRecord :=
  if h.part < h.parts then { r with blockStatus := .inProgress (h.part + 1#16) h.parts h.version }
  else { r with blockStatus := .complete, blockVersion := h.version }

/-- The apply phase of a BLOCK_BASE part (R35). DESIGN CHOICE (log 12): bytes 0 to 17 (package header, version, part, part
count, entry count) are read before anything is written, so an unreadable word among them ends the phase with the table as
it was, also for a part 1: R35 and R79 do not say whether part 1 has emptied the table by then. -/
def applyBase (b : BankId) (id : Half) (s : State) : State :=
  match baseHeaderOf s.loader.buffer with
  | none => s
  | some (h, body) =>
    let (s1, ok) := readBuffer 0 18 s
    endRangeApply b id .blockBase (BankRecord.afterPart h)
      (if ok then
        applyEntries b 18 (chunks 17 h.entries.toNat body) Counts.zero
          (if h.part = 1#16 then emptyTable b s1 else s1)
      else ⟨s1, Counts.zero, .bufferError⟩)

/-- The apply phase of a BLOCK_DELTA (R43). -/
def applyDelta (b : BankId) (id : Half) (s : State) : State :=
  match deltaHeaderOf s.loader.buffer with
  | none => s
  | some (h, body) =>
    let (s1, ok) := readBuffer 0 18 s
    endRangeApply b id .blockDelta (fun r => { r with blockVersion := h.toVersion })
      (if ok then applyOps b 18 (chunks 18 h.ops.toNat body) Counts.zero s1 else ⟨s1, Counts.zero, .bufferError⟩)

/-- The apply phase runs to its end (R78, R79). -/
def applyPhaseEnd (s : State) : State :=
  match s.loader.state, s.findBank .building with
  | .applying id kind _ .apply, some b =>
    match kind with
    | .tariff => applyTariff b id s
    | .blockBase => applyBase b id s
    | .blockDelta => applyDelta b id s
  | _, _ => s

/-- APPLY_PHASE_END. -/
def execApplyPhaseEnd (s : State) : Result := .next (event applyPhaseEnd s)

end Sys2Proof.Machine
end

