-- ==== Sys2Proof/Machine/Port.lean ====
section
/-!
DEFINITION. The Gateway Port: WRITE_MESSAGE, READ_RESPONSE, ignored transactions, IDENTIFY and STATUS (chapter 11).
-/

namespace Sys2Proof.Machine

/-! ### WRITE_MESSAGE (R193, R194) -/

/-- A message judged at its end: answered at once when a check fails, else dispatched to its owner (R193). -/
def judgeArrival (bytes : List Byte) (s : State) : State :=
  let s1 := beginMessage (messageTag bytes) bytes s
  match judgeMessage bytes with
  | .badCrc => respond .badCrc [] s1
  | .badType => respond .badType [] s1
  | .badArg => respond .badArg [] s1
  | .good i => { s1 with port := { s1.port with dispatched := some i } }

/-- The end of a WRITE_MESSAGE transaction (R193, R194). DESIGN CHOICE (log 41): `bytes` are the bytes received whole; a byte
cut short by the rise of SS_N is dropped and does not count in check 1, on which R193 is silent. -/
def writeMessage (kindWhileLow : Bool) (bytes : List Byte) (s : State) : State :=
  if kindWhileLow || !s.port.rdy then overrun bytes.length s else judgeArrival bytes s

/-- WRITE_MESSAGE. -/
def execWriteMessage (kindWhileLow : Bool) (bytes : List Byte) (s : State) : Result :=
  .next (event (writeMessage kindWhileLow bytes) s)

/-! ### READ_RESPONSE (R195) -/

/-- The envelope of a response (R195). -/
def responseBytes (r : Response) : List Byte :=
  let covered := be16 r.tag ++ [r.code.code, n8 r.body.length] ++ r.body
  covered ++ be16 (crc16 covered)

/-- A NOT_READY response (R195). -/
def notReady (tag : Half) : Response := ⟨tag, .notReady, []⟩

/-- The bytes on MISO: FFh during the kind byte, the response, then FFh (R192). -/
def misoBytes (r : Response) (clocked : Nat) : List Byte :=
  0xFF#8 :: (responseBytes r).take clocked ++ List.replicate (clocked - (responseBytes r).length) 0xFF#8

/-- The last CRC byte has been clocked out (R195). -/
def sentWhole (r : Response) (clocked : Nat) : Bool := decide ((responseBytes r).length ≤ clocked)

/-- The fetch: HELD becomes FETCHED, and the gateway slot that held this answer becomes free (R169, R195). -/
def fetch (r : Response) (s : State) : State :=
  { s with
    port := { s.port with response := .fetched r }
    lookups := { s.lookups with slot := if s.lookups.slot = .answered then .free else s.lookups.slot } }

/-- The response a READ_RESPONSE sends, fixed at its kind byte (R195). -/
def responseToSend (placedAfterKind : Bool) (s : State) : Response :=
  match s.port.response with
  | .empty => notReady (if s.port.rdy then 0#16 else s.port.awaiting.getD 0#16)
  | .held r => if placedAfterKind then notReady r.tag else r
  | .fetched r => r

/-- A READ_RESPONSE transaction has ended (R195). -/
def readResponse (placedAfterKind : Bool) (clocked : Nat) (s : State) : State :=
  let sent := responseToSend placedAfterKind s
  let s1 :=
    match s.port.response with
    | .held r => if !placedAfterKind && sentWhole r clocked then fetch r s else s
    | .empty => s
    | .fetched _ => s
  { s1 with port := { s1.port with miso := misoBytes sent clocked } }

/-- READ_RESPONSE. -/
def execReadResponse (placedAfterKind : Bool) (clocked : Nat) (s : State) : Result :=
  .next (event (readResponse placedAfterKind clocked) s)

/-! ### Ignored transactions (R192) -/

/-- A transaction of another kind changes nothing, with FFh on MISO throughout; one ended before its kind byte has no
effect (R192). -/
def ignoredTransaction (bytes : List Byte) (s : State) : State :=
  match bytes with
  | _ :: rest => { s with port := { s.port with miso := idleMiso rest.length } }
  | [] => s

/-- IGNORED_TRANSACTION. -/
def execIgnoredTransaction (bytes : List Byte) (s : State) : Result := .next (event (ignoredTransaction bytes) s)

/-! ### IDENTIFY (R197) -/

/-- The body of IDENTIFY (R197). -/
def identityBytes : List Byte :=
  be16 Config.vendorCode ++ be16 Config.partCode ++ [Config.revision, n8 allLinks.length] ++ n16 Config.rangeCapacity ++
    n16 Config.productCapacity

/-- IDENTIFY at the Gateway Port (R197). -/
def identify (s : State) : Reply := answer .ok identityBytes s

/-- IDENTIFY. -/
def execIdentify (tag : Half) (s : State) : Result := .next (gateway (.identify tag) identify s)

/-! ### STATUS (R197) -/

/-- State and seq of a bank. -/
def bankStatusBytes (r : BankRecord) : List Byte := r.state.code :: be16 r.seq

/-- The loader state, with the package ID, expected index and byte count in RECEIVING (R69). -/
def loaderStatusBytes (l : LoaderState) : List Byte :=
  let fields (r : Option Receiving) : List Byte :=
    optional 2 be16 (r.map Receiving.packageId) ++ optional 2 be16 (r.map Receiving.expected) ++
      optional 3 n24 (r.map Receiving.bytes)
  match l with
  | .idle => 0#8 :: fields none
  | .receiving r => 1#8 :: fields (some r)
  | .applying _ _ _ _ => 2#8 :: fields none

/-- The last cutover record (R166). -/
def cutRecordBytes (c : CutRecord) : List Byte :=
  [flagByte c.done] ++ be16 c.seq ++ be16 c.formerSeq ++ [causeCode c.cause, flagByte c.deferred, cutEndCode c.cutEnd] ++
    n32 c.deferral ++ n32 c.waited ++ optional 4 (fun t => be16 t.1 ++ be16 t.2) c.time ++ [n8 c.lacks]

/-- The cutover part of STATUS (R156, R197). -/
def cutoverStatusBytes (c : Cutover) : List Byte :=
  [c.state.code] ++ n32 c.waitTimer ++ n32 c.graceTimer ++ [flagByte c.inhibit] ++ cutRecordBytes c.last

/-- The clock part of STATUS: validity (VALID 0, INVALID 1), day and minute (R152, R197). -/
def clockStatusBytes (c : Clock) : List Byte := [if c.valid then 0#8 else 1#8] ++ be16 c.day ++ be16 c.minute

/-- The links whose entries pass a test, as a link set (R197). -/
def linkSetOf (f : Entry → Bool) (t : Table) : Byte :=
  allLinks.foldl (fun acc k => if f (t.entries.get k) then acc ||| linkBit k else acc) 0#8

/-- The number of entries that pass a test. -/
def countEntries (f : Entry → Bool) (t : Table) : Nat := (t.entries.toList.filter f).length

/-- The readiness summary (R151). -/
def readinessBytes (t : Table) : List Byte :=
  [flagByte t.allReady, n8 (countEntries Entry.member t),
    n8 (countEntries (fun e => e.member && decide (e.pending = .ready)) t),
    linkSetOf (fun e => e.member && decide (e.pending ≠ .ready)) t]

/-- The body of STATUS (R197). -/
def statusBytes (s : State) : List Byte :=
  bankStatusBytes (s.recOf .bankA) ++ bankStatusBytes (s.recOf .bankB) ++ activationBytes s.activation ++
    loaderStatusBytes s.loader.state ++ [s.carousel.state.code] ++ s.links.toList.map (fun l => l.state.code) ++
    cutoverStatusBytes s.cutover ++ clockStatusBytes s.clock ++ readinessBytes s.table ++
    [flagByte s.lookups.service.isSome, n8 s.lookups.waiting] ++ be24 s.events.flags ++ n16 s.port.overruns

/-- STATUS at the Gateway Port: it changes nothing (R197). -/
def status (s : State) : Reply := answer .ok (statusBytes s) s

/-- STATUS. -/
def execStatus (tag : Half) (s : State) : Result := .next (gateway (.status tag) status s)

end Sys2Proof.Machine
end

