-- ==== Sys2Proof/Machine/Reads.lean ====
section
/-!
DEFINITION. The gateway's reads of a bank: RANGE_READ and TARIFF_READ (R47, R48, R67, R68).
-/

namespace Sys2Proof.Machine

/-- The loader is APPLYING (R69). -/
def State.applying (s : State) : Bool :=
  match s.loader.state with
  | .applying _ _ _ _ => true
  | .idle => false
  | .receiving _ => false

/-- The bank's regions are being written by the copy or the closing run (R47, R67). -/
def BankState.writtenBy (t : BankState) : Bool := decide (t = .copying) || decide (t = .closing)

/-! ### RANGE_READ -/

/-- The response of RANGE_READ: bank, shelf and index, the shelf's count, the marked flag, the record or the
end-of-shelf marker (R48). The attributes are sent as the fields of R48, a reason byte, a priority byte and an optional expiry
(R195), and not as the attribute byte of R200, which the spec leaves open, as it does the marker's coding (DESIGN CHOICE
log 20). -/
def rangeReadBody (b : BankId) (shelf index : Half) (count : Nat) (marked : Bool) (r : Option RangeRec) : List Byte :=
  [bankCode b] ++ be16 shelf ++ be16 index ++ n16 count ++ [flagByte marked] ++
    optional 19
      (fun r => be56 r.first ++ be56 r.last ++ [r.reason.code, r.priority.setWidth 8] ++ optional 2 be16 r.expiry) r

/-- A served RANGE_READ: the directory entry, and the record when the index is below the count, are read (R48). -/
def serveRangeRead (b : BankId) (shelf index : Half) (s : State) : Reply :=
  let t := (s.bank b).ranges
  let d := t.directory.getD shelf.toNat ⟨0, 0⟩
  let pos := d.first + index.toNat
  let wanted := decide (index.toNat < d.count)
  let (s1, ok) :=
    readItems .gatewayRead b (Item.dirEntry shelf.toNat :: (if wanted then [Item.record pos] else [])) s
  if ok then
    answer .ok
      (rangeReadBody b shelf index d.count (s1.recOf b).marks.ranges.isSome (if wanted then t.records[pos]? else none)) s1
  else refuse .damaged s1

/-- RANGE_READ at the Range Merger (R47). -/
def rangeRead (bank : Byte) (shelf index : Half) (s : State) : Reply :=
  match bankOf bank with
  | none => refuse .badArg s
  | some b =>
    if 255 < shelf.toNat ∨ 16383 < index.toNat then refuse .badArg s
    else if (s.recOf b).state = .empty then
      answer .ok (rangeReadBody b shelf index 0 (s.recOf b).marks.ranges.isSome none) s
    else if (s.recOf b).state.writtenBy then refuse .badState s
    else if (s.recOf b).state = .building ∧ s.applying then refuse .busy s
    else serveRangeRead b shelf index s

/-- RANGE_READ. -/
def execRangeRead (tag : Half) (bank : Byte) (shelf index : Half) (s : State) : Result :=
  .next (gateway (.rangeRead tag bank shelf index) (rangeRead bank shelf index) s)

/-! ### TARIFF_READ -/

/-- The item code with the arguments the item uses (R68; DESIGN CHOICE log 25). -/
def tariffItemBytes : TariffItem → List Byte
  | .dimensions => [0#8]
  | .cls c => [1#8, n8 c]
  | .base o d => [2#8, n8 o, n8 d]
  | .price c o d => [3#8, n8 c, n8 o, n8 d]
  | .product p => [4#8, n8 p]

/-- The arguments are within the dimensions (R67). -/
def withinDims (t : Tariff) : TariffItem → Bool
  | .dimensions => true
  | .cls c => decide (c < t.classCount)
  | .base o d => decide (o ≤ t.zones) && decide (d ≤ t.zones)
  | .price c o d => decide (c < t.classCount) && decide (o ≤ t.zones) && decide (d ≤ t.zones)
  | .product _ => true

/-- The place of an item in its bank (R50), `none` for the dimensions and for a position past the products. -/
def tariffPlace (t : Tariff) : TariffItem → Option Item
  | .dimensions => none
  | .cls c => some (.classRec c)
  | .base o d => some (.base ((o - 1) * t.zones + (d - 1)))
  | .price c o d => some (.price (c * t.zones * t.zones + (o - 1) * t.zones + (d - 1)))
  | .product p => if p < t.productCount then some (.product p) else none

/-- The item itself, as the response ends (R67, R68; DESIGN CHOICE log 20). -/
def tariffValueBytes (b : Bank) (i : TariffItem) : List Byte :=
  match i, tariffPlace b.tariffHeld i with
  | .dimensions, _ => [flagByte b.record.tariffPresent] ++ be32 b.record.tariffVersion ++ [flagByte b.record.expansionDue]
  | .product p, some place => 1#8 :: (itemBytes b place ++ [n8 p])
  | .product _, none => [0#8]
  | _, some place => itemBytes b place
  | _, none => []

/-- The response of TARIFF_READ (R68): bank, item and arguments, the marked flag, the dimensions, the item. -/
def tariffReadBody (b : BankId) (i : TariffItem) (s : State) : List Byte :=
  let bank := s.bank b
  let t := bank.tariffHeld
  [bankCode b] ++ tariffItemBytes i ++ [flagByte (bank.record.marks.header.isSome || bank.record.marks.tariff.isSome)] ++
    [n8 t.zones, n8 t.classCount] ++ n16 t.productCount ++ tariffValueBytes bank i

/-- A TARIFF_READ of a tariff that is present: the HEADER words, the checks against the dimensions, the words of the
record (R67, R68). -/
def serveTariffRead (b : BankId) (i : TariffItem) (s : State) : Reply :=
  let (s1, headerOk) := readItems .gatewayRead b [.dims] s
  if !headerOk then refuse .damaged s1
  else if !withinDims (s1.bank b).tariff i then refuse .badArg s1
  else
    match i with
    | .price _ _ _ =>
      if (s1.recOf b).expansionDue then refuse .badState s1
      else
        let (s2, ok) := readItems .gatewayRead b (tariffPlace (s1.bank b).tariff i).toList s1
        if ok then answer .ok (tariffReadBody b i s2) s2 else refuse .damaged s2
    | _ =>
      let (s2, ok) := readItems .gatewayRead b (tariffPlace (s1.bank b).tariff i).toList s1
      if ok then answer .ok (tariffReadBody b i s2) s2 else refuse .damaged s2

/-- TARIFF_READ at the Fare Expander (R67). -/
def tariffRead (bank item arg1 arg2 arg3 : Byte) (s : State) : Reply :=
  match bankOf bank, tariffItemOf item arg1 arg2 arg3 with
  | some b, some i =>
    if (s.recOf b).state.writtenBy then refuse .badState s
    else if (s.recOf b).state = .building ∧ s.applying then refuse .busy s
    else if (s.recOf b).tariffPresent then serveTariffRead b i s
    else if i = .dimensions then answer .ok (tariffReadBody b i s) s
    else refuse .incomplete s
  | _, _ => refuse .badArg s

/-- TARIFF_READ. -/
def execTariffRead (tag : Half) (bank item arg1 arg2 arg3 : Byte) (s : State) : Result :=
  .next (gateway (.tariffRead tag bank item arg1 arg2 arg3) (tariffRead bank item arg1 arg2 arg3) s)

end Sys2Proof.Machine
end

