-- ==== Sys2Proof/Machine/ResetCommands.lean ====
section
/-!
DEFINITION. The device reset: POWER_ON, RESET_N_LOW, RESET_END and DEVICE_RESET (R198).
-/

namespace Sys2Proof.Machine

/-- A bank after a device reset: its record is reset, and the memory is not cleared (R2, R180). -/
def Bank.afterReset (b : Bank) : Bank := ⟨BankRecord.reset, b.tariff, b.ranges⟩

/-- Every block at its reset values (R198). What a reset does not reach stays: the memory's words with their errors
(R180), the level the vehicle holds INHIBIT at, the queue of commands and the counter of free values. -/
def resetBlocks (s : State) : State :=
  { State.reset with
    banks := ⟨s.banks.a.afterReset, s.banks.b.afterReset⟩
    upsets := s.upsets
    cutover := { Cutover.reset with pin := s.cutover.pin }
    free := s.free
    pending := s.pending }

/-- A device reset begins, or is held: every block is at its reset values, and RDY is low (R198). -/
def enterReset (s : State) : State :=
  let s1 := resetBlocks s
  { s1 with inReset := true, port := { s1.port with rdy := false } }

/-- POWER_ON. -/
def execPowerOn (s : State) : Result := .next (enterReset s)

/-- A low level on RESET_N begins or holds a device reset (R198). -/
def resetNLow (s : State) : State := enterReset s

/-- RESET_N_LOW. -/
def execResetNLow (s : State) : Result := .next (resetNLow s)

/-- The reset in progress ends: RDY goes high (R194, R198). -/
def leaveReset (s : State) : State :=
  if s.inReset then { s with inReset := false, port := { s.port with rdy := true } } else s

/-- RESET_END. -/
def execResetEnd (s : State) : Result := .next (leaveReset s)

/-- DEVICE_RESET at the Gateway Port: a device reset that ends at once and has no response (R198). -/
def deviceReset (s : State) : Reply := ⟨resetBlocks s, none⟩

/-- DEVICE_RESET. -/
def execDeviceReset (tag : Half) (s : State) : Result := .next (gateway (.deviceReset tag) deviceReset s)

end Sys2Proof.Machine
end

