-- ==== Sys2Proof/Machine/Validators.lean ====
section
/-!
DEFINITION. The Validator Table: reports, silence, exclusion, settings and readings (chapter 7).
-/

namespace Sys2Proof.Machine

/-! ### REPORT (R135 to R140) -/

/-- A REPORT body (R135, R201). -/
structure ReportBody where
  validatorId : Word32
  report : LastReport
deriving DecidableEq, Repr

/-- The fields of a REPORT body; a shelves lacking value above 256 is recorded as 256 (R137, R201). -/
def reportOf (body : List Byte) : Option ReportBody :=
  match body with
  | [i3, i2, i1, i0, u1, u0, a3, a2, a1, a0, n1, n0, done, b3, b2, b1, b0, l1, l0] =>
    some
      ⟨word32 i3 i2 i1 i0,
        ⟨half u1 u0, word32 a3 a2 a1 a0, half n1 n0, decide (done ≠ 0#8), word32 b3 b2 b1 b0,
          min 256 (half l1 l0).toNat⟩⟩
  | _ => none

/-- The entry has another validator's ID (R136). -/
def Entry.replacedBy (e : Entry) (id : Word32) : Bool :=
  match e.validatorId with
  | some old => decide (old ≠ id)
  | none => false

/-- The entry records the report (R137). -/
def Entry.recorded (r : ReportBody) (e : Entry) : Entry :=
  { e with
    validatorId := some r.validatorId
    lastInterval := e.interval
    interval := 0
    presence := .active
    lastReport := r.report
    reports := satAdd 65535 e.reports 1 }

/-- The in-force holding a report earns (R138). -/
def holdingOf (r : LastReport) (s : State) : Holding :=
  match s.inForce with
  | some f => if r.usingSeq = (s.recOf f).seq ∧ r.usingCrc = (s.recOf f).imageCrc then .holds else .lacks
  | none => .lacks

/-- The pending holding a report earns (R139). -/
def pendingOf (r : LastReport) (s : State) : PendingHolding :=
  match s.pendingBank with
  | some p =>
    if r.nextSeq = (s.recOf p).seq ∧ r.nextComplete ∧ r.nextCrc = (s.recOf p).imageCrc then .ready else .loading
  | none => .none

/-- The report is a mismatch (R140). -/
def mismatches (r : LastReport) (s : State) : Bool :=
  (s.inForce.any fun f => decide (r.usingSeq = (s.recOf f).seq) && decide (r.usingCrc ≠ (s.recOf f).imageCrc)) ||
    (s.pendingBank.any fun p =>
      decide (r.nextSeq = (s.recOf p).seq) && r.nextComplete && decide (r.nextCrc ≠ (s.recOf p).imageCrc))

/-- A mismatch counted; at the limit the entry becomes suspect (R140). -/
def Entry.mismatched (limit : Nat) (e : Entry) : Entry :=
  let n := satAdd 15 e.mismatches 1
  { e with mismatches := n, suspect := e.suspect || decide (limit ≤ n) }

/-- The entry after a report, before readiness (R136 to R140). -/
def entryAfter (e : Entry) (r : ReportBody) (s : State) : Entry :=
  let e1 := if e.replacedBy r.validatorId then freshEntry s e.excluded else e
  let e2 := { e1.recorded r with holding := holdingOf r.report s, pending := pendingOf r.report s }
  if mismatches r.report s then e2.mismatched s.table.mismatchLimit else e2

/-- The table evaluates a report of link `k` (R136 to R140, R147). -/
def evaluateReport (k : LinkId) (r : ReportBody) (s : State) : State :=
  let e := s.entry k
  let s1 := s.setEntry k (entryAfter e r s)
  let s2 := if e.replacedBy r.validatorId then State.raiseLink .validatorChanged k s1 else s1
  let s3 := if mismatches r.report s then State.raiseLink .validatorMismatch k s2 else s2
  reevaluate s3

/-- The table takes the report at the head of the link's receive FIFO; the queries that waited behind it are then
judged (R123, R135). -/
def report (k : LinkId) (s : State) : State :=
  let l := s.link k
  match l.rxFifo with
  | [] => s
  | f :: rest =>
    match f.kind with
    | .query _ => s
    | .report =>
      let s1 := s.setLink k { l with rxFifo := rest }
      match reportOf f.body with
      | none => handOn k s1
      | some r => handOn k (evaluateReport k r s1)

/-- REPORT. -/
def execReport (link : LinkId) (s : State) : Result := .next (event (report link) s)

/-! ### Silence (R142) -/

/-- An ACTIVE entry becomes SILENT (R142, R147). -/
def silence (k : LinkId) (s : State) : State :=
  reevaluate (State.raiseLink .validatorSilent k (s.setEntry k { s.entry k with presence := .silent }))

/-- The silence test of an entry (R142). -/
def silenceTest (k : LinkId) (s : State) : State :=
  let e := s.entry k
  if e.presence = .active ∧ s.table.silenceLimit ≤ e.interval then silence k s else s

/-- The counter of an ACTIVE entry has reached the silence limit; after a report taken first it has not (R142, log 4). -/
def validatorSilent (k : LinkId) (s : State) : State := if (s.link k).state = .enabled then silenceTest k s else s

/-- VALIDATOR_SILENT. -/
def execValidatorSilent (link : LinkId) (s : State) : Result := .next (event (validatorSilent link) s)

/-! ### VALIDATOR_CONFIG, EXCLUDE, INCLUDE, READ (R144, R145, R151) -/

/-- VALIDATOR_CONFIG at the table: the new silence limit is applied at once to every entry, in ascending link order
(R142, R145; DESIGN CHOICE log 34). -/
def validatorConfig (silenceLimit : Half) (mismatchLimit : Byte) (s : State) : Reply :=
  let a := clamp 100 65535 silenceLimit.toNat
  let b := clamp 1 15 mismatchLimit.toNat
  let s1 := { s with table := { s.table with silenceLimit := a, mismatchLimit := b } }
  answer .ok (n16 a ++ [n8 b]) (allLinks.foldl (fun s k => silenceTest k s) s1)

/-- VALIDATOR_CONFIG. -/
def execValidatorConfig (tag silenceLimit : Half) (mismatchLimit : Byte) (s : State) : Result :=
  .next (gateway (.validatorConfig tag silenceLimit mismatchLimit) (validatorConfig silenceLimit mismatchLimit) s)

/-- VALIDATOR_EXCLUDE at the table (R144). -/
def validatorExclude (link : Byte) (s : State) : Reply :=
  match linkOf link with
  | none => refuse .badArg s
  | some k => answer .ok [] (reevaluate (s.setEntry k { s.entry k with excluded := true }))

/-- VALIDATOR_EXCLUDE. -/
def execValidatorExclude (tag : Half) (link : Byte) (s : State) : Result :=
  .next (gateway (.validatorExclude tag link) (validatorExclude link) s)

/-- VALIDATOR_INCLUDE at the table (R144). -/
def validatorInclude (link : Byte) (s : State) : Reply :=
  match linkOf link with
  | none => refuse .badArg s
  | some k =>
    answer .ok [] (reevaluate (s.setEntry k { s.entry k with excluded := false, suspect := false, mismatches := 0 }))

/-- VALIDATOR_INCLUDE. -/
def execValidatorInclude (tag : Half) (link : Byte) (s : State) : Result :=
  .next (gateway (.validatorInclude tag link) (validatorInclude link) s)

/-- An entry's fields as VALIDATOR_READ carries them (R133, R151). -/
def entryBytes (e : Entry) : List Byte :=
  optional 4 be32 e.validatorId ++
    [e.presence.code, flagByte e.excluded, flagByte e.suspect, e.holding.code, e.pending.code] ++
    be16 e.lastReport.usingSeq ++ be32 e.lastReport.usingCrc ++ be16 e.lastReport.nextSeq ++
    [flagByte e.lastReport.nextComplete] ++ be32 e.lastReport.nextCrc ++ n16 e.lastReport.shelvesLacking ++
    n16 e.interval ++ n16 e.lastInterval ++ [n8 e.mismatches] ++ n16 e.reports ++ n16 e.lookups

/-- VALIDATOR_READ at the table: it changes nothing (R151). -/
def validatorRead (link : Byte) (s : State) : Reply :=
  match linkOf link with
  | none => refuse .badArg s
  | some k =>
    let e := s.entry k
    answer .ok
      (entryBytes e ++ [flagByte e.member] ++ n16 s.table.silenceLimit ++
        [n8 s.table.mismatchLimit, flagByte s.table.allReady]) s

/-- VALIDATOR_READ. -/
def execValidatorRead (tag : Half) (link : Byte) (s : State) : Result :=
  .next (gateway (.validatorRead tag link) (validatorRead link) s)

end Sys2Proof.Machine
end

