-- ==== Sys2Proof/Machine/Dispatch.lean ====
section
/-!
DEFINITION. The one place where a command meets its meaning.
-/

namespace Sys2Proof.Machine

/-- The effect of a command on everything but the queue. -/
def exec (i : Instr) (s : State) : Host.Outcome State Fault Refusal :=
  match i with
  | .powerOn => Sys2Proof.Machine.execPowerOn s
  | .resetNLow => Sys2Proof.Machine.execResetNLow s
  | .resetEnd => Sys2Proof.Machine.execResetEnd s
  | .deviceReset tag => Sys2Proof.Machine.execDeviceReset tag s
  | .writeMessage kindWhileLow bytes => Sys2Proof.Machine.execWriteMessage kindWhileLow bytes s
  | .readResponse placedAfterKind clocked => Sys2Proof.Machine.execReadResponse placedAfterKind clocked s
  | .ignoredTransaction bytes => Sys2Proof.Machine.execIgnoredTransaction bytes s
  | .openBuild tag option => Sys2Proof.Machine.execOpenBuild tag option s
  | .closeBuild tag mode day minute => Sys2Proof.Machine.execCloseBuild tag mode day minute s
  | .withdraw tag => Sys2Proof.Machine.execWithdraw tag s
  | .discardBuild tag => Sys2Proof.Machine.execDiscardBuild tag s
  | .bankRead tag bank selector firstShelf => Sys2Proof.Machine.execBankRead tag bank selector firstShelf s
  | .rangeRead tag bank shelf index => Sys2Proof.Machine.execRangeRead tag bank shelf index s
  | .tariffRead tag bank item arg1 arg2 arg3 => Sys2Proof.Machine.execTariffRead tag bank item arg1 arg2 arg3 s
  | .segment tag packageId index count payload => Sys2Proof.Machine.execSegment tag packageId index count payload s
  | .carouselConfig tag interleave refresh leadIn frameGap cycleGap => Sys2Proof.Machine.execCarouselConfig tag interleave refresh leadIn frameGap cycleGap s
  | .carouselStart tag => Sys2Proof.Machine.execCarouselStart tag s
  | .carouselStop tag => Sys2Proof.Machine.execCarouselStop tag s
  | .linkConfig tag link divider threshold => Sys2Proof.Machine.execLinkConfig tag link divider threshold s
  | .linkEnable tag link => Sys2Proof.Machine.execLinkEnable tag link s
  | .linkDisable tag link => Sys2Proof.Machine.execLinkDisable tag link s
  | .linkTest tag link mode count => Sys2Proof.Machine.execLinkTest tag link mode count s
  | .linkRead tag link => Sys2Proof.Machine.execLinkRead tag link s
  | .validatorConfig tag silenceLimit mismatchLimit => Sys2Proof.Machine.execValidatorConfig tag silenceLimit mismatchLimit s
  | .validatorRead tag link => Sys2Proof.Machine.execValidatorRead tag link s
  | .validatorExclude tag link => Sys2Proof.Machine.execValidatorExclude tag link s
  | .validatorInclude tag link => Sys2Proof.Machine.execValidatorInclude tag link s
  | .timeSet tag day minute => Sys2Proof.Machine.execTimeSet tag day minute s
  | .cutoverConfig tag waitLimit grace => Sys2Proof.Machine.execCutoverConfig tag waitLimit grace s
  | .cutoverNow tag option => Sys2Proof.Machine.execCutoverNow tag option s
  | .query tag kind queryTag args => Sys2Proof.Machine.execQuery tag kind queryTag args s
  | .eventsRead tag => Sys2Proof.Machine.execEventsRead tag s
  | .eventsClear tag flags => Sys2Proof.Machine.execEventsClear tag flags s
  | .eventMask tag masks => Sys2Proof.Machine.execEventMask tag masks s
  | .scrubConfig tag period => Sys2Proof.Machine.execScrubConfig tag period s
  | .identify tag => Sys2Proof.Machine.execIdentify tag s
  | .status tag => Sys2Proof.Machine.execStatus tag s
  | .copyComplete => Sys2Proof.Machine.execCopyComplete s
  | .drainComplete => Sys2Proof.Machine.execDrainComplete s
  | .closeRunComplete => Sys2Proof.Machine.execCloseRunComplete s
  | .checkPhaseEnd => Sys2Proof.Machine.execCheckPhaseEnd s
  | .applyPhaseEnd => Sys2Proof.Machine.execApplyPhaseEnd s
  | .cycleStart link => Sys2Proof.Machine.execCycleStart link s
  | .refillService passed => Sys2Proof.Machine.execRefillService passed s
  | .transmitBoundary link => Sys2Proof.Machine.execTransmitBoundary link s
  | .frameTransmitted link => Sys2Proof.Machine.execFrameTransmitted link s
  | .underrun link => Sys2Proof.Machine.execUnderrun link s
  | .frameReceived link bytes extraBits dropped begunBeforeEnable => Sys2Proof.Machine.execFrameReceived link bytes extraBits dropped begunBeforeEnable s
  | .report link => Sys2Proof.Machine.execReport link s
  | .validatorSilent link => Sys2Proof.Machine.execValidatorSilent link s
  | .minuteEvent => Sys2Proof.Machine.execMinuteEvent s
  | .waitExpired => Sys2Proof.Machine.execWaitExpired s
  | .inhibitAssertion => Sys2Proof.Machine.execInhibitAssertion s
  | .inhibitDeassertion => Sys2Proof.Machine.execInhibitDeassertion s
  | .graceRunOut => Sys2Proof.Machine.execGraceRunOut s
  | .lookupComplete => Sys2Proof.Machine.execLookupComplete s
  | .scrubPeriod => Sys2Proof.Machine.execScrubPeriod s
  | .scrubRead strikes => Sys2Proof.Machine.execScrubRead strikes s
  | .testFrameReturned link bytes extraBits => Sys2Proof.Machine.execTestFrameReturned link bytes extraBits s
  | .testNoEcho link => Sys2Proof.Machine.execTestNoEcho link s
  | .testFrameStart link => Sys2Proof.Machine.execTestFrameStart link s
  | .copyFailure region offset => Sys2Proof.Machine.execCopyFailure region offset s
  | .closingRunFailure region offset again => Sys2Proof.Machine.execClosingRunFailure region offset again s

end Sys2Proof.Machine
end

