-- ==== Sys2Proof/Machine/Tick.lean ====
section
/-!
DEFINITION. One millisecond of the reference clock: what happens when no command waits (R142, R152, R157, R161, R162,
R184; DESIGN CHOICE logs 1 and 2).
-/

namespace Sys2Proof.Machine

/-- The millisecond count advances; at 59999 the minute event does the rest (R152). -/
def Clock.tick (c : Clock) : Clock := if c.valid ∧ c.ms < 59999 then { c with ms := c.ms + 1 } else c

/-- INHIBIT is sampled, and the timers of Cutover Control advance (R157, R161, R162). -/
def Cutover.tick (c : Cutover) : Cutover :=
  { c with
    lastSample := c.pin
    waitTimer := if c.state = .waiting then satAdd 4294967295 c.waitTimer 1 else c.waitTimer
    graceTimer := if c.state = .deferred then satAdd 4294967295 c.graceTimer 1 else c.graceTimer }

/-- Two successive samples agree on a level other than the taken one (R161). -/
def Cutover.inhibitDue (c : Cutover) : Bool := decide (c.pin = c.lastSample) && decide (c.pin ≠ c.inhibit)

/-- The interval counter of an entry advances (R142). -/
def Entry.tick (enabled : Bool) (e : Entry) : Entry :=
  if enabled ∧ e.presence ≠ .absent then { e with interval := satAdd 65535 e.interval 1 } else e

/-- The silence of link `k` is due (R142). -/
def State.silenceDue (s : State) (k : LinkId) : Bool :=
  decide ((s.link k).state = .enabled) && decide ((s.entry k).presence = .active) &&
    decide (s.table.silenceLimit ≤ (s.entry k).interval)

/-- The scrubber's timer advances; in OFF it stands at 0 (R184). R184 gives the timer no greatest value: the model stops
it at 4,294,967,295, as four bytes hold (DESIGN CHOICE log 39). -/
def Scrub.tick (c : Scrub) : Scrub :=
  match c.mode with
  | .off => c
  | .resting => { c with timer := satAdd 4294967295 c.timer 1 }
  | .walking _ _ _ => { c with timer := satAdd 4294967295 c.timer 1 }

/-- The counters and timers after a millisecond. -/
def advance (s : State) : State :=
  let tickEntry (k : LinkId) (t : PerLink Entry) : PerLink Entry :=
    t.set k ((t.get k).tick (decide ((s.link k).state = .enabled)))
  { s with
    clock := s.clock.tick
    cutover := s.cutover.tick
    table := { s.table with entries := allLinks.foldl (fun t k => tickEntry k t) s.table.entries }
    scrub := s.scrub.tick }

/-- The events due in the millisecond that led from `s` to `t`. -/
def dueEvents (s t : State) : List Instr :=
  (if s.clock.minuteDue then [Instr.minuteEvent] else []) ++
    (if s.cutover.inhibitDue then [if s.cutover.pin then Instr.inhibitAssertion else Instr.inhibitDeassertion] else []) ++
    (allLinks.filter t.silenceDue).map Instr.validatorSilent ++
    (if t.waitOver then [Instr.waitExpired] else []) ++ (if t.graceOver then [Instr.graceRunOut] else []) ++
    (if t.scrub.periodDue then [Instr.scrubPeriod] else [])

/-- An event put before the first of a higher rank. -/
def placeDue (x : Nat × Instr) : List (Nat × Instr) → List (Nat × Instr)
  | [] => [x]
  | y :: ys => if x.1 < y.1 then x :: y :: ys else y :: placeDue x ys

/-- Events in the order of their free ranks (log 2). -/
def orderDue (free : Nat) (due : List Instr) : List Instr :=
  ((due.zipIdx free).foldl (fun acc p => placeDue (Config.dueRank p.2, p.1) acc) []).map Prod.snd

/-- One millisecond (log 1): a copy in progress goes on (log 16), timers advance and the events that come due join the queue
(log 2). A message that has been dispatched is taken by its owner first; during a device reset nothing advances. -/
def tick (s : State) : State :=
  if s.inReset then s
  else
    match s.port.dispatched with
    | some i => { s with pending := s.pending ++ [i] }
    | none =>
      let u := copyOn s
      let t := advance u
      let due := dueEvents u t
      { t with pending := t.pending ++ orderDue t.free due, free := t.free + due.length }

end Sys2Proof.Machine
end

