-- ==== Sys2Proof/Safety.lean ====
section
/-!
DEFINITION. The words the statements are written in: when a message is taken, what an answer leaves in the port, and
the laws of the device as predicates of one state. Each names the rule that states it; the parts a law needs of the
model's own fields stand beside it.
-/

namespace Sys2Proof.Machine

/-! ### Messages taken and answered -/

/-- The port takes the next message: no device reset is in progress, RDY is high, and no message waits for its owner
(R193, R194). -/
abbrev State.portReady (s : State) : Prop := s.inReset = false ∧ s.port.rdy = true ∧ s.port.dispatched = none

/-- The port when the command's message has come, has been judged, and awaits its answer: its bytes are in the receive
buffer, RDY is low, the response buffer is EMPTY, and MISO carried FFh (R192 to R195). -/
def Port.awaits (i : Instr) (tag : Half) (p : Port) : Port :=
  { p with
    rdy := false
    rx := (encodeMessage i).take 256
    awaiting := some tag
    response := .empty
    miso := idleMiso (encodeMessage i).length }

/-- The port when the command's message has come and has been answered: its bytes are in the receive buffer, RDY is
high, the response is HELD, and MISO carried FFh (R192 to R195). -/
def Port.answered (i : Instr) (tag : Half) (code : ResultCode) (body : List Byte) (p : Port) : Port :=
  { p with
    rdy := true
    rx := (encodeMessage i).take 256
    dispatched := none
    awaiting := none
    response := .held ⟨tag, code, body⟩
    miso := idleMiso (encodeMessage i).length }

/-- A later message's response frees a gateway slot that held an answer (R169). -/
def GatewaySlot.afterAnswer : GatewaySlot → GatewaySlot
  | .answered => .free
  | .free => .free
  | .waiting q => .waiting q
  | .inService => .inService

/-- `s` when the command has been answered and nothing else has changed. -/
def State.answered (i : Instr) (tag : Half) (code : ResultCode) (body : List Byte) (s : State) : State :=
  { s with
    port := s.port.answered i tag code body
    lookups := { s.lookups with slot := s.lookups.slot.afterAnswer } }

/-! ### Range tables -/

/-- A record's card numbers are in order and in one shelf (R25, R26). -/
abbrev RangeRec.wf (r : RangeRec) : Prop := r.first ≤ r.last ∧ shelfOf r.first = shelfOf r.last

/-- Canonical shape: well-formed records, strictly ascending and disjoint, none left that should be coalesced (R27). -/
abbrev canonical (rs : List RangeRec) : Prop :=
  (∀ r ∈ rs, r.wf) ∧ rs.Pairwise (fun x y => x.last < y.first) ∧ rs.Pairwise fun x y => x.joins y = false

/-- What a table says of a card number: nothing, or the attributes it is listed with (R46). -/
def listing (rs : List RangeRec) (c : Card) : Option (Reason × BitVec 2 × Option Half) :=
  (rs.find? fun r => r.lists c).map fun r => (r.reason, r.priority, r.expiry)

/-- The table, evictions and splits after the operations of a delta, each with its evictions (R37, R42, R43). -/
def deltaRun : List DeltaOp → List RangeRec × Nat × Nat → List RangeRec × Nat × Nat
  | [], t => t
  | op :: ops, (rs, evictions, splits) =>
    deltaRun ops
      (evict (op.applyTo rs), evictions + ((op.applyTo rs).length - 16384), splits + op.splits rs)

/-! ### The cutover -/

/-- At most one bank is IN_FORCE, and at most one is on the build side (R3). -/
abbrev rolesLaw (s : State) : Prop :=
  ¬((s.recOf .bankA).state = .inForce ∧ (s.recOf .bankB).state = .inForce) ∧
    ¬((s.recOf .bankA).state.buildSide = true ∧ (s.recOf .bankB).state.buildSide = true)

/-- The link is in a cycle of the bank and at a frame boundary (R102). -/
abbrev Link.atBoundaryOf (l : Link) (b : BankId) : Prop :=
  l.phase = .inCycle ∧ l.ctx.content = some b ∧ l.ctx.wip = none ∧ 0 < l.ctx.frameIndex

/-- The link when its cycle has been cut: no frame but a CYCLE_END with the cut flag follows (R97, R102). -/
def Link.cutOff (l : Link) : Link :=
  { l with ctx := { l.ctx with cut := true, content := none, todo := [], ending := some (endBody l.ctx true) } }

/-- The number of links in a cycle of the bank that stand at a frame boundary: each gives up its reader when the bank
stops being sendable (R102). -/
def State.boundariesOf (s : State) (b : BankId) : Nat :=
  (allLinks.filter fun k => decide ((s.link k).atBoundaryOf b)).length

/-- From `s` to `t` the pending bank `p` comes into force with this cause and this end, in one event (R21, R150, R164 to
R166): the former bank in force goes to STALE, every entry is updated, every link's two counts are 0, Cutover Control is
IDLE with the record written, CUTOVER is raised with the new seq, all-ready is no, and the cycles of the former bank
that stand at a frame boundary are cut, each giving up its reader. -/
structure CutOver (s : State) (p : BankId) (cause : Option Cause) (cutEnd : CutEnd) (t : State) : Prop where
  newBank : t.bank p = { s.bank p with record := { s.recOf p with state := .inForce } }
  formerBank : ∀ f, (s.recOf f).state = .inForce →
    t.bank f =
      { s.bank f with
        record := { s.recOf f with state := .stale, readers := (s.recOf f).readers - s.boundariesOf f } }
  otherBank : ∀ b, b ≠ p → (s.recOf b).state ≠ .inForce → t.bank b = s.bank b
  entries : ∀ k, t.entry k =
    { s.entry k with
      holding :=
        if (s.entry k).presence = .absent then (s.entry k).holding
        else if (s.entry k).pending = .ready then .holds else .lacks
      pending := .none }
  settings : t.table.silenceLimit = s.table.silenceLimit ∧ t.table.mismatchLimit = s.table.mismatchLimit
  notReady : t.table.allReady = false
  links : ∀ k,
    let l : Link := { s.link k with interleave := 0, refresh := 0 }
    ((∃ f, (s.recOf f).state = .inForce ∧ (s.link k).atBoundaryOf f) → t.link k = l.cutOff) ∧
      ((∀ f, (s.recOf f).state = .inForce → ¬(s.link k).atBoundaryOf f) → t.link k = l)
  control : t.cutover =
    { s.cutover with
      state := .idle
      waitTimer := 0
      graceTimer := 0
      cause := none
      last :=
        { done := true
          seq := (s.recOf p).seq
          formerSeq := s.seqOf s.inForce
          cause := cause
          deferred := decide (s.cutover.state = .deferred)
          cutEnd := some cutEnd
          deferral := if s.cutover.state = .deferred then s.cutover.graceTimer else 0
          waited := s.cutover.waitTimer
          time := if s.clock.valid then some (s.clock.day, s.clock.minute) else none
          lacks :=
            (s.table.entries.toList.filter fun e => decide (e.presence ≠ .absent ∧ e.pending ≠ .ready)).length } }
  events : t.events =
    { s.events with flags := s.events.flags ||| 0x200#24, cutoverSeq := (s.recOf p).seq }
  rest : t =
    { s with
      banks := t.banks
      links := t.links
      table := t.table
      events := t.events
      cutover := t.cutover
      port := t.port
      lookups := t.lookups }

/-- From `s` to `t` the pending bank `b` is withdrawn, in one event (R19, R23, R102, R149, R164): it goes to STALE, Cutover
Control to IDLE, every pending holding to NONE, all-ready is no, PENDING_WITHDRAWN is raised, and the cycles of the bank that
stand at a frame boundary are cut, each giving up its reader. -/
structure Withdrawn (s : State) (b : BankId) (t : State) : Prop where
  bank : t.bank b =
    { s.bank b with
      record := { s.recOf b with state := .stale, readers := (s.recOf b).readers - s.boundariesOf b } }
  otherBank : t.bank (other b) = s.bank (other b)
  control : t.cutover = { s.cutover with state := .idle, waitTimer := 0, graceTimer := 0, cause := none }
  entries : ∀ k, t.entry k = { s.entry k with pending := .none }
  settings : t.table.silenceLimit = s.table.silenceLimit ∧ t.table.mismatchLimit = s.table.mismatchLimit
  notReady : t.table.allReady = false
  events : t.events = { s.events with flags := s.events.flags ||| 0x40#24 }
  links : ∀ k, t.link k = if (s.link k).atBoundaryOf b then (s.link k).cutOff else s.link k
  rest : t =
    { s with banks := t.banks, links := t.links, table := t.table, events := t.events, cutover := t.cutover }

/-! ### Where the scrubber goes (R184, R185) -/

/-- The scrubber at the end of a pass: the pass is counted, and it rests or, when the period has run out, begins the next
(R184). -/
def Scrub.ended (c : Scrub) : Scrub :=
  let n := min 65535 (c.passes + 1)
  if c.timer < c.period * 1000 then { c with passes := n, mode := .resting }
  else { c with passes := n, mode := .walking .bankA .header 0, timer := 0 }

/-- The scrubber at the start of a region, or at the end of its pass. -/
def Scrub.movedTo (next : Option (BankId × Region)) (c : Scrub) : Scrub :=
  match next with
  | some (b, r) => { c with mode := .walking b r 0 }
  | none => c.ended

/-- The region that a pass reads after another: HEADER, TARIFF, RANGES of bank A, then of bank B (R185). -/
def regionAfter : BankId → Region → Option (BankId × Region)
  | b, .header => some (b, .tariff)
  | b, .tariff => some (b, .ranges)
  | .bankA, .ranges => some (.bankB, .header)
  | .bankB, .ranges => none

/-- The scrubber when bank `b` has gone to EMPTY: in that bank it goes on with the next bank, or its pass ends (R185). -/
def Scrub.leftBank (b : BankId) (c : Scrub) : Scrub :=
  match c.mode with
  | .walking b' _ _ => if b' = b then c.movedTo (if b = .bankA then some (.bankB, .header) else none) else c
  | .off => c
  | .resting => c

/-- The scrubber when a region of bank `b` has been marked: in that region it goes on with the next, or its pass ends (R185,
R186). -/
def Scrub.leftRegion (b : BankId) (r : Region) (c : Scrub) : Scrub :=
  match c.mode with
  | .walking b' r' _ => if b' = b ∧ r' = r then c.movedTo (regionAfter b r) else c
  | .off => c
  | .resting => c

/-- The word at offset `o` of a region is in a bank's extent (R185). -/
def inExtent (x : Bank) (r : Region) (o : Nat) : Prop :=
  ∃ i : Item, o ∈ Config.itemWords i ∧
    match r, i with
    | .header, .dims => x.record.tariffPresent = true
    | .tariff, .classRec n => x.record.tariffPresent = true ∧ n < x.tariff.classes.length
    | .tariff, .base n => x.record.tariffPresent = true ∧ n < x.tariff.base.length
    | .tariff, .price n => x.record.tariffPresent = true ∧ x.record.expansionDue = false ∧ n < x.tariff.prices.length
    | .tariff, .product n => x.record.tariffPresent = true ∧ n < x.tariff.products.length
    | .ranges, .rangeCount => True
    | .ranges, .dirEntry n => n < 256
    | .ranges, .record n => n < x.ranges.count
    | _, _ => False

/-- A pass reads the word: its bank is not EMPTY and its region not marked, and it is in the bank's extent, which for a bank
COPYING is what the copy has written so far of the words of the bank in force (R185). -/
def State.passReads (s : State) (b : BankId) (r : Region) (o : Nat) : Prop :=
  (s.recOf b).state ≠ .empty ∧ (s.recOf b).marks.get r = none ∧
    ((s.recOf b).state ≠ .copying → inExtent (s.bank b) r o) ∧
    ((s.recOf b).state = .copying →
      ∃ f, (s.recOf f).state = .inForce ∧ o < s.copied.get r ∧ inExtent (s.bank f) r o)

/-- The place of a region in a pass: bank A and then bank B, in each HEADER, TARIFF, RANGES (R185). -/
def passPlace : BankId → Region → Nat
  | .bankA, .header => 0
  | .bankA, .tariff => 1
  | .bankA, .ranges => 2
  | .bankB, .header => 3
  | .bankB, .tariff => 4
  | .bankB, .ranges => 5

/-- A pass comes to the second word at or after the first (R185). -/
def passOrder (b : BankId) (r : Region) (o : Nat) (b' : BankId) (r' : Region) (o' : Nat) : Prop :=
  passPlace b r < passPlace b' r' ∨ (passPlace b r = passPlace b' r' ∧ o ≤ o')

/-- The scrubber is in a pass, and not at its very start. -/
def Scrub.midPass (c : Scrub) : Bool :=
  match c.mode with
  | .walking b r o => !(decide (b = .bankA) && decide (r = .header) && decide (o = 0))
  | .off => false
  | .resting => false

/-! ### Drains (R4, R6, R7) -/

/-- A bank's record as a build begins on it (R6). -/
def BankRecord.opened (r : BankRecord) : BankRecord :=
  { r with
    marks := ⟨none, none, none⟩
    seq := 0#16
    activation := none
    comparedSeq := 0#16
    tariffChanged := false
    shelfChanged := List.replicate 256 false
    evictions := 0
    pruned := 0
    openOption := none }

/-- `s` when a build with option EMPTY has begun on the bank: an empty image, its table written, and BUILD_OPENED raised
(R6). -/
def State.openedEmpty (b : BankId) (s : State) : State :=
  let image : Bank :=
    ⟨{ (s.recOf b).opened with
        state := .building
        tariffPresent := false
        tariffVersion := 0#32
        expansionDue := true
        blockStatus := .none
        blockVersion := 0#32
        tariffCrc := 0#32
        imageCrc := 0#32
        shelfCrcs := List.replicate 256 0#32
        capped := 0 }, (s.bank b).tariff, ⟨0, List.replicate 256 ⟨0, 0⟩, []⟩⟩
  { (s.setBank b image).refresh (inItems b (Item.rangeCount :: (List.range 256).map Item.dirEntry)) with
    events := { s.events with flags := s.events.flags ||| 4#24 } }

/-- `s` when a build with option FROM_IN_FORCE has begun on the bank: the copy starts (R6, R8). -/
def State.openedCopy (b : BankId) (s : State) : State :=
  { s.setRec b { (s.recOf b).opened with state := .copying } with copied := ⟨0, 0, 0⟩ }

/-- `s` when the build on the bank has failed at the end of its drain: the bank is EMPTY, the scrubber has left it, and
BUILD_FAILED is raised (R7, R185). -/
def State.openFailed (b : BankId) (s : State) : State :=
  { s.setRec b BankRecord.reset with
    scrub := s.scrub.leftBank b
    events := { s.events with flags := s.events.flags ||| 8#24 } }

/-- From `s`, in which the DRAINING bank has no reader left, to `t`: the drain completes by the recorded open option and,
with FROM_IN_FORCE, by the marks of the bank in force (R7). -/
structure DrainEnds (s : State) (b : BankId) (t : State) : Prop where
  empty : (s.recOf b).openOption = some .empty → t = s.openedEmpty b
  copy : (s.recOf b).openOption = some .fromInForce → (s.recOf (other b)).state = .inForce →
    (s.recOf (other b)).marks = ⟨none, none, none⟩ → t = s.openedCopy b
  damaged : (s.recOf b).openOption = some .fromInForce → (s.recOf (other b)).state = .inForce →
    (s.recOf (other b)).marks ≠ ⟨none, none, none⟩ → t = s.openFailed b

/-- From `s` to `t` one reader of the bank is released; when it was the last of a DRAINING bank, the drain completes (R4,
R7). -/
structure ReaderReleased (s : State) (b : BankId) (t : State) : Prop where
  more : ((s.recOf b).state = .draining → 1 < (s.recOf b).readers) →
    t = s.setRec b { s.recOf b with readers := (s.recOf b).readers - 1 }
  last : (s.recOf b).state = .draining → (s.recOf b).readers ≤ 1 →
    DrainEnds (s.setRec b { s.recOf b with readers := 0 }) b t

/-! ### Errors found, copies and closing runs that fail (R8, R15, R22, R23, R181, R182) -/

/-- So many words have been corrected: they are counted, and ECC_CORRECTED is raised when there was one (R181). -/
def Events.correctedBy (n : Nat) (e : Events) : Events :=
  if n = 0 then e else { e with flags := e.flags ||| 0x10000#24, corrected := min 4294967295 (e.corrected + n) }

/-- `s` when the words selected have been read and held errors of one bit at most: these are corrected and counted, and a
stuck bit reappears (R181). -/
def State.correctedAt (read : WordLoc → Bool) (s : State) : State :=
  { s.refresh read with events := s.events.correctedBy (s.upsets.filter fun u => read u.loc).length }

/-- `s` when a word of a bank has been found uncorrectable by a reader: the region carries a mark, the error is counted,
captured when the capture is empty, and ECC_UNCORRECTABLE is raised; what the mark then does is left out (R22, R182,
R183). -/
def State.found (reader : Reader) (b : BankId) (r : Region) (o : Nat) (s : State) : State :=
  { s.setRec b { s.recOf b with marks := (s.recOf b).marks.mark r o } with
    events :=
      { s.events with
        flags := s.events.flags ||| 0x20000#24
        uncorrectable := min 65535 (s.events.uncorrectable + 1)
        capture := some (s.events.capture.getD ⟨.bank b r o, reader, some (s.recOf b).state⟩) } }

/-- What the mark just set on region `r` of the bank in force `b` does, from `s` to `t`: its cycles at a frame boundary are
cut, each giving up its reader, a copy from it fails, its target going to EMPTY with BUILD_FAILED, and the scrubber leaves
the bank emptied and the region marked (R8, R23, R102, R185). -/
structure InForceMarked (s : State) (b : BankId) (r : Region) (t : State) : Prop where
  bank : t.bank b = { s.bank b with record := { s.recOf b with readers := (s.recOf b).readers - s.boundariesOf b } }
  target : (s.recOf (other b)).state = .copying →
    t.bank (other b) = { s.bank (other b) with record := BankRecord.reset } ∧
      t.events = { s.events with flags := s.events.flags ||| 8#24 }
  noTarget : (s.recOf (other b)).state ≠ .copying → t.bank (other b) = s.bank (other b) ∧ t.events = s.events
  links : ∀ k, t.link k = if (s.link k).atBoundaryOf b then (s.link k).cutOff else s.link k
  scrub : t.scrub =
    (if (s.recOf (other b)).state = .copying then s.scrub.leftBank (other b) else s.scrub).leftRegion b r
  rest : t = { s with banks := t.banks, links := t.links, events := t.events, scrub := t.scrub }

/-- What the mark just set on the CLOSING bank `b` does, when its run has come to `reached`: the bank holds what the run had
done by then and returns to BUILDING, its activation absent and its seq 0; the result says FAILED with the counts reached;
the sequence counter moves only when step 5 had been reached; CLOSE_FAILED is raised; the words the run had written, but for
the one found, are renewed (R15, R16). -/
def State.closeFailed (b : BankId) (reached : ClosePoint) (found : WordLoc) (s : State) : State :=
  let w := closeWorkAt reached s.closeDay (s.inForce.map s.recOf) (s.bank b)
  let image : Bank := { w.bank with record := { w.bank.record with state := .building, activation := none, seq := 0#16 } }
  { (s.setBank b image).refresh fun l =>
      inItems b (closeItemsWritten reached (s.bank b) w.bank) l && decide (l ≠ found) with
    lastSeq := if reached = .sequenced then drawSeq s.lastSeq (s.seqOf s.inForce) else s.lastSeq
    closeDay := none
    closeResult := ⟨.failed, b, w.pruned, w.capped, 0#16, 0#32⟩
    events := { s.events with flags := s.events.flags ||| 0x20#24 } }

/-- What a part of a closing run on bank `b` makes of an error in the word at `l`: `none` when it comes to read that word and
no word can be given; otherwise what is left of the error, and how often it has been corrected. A write stores the word
whole, unless it is the one at `kept`; a stuck bit reappears (R180 to R182). -/
def errorAfter (b : BankId) (kept : Option WordLoc) (l : WordLoc) : List CloseAct → UpsetKind → Option (Option UpsetKind × Nat)
  | [], k => some (some k, 0)
  | .reach _ :: acts, k => errorAfter b kept l acts k
  | .write items :: acts, k =>
    if inItems b items l = true ∧ kept ≠ some l then
      if hasStuck k then errorAfter b kept l acts .stuck else some (none, 0)
    else errorAfter b kept l acts k
  | .read r o :: acts, k =>
    if l = .bank b r o then
      if fatal k then none
      else if hasStuck k then (errorAfter b kept l acts .stuck).map fun p => (p.1, p.2 + 1)
      else some (none, 1)
    else errorAfter b kept l acts k

/-- Every word that the part of a closing run reads can be given, corrected where it holds an error of one bit (R181). -/
abbrev State.readable (b : BankId) (kept : Option WordLoc) (acts : List CloseAct) (s : State) : Prop :=
  ∀ u ∈ s.upsets, errorAfter b kept u.loc acts u.kind ≠ none

/-- `s` when a closing run on bank `b` has made a part of its acts and could read every word it came to: each word in error
is as `errorAfter` says, and the corrections are counted, with ECC_CORRECTED when there was one (R180, R181). What the run
makes of the bank is left out. -/
def State.ranOn (b : BankId) (kept : Option WordLoc) (acts : List CloseAct) (s : State) : State :=
  let after (u : Upset) : Option UpsetKind × Nat := (errorAfter b kept u.loc acts u.kind).getD (none, 0)
  { s with
    upsets := s.upsets.filterMap fun u => (after u).1.map fun k => ⟨u.loc, k⟩
    events := s.events.correctedBy (s.upsets.map fun u => (after u).2).sum }

/-- The point that a closing run has come to when it stood at one and has made more of its acts. -/
def pointFrom : ClosePoint → List CloseAct → ClosePoint
  | p, [] => p
  | _, .reach q :: acts => pointFrom q acts
  | p, .read _ _ :: acts => pointFrom p acts
  | p, .write _ :: acts => pointFrom p acts

/-- The point that a closing run has come to with a part of its acts made. -/
def pointAfter (acts : List CloseAct) : ClosePoint := pointFrom (.prune 0) acts

/-- A run that can have come to the first point may stand at the second: no more ranges may be pruned, and shelf CRCs
written, than that, and the steps that read no word may have been made (log 15). -/
def pointAllows : ClosePoint → ClosePoint → Prop
  | .prune n, p => ∃ m, m ≤ n ∧ p = .prune m
  | .expand n, p => p = .expand n
  | .checksum n, p => ∃ m, m ≤ n ∧ p = .checksum m ∧ (256 ≤ n → m = n)
  | .checksummed, p => p = .checksummed ∨ p = .compared ∨ p = .sequenced
  | .compared, p => p = .compared
  | .sequenced, p => p = .sequenced

/-- `s` when the copy from `f` into `t` has gone on to the points `c`, or to its end, and could read every word it came to:
one-bit errors of the source's words are corrected and counted, and the target's words are written with fresh check bits
(R8, R180, R181). -/
def State.copiedTo (t f : BankId) (c : Option Copied) (s : State) : State :=
  let items := allExtentItems (s.bank f)
  let read := copyPasses f items s.copied c
  let corrected := (s.upsets.filter fun u => read u.loc).length
  { s.refresh fun l => read l || copyPasses t items s.copied c l with
    copied := c.getD s.copied
    events :=
      { s.events with
        flags := if corrected = 0 then s.events.flags else s.events.flags ||| 0x10000#24
        corrected :=
          if corrected = 0 then s.events.corrected else min 4294967295 (s.events.corrected + corrected) } }

/-- From `s` to `v` the copy in progress, if there is one, goes on by some amount, past no word of the source that it cannot
read (R8, R181, R182, R185); without a bank COPYING, or without one in force to copy from, nothing changes. -/
structure CopyGoesOn (s v : State) : Prop where
  idle : (∀ t f, (s.recOf t).state = .copying → (s.recOf f).state ≠ .inForce) → v = s
  goes : ∀ t f, (s.recOf t).state = .copying → (s.recOf f).state = .inForce →
    ∃ c : Copied,
      (∀ r, s.copied.get r ≤ c.get r) ∧
      (∀ u ∈ s.upsets, copyPasses f (allExtentItems (s.bank f)) s.copied (some c) u.loc = true → fatal u.kind = false) ∧
      v = { s.copiedTo t f (some c) with free := s.free + 1 }

/-! ### Readiness -/

/-- All-ready has risen, and READY_ALL is raised (R146). -/
def State.risen (s : State) : State :=
  { s with
    table := { s.table with allReady := true }
    events := { s.events with flags := s.events.flags ||| 0x80#24 } }

/-- All-ready is about to rise: the condition of R146 holds, and the flag does not yet say so. -/
abbrev State.rises (s : State) : Prop := s.allReadyHolds = true ∧ s.table.allReady = false

/-- Cutover Control waits for readiness (R158). -/
abbrev State.awaitsReady (s : State) : Prop := s.cutover.state = .waiting ∧ s.activation = some .onReady

/-- From `u`, in which something that readiness depends on has changed, to `t`: readiness is evaluated (R146, R147). The
flag follows the condition; a rise raises READY_ALL, and while Cutover Control waits for readiness it is the READY trigger
(R158), which INHIBIT and the grace decide (R160). -/
structure ReadinessFollows (u t : State) : Prop where
  noRise : ¬u.rises → t = { u with table := { u.table with allReady := u.allReadyHolds } }
  rise : u.rises → ¬u.awaitsReady → t = u.risen
  deferred : u.rises → u.awaitsReady → u.cutover.inhibit = true → u.cutover.grace ≠ 0 →
    t = { u.risen with cutover := { u.cutover with state := .deferred, cause := some .ready, graceTimer := 0 } }
  cutover : u.rises → u.awaitsReady → (u.cutover.inhibit = true → u.cutover.grace = 0) → rolesLaw u →
    ∃ p, (u.recOf p).state = .pending ∧
      CutOver u.risen p (some .ready) (if u.cutover.inhibit = true then .grace else .immediate) t ∧
      t.port = u.port ∧ t.lookups = u.lookups

/-! ### What a cycle start chooses -/

/-- What a cycle start on link `k` chooses: the content with the interleave count that follows (R99), the composition with the
refresh count that follows (R100), from the counts as the take-up of the settings leaves them (R88). -/
structure CycleChosen (s : State) (k : LinkId) (c : Choice) : Prop where
  both : ∀ p f, (s.recOf p).state = .pending → (s.recOf f).state = .inForce →
    let most := s.carousel.settings.interleave
    if 0 < most ∧ min (s.link k).interleave most = most ∧ (s.recOf f).marks = ⟨none, none, none⟩ then
      c.content = some f ∧ c.interleave = 0
    else
      c.content = (if (s.recOf p).marks = ⟨none, none, none⟩ then some p else none) ∧
        c.interleave = min (min (s.link k).interleave most + 1) most
  pendingOnly : ∀ p, (s.recOf p).state = .pending → (∀ f, (s.recOf f).state ≠ .inForce) →
    let most := s.carousel.settings.interleave
    c.content = (if (s.recOf p).marks = ⟨none, none, none⟩ then some p else none) ∧
      c.interleave = min (min (s.link k).interleave most + 1) most
  inForceOnly : ∀ f, (s.recOf f).state = .inForce → (∀ p, (s.recOf p).state ≠ .pending) →
    c.content = (if (s.recOf f).marks = ⟨none, none, none⟩ then some f else none) ∧
      c.interleave = min (s.link k).interleave s.carousel.settings.interleave
  neither : (∀ b, (s.recOf b).state ≠ .inForce ∧ (s.recOf b).state ≠ .pending) →
    c.content = none ∧ c.interleave = min (s.link k).interleave s.carousel.settings.interleave
  noContent : c.content = none →
    c.composition = .hold ∧ c.refresh = min (s.link k).refresh (s.carousel.settings.refresh - 1)
  content : ∀ b, c.content = some b →
    let e := s.entry k
    let refresh := min (s.link k).refresh (s.carousel.settings.refresh - 1)
    let satisfied : Prop :=
      (e.pending = .ready ∧ (s.recOf b).state = .pending) ∨ (e.holding = .holds ∧ (s.recOf b).state = .inForce)
    let eligible : Prop :=
      (s.recOf b).state = .pending ∧ e.holding = .holds ∧
        ∃ f, (s.recOf f).state = .inForce ∧ (s.recOf b).comparedSeq = (s.recOf f).seq
    (satisfied → refresh + 1 = s.carousel.settings.refresh → c.composition = .full ∧ c.refresh = 0) ∧
      (satisfied → refresh + 1 ≠ s.carousel.settings.refresh → c.composition = .hold ∧ c.refresh = refresh + 1) ∧
      (¬satisfied → eligible → c.composition = .changed ∧ c.refresh = refresh) ∧
      (¬satisfied → ¬eligible → c.composition = .full ∧ c.refresh = refresh)

/-! ### What an idle transmitter begins -/

/-- From `l` to `x` a link's transmitter, which may begin a frame, begins the BUSY notice, else the oldest answer, else the next
carousel frame whose first byte is in the FIFO with nothing left to discard, and idles without any of them (R117, R119,
R125, R126). -/
structure Begins (l x : Link) : Prop where
  notice : ∀ tag kind, l.notice = some (tag, kind) →
    x = { l with notice := none, tx := .notice (linkFrame 0x21#8 (be16 tag ++ [kind.code])) }
  answer : l.notice = none → ∀ a rest, l.answers = a :: rest →
    x = { l with answers := rest, tx := .answer (linkFrame 0x20#8 (answerBody a)) }
  carousel : l.notice = none → l.answers = [] → ∀ f rest, l.txFifo = f :: rest → f.bytes ≠ [] → l.discard = 0 →
    x = { l with tx := .carousel f.kind }
  idle : l.notice = none → l.answers = [] → (l.discard ≠ 0 ∨ ∀ f rest, l.txFifo = f :: rest → f.bytes = []) →
    x = { l with tx := .idle }

/-! ### Frames on their way into a FIFO -/

/-- The bytes that the pieces of a frame stand for, read from words without errors, when `crc` has been run over the covered
bytes before them; the CRC of a frame with an unreadable word is inverted (R94 to R97, R105, R116). -/
def frameRest (bank : Option Bank) (crc : Half) (unreadable : Bool) : List Piece → List Byte
  | [] => []
  | .plain bs :: ps => bs ++ frameRest bank crc unreadable ps
  | .covered bs :: ps => bs ++ frameRest bank (crc16Feed crc bs) unreadable ps
  | .item i :: ps =>
    let bs := (bank.map fun b => itemBytes b i).getD []
    bs ++ frameRest bank (crc16Feed crc bs) unreadable ps
  | .crc :: ps => be16 (if unreadable then ~~~crc else crc) ++ frameRest bank crc unreadable ps

/-- The bytes of a frame that are still to be written. -/
def Wip.rest (w : Wip) (bank : Option Bank) : List Byte := frameRest bank w.crc w.unreadable w.pieces

/-! ### Laws -/

/-- States whose banks carry a number: a DRAINING bank keeps the one it had STALE (R13). -/
def BankState.numbered : BankState → Bool
  | .pending => true
  | .inForce => true
  | .stale => true
  | .draining => true
  | .empty => false
  | .copying => false
  | .building => false
  | .closing => false

/-- A numbered bank has a non-zero seq, and the PENDING bank's differs from the IN_FORCE bank's (R13). -/
abbrev sequenceLaw (s : State) : Prop :=
  ((s.recOf .bankA).state.numbered = true → (s.recOf .bankA).seq ≠ 0#16) ∧
    ((s.recOf .bankB).state.numbered = true → (s.recOf .bankB).seq ≠ 0#16) ∧
    ∀ p ∈ s.pendingBank, ∀ f ∈ s.inForce, (s.recOf p).seq ≠ (s.recOf f).seq

/-- A bank EMPTY, COPYING, BUILDING or CLOSING has no readers: a build begins when none is left, and only a PENDING bank
or the bank in force gains one (R4 to R7). -/
abbrev quietLaw (s : State) : Prop :=
  ∀ b : BankId, (s.recOf b).state = .empty ∨ (s.recOf b).state = .copying ∨ (s.recOf b).state = .building ∨
    (s.recOf b).state = .closing → (s.recOf b).readers = 0

/-- Range count and directory follow the records: each shelf's count is the number of its ranges, each first position
the sum of the lower shelves' counts (R28). -/
abbrev directoryLaw (s : State) : Prop :=
  (s.bank .bankA).ranges = RangeRegion.ofRecords (s.bank .bankA).ranges.records ∧
    (s.bank .bankB).ranges = RangeRegion.ofRecords (s.bank .bankB).ranges.records

/-- Each bank's table has canonical shape and at most 16,384 records (R27, R28, R42). -/
abbrev tablesLaw (s : State) : Prop :=
  ∀ b : BankId, canonical (s.bank b).ranges.records ∧ (s.bank b).ranges.records.length ≤ 16384

/-- While the loader is not IDLE a bank is BUILDING, and a package in its apply phase has passed its checks against that
bank (R69, R76, R78). -/
abbrev packageLaw (s : State) : Prop :=
  (s.loader.state ≠ .idle → ∃ b : BankId, (s.recOf b).state = .building) ∧
    ∀ id kind total, s.loader.state = .applying id kind total .apply →
      ∀ b : BankId, (s.recOf b).state = .building → checkContent (s.bank b) kind s.loader.buffer = none

/-- The words in error are listed once each, in one order (the model's canonical form, log 10). -/
abbrev errorsLaw (s : State) : Prop := upsetsWf s.upsets

/-- Cutover Control is WAITING or DEFERRED exactly while a bank is PENDING (R156). -/
abbrev cutoverLaw (s : State) : Prop := s.cutover.state = .idle ↔ s.pendingBank = none

/-- The all-ready flag is the condition of R146 as it stands: every event that can change the condition evaluates it
(R147). -/
abbrev allReadyLaw (s : State) : Prop := s.table.allReady = s.allReadyHolds

/-- The entry's last report named the pending bank's seq as complete with that bank's image CRC (R139). -/
abbrev namesPending (s : State) (e : Entry) : Prop :=
  ∃ p ∈ s.pendingBank,
    e.lastReport.nextSeq = (s.recOf p).seq ∧ e.lastReport.nextComplete = true ∧
      e.lastReport.nextCrc = (s.recOf p).imageCrc

/-- An entry is READY only while a bank is PENDING that its last accepted report named complete (R139). -/
abbrev readyLaw (s : State) : Prop := ∀ k : LinkId, (s.entry k).pending = .ready → namesPending s (s.entry k)

/-- An answer is on the line. -/
def TxLine.isAnswer : TxLine → Bool
  | .answer _ => true
  | .notice _ => false
  | .carousel _ => false
  | .gap => false
  | .idle => false
  | .test _ => false

/-- Nothing is on the line, or a test frame (R130). -/
def TxLine.testOnly : TxLine → Bool
  | .gap => true
  | .test _ => true
  | .answer _ => false
  | .notice _ => false
  | .carousel _ => false
  | .idle => false

/-- The lookup in service is link `k`'s and will be answered. -/
def Lookups.serves (u : Lookups) (k : LinkId) : Bool :=
  match u.service with
  | some v => decide (v.requester = .link k) && !v.discard
  | none => false

/-- The queries of a link in its queue, in service, in its answer queue and on its line (R167). -/
def State.held (s : State) (k : LinkId) : Nat :=
  (s.lookups.queues.get k).length + (if s.lookups.serves k then 1 else 0) + (s.link k).answers.length +
    (if (s.link k).tx.isAnswer then 1 else 0)

/-- A link's slots in use are the queries it holds, at most four (R124, R167); a DISABLED link has nothing on its line,
and a TESTING one nothing but a test frame (R130). -/
abbrev slotsLaw (s : State) : Prop :=
  ∀ k : LinkId,
    (s.link k).slots = s.held k ∧ (s.link k).slots ≤ 4 ∧ ((s.link k).state = .disabled → (s.link k).tx = .gap) ∧
      ((s.link k).state = .testing → (s.link k).tx.testOnly = true)

/-- While RDY is low the response buffer is EMPTY (R194, R195). -/
abbrev portLaw (s : State) : Prop := s.port.rdy = false → s.port.response = .empty

/-- The gateway slot is in service exactly while the lookup in service is the gateway's, which no link reset marks
(R167, R169, R179). -/
abbrev gatewaySlotLaw (s : State) : Prop :=
  (s.lookups.slot = .inService ↔ ∃ v ∈ s.lookups.service, v.requester = .gateway) ∧
    ∀ v ∈ s.lookups.service, v.requester = .gateway → v.discard = false

/-- While no lookup is in service no query waits: a take follows every completion and every arrival (R170). -/
abbrev turnLaw (s : State) : Prop := s.lookups.service = none → ∀ r : Requester, s.lookups.oldest r = none

/-- The service clock's ranges (R152). -/
abbrev clockLaw (s : State) : Prop := s.clock.minute.toNat ≤ 1439 ∧ s.clock.ms ≤ 59999

/-- No flag and no mask stands above number 18 (R187, R189). -/
abbrev flagsLaw (s : State) : Prop := s.events.flags.toNat < 2 ^ 19 ∧ s.events.masks.toNat < 2 ^ 19

/-- The carousel settings of a link or of the device are within their ranges (R87). -/
abbrev Settings.inRange (c : Settings) : Prop :=
  c.interleave ≤ 15 ∧ 1 ≤ c.refresh ∧ c.refresh ≤ 255 ∧ 2 ≤ c.leadIn ∧ c.leadIn ≤ 64 ∧ c.frameGap ≤ 255 ∧ c.cycleGap ≤ 4095

/-- Settings, limits and counts stay within the ranges that R87, R88, R98, R113, R145 and R155 give them. -/
abbrev settingsLaw (s : State) : Prop :=
  s.carousel.settings.inRange ∧ 100 ≤ s.table.silenceLimit ∧ s.table.silenceLimit ≤ 65535 ∧ 1 ≤ s.table.mismatchLimit ∧
    s.table.mismatchLimit ≤ 15 ∧ 1 ≤ s.cutover.waitLimit ∧ s.cutover.waitLimit ≤ 240 ∧ s.cutover.grace ≤ 600 ∧
    ∀ k : LinkId,
      (s.link k).settings.inRange ∧ 1 ≤ (s.link k).divider ∧ (s.link k).divider ≤ 8 ∧ 64 ≤ (s.link k).threshold ∧
        (s.link k).threshold ≤ 960 ∧ (s.link k).interleave ≤ (s.link k).settings.interleave ∧
        (s.link k).refresh < (s.link k).settings.refresh

/-- No transmit FIFO ever holds more than its 1,024 bytes (R106, R107), and no receive FIFO more than its 256 (R121). -/
abbrev fifoLaw (s : State) : Prop := ∀ k : LinkId, (s.link k).txFill ≤ 1024 ∧ (s.link k).rxFill ≤ 256

/-- Where a link's context stands in its cycle: only a link in a cycle has a content bank or a CYCLE_END on its way; there
is at most one CYCLE_END, and once it has been composed the content bank is none and no other frame follows (R91, R97,
R101, R102). -/
abbrev Link.contextLaw (l : Link) : Prop :=
  let ends := (l.txFifo.filter fun f => decide (f.kind = .cycleEnd)).length
  let ending : Prop := l.ctx.ending ≠ none ∨ 0 < ends ∨ ∃ w ∈ l.ctx.wip, w.kind = .cycleEnd
  (l.state ≠ .enabled → l.phase = .off) ∧
    (l.phase ≠ .inCycle → l.ctx.content = none ∧ ends = 0) ∧
    ends ≤ 1 ∧
    (l.ctx.ending ≠ none → l.ctx.wip = none ∧ ends = 0) ∧
    (∀ w ∈ l.ctx.wip, w.kind ≠ .cycleEnd ∨ w.written = 0 → ends = 0) ∧
    (ending → l.ctx.content = none ∧ l.ctx.todo = [])

/-- The number of cycle contexts that name a bank. -/
def State.contextsOf (s : State) (b : BankId) : Nat :=
  (s.links.toList.filter fun l => decide (l.ctx.content = some b)).length

/-- 1 while the Lookup Engine serves from the bank. -/
def State.lookupsOf (s : State) (b : BankId) : Nat :=
  match s.lookups.service with
  | some v => if v.bank = some b then 1 else 0
  | none => 0

/-- A bank's reader count is the number of cycle contexts naming it, plus one while the Lookup Engine serves from it
(R4). -/
abbrev readersLaw (s : State) : Prop :=
  (s.recOf .bankA).readers = s.contextsOf .bankA + s.lookupsOf .bankA ∧
    (s.recOf .bankB).readers = s.contextsOf .bankB + s.lookupsOf .bankB

end Sys2Proof.Machine
end

