-- ==== Sys2Proof/WellFormed.lean ====
section
/-!
DEFINITION. Which commands are well formed: the operands whose length or range the constructors' types leave open.
`exec` has a meaning for the others too; well-formedness says what a sender can send.
-/

namespace Sys2Proof

/-- A location inside the Image Store: word offsets are two bytes (R195), the package buffer has 8,192 words (R180). -/
def WordLoc.wf : WordLoc → Bool
  | .bank _ _ offset => offset < 65536
  | .buffer offset => offset < 8192

/-- Well-formed commands. -/
def Instr.wf : Instr → Bool
  | .powerOn => true
  | .resetNLow => true
  | .resetEnd => true
  | .deviceReset _ => true
  | .writeMessage _ _ => true
  | .readResponse _ _ => true
  -- kind bytes 01h and 02h begin the two transactions that are not ignored (R192)
  | .ignoredTransaction bytes => bytes.head? ≠ some 1#8 && bytes.head? ≠ some 2#8
  | .openBuild _ _ => true
  | .closeBuild _ _ _ _ => true
  | .withdraw _ => true
  | .discardBuild _ => true
  | .bankRead _ _ _ _ => true
  | .rangeRead _ _ _ _ => true
  | .tariffRead _ _ _ _ _ _ => true
  -- the SEGMENT body is 7 to 246 bytes, six of them before the payload (R193)
  | .segment _ _ _ _ payload => 1 ≤ payload.length && payload.length ≤ 240
  | .carouselConfig _ _ _ _ _ _ => true
  | .carouselStart _ => true
  | .carouselStop _ => true
  | .linkConfig _ _ _ _ => true
  | .linkEnable _ _ => true
  | .linkDisable _ _ => true
  | .linkTest _ _ _ _ => true
  | .linkRead _ _ => true
  | .validatorConfig _ _ _ => true
  | .validatorRead _ _ => true
  | .validatorExclude _ _ => true
  | .validatorInclude _ _ => true
  | .timeSet _ _ _ => true
  | .cutoverConfig _ _ _ => true
  | .cutoverNow _ _ => true
  -- the QUERY body is 5, 6 or 10 bytes, three of them before the arguments (R193)
  | .query _ _ _ args => args.length = 2 || args.length = 3 || args.length = 7
  | .eventsRead _ => true
  | .eventsClear _ _ => true
  | .eventMask _ _ => true
  | .scrubConfig _ _ => true
  | .identify _ => true
  | .status _ => true
  | .copyComplete => true
  | .drainComplete => true
  | .closeRunComplete => true
  | .checkPhaseEnd => true
  | .applyPhaseEnd => true
  | .cycleStart _ => true
  | .refillService passed => passed.length ≤ 8
  | .transmitBoundary _ => true
  | .frameTransmitted _ => true
  | .underrun _ => true
  -- fewer than eight bits lie beyond the complete bytes (R121)
  | .frameReceived _ _ extraBits _ _ => extraBits < 8
  | .report _ => true
  | .validatorSilent _ => true
  | .minuteEvent => true
  | .waitExpired => true
  | .inhibitAssertion => true
  | .inhibitDeassertion => true
  | .graceRunOut => true
  | .lookupComplete => true
  | .scrubPeriod => true
  | .scrubRead strikes => strikes.all fun u => u.loc.wf
  | .testFrameReturned _ _ extraBits => extraBits < 8
  | .testNoEcho _ => true
  | .testFrameStart _ => true
  | .copyFailure _ offset => offset < 65536
  | .closingRunFailure _ offset _ => offset < 65536

end Sys2Proof
end

