-- ==== Sys2Proof/Certificates/Slice0/Obligations.lean ====
section
/-!
DEFINITION. The statements for the provers. Each says what a command, or the machine, does; a docstring names the rules,
and says where a statement rests on a choice of the model. A gateway command stands for its message taken whole by a port
that is ready (log 7).
-/

open Sys2Proof Sys2Proof.Machine

/-! ### The queue, the port and the reset -/

/-- A step takes the command at the front of the queue and runs it with the queue's rest. -/
def Obligations.StepRunsTheFrontCommand : Prop :=
  ∀ (c : Instr) (rest : List Instr) (s : State), step { s with pending := c :: rest } = exec c { s with pending := rest }

/-- Every command ends in a next state and leaves the queue as it finds it; while a device reset is in progress the
commands other than the three of the reset change nothing (log 5). -/
def Obligations.EveryCommandCompletes : Prop :=
  ∀ (c : Instr) (s : State),
    (∃ t, exec c s = .next t ∧ t.pending = s.pending) ∧
      (s.inReset = true → c ≠ .powerOn → c ≠ .resetNLow → c ≠ .resetEnd → exec c s = .next s)

/-- The state after a device reset holds the values that R1, R2, R16, R69, R80, R86, R87, R112, R113, R133, R145,
R152, R155, R156, R166, R167, R184, R187, R194 and R195 give, and meets every law. (The laws of words in error and of
where a context stands are the model's own.) -/
def Obligations.ResetMeetsTheLaws : Prop :=
  let s := State.reset
  (rolesLaw s ∧ sequenceLaw s ∧ quietLaw s ∧ directoryLaw s ∧ tablesLaw s ∧ packageLaw s ∧ errorsLaw s ∧ cutoverLaw s ∧
      allReadyLaw s ∧ readyLaw s ∧ readersLaw s ∧ (∀ k, (s.link k).contextLaw) ∧ slotsLaw s ∧ turnLaw s ∧ portLaw s ∧
      gatewaySlotLaw s ∧ clockLaw s ∧ flagsLaw s ∧ settingsLaw s ∧ fifoLaw s) ∧
    (∀ b : BankId, (s.recOf b).state = .empty ∧ (s.recOf b).seq = 0#16 ∧ (s.recOf b).readers = 0) ∧
    s.lastSeq = 0#16 ∧ s.closeResult.outcome = .none ∧ s.loader.state = .idle ∧ s.loader.result.outcome = .none ∧
    s.carousel.state = .stopped ∧ s.carousel.settings = ⟨3, 16, 8, 4, 64⟩ ∧ s.carousel.pointer = 7 ∧
    (∀ k : LinkId, (s.link k).state = .disabled ∧ (s.link k).divider = 3 ∧ (s.link k).threshold = 256 ∧
      (s.link k).phase = .off ∧ (s.entry k).presence = .absent ∧ (s.entry k).holding = .unknown) ∧
    s.table.silenceLimit = 5000 ∧ s.table.mismatchLimit = 3 ∧ s.clock = ⟨false, 0#16, 0#16, 0⟩ ∧
    s.cutover.state = .idle ∧ s.cutover.waitLimit = 30 ∧ s.cutover.grace = 120 ∧ s.cutover.last.done = false ∧
    s.lookups.service = none ∧ s.lookups.slot = .free ∧ s.lookups.pointer = .link 0 ∧ s.events.flags = 0#24 ∧
    s.events.masks = 0x7FFFF#24 ∧ s.alert = false ∧ s.scrub = ⟨10, .resting, 0, 0⟩ ∧ s.port.rdy = true ∧
    s.port.response = .empty ∧ s.port.overruns = 0

/-- R83, R198: POWER_ON and RESET_N_LOW begin a device reset, RESET_END ends it, and DEVICE_RESET is one that ends at
once. Every block is at its reset values; the memory's words and their errors, the level the vehicle holds INHIBIT at,
the queue and the model's counter of free values stay (logs 6, 26, 30). A closing run, a package phase or a lookup that it ends
has read and written no word (the model's, logs 15, 45, 51). A RESET_END with no reset in progress changes nothing (the model's,
log 3). -/
def Obligations.DeviceResetSetsEveryBlock : Prop :=
  ∀ s : State,
    let clean : State :=
      { State.reset with
        banks := ⟨⟨BankRecord.reset, s.banks.a.tariff, s.banks.a.ranges⟩, ⟨BankRecord.reset, s.banks.b.tariff, s.banks.b.ranges⟩⟩
        upsets := s.upsets
        cutover := { Cutover.reset with pin := s.cutover.pin }
        free := s.free
        pending := s.pending }
    let held : State := { clean with inReset := true, port := { Port.reset with rdy := false } }
    exec .powerOn s = .next held ∧ exec .resetNLow s = .next held ∧ exec .resetEnd held = .next clean ∧
      (s.inReset = false → exec .resetEnd s = .next s) ∧
      ∀ tag : Half, s.portReady → exec (.deviceReset tag) s = .next clean

/-- R192, R193, R194: a WRITE_MESSAGE that comes while RDY is low is counted and has no other effect; otherwise the message
is judged: fewer than 6 bytes, a body length above 250 or a count that is not 6 plus the body length is BAD_CRC; a
wrong CRC-16 is BAD_CRC; an unknown type is BAD_TYPE; a body length that the type does not allow is BAD_ARG, and so is a
QUERY whose kind and length disagree, when its owner takes it; and a well-formed command's message is dispatched. The
response carries the tag as received, each byte missing being 00h. MISO carries FFh throughout. (How RDY stood at the kind
byte is an operand, log 7; that only bytes received whole count is the model's choice, log 41.) -/
def Obligations.WriteMessageIsJudged : Prop :=
  ∀ (s : State) (bytes : List Byte),
    s.inReset = false →
      let miso := List.replicate (bytes.length + 1) 0xFF#8
      let received := { s.port with rx := bytes.take 256, miso := miso }
      let judged (code : ResultCode) : State :=
        { s with
          port :=
            { received with
              rdy := true
              dispatched := none
              awaiting := none
              response := .held ⟨bytes.getD 1 0#8 ++ bytes.getD 2 0#8, code, []⟩ }
          lookups := { s.lookups with slot := s.lookups.slot.afterAnswer } }
      let dispatched (i : Instr) : State :=
        { s with
          port :=
            { received with
              rdy := false
              dispatched := some i
              awaiting := some (bytes.getD 1 0#8 ++ bytes.getD 2 0#8)
              response := .empty } }
      let types : List Nat :=
        [0x10, 0x11, 0x12, 0x13, 0x14, 0x18, 0x19, 0x1C, 0x20, 0x21, 0x22, 0x28, 0x29, 0x2A, 0x2B, 0x2C, 0x30, 0x31,
          0x32, 0x33, 0x38, 0x39, 0x3A, 0x40, 0x48, 0x49, 0x4A, 0x4B, 0x50, 0x51, 0x52]
      let lengths : List (Nat × Nat) :=
        [(0x10, 1), (0x11, 5), (0x12, 0), (0x13, 0), (0x14, 4), (0x18, 5), (0x19, 5), (0x20, 6), (0x21, 0), (0x22, 0),
          (0x28, 4), (0x29, 1), (0x2A, 1), (0x2B, 3), (0x2C, 1), (0x30, 3), (0x31, 1), (0x32, 1), (0x33, 1), (0x38, 4),
          (0x39, 3), (0x3A, 1), (0x40, 5), (0x40, 6), (0x40, 10), (0x48, 0), (0x49, 3), (0x4A, 3), (0x4B, 1), (0x50, 0),
          (0x51, 0), (0x52, 0)]
      (∀ kindWhileLow : Bool, kindWhileLow = true ∨ s.port.rdy = false →
        exec (.writeMessage kindWhileLow bytes) s =
          .next { s with port := { s.port with overruns := min 65535 (s.port.overruns + 1), miso := miso } }) ∧
      (s.port.rdy = true →
        (bytes.length < 6 ∨ 250 < (bytes.getD 3 0#8).toNat ∨ bytes.length ≠ 6 + (bytes.getD 3 0#8).toNat →
          exec (.writeMessage false bytes) s = .next (judged .badCrc)) ∧
        (∀ covered crc : List Byte, bytes = covered ++ crc → crc.length = 2 → 4 ≤ covered.length →
          crc ≠ be16 (crc16 covered) → exec (.writeMessage false bytes) s = .next (judged .badCrc)) ∧
        (∀ (type : Byte) (tag : Half) (body : List Byte), body.length ≤ 250 → bytes = sealMessage type tag body →
          (type.toNat ∉ types → exec (.writeMessage false bytes) s = .next (judged .badType)) ∧
          (type.toNat ∈ types → (type.toNat, body.length) ∉ lengths →
            ¬(type = 0x1C#8 ∧ 7 ≤ body.length ∧ body.length ≤ 246) →
            exec (.writeMessage false bytes) s = .next (judged .badArg))) ∧
        (∀ i : Instr, i.wf = true → messageOf i ≠ none → bytes = encodeMessage i →
          exec (.writeMessage false bytes) s = .next (dispatched i)) ∧
        ∀ (tag : Half) (kind : Byte) (qtag : Half) (args : List Byte),
          (args.length = 2 ∨ args.length = 3 ∨ args.length = 7) →
          (kind.toNat, args.length) ∉ [(0x41, 7), (0x42, 3), (0x43, 2)] →
          bytes = encodeMessage (.query tag kind qtag args) →
            exec (.query tag kind qtag args) (dispatched (.query tag kind qtag args)) = .next (judged .badArg))

/-- The message of every well-formed gateway command passes the four checks of R193 and is that command. -/
def Obligations.MessageDecodesAsEncoded : Prop :=
  ∀ i : Instr, i.wf = true → messageOf i ≠ none → judgeMessage (encodeMessage i) = .good i

/-- A gateway command that arrives as a WRITE_MESSAGE and is then taken by its owner has the effect of the command taken
whole (R193); one whose message comes while RDY is low, and which is not the message dispatched, is discarded and counted
(R194). That a command's row stands for its message taken whole is the model's choice (log 7). -/
def Obligations.MessageTakenInTwoStepsOrOne : Prop :=
  (∀ (i : Instr) (s t : State), s.portReady → i.wf = true → messageOf i ≠ none →
    exec (.writeMessage false (encodeMessage i)) s = .next t → exec i t = exec i s) ∧
  ∀ (i : Instr) (s : State), messageOf i ≠ none → s.inReset = false → s.port.rdy = false → s.port.dispatched ≠ some i →
    exec i s =
      .next
        { s with
          port :=
            { s.port with
              overruns := min 65535 (s.port.overruns + 1)
              miso := List.replicate ((encodeMessage i).length + 1) 0xFF#8 } }

/-- R195, R192, R169: what a READ_RESPONSE puts on MISO, by the state of the buffer, after FFh during its kind byte; the last CRC
byte of a held response makes it FETCHED and frees the gateway slot that held it. A response placed only after the kind
byte is not sent (log 8). -/
def Obligations.ReadResponseSendsAndFetches : Prop :=
  ∀ (s : State) (clocked : Nat),
    s.inReset = false →
      let envelope (r : Response) : List Byte :=
        let covered := be16 r.tag ++ [r.code.code, BitVec.ofNat 8 r.body.length] ++ r.body
        covered ++ be16 (crc16 covered)
      let sent (r : Response) : Port :=
        { s.port with
          miso := 0xFF#8 :: (envelope r).take clocked ++ List.replicate (clocked - (envelope r).length) 0xFF#8 }
      (∀ (late : Bool) (r : Response), s.port.response = .fetched r →
        exec (.readResponse late clocked) s = .next { s with port := sent r }) ∧
      (∀ r : Response, s.port.response = .held r → clocked < (envelope r).length →
        exec (.readResponse false clocked) s = .next { s with port := sent r }) ∧
      (∀ r : Response, s.port.response = .held r → (envelope r).length ≤ clocked →
        exec (.readResponse false clocked) s =
          .next
            { s with
              port := { sent r with response := .fetched r }
              lookups := { s.lookups with slot := s.lookups.slot.afterAnswer } }) ∧
      (∀ r : Response, s.port.response = .held r →
        exec (.readResponse true clocked) s = .next { s with port := sent ⟨r.tag, .notReady, []⟩ }) ∧
      (∀ late : Bool, s.port.response = .empty → s.port.rdy = false →
        exec (.readResponse late clocked) s = .next { s with port := sent ⟨s.port.awaiting.getD 0#16, .notReady, []⟩ }) ∧
      (∀ late : Bool, s.port.response = .empty → s.port.rdy = true →
        exec (.readResponse late clocked) s = .next { s with port := sent ⟨0#16, .notReady, []⟩ })

/-- The commands that only read answer OK with the fields their rules list, and change nothing (R24, R132, R151, R190,
R197); their refusals change nothing either; an ignored transaction changes nothing, with FFh on MISO throughout, and one
ended before its kind byte has no effect (R192). (What R193 and R195 leave open in the coding of their bodies is the
model's, log 20, and so is that LINK_READ sends the cycle number.) -/
def Obligations.ReadingCommandsChangeNothing : Prop :=
  ∀ (s : State) (tag : Half),
    (exec (.ignoredTransaction []) s = .next s) ∧
    (s.inReset = false → ∀ (kind : Byte) (rest : List Byte),
      exec (.ignoredTransaction (kind :: rest)) s =
        .next { s with port := { s.port with miso := List.replicate (rest.length + 1) 0xFF#8 } }) ∧
    (s.portReady →
      exec (.identify tag) s =
          .next (s.answered (.identify tag) tag .ok [0x0F#8, 0x5C#8, 0x08#8, 0x16#8, 1#8, 8#8, 0x40#8, 0x00#8, 0x01#8, 0x00#8]) ∧
      exec (.status tag) s = .next (s.answered (.status tag) tag .ok (statusBytes s)) ∧
      exec (.eventsRead tag) s = .next (s.answered (.eventsRead tag) tag .ok (eventsBytes s)) ∧
      (∀ k : LinkId,
        exec (.linkRead tag (n8 k.val)) s = .next (s.answered (.linkRead tag (n8 k.val)) tag .ok (linkBytes (s.link k))) ∧
        exec (.validatorRead tag (n8 k.val)) s =
          .next
            (s.answered (.validatorRead tag (n8 k.val)) tag .ok
              (entryBytes (s.entry k) ++ [flagByte (s.entry k).member] ++ n16 s.table.silenceLimit ++
                [n8 s.table.mismatchLimit, flagByte s.table.allReady]))) ∧
      (∀ k : Byte, 7 < k.toNat →
        exec (.linkRead tag k) s = .next (s.answered (.linkRead tag k) tag .badArg []) ∧
        exec (.validatorRead tag k) s = .next (s.answered (.validatorRead tag k) tag .badArg [])) ∧
      (∀ (b : BankId) (first : Half),
        exec (.bankRead tag (bankCode b) 0#8 first) s =
          .next
            (s.answered (.bankRead tag (bankCode b) 0#8 first) tag .ok
              (summaryBytes (s.recOf b) s.lastSeq s.closeResult)) ∧
        exec (.bankRead tag (bankCode b) 1#8 first) s =
          .next
            (if first.toNat ≤ 255 then
              s.answered (.bankRead tag (bankCode b) 1#8 first) tag .ok (shelvesBytes (s.recOf b) first.toNat)
            else s.answered (.bankRead tag (bankCode b) 1#8 first) tag .badArg [])) ∧
      (∀ (b sel : Byte) (first : Half), 1 < b.toNat ∨ 1 < sel.toNat →
        exec (.bankRead tag b sel first) s = .next (s.answered (.bankRead tag b sel first) tag .badArg [])))

/-- A step of an empty queue, which has three cases (DESIGN CHOICE, log 1). While a device reset is in progress it changes
nothing. A message that has been dispatched and waits for its owner is put into the queue before time passes. Otherwise one
millisecond passes: the clock, the interval counters, the timers of Cutover Control and of the scrubber advance (R152, R142,
R157, R162, R184), INHIBIT is sampled (R161), the events that have come due join the queue, each once and no other command with
them (log 2), a copy in progress goes on by some amount (R8), and nothing else changes. (The model's own: that the interval
counters advance on ENABLED links only, log 28; that the two INHIBIT events join the queue when two samples agree, log 26; that
the scrubber's timer stops at 4,294,967,295, log 39; that a copy goes on with time, and how it reads and writes as it does, log
16; the counter of free values, log 30.) -/
def Obligations.IdleStepPassesAMillisecond : Prop :=
  ∀ s : State, s.pending = [] →
    (s.inReset = true → step s = .next s) ∧
    (s.inReset = false → ∀ i, s.port.dispatched = some i → step s = .next { s with pending := [i] }) ∧
    (s.inReset = false → s.port.dispatched = none →
      ∃ v t, CopyGoesOn s v ∧ step s = .next t ∧
        t.clock =
          (if s.clock.valid = true ∧ s.clock.ms < 59999 then { s.clock with ms := s.clock.ms + 1 } else s.clock) ∧
        t.cutover =
          { s.cutover with
            lastSample := s.cutover.pin
            waitTimer :=
              if s.cutover.state = .waiting then min 4294967295 (s.cutover.waitTimer + 1) else s.cutover.waitTimer
            graceTimer :=
              if s.cutover.state = .deferred then min 4294967295 (s.cutover.graceTimer + 1) else s.cutover.graceTimer } ∧
        (∀ k : LinkId,
          t.entry k =
            if (s.link k).state = .enabled ∧ (s.entry k).presence ≠ .absent then
              { s.entry k with interval := min 65535 ((s.entry k).interval + 1) }
            else s.entry k) ∧
        t.scrub =
          { s.scrub with
            timer := if s.scrub.mode = .off then s.scrub.timer else min 4294967295 (s.scrub.timer + 1) } ∧
        t =
          { v with
            clock := t.clock
            cutover := t.cutover
            table := { s.table with entries := t.table.entries }
            scrub := t.scrub
            pending := t.pending
            free := t.free } ∧
        -- what has come due, and nothing else, each event once
        t.pending.Nodup ∧
        (∀ c ∈ t.pending,
          c = .minuteEvent ∨ (∃ k, c = .validatorSilent k) ∨ c = .waitExpired ∨ c = .graceRunOut ∨ c = .scrubPeriod ∨
            c = .inhibitAssertion ∨ c = .inhibitDeassertion) ∧
        (Instr.minuteEvent ∈ t.pending ↔
          s.clock.valid = true ∧ 59999 ≤ s.clock.ms ∧ ¬(s.clock.day = 65535#16 ∧ s.clock.minute = 1439#16)) ∧
        (∀ k : LinkId, Instr.validatorSilent k ∈ t.pending ↔
          (s.link k).state = .enabled ∧ (s.entry k).presence = .active ∧ s.table.silenceLimit ≤ (t.entry k).interval) ∧
        (Instr.waitExpired ∈ t.pending ↔
          s.cutover.state = .waiting ∧ s.activation = some .onReady ∧ s.cutover.waitLimit * 60000 ≤ t.cutover.waitTimer) ∧
        (Instr.graceRunOut ∈ t.pending ↔ s.cutover.state = .deferred ∧ s.cutover.grace * 1000 ≤ t.cutover.graceTimer) ∧
        (Instr.scrubPeriod ∈ t.pending ↔ s.scrub.mode = .resting ∧ s.scrub.period * 1000 ≤ t.scrub.timer) ∧
        (Instr.inhibitAssertion ∈ t.pending ↔
          s.cutover.pin = true ∧ s.cutover.lastSample = true ∧ s.cutover.inhibit = false) ∧
        (Instr.inhibitDeassertion ∈ t.pending ↔
          s.cutover.pin = false ∧ s.cutover.lastSample = false ∧ s.cutover.inhibit = true))

/-! ### Image banks (chapter 1) -/

/-- R5: the checks of OPEN_BUILD in their order; a refusal changes nothing but the port. -/
def Obligations.OpenBuildIsCheckedInOrder : Prop :=
  ∀ (s : State) (tag : Half) (option : Byte),
    s.portReady → rolesLaw s →
      let refused (code : ResultCode) : State := s.answered (.openBuild tag option) tag code []
      let buildSide : Prop := ∃ b, (s.recOf b).state ∈ [.draining, .copying, .building, .closing, .pending]
      (1 < option.toNat → exec (.openBuild tag option) s = .next (refused .badArg)) ∧
      (option.toNat ≤ 1 → buildSide → exec (.openBuild tag option) s = .next (refused .badState)) ∧
      (option = 0#8 → ¬buildSide → (∀ b, (s.recOf b).state ≠ .inForce) →
        exec (.openBuild tag option) s = .next (refused .noImage)) ∧
      (option = 0#8 → ¬buildSide →
        ∀ f, (s.recOf f).state = .inForce →
          ((s.recOf f).marks.header ≠ none ∨ (s.recOf f).marks.tariff ≠ none ∨ (s.recOf f).marks.ranges ≠ none) →
          exec (.openBuild tag option) s = .next (refused .damaged))

/-- R5, R6, R7: how builds begin. An OPEN_BUILD that is taken has as its target the bank not IN_FORCE, bank A when neither
is. With readers left the target drains; without, the build begins: EMPTY writes an empty table and raises BUILD_OPENED,
FROM_IN_FORCE starts the copy. The drain of a DRAINING bank without readers completes in the same way with the option
recorded, but on a damaged source the bank goes to EMPTY and BUILD_FAILED is raised. Nothing else changes; of the words in
error, those that the empty table writes are renewed. (The model's own: that a DRAIN_COMPLETE changes nothing while readers are
left, logs 3 and 17, and nothing with no bank DRAINING, log 3; which words the empty table writes, logs 9 and 13; how far a copy
has come, log 16; where a scrubber stands that leaves a bank gone to EMPTY, R185, log 38.) -/
def Obligations.BuildsBeginOrDrain : Prop :=
  ∀ (s : State) (b : BankId),
    rolesLaw s →
      let r := s.recOf b
      let draining (o : BuildOption) : State := s.setRec b { r with state := .draining, openOption := some o }
      let source : Prop := (s.recOf (other b)).state = .inForce
      let undamaged : Prop := (s.recOf (other b)).marks = ⟨none, none, none⟩
      (∀ tag : Half, s.portReady →
        (∀ x, (s.recOf x).state = .empty ∨ (s.recOf x).state = .stale ∨ (s.recOf x).state = .inForce) →
        b = (if (s.recOf .bankA).state = .inForce then .bankB else .bankA) →
          let empty := Instr.openBuild tag 1#8
          let copy := Instr.openBuild tag 0#8
          (0 < r.readers →
            exec empty s = .next ((draining .empty).answered empty tag .accepted []) ∧
            (source → undamaged → exec copy s = .next ((draining .fromInForce).answered copy tag .accepted []))) ∧
          (r.readers = 0 →
            exec empty s = .next ((s.openedEmpty b).answered empty tag .ok []) ∧
            (source → undamaged → exec copy s = .next ((s.openedCopy b).answered copy tag .accepted [])))) ∧
      (s.inReset = false →
        ((∀ x, (s.recOf x).state ≠ .draining) → exec .drainComplete s = .next s) ∧
        (r.state = .draining →
          (0 < r.readers → exec .drainComplete s = .next s) ∧
          (r.readers = 0 → r.openOption = some .empty → exec .drainComplete s = .next (s.openedEmpty b)) ∧
          (r.readers = 0 → r.openOption = some .fromInForce → source →
            exec .drainComplete s = .next (if undamaged then s.openedCopy b else s.openFailed b))))

/-- R10: the checks of CLOSE_BUILD in their order, and the close that is accepted; the run that starts takes the service
day of a valid clock (log 14). (That mode 0 is ON_READY and mode 1 AT is the model's choice, log 40.) -/
def Obligations.CloseBuildIsCheckedInOrder : Prop :=
  ∀ (s : State) (tag : Half) (mode : Byte) (day minute : Half),
    s.portReady → rolesLaw s →
      let i := Instr.closeBuild tag mode day minute
      ((∀ b, (s.recOf b).state ≠ .building) → exec i s = .next (s.answered i tag .noBuild [])) ∧
      ∀ b, (s.recOf b).state = .building →
        let r := s.recOf b
        let incomplete : Prop := r.tariffPresent = false ∨ r.blockStatus ≠ .complete
        let damaged : Prop := r.marks.header ≠ none ∨ r.marks.tariff ≠ none ∨ r.marks.ranges ≠ none
        let wrong : Prop := 1 < mode.toNat ∨ (mode = 1#8 ∧ 1439 < minute.toNat)
        (s.loader.state ≠ .idle → exec i s = .next (s.answered i tag .busy [])) ∧
        (s.loader.state = .idle → incomplete → exec i s = .next (s.answered i tag .incomplete [])) ∧
        (s.loader.state = .idle → ¬incomplete → damaged → exec i s = .next (s.answered i tag .damaged [])) ∧
        (s.loader.state = .idle → ¬incomplete → ¬damaged → wrong → exec i s = .next (s.answered i tag .badArg [])) ∧
        (s.loader.state = .idle → ¬incomplete → ¬damaged → ¬wrong →
          exec i s =
            .next
              (State.answered i tag .accepted []
                { s.setRec b
                    { r with state := .closing, activation := some (if mode = 0#8 then .onReady else .atTime day minute) } with
                  closeDay := if s.clock.valid = true then some s.clock.day else none }))

/-- R19, R102, R149, R164: WITHDRAW with no bank PENDING is refused BAD_STATE; otherwise the pending bank goes to STALE,
Cutover Control to IDLE, every pending holding to NONE, all-ready is no, PENDING_WITHDRAWN is raised, and the cycles of the
bank that stand at a frame boundary are cut at once, each giving up its reader. Nothing else changes. -/
def Obligations.WithdrawMakesThePendingBankStale : Prop :=
  ∀ (s : State) (tag : Half),
    s.portReady → rolesLaw s →
      let i := Instr.withdraw tag
      ((∀ b, (s.recOf b).state ≠ .pending) → exec i s = .next (s.answered i tag .badState [])) ∧
      ∀ b, (s.recOf b).state = .pending →
        ∃ t, exec i s = .next (t.answered i tag .ok []) ∧ Withdrawn s b t

/-- R20, R82: DISCARD_BUILD empties a bank COPYING, BUILDING or CLOSING, returns a DRAINING bank to STALE, takes the loader
to IDLE with its result kept, and is refused BAD_STATE otherwise. No event is raised. A scrubber in the emptied bank leaves it
at once: its pass goes on with the next bank, or ends (R185). (The model's own: that a closing run abandoned so has read
nothing, log 15, and a check or apply phase has read and written nothing, log 45; that the next word is sought from the start of
the next bank, log 38.) -/
def Obligations.DiscardBuildDropsTheBuild : Prop :=
  ∀ (s : State) (tag : Half),
    s.portReady → rolesLaw s →
      let i := Instr.discardBuild tag
      ((∀ b, (s.recOf b).state ∉ [.draining, .copying, .building, .closing]) →
        exec i s = .next (s.answered i tag .badState [])) ∧
      (∀ b, (s.recOf b).state ∈ [.copying, .building, .closing] →
        exec i s =
          .next
            (State.answered i tag .ok []
              { s.setRec b BankRecord.reset with
                loader := ⟨.idle, s.loader.result, []⟩
                scrub := s.scrub.leftBank b
                closeDay := none })) ∧
      ∀ b, (s.recOf b).state = .draining →
        exec i s =
          .next
            (State.answered i tag .ok []
              { s.setRec b { s.recOf b with state := .stale, openOption := none } with
                loader := ⟨.idle, s.loader.result, []⟩ })

/-- R8, R22, R23, R181, R182: a copy that completes has read what was left of the source's extent: the target has the
source's regions and the fields R8 names, is BUILDING, its words are renewed, and BUILD_OPENED is raised; one-bit errors in
the source's words have been corrected and counted, and errors in other words stay. A copy that meets an uncorrectable error
fails, COPY_COMPLETE at such a word and COPY_FAILURE at the word it names: the source keeps its state and takes the mark, its
cycles at a frame boundary are cut (R102), the target goes to EMPTY, BUILD_FAILED and ECC_UNCORRECTABLE are raised, the error
is counted and captured when the capture is empty, and the scrubber leaves the target and the region (R185). (The model's own:
that the events change nothing with no bank COPYING, and COPY_FAILURE nothing at a word that the copy does not come to read,
outside the source's extent or already read, log 3; that the word COPY_FAILURE names is then in error, log 10; that the
content is written in one step, in which order the words are read, and how far the copy has come, log 16; which words hold
which item, log 9; where the scrubber then stands, log 38; that the target keeps its own changed flags, as R8 says where R28
has a copy carry them over, log 50.) -/
def Obligations.CopyCompletesOrFails : Prop :=
  ∀ (s : State) (target source : BankId) (region : Region) (offset : Nat),
    s.inReset = false → rolesLaw s →
      let from' := s.recOf source
      let items := allExtentItems (s.bank source)
      let left : List Upset := s.upsets.filter fun u => copyPasses source items s.copied none u.loc
      ((∀ b, (s.recOf b).state ≠ .copying) →
        exec .copyComplete s = .next s ∧ exec (.copyFailure region offset) s = .next s) ∧
      ((s.recOf target).state = .copying → (s.recOf source).state = .inForce →
        -- the words left to the copy: those of the source's extent from where it stands (R8, R185)
        (∀ b r o, copyPasses source items s.copied none (.bank b r o) = true ↔
          b = source ∧ s.copied.get r ≤ o ∧ ∃ i ∈ items, itemRegion i = r ∧ o ∈ Config.itemWords i) ∧
        -- it completes
        ((∀ u ∈ left, fatal u.kind = false) →
          let v := s.copiedTo target source none
          exec .copyComplete s =
            .next
              { v.setBank target
                  ⟨{ s.recOf target with
                      state := .building
                      tariffPresent := from'.tariffPresent
                      tariffVersion := from'.tariffVersion
                      blockVersion := from'.blockVersion
                      capped := from'.capped
                      blockStatus := .complete
                      tariffCrc := from'.tariffCrc
                      imageCrc := from'.imageCrc
                      shelfCrcs := from'.shelfCrcs
                      expansionDue := false }, (s.bank source).tariff, (s.bank source).ranges⟩ with
                events := { v.events with flags := v.events.flags ||| 4#24 } }) ∧
        -- it meets a word it cannot read
        (∀ u r o, left = [u] → u.loc = .bank source r o → fatal u.kind = true →
          ∃ t, exec .copyComplete s = .next t ∧ InForceMarked (s.found .copy source r o) source r t ∧
            t.bank target = { s.bank target with record := BankRecord.reset } ∧
            (t.recOf source).marks.get r = some (((s.recOf source).marks.get r).getD o)) ∧
        -- COPY_FAILURE
        let loc : WordLoc := .bank source region offset
        (copyPasses source items s.copied none loc = false → exec (.copyFailure region offset) s = .next s) ∧
        (copyPasses source items s.copied none loc = true →
          let c := s.copied.to region offset
          (∀ r, c.get r = if r = region then offset else s.copied.get r) ∧
          ((∀ u ∈ s.upsets, copyPasses source items s.copied (some c) u.loc = true → fatal u.kind = false) →
            let v := s.copiedTo target source (some c)
            let struck : State := { v with upsets := strike ⟨loc, .double⟩ v.upsets }
            ∃ t, exec (.copyFailure region offset) s = .next t ∧
              InForceMarked (struck.found .copy source region offset) source region t ∧
              t.bank target = { s.bank target with record := BankRecord.reset } ∧
              (t.recOf source).marks.get region = some (((s.recOf source).marks.get region).getD offset) ∧
              (∀ r, r ≠ region → (t.recOf source).marks.get r = (s.recOf source).marks.get r))))

/-- R11 to R14, R16, R18, R45, R60, R146, R148, R157, R158, R159: a closing run that completes. Ranges that expired before
the day taken are gone; a due expansion has priced every journey; the CRCs and the comparison, shelf by shelf, are written;
the bank has the drawn seq, which is not 0 and not the seq in force; the CLOSE result and CLOSE_DONE are there; every
holding is LOADING, no mismatch is counted and none suspected; and Cutover Control is WAITING. A trigger that is due at once
(ON_READY with no member in the readiness set, an AT time that has come) is decided by INHIBIT (R160). Nothing else changes.
The run reads as reader CLOSE: one-bit errors in the words it reads are corrected and counted, those in the words it writes
are gone (R180, R181). (The model's own: that the run is one step, on the day CLOSE_BUILD took, logs 14 and 15; which words
hold which item, and the order of the run's reads and writes, logs 9, 12 and 13; that readiness is evaluated before Cutover
Control enters WAITING, so that READY_ALL is raised also when an AT time that has come brings the cutover in this step, log
44.) -/
def Obligations.CloseRunMakesTheImagePending : Prop :=
  ∀ (s : State) (b : BankId),
    s.inReset = false → rolesLaw s → errorsLaw s → (s.recOf b).state = .closing →
    s.readable b none (closeActs s.closeDay (s.bank b)) →
      let v := s.ranOn b none (closeActs s.closeDay (s.bank b))
      let old := s.bank b
      let f := s.recOf (other b)
      let kept :=
        match s.closeDay with
        | none => old.ranges.records
        | some d => old.ranges.records.filter fun r => !(r.expiry.any fun e => decide (e < d))
      let removed := old.ranges.records.length - kept.length
      let due := old.record.expansionDue
      let capped := if due then cappedCount (expandAll old.tariff) else 0
      let tariff := if due then { old.tariff with prices := (expandAll old.tariff).map (·.1) } else old.tariff
      let crcs := (List.range 256).map (shelfCrc kept)
      let source := f.state = .inForce
      let undamaged := source ∧ f.marks = ⟨none, none, none⟩
      let seq := drawSeq s.lastSeq (if source then f.seq else 0#16)
      let image := imageCrc old.record.tariffVersion old.record.blockVersion (tariffCrc tariff) crcs
      let closed : Bank :=
        ⟨{ old.record with
            state := .pending
            seq := seq
            expansionDue := false
            pruned := if s.closeDay = none then old.record.pruned else min 65535 (old.record.pruned + removed)
            capped := if due then capped else old.record.capped
            shelfCrcs := crcs
            tariffCrc := tariffCrc tariff
            imageCrc := image
            comparedSeq := if undamaged then f.seq else 0#16
            tariffChanged := if undamaged then decide (tariffCrc tariff ≠ f.tariffCrc) else true
            shelfChanged :=
              if undamaged then (List.range 256).map fun i => decide (crcs[i]? ≠ f.shelfCrcs[i]?)
              else List.replicate 256 true },
          tariff, if s.closeDay = none then old.ranges else RangeRegion.ofRecords kept⟩
      let member : Prop := ∃ k, (s.entry k).presence = .active ∧ (s.entry k).excluded = false
      let waiting : State :=
        { v.setBank b closed with
          lastSeq := seq
          closeDay := none
          closeResult := ⟨.done, b, removed, capped, seq, image⟩
          events :=
            { v.events with
              flags :=
                v.events.flags ||| 0x10#24 |||
                  (if ¬member ∧ s.table.allReady = false then 0x80#24 else 0#24) }
          table :=
            { s.table with
              entries := s.table.entries.map fun e => { e with pending := .loading, mismatches := 0, suspect := false }
              allReady := decide ¬member }
          cutover := { s.cutover with state := .waiting, waitTimer := 0, graceTimer := 0, cause := none } }
      let trigger : Option Cause :=
        match old.record.activation with
        | some .onReady => if member then none else some .ready
        | some (.atTime d m) =>
          if s.clock.valid = true ∧ (d < s.clock.day ∨ (d = s.clock.day ∧ m ≤ s.clock.minute)) then some .atTime else none
        | none => none
      seq ≠ 0#16 ∧ (source → seq ≠ f.seq) ∧
        (trigger = none → exec .closeRunComplete s = .next waiting) ∧
        ∀ cause, trigger = some cause →
          (s.cutover.inhibit = true → s.cutover.grace ≠ 0 →
            exec .closeRunComplete s =
              .next
                { waiting with
                  cutover := { waiting.cutover with state := .deferred, cause := some cause, graceTimer := 0 } }) ∧
          ((s.cutover.inhibit = true → s.cutover.grace = 0) →
            ∃ t, exec .closeRunComplete s = .next t ∧
              CutOver waiting b (some cause) (if s.cutover.inhibit = true then .grace else .immediate) t ∧
              t.port = s.port ∧ t.lookups = s.lookups)

/-- R11, R12, R15, R16, R45, R60, R66, R181, R182: a closing run that comes to a word it cannot read. The run makes its reads
and writes in order: the table for the prune; when expansion is due the HEADER, then class by class its record, then journey
by journey the base fare and the price; the table for the shelf CRCs, and the tariff for its CRC when all of them are written.
At the first word that cannot be given CLOSE_RUN_COMPLETE fails, having corrected and counted the one-bit errors read before:
the region takes the mark, the error is counted and captured when the capture is empty, the bank returns to BUILDING with what
the run had done at the point it had come to (`State.closeFailed`), and the scrubber leaves the region (R185).
CLOSING_RUN_FAILURE fails the run in the same way at its read of the word named. What steps 1 to 4 write is kept from the
point they were reached: the table pruned so far, the prices so far, the shelf CRCs so far, the CRCs after step 3, the
comparison after step 4. (The model's own: how many of the ranges and shelf CRCs it can have come to are pruned and written is
free, and the event says at which of its reads of the word the run fails, log 15; that the word named is then in error, log 10;
that a read the run does not make fails nothing, log 3; which words the run reads and has written, logs 9, 12 and 13; where the
scrubber then stands, log 38; the counter of free values, log 30.) -/
def Obligations.ClosingRunFailureReturnsToBuilding : Prop :=
  ∀ (s : State) (b : BankId) (region : Region) (offset again : Nat) (reached : ClosePoint),
    s.inReset = false → rolesLaw s → errorsLaw s → (s.recOf b).state = .closing →
      let acts := closeActs s.closeDay (s.bank b)
      let marked := s.found .close b region offset
      -- the run fails at its read of a word of `v`, the acts in `made` behind it
      let failed (made : List CloseAct) (r : Region) (o : Nat) (v t : State) : Prop :=
        ∃ p, pointAllows (pointAfter made) p ∧
          t =
            { (v.found .close b r o).closeFailed b p (.bank b r o) with
              scrub := s.scrub.leftRegion b r
              free := s.free + 1 }
      let unreadable (v : State) (l : WordLoc) : Prop := v.upsetAt l = some .double ∨ v.upsetAt l = some .stuckDouble
      -- a read of the run itself
      (∀ made r o left, acts = made ++ .read r o :: left → s.readable b none made →
        let v := s.ranOn b none made
        unreadable v (.bank b r o) → ∃ t, exec .closeRunComplete s = .next t ∧ failed made r o v t) ∧
        -- the failure as an event of its own
        (acts.count (.read region offset) ≤ again → exec (.closingRunFailure region offset again) s = .next s) ∧
        (∀ made left, acts = made ++ .read region offset :: left → made.count (.read region offset) = again →
          (s.readable b none made →
            let v := s.ranOn b none made
            let struck : State := { v with upsets := strike ⟨.bank b region offset, .double⟩ v.upsets }
            ∃ t, exec (.closingRunFailure region offset again) s = .next t ∧ failed made region offset struck t) ∧
          ∀ first r o rest, made = first ++ .read r o :: rest → s.readable b none first →
            let v := s.ranOn b none first
            unreadable v (.bank b r o) →
              ∃ t, exec (.closingRunFailure region offset again) s = .next t ∧ failed first r o v t) ∧
        (marked.recOf b).marks.get region = some (((s.recOf b).marks.get region).getD offset) ∧
        -- the order of the run's reads and writes
        (∀ made a left, acts = made ++ a :: left →
          let journeys := (s.bank b).tariff.base.length
          let hasRead (i : Item) : Prop := ∀ o, o ∈ Config.itemWords i → .read (itemRegion i) o ∈ made
          (∀ r o, a = .read r o →
            match pointAfter made with
            | .prune _ => r = .ranges ∧ s.closeDay ≠ none
            | .expand _ => r ≠ .ranges ∧ (s.recOf b).expansionDue = true
            | .checksum n => r = .ranges ∨ n = 256
            | .checksummed => False
            | .compared => False
            | .sequenced => False) ∧
          (∀ o, a = .read .tariff o → hasRead .dims) ∧
          ∀ c j, j < journeys → a = .write [.price (c * journeys + j)] → hasRead (.classRec c) ∧ hasRead (.base j)) ∧
        -- what the run has done at each point
        let w := closeWorkAt reached s.closeDay (s.inForce.map s.recOf) (marked.bank b)
        let old := s.recOf b
        let new := w.bank.record
        let shelves := (List.range 256).map (shelfCrc w.bank.ranges.records)
        let checksummed : Prop :=
          new.expansionDue = false ∧ new.tariffCrc = tariffCrc w.bank.tariff ∧ new.shelfCrcs = shelves ∧
            new.imageCrc = imageCrc old.tariffVersion old.blockVersion (tariffCrc w.bank.tariff) shelves
        let notCompared : Prop :=
          new.tariffChanged = old.tariffChanged ∧ new.shelfChanged = old.shelfChanged ∧ new.comparedSeq = old.comparedSeq
        let notSummed : Prop := new.tariffCrc = old.tariffCrc ∧ new.imageCrc = old.imageCrc
        let compared : Prop :=
          ((∀ f, s.inForce = some f → (s.recOf f).marks ≠ ⟨none, none, none⟩) →
            new.tariffChanged = true ∧ new.shelfChanged = List.replicate 256 true ∧ new.comparedSeq = 0#16) ∧
          ∀ f, s.inForce = some f → (s.recOf f).marks = ⟨none, none, none⟩ →
            new.tariffChanged = decide (new.tariffCrc ≠ (s.recOf f).tariffCrc) ∧
              new.shelfChanged = ((List.range 256).map fun i => decide (new.shelfCrcs[i]? ≠ (s.recOf f).shelfCrcs[i]?)) ∧
              new.comparedSeq = (s.recOf f).seq
        (∀ n, reached = .prune n →
          w.bank.tariff = (s.bank b).tariff ∧
          (∀ d, s.closeDay = some d →
            w.bank.ranges = RangeRegion.ofRecords (pruneFirst d n (s.bank b).ranges.records)) ∧
          new.expansionDue = old.expansionDue ∧ new.shelfCrcs = old.shelfCrcs ∧ notSummed ∧ notCompared) ∧
        (∀ n, reached = .expand n → old.expansionDue = true →
          let prices := (expandAll (s.bank b).tariff).take n
          w.bank.tariff =
            { (s.bank b).tariff with prices := prices.map (·.1) ++ (s.bank b).tariff.prices.drop n } ∧
          w.capped = cappedCount prices ∧ new.expansionDue = true ∧ new.shelfCrcs = old.shelfCrcs ∧ notSummed ∧
          notCompared) ∧
        (∀ n, reached = .checksum n →
          new.expansionDue = false ∧ new.shelfCrcs = shelves.take n ++ old.shelfCrcs.drop n ∧ notSummed ∧ notCompared) ∧
        (reached = .checksummed → checksummed ∧ notCompared) ∧
        (reached = .compared ∨ reached = .sequenced → checksummed ∧ compared)

/-- R47, R48: RANGE_READ. Arguments out of range are refused BAD_ARG; an EMPTY bank gives count 0 and the marker;
COPYING and CLOSING are refused BAD_STATE, BUILDING under a package BUSY; any other read is served: it answers OK with
the shelf's count and the record, and corrects and counts the one-bit errors in the words it reads, unless one of them holds
an uncorrectable error, which marks the region with the offset of such a word, raises ECC_UNCORRECTABLE and answers DAMAGED. A
read of words without errors changes nothing. (Which words are read, and the coding of the record's attributes and of the
marker, are the model's, logs 9, 20 and 31.) -/
def Obligations.RangeReadAnswersFromTheTable : Prop :=
  ∀ (s : State) (tag : Half) (bank : Byte) (shelf index : Half),
    s.portReady →
      let i := Instr.rangeRead tag bank shelf index
      let outOfRange : Prop := 1 < bank.toNat ∨ 255 < shelf.toNat ∨ 16383 < index.toNat
      (outOfRange → exec i s = .next (s.answered i tag .badArg [])) ∧
      ∀ b, bank = bankCode b → ¬outOfRange →
        let marked := (s.recOf b).marks.ranges.isSome
        let d := (s.bank b).ranges.directory.getD shelf.toNat ⟨0, 0⟩
        let place := d.first + index.toNat
        let applying : Prop := ∃ id kind total phase, s.loader.state = .applying id kind total phase
        let served : Prop :=
          (s.recOf b).state ≠ .empty ∧ (s.recOf b).state ≠ .copying ∧ (s.recOf b).state ≠ .closing ∧
            ¬((s.recOf b).state = .building ∧ applying)
        let items := Item.dirEntry shelf.toNat :: (if index.toNat < d.count then [Item.record place] else [])
        ((s.recOf b).state = .empty →
          exec i s = .next (s.answered i tag .ok (rangeReadBody b shelf index 0 marked none))) ∧
        ((s.recOf b).state = .copying ∨ (s.recOf b).state = .closing →
          exec i s = .next (s.answered i tag .badState [])) ∧
        ((s.recOf b).state = .building → applying → exec i s = .next (s.answered i tag .busy [])) ∧
        (served → (∀ u ∈ s.upsets, inItems b items u.loc = true → fatal u.kind = false) →
          exec i s =
            .next
              (State.answered i tag .ok
                (rangeReadBody b shelf index d.count marked
                  (if index.toNat < d.count then (s.bank b).ranges.records[place]? else none))
                (s.correctedAt (inItems b items)))) ∧
        ((∀ u ∈ s.upsets, inItems b items u.loc = false) → s.correctedAt (inItems b items) = s) ∧
        (served → (∃ u ∈ s.upsets, inItems b items u.loc = true ∧ fatal u.kind = true) →
          ∃ t u o, exec i s = .next t ∧ t.port.response = .held ⟨tag, .damaged, []⟩ ∧
            t.events.has .eccUncorrectable = true ∧ u ∈ s.upsets ∧ inItems b items u.loc = true ∧ fatal u.kind = true ∧
            u.loc = .bank b .ranges o ∧ (t.recOf b).marks.ranges = some ((s.recOf b).marks.ranges.getD o))

/-- R67, R68: TARIFF_READ of the items whose bytes name a bank and an item. COPYING and CLOSING are refused BAD_STATE,
BUILDING under a package BUSY; without a tariff DIMENSIONS answers with zeros and the other items INCOMPLETE; with
one, arguments above the dimensions are BAD_ARG, a PRICE while expansion is due BAD_STATE, and any other read answers OK with
the item. One-bit errors in the words read, of the dimensions and then of the item, are corrected and counted; an uncorrectable
one among them marks its region, HEADER or TARIFF, with the offset of such a word, raises ECC_UNCORRECTABLE and answers DAMAGED.
A read of words without errors changes nothing. Bytes that name no bank or item are BAD_ARG. (The model's own: which argument
bytes an item uses and the coding of the body, logs 20 and 25; that the dimensions are read before the arguments are held
against them, log 31; which words they are, log 9.) -/
def Obligations.TariffReadAnswersFromTheTariff : Prop :=
  ∀ (s : State) (tag : Half) (bank item a1 a2 a3 : Byte),
    s.portReady →
      let i := Instr.tariffRead tag bank item a1 a2 a3
      (1 < bank.toNat ∨ 4 < item.toNat ∨ ((item = 1#8 ∨ item = 3#8) ∧ 7 < a1.toNat) ∨
          (item = 2#8 ∧ ¬(1 ≤ a1.toNat ∧ a1.toNat ≤ 32 ∧ 1 ≤ a2.toNat ∧ a2.toNat ≤ 32)) ∨
          (item = 3#8 ∧ ¬(1 ≤ a2.toNat ∧ a2.toNat ≤ 32 ∧ 1 ≤ a3.toNat ∧ a3.toNat ≤ 32)) →
        exec i s = .next (s.answered i tag .badArg [])) ∧
      ∀ b x, bank = bankCode b → tariffItemOf item a1 a2 a3 = some x →
        let r := s.recOf b
        let t := (s.bank b).tariff
        let applying : Prop := ∃ id kind total phase, s.loader.state = .applying id kind total phase
        let readable : Prop := r.state ≠ .copying ∧ r.state ≠ .closing ∧ ¬(r.state = .building ∧ applying)
        (r.state = .copying ∨ r.state = .closing → exec i s = .next (s.answered i tag .badState [])) ∧
        (r.state = .building → applying → exec i s = .next (s.answered i tag .busy [])) ∧
        (readable → r.tariffPresent = false →
          exec i s =
            .next (if x = .dimensions then s.answered i tag .ok (tariffReadBody b x s) else s.answered i tag .incomplete [])) ∧
        (readable → r.tariffPresent = true →
          let outside : Prop :=
            match x with
            | .dimensions => False
            | .cls c => t.classCount ≤ c
            | .base o d => t.zones < o ∨ t.zones < d
            | .price c o d => t.classCount ≤ c ∨ t.zones < o ∨ t.zones < d
            | .product _ => False
          let record : List Item :=
            match x with
            | .dimensions => []
            | .cls c => [.classRec c]
            | .base o d => [.base ((o - 1) * t.zones + (d - 1))]
            | .price c o d => [.price (c * t.zones * t.zones + (o - 1) * t.zones + (d - 1))]
            | .product p => if p < t.productCount then [.product p] else []
          let sound (items : List Item) : Prop := ∀ u ∈ s.upsets, inItems b items u.loc = true → fatal u.kind = false
          let read (items : List Item) : State := s.correctedAt (inItems b items)
          let damaged (region : Region) (items : List Item) : Prop :=
            ∃ t' u o, exec i s = .next t' ∧ t'.port.response = .held ⟨tag, .damaged, []⟩ ∧
              t'.events.has .eccUncorrectable = true ∧ u ∈ s.upsets ∧ inItems b items u.loc = true ∧ fatal u.kind = true ∧
              u.loc = .bank b region o ∧ (t'.recOf b).marks.get region = some ((r.marks.get region).getD o)
          (∀ items, (∀ u ∈ s.upsets, inItems b items u.loc = false) → read items = s) ∧
          (¬sound [.dims] → damaged .header [.dims]) ∧
          (sound [.dims] →
            (outside → exec i s = .next (State.answered i tag .badArg [] (read [.dims]))) ∧
            (¬outside →
              (item = 3#8 → r.expansionDue = true →
                exec i s = .next (State.answered i tag .badState [] (read [.dims]))) ∧
              (item ≠ 3#8 ∨ r.expansionDue = false →
                (sound record →
                  exec i s = .next (State.answered i tag .ok (tariffReadBody b x s) (read (.dims :: record)))) ∧
                (¬sound record → damaged .tariff record)))))

/-! ### The block range table (chapter 2) -/

/-- R37, R40: in a table of canonical shape an ADD makes every card of its span listed with its attributes and leaves every
other card as it was; a REMOVE makes no card of its span listed and leaves every other card as it was. -/
def Obligations.DeltaOperationsListTheirSpan : Prop :=
  ∀ (rs : List RangeRec) (c : Card),
    canonical rs →
      (∀ r : RangeRec, r.first ≤ r.last →
        listing (addRange rs r) c = if r.first ≤ c ∧ c ≤ r.last then some (r.reason, r.priority, r.expiry) else listing rs c) ∧
      ∀ lo hi : Card, lo ≤ hi → listing (removeRange rs lo hi) c = if lo ≤ c ∧ c ≤ hi then none else listing rs c

/-- R27, R26, R42, R45: operations with their evictions, base entries above the table, and pruning keep the canonical
shape, and no more than 16,384 records are left after an operation's evictions. -/
def Obligations.TablesStayCanonical : Prop :=
  ∀ rs : List RangeRec,
    canonical rs →
      (∀ op : DeltaOp, op.span.1 ≤ op.span.2 →
        canonical (evict (op.applyTo rs)) ∧ (evict (op.applyTo rs)).length ≤ 16384) ∧
      (∀ r : RangeRec, r.first ≤ r.last → (∀ x ∈ rs, x.last < r.first) → canonical (appendEntry rs r)) ∧
      (∀ (day : Half) (n : Nat), canonical (pruneFirst day n rs)) ∧
      (∀ day : Half, pruneFirst day rs.length rs = rs.filter fun r => !(r.expiry.any fun e => decide (e < day)))

/-- R41: record X comes before record Y in the eviction order when its priority is lower, else its expiry is earlier (an
absent one being later than every day), else its first card number is higher; the order is total on records with
distinct first card numbers, and eviction takes the record that comes before every other. -/
def Obligations.EvictionOrderIsTotal : Prop :=
  (∀ x y : RangeRec,
    evictsBefore x y = true ↔
      x.priority < y.priority ∨
        (x.priority = y.priority ∧
          ((∃ d, x.expiry = some d ∧ (y.expiry = none ∨ ∃ e, y.expiry = some e ∧ d < e)) ∨
            (x.expiry = y.expiry ∧ y.first < x.first)))) ∧
  (∀ x y : RangeRec, x.first ≠ y.first → (evictsBefore x y = true ↔ evictsBefore y x = false)) ∧
  ∀ rs : List RangeRec, rs ≠ [] → rs.Pairwise (fun x y => x.first ≠ y.first) →
    ∃ v ∈ rs, evictionChoice rs = some v ∧ ∀ y ∈ rs, y ≠ v → evictsBefore v y = true

/-- R28, R46: a shelf's directory entry gives the number of its records and where they stand: those positions hold exactly
the shelf's records, in order. -/
def Obligations.DirectoryLocatesTheShelf : Prop :=
  ∀ (rs : List RangeRec) (shelf : Nat),
    canonical rs → shelf < 256 →
      let d := (RangeRegion.ofRecords rs).directory.getD shelf ⟨0, 0⟩
      d.count = (rs.filter fun r => decide (shelfOf r.first = shelf)).length ∧
        d.first = (rs.filter fun r => decide (shelfOf r.first < shelf)).length ∧
        (rs.drop d.first).take d.count = rs.filter fun r => decide (shelfOf r.first = shelf)

/-! ### Tariff content (chapter 3) -/

/-- R61, R62, R63: the price of a base fare in a class, stage by stage, and when it is counted as capped; the count of one
expansion is at most the number of prices. -/
def Obligations.PriceFollowsTheStages : Prop :=
  (∀ (c : ClassRec) (fare : Half),
    let b := fare.toNat
    let u := c.unit.toNat
    let cap := if c.cap = 0#16 then 65535 else c.cap.toNat
    let p1 := (b * c.factor.toNat + 8192) / 16384
    let p2 := (p1 + u / 2) / u * u
    let p3 := max (max p2 c.minCharge.toNat) 1
    (b = 0 → expandPrice c fare = (0#16, false)) ∧
      (b ≠ 0 → (expandPrice c fare).1.toNat = min p3 cap ∧ ((expandPrice c fare).2 = true ↔ cap < p3)) ∧
      (classRecOk c = true → b * c.factor.toNat + 8192 < 2 ^ 31 ∧ p1 ≤ 131066)) ∧
  ∀ t : Tariff, cappedCount (expandAll t) ≤ t.classes.length * t.base.length

/-- R50, R60, R64: the price of class c and journey position p stands at position c × Z × Z + p, and with a class record
that passes its check it is 0 exactly when the base fare is, and otherwise lies between the smaller of minimum and cap,
and the cap. -/
def Obligations.ExpansionFillsTheMatrix : Prop :=
  ∀ (t : Tariff) (c p : Nat) (cls : ClassRec) (fare : Half),
    t.classes[c]? = some cls → t.base[p]? = some fare →
      (expandAll t)[c * t.base.length + p]? = some (expandPrice cls fare) ∧
        (classRecOk cls = true →
          let price := (expandPrice cls fare).1.toNat
          let cap := if cls.cap = 0#16 then 65535 else cls.cap.toNat
          (price = 0 ↔ fare = 0#16) ∧ (fare ≠ 0#16 → min cls.minCharge.toNat cap ≤ price ∧ price ≤ cap))

/-- R53, R65, R200: a tariff, a range entry and a delta operation are read back from their encodings, with every field at
every value the encoding admits. -/
def Obligations.ContentDecodesAsEncoded : Prop :=
  (∀ (p : Product) (rest : List Byte),
    p.zones.length < 256 → (p.duration.isSome = true ↔ p.kind = .pass) → (p.window.isSome = true ↔ p.kind = .transfer) →
      parseProduct (encodeProduct p ++ rest) = some (p, rest)) ∧
  (∀ t : TariffPackage,
    1 ≤ t.zones → t.zones ≤ 32 → 1 ≤ t.classCount → t.classCount ≤ 8 → t.productCount ≤ 256 →
    t.classes.length = t.classCount → t.base.length = t.zones * t.zones → t.products.length = t.productCount →
    (∀ p ∈ t.products, p.zones.length < 256 ∧ (p.duration.isSome = true ↔ p.kind = .pass) ∧
      (p.window.isSome = true ↔ p.kind = .transfer)) →
      parseTariff
        (be32 t.version ++ [n8 t.zones, n8 t.classCount] ++ n16 t.productCount ++ t.classes.flatMap encodeClass ++
          t.base.flatMap be16 ++ t.products.flatMap encodeProduct) = some t) ∧
  ∀ r : RangeRec,
    let entry := be56 r.first ++ be56 r.last ++ [attrByte r] ++ be16 (r.expiry.getD 0#16)
    entryOf entry = some r ∧ deltaOpOf (0#8 :: entry) = some (.add r) ∧
      deltaOpOf (1#8 :: entry) = some (.remove r.first r.last)

/-- R54 to R57: what the check of a parsed TARIFF package finds: nothing when every class record and product passes and the
codes ascend, else the first class record that fails, else the first product that fails its content checks (BAD_CONTENT)
or its order (ORDER), with its index in the body. -/
def Obligations.TariffCheckNamesTheFirstFault : Prop :=
  (∀ c : ClassRec,
    classRecOk c = true ↔ c.factor.toNat ≤ 32767 ∧ c.unit.toNat ∈ [1, 2, 5, 10, 20, 25, 50, 100]) ∧
  (∀ (z k : Nat) (p : Product),
    productOk z k p = true ↔
      p.code ≠ 0#16 ∧ p.code ≠ 65535#16 ∧ p.cls.toNat < k ∧ (∀ d ∈ p.validTo, p.validFrom ≤ d) ∧ p.zones.length ≤ 32 ∧
        p.zones.Pairwise (· < ·) ∧ (∀ x ∈ p.zones, 1 ≤ x.toNat ∧ x.toNat ≤ z) ∧
        (∀ n ∈ p.duration, 1 ≤ n.toNat ∧ n.toNat ≤ 366) ∧ (∀ n ∈ p.window, 1 ≤ n.toNat ∧ n.toNat ≤ 480) ∧
        (p.kind = .pass → p.fixedPrice ≠ none) ∧ (p.kind = .single ∨ p.kind = .value → p.fixedPrice = none)) ∧
  ∀ (buffer : List Byte),
    (parseTariff (buffer.drop 8) = none → checkTariff buffer = some (.badContent, none)) ∧
    ∀ t : TariffPackage, parseTariff (buffer.drop 8) = some t →
      let classOk (j : Nat) : Prop := ∀ c ∈ t.classes[j]?, classRecOk c = true
      let contentOk (j : Nat) : Prop := ∀ p ∈ t.products[j]?, productOk t.zones t.classCount p = true
      let orderOk (j : Nat) : Prop := j = 0 ∨ ∀ p ∈ t.products[j]?, ∀ q ∈ t.products[j - 1]?, q.code < p.code
      let place (j : Nat) : Nat := t.classCount + t.zones * t.zones + j
      ((∀ j, classOk j) → (∀ j, contentOk j ∧ orderOk j) → checkTariff buffer = none) ∧
      (∀ j, (∀ i, i < j → classOk i) → ¬classOk j → checkTariff buffer = some (.badContent, some j)) ∧
      (∀ j, (∀ i, classOk i) → (∀ i, i < j → contentOk i ∧ orderOk i) → ¬contentOk j →
        checkTariff buffer = some (.badContent, some (place j))) ∧
      (∀ j, (∀ i, classOk i) → (∀ i, i < j → contentOk i ∧ orderOk i) → contentOk j → ¬orderOk j →
        checkTariff buffer = some (.order, some (place j)))

/-! ### Package loading (chapter 4) -/

/-- R71, R72, R73: the refusals of SEGMENT in their order; each changes nothing but the port, a package in progress
included. -/
def Obligations.SegmentIsCheckedInOrder : Prop :=
  ∀ (s : State) (tag id index count : Half) (payload : List Byte),
    s.portReady → rolesLaw s →
      let i := Instr.segment tag id index count payload
      let wrongFields : Prop :=
        count = 0#16 ∨ 274 < count.toNat ∨ count ≤ index ∨ payload = [] ∨ 240 < payload.length
      let applying : Prop := ∃ id' kind total phase, s.loader.state = .applying id' kind total phase
      let least (kind : Byte) : Nat := if kind = 1#8 then 16 else 18
      let total : Nat := (payload.getD 1 0#8).toNat * 65536 + (payload.getD 2 0#8).toNat * 256 + (payload.getD 3 0#8).toNat
      let kind := payload.getD 0 0#8
      let wrongHeader : Prop :=
        kind ∉ [1#8, 2#8, 3#8] ∨ payload.length < least kind ∨ total < least kind ∨ 65536 < total
      (wrongFields → exec i s = .next (s.answered i tag .badArg [])) ∧
      (¬wrongFields → applying → exec i s = .next (s.answered i tag .busy [])) ∧
      (¬wrongFields → index = 0#16 → ¬applying → (∀ b, (s.recOf b).state ≠ .building) →
        exec i s = .next (s.answered i tag .noBuild [])) ∧
      (¬wrongFields → index = 0#16 → ¬applying → (∃ b, (s.recOf b).state = .building) → wrongHeader →
        exec i s = .next (s.answered i tag .badArg [])) ∧
      (¬wrongFields → index ≠ 0#16 → s.loader.state = .idle → exec i s = .next (s.answered i tag .sequence [])) ∧
      (¬wrongFields → index ≠ 0#16 →
        ∀ r, s.loader.state = .receiving r → (id ≠ r.packageId ∨ count ≠ r.count ∨ index ≠ r.expected) →
          exec i s = .next (s.answered i tag .sequence (be16 r.packageId ++ be16 r.expected)))

/-- R72, R74, R75: a segment that is taken. Segment 0 starts a package, an expected segment continues it: its payload
joins the buffer, the counts and the running CRC follow, and the answer is OK with the progress; a payload past the
total length, or a last segment that leaves the length or the CRC wrong, ends the package REFUSED BAD_CRC; the last
segment of a whole package is ACCEPTED and the check phase begins. The words in error that the payload completes, with the
last segment the one it leaves incomplete too, are renewed (R180). (The model's own: that ACCEPTED has an empty body, log 29;
that the counts of a result REFUSED BAD_CRC are 0, log 42; that a renewed word keeps no error but a stuck bit, log 10.) -/
def Obligations.SegmentStoresItsPayload : Prop :=
  ∀ (s : State) (tag id index count : Half) (payload : List Byte) (before after : Receiving),
    s.portReady → rolesLaw s → (∃ b, (s.recOf b).state = .building) →
    1 ≤ count.toNat → count.toNat ≤ 274 → index < count → 1 ≤ payload.length → payload.length ≤ 240 →
    after.bytes = before.bytes + payload.length → after.packageId = id → after.count = count →
    after.expected = index + 1#16 → after.kind = before.kind → after.total = before.total →
    after.packageCrc = before.packageCrc →
    ((index = 0#16 ∧ (s.loader.state = .idle ∨ ∃ r, s.loader.state = .receiving r) ∧ before.bytes = 0 ∧
        (∃ k rest, payload = k :: rest ∧ packageKindOf k = some before.kind) ∧
        before.total = (payload.getD 1 0#8).toNat * 65536 + (payload.getD 2 0#8).toNat * 256 + (payload.getD 3 0#8).toNat ∧
        before.kind.least ≤ before.total ∧ before.total ≤ 65536 ∧ before.kind.least ≤ payload.length ∧
        before.packageCrc =
          word32 (payload.getD 4 0#8) (payload.getD 5 0#8) (payload.getD 6 0#8) (payload.getD 7 0#8) ∧
        after.running = crc32Feed 0xFFFFFFFF#32 (payload.drop 8)) ∨
      (index ≠ 0#16 ∧ s.loader.state = .receiving before ∧ before.packageId = id ∧ before.count = count ∧
        before.expected = index ∧ after.running = crc32Feed before.running payload)) →
      let i := Instr.segment tag id index count payload
      let last : Prop := index + 1#16 = count
      let tooLong : Prop := index ≠ 0#16 ∧ after.total < after.bytes
      let wrong : Prop := after.bytes ≠ after.total ∨ after.running ^^^ 0xFFFFFFFF#32 ≠ after.packageCrc
      let refused : PackageResult := ⟨.refused, id, some after.kind, .badCrc, none, 0#16, 0#16, 0#16⟩
      ∃ t, exec i s = .next t ∧
        t =
          { s with
            loader := t.loader
            upsets := t.upsets
            events := t.events
            free := t.free
            port := t.port
            lookups := { s.lookups with slot := s.lookups.slot.afterAnswer } } ∧
        t.upsets =
          (if tooLong then s.upsets
          else
            (s.refresh
              (inBuffer before.bytes (if last then after.bytes else after.bytes / 8 * 8))).upsets) ∧
        (¬tooLong → ¬last →
          t.loader = ⟨.receiving after, s.loader.result, s.loader.buffer.take before.bytes ++ payload⟩ ∧
          t.events = s.events ∧
          t.port =
            s.port.answered i tag .ok (be16 id ++ be16 after.expected ++ be24 (BitVec.ofNat 24 after.bytes))) ∧
        (tooLong ∨ (last ∧ wrong) →
          t.loader = ⟨.idle, refused, []⟩ ∧ t.events = { s.events with flags := s.events.flags ||| 2#24 } ∧
          t.port = s.port.answered i tag .badCrc []) ∧
        (¬tooLong → last → ¬wrong →
          t.loader =
            ⟨.applying id after.kind after.total .check, s.loader.result, s.loader.buffer.take before.bytes ++ payload⟩ ∧
          t.events = s.events ∧ t.port = s.port.answered i tag .accepted [])

/-- R76, R80, R182: the check phase of a package ends. When the checks of its kind find nothing the apply phase begins and
nothing else changes; otherwise the result says REFUSED with the code and index found and counts 0, PACKAGE_REFUSED is
raised and the loader is IDLE with its buffer empty; the banks are unchanged. An uncorrectable word of the buffer that the
checks come to ends the package with MEMORY and is counted and captured; one beyond the record that fails is not read. One
among the words of the bank that the check of a later base part reads also marks RANGES (R77), which the scrubber then leaves
(R185). Without a package in its check phase the event changes nothing (log 3). (The counter of free values is the model's,
log 30; which words hold which item of a bank, log 9; where the scrubber then stands, log 38; how far the parse of a TARIFF
body reads into a record that fails is the model's too, log 12, and not stated.) -/
def Obligations.CheckPhaseDecides : Prop :=
  ∀ s : State,
    s.inReset = false → rolesLaw s →
      ((∀ id kind total, s.loader.state ≠ .applying id kind total .check) → exec .checkPhaseEnd s = .next s) ∧
      ∀ id kind total b, s.loader.state = .applying id kind total .check → (s.recOf b).state = .building →
        let buffer := s.loader.buffer
        let finding := checkContent (s.bank b) kind buffer
        let refused (code : ResultCode) (index : Option Nat) (t : State) : State :=
          { t with
            loader := ⟨.idle, ⟨.refused, id, some kind, code, index.map (BitVec.ofNat 16), 0#16, 0#16, 0#16⟩, []⟩
            events := { t.events with flags := t.events.flags ||| 2#24 }
            free := s.free + 3 }
        let outcome : State :=
          match finding with
          | none => { s with loader := { s.loader with state := .applying id kind total .apply } }
          | some (code, index) => refused code index s
        let unreadable (loc : WordLoc) (state : Option BankState) (t : State) : State :=
          { t with
            events :=
              { s.events with
                flags := s.events.flags ||| 0x20000#24
                uncorrectable := min 65535 (s.events.uncorrectable + 1)
                capture := some (s.events.capture.getD ⟨loc, .loader, state⟩) } }
        let reach : Nat :=
          match finding with
          | none => buffer.length
          | some (_, some i) => 18 + (if kind = .blockBase then 17 else 18) * (i + 1)
          | some (_, none) => 18
        (s.upsets = [] → exec .checkPhaseEnd s = .next outcome) ∧
        (∀ u o, s.upsets = [u] → u.loc = .buffer o → fatal u.kind = true → (kind ≠ .tariff ∨ finding = none) →
          exec .checkPhaseEnd s =
            .next (if o * 8 < reach then refused .memory none (unreadable u.loc none s) else outcome)) ∧
        ∀ u o h body, s.upsets = [u] → u.loc = .bank b .ranges o → fatal u.kind = true → kind = .blockBase →
          baseHeaderOf buffer = some (h, body) → h.part ≠ 1#16 → finding = none →
          inItems b (appendItems (s.bank b).ranges) u.loc = true →
            exec .checkPhaseEnd s =
              .next
                (refused .memory none
                  (unreadable u.loc (some .building)
                    { s.setRec b { s.recOf b with marks := (s.recOf b).marks.mark .ranges o } with
                      scrub := s.scrub.leftRegion b .ranges }))

/-- R31 to R34, R36: all the checks of a base part and of a delta. A base part: its header and length, its place in the
sequence of parts, then its entries one at a time: their content, that each lies above the entry before (the first of a
later part above the table's highest record), and that the records there would be are at most 16,384, an entry adding one
for each shelf it meets, less one when it joins the record before. A delta: its length, its from-version, then its
operations one at a time. The code names the first check that fails, with the index of the record. -/
def Obligations.RangePackagesAreChecked : Prop :=
  ∀ (x : Bank) (buffer : List Byte),
    (∀ (h : BaseHeader) (body : List Byte), baseHeaderOf buffer = some (h, body) →
      let bad : Prop := h.parts = 0#16 ∨ h.part = 0#16 ∨ h.parts < h.part ∨ body.length ≠ 17 * h.entries.toNat
      let inSequence : Prop := h.part = 1#16 ∨ x.record.blockStatus = .inProgress h.part h.parts h.version
      let table := if h.part = 1#16 then [] else x.ranges.records
      let entries := chunks 17 h.entries.toNat body
      let entry (j : Nat) : Option RangeRec := (entries[j]?).bind entryOf
      let before (j : Nat) : Option RangeRec := if j = 0 then table.getLast? else entry (j - 1)
      let adds (j : Nat) : Nat :=
        match entry j with
        | some e => shelfOf e.last - shelfOf e.first + 1 - (if (before j).any fun p => p.joins e then 1 else 0)
        | none => 0
      let contentOk (j : Nat) : Prop := ∃ e, entry j = some e ∧ e.first ≤ e.last
      let orderOk (j : Nat) : Prop := ∀ p e, before j = some p → entry j = some e → p.last < e.first
      let fits (j : Nat) : Prop := table.length + ((List.range (j + 1)).map adds).sum ≤ 16384
      let ok (j : Nat) : Prop := contentOk j ∧ orderOk j ∧ fits j
      (bad → checkBase x buffer = some (.badContent, none)) ∧
      (¬bad → ¬inSequence → checkBase x buffer = some (.sequence, none)) ∧
      (¬bad → inSequence →
        ((∀ j, j < entries.length → ok j) → checkBase x buffer = none) ∧
        ∀ j, j < entries.length → (∀ i, i < j → ok i) →
          (¬contentOk j → checkBase x buffer = some (.badContent, some j)) ∧
          (contentOk j → ¬orderOk j → checkBase x buffer = some (.order, some j)) ∧
          (contentOk j → orderOk j → ¬fits j → checkBase x buffer = some (.capacity, some j)))) ∧
    (∀ (h : DeltaHeader) (body : List Byte), deltaHeaderOf buffer = some (h, body) →
      let r := x.record
      let ops := chunks 18 h.ops.toNat body
      let opOk (bs : List Byte) : Prop := ∃ op, deltaOpOf bs = some op ∧ op.span.1 ≤ op.span.2
      (body.length ≠ 18 * h.ops.toNat → checkDelta r buffer = some (.badContent, none)) ∧
      (body.length = 18 * h.ops.toNat → (r.blockStatus ≠ .complete ∨ r.blockVersion ≠ h.fromVersion) →
        checkDelta r buffer = some (.sequence, none)) ∧
      (body.length = 18 * h.ops.toNat → r.blockStatus = .complete → r.blockVersion = h.fromVersion →
        ((∀ x ∈ ops, opOk x) → checkDelta r buffer = none) ∧
        ∀ j x, ops[j]? = some x → ¬opOk x → (∀ i y, i < j → ops[i]? = some y → opOk y) →
          checkDelta r buffer = some (.badContent, some j)))

/-- R53, R58, R59, R80, R182: the apply phase of a TARIFF package replaces the dimensions, class records, base matrix and
products, leaves the price words, sets tariff present and expansion due, and ends DONE with K + Z × Z + P records; the words
in error that it writes are renewed (which these are is the model's, logs 9 and 13). An uncorrectable word of the buffer
ends it REFUSED with MEMORY, counted and captured, with tariff present no and expansion due yes; the dimensions and the
records read whole before that word stay written, nothing when the word is among the headers. (The counter of free values
is the model's, log 30.) -/
def Obligations.TariffApplyReplacesTheTariff : Prop :=
  ∀ (s : State) (b : BankId) (id : Half) (total : Nat) (p : TariffPackage),
    s.inReset = false → rolesLaw s → s.loader.state = .applying id .tariff total .apply → (s.recOf b).state = .building →
    parseTariff (s.loader.buffer.drop 8) = some p →
      let r := s.recOf b
      let items :=
        Item.dims ::
          ((List.range p.classes.length).map Item.classRec ++ (List.range p.base.length).map Item.base ++
            (List.range p.products.length).map Item.product)
      ((∀ u ∈ s.upsets, ∀ o, u.loc ≠ .buffer o) →
        exec .applyPhaseEnd s =
          .next
            { (s.setBank b
                ⟨{ r with tariffPresent := true, tariffVersion := p.version, expansionDue := true },
                  ⟨p.zones, p.classCount, p.productCount, p.classes, p.base, (s.bank b).tariff.prices, p.products⟩,
                  (s.bank b).ranges⟩).refresh (inItems b items) with
              loader :=
                ⟨.idle,
                  ⟨.done, id, some .tariff, .ok, none,
                    BitVec.ofNat 16 (p.classCount + p.zones * p.zones + p.productCount), 0#16, 0#16⟩, []⟩
              events := { s.events with flags := s.events.flags ||| 1#24 }
              free := s.free + 3 }) ∧
      ∀ (u : Upset) (o : Nat), s.upsets = [u] → u.loc = .buffer o → fatal u.kind = true →
        let widths := p.classes.map (fun _ => 7) ++ p.base.map (fun _ => 2) ++ p.products.map fun q => (encodeProduct q).length
        let refused (n : Nat) (tariff : Tariff) : State :=
          { s.setBank b ⟨{ r with tariffPresent := false, expansionDue := true }, tariff, (s.bank b).ranges⟩ with
            loader := ⟨.idle, ⟨.refused, id, some .tariff, .memory, none, BitVec.ofNat 16 n, 0#16, 0#16⟩, []⟩
            events :=
              { s.events with
                flags := s.events.flags ||| 0x20002#24
                uncorrectable := min 65535 (s.events.uncorrectable + 1)
                capture := some (s.events.capture.getD ⟨u.loc, .loader, none⟩) }
            free := s.free + 3 }
        (o < 2 → exec .applyPhaseEnd s = .next (refused 0 (s.bank b).tariff)) ∧
        ∀ n, n < widths.length → 16 + (widths.take n).sum ≤ 8 * o → 8 * o < 16 + (widths.take (n + 1)).sum →
          exec .applyPhaseEnd s = .next (refused n (p.over n (s.bank b).tariff))

/-- R30, R35, R37, R42 to R44, R79, R182: the apply phase of a range package. A base part empties the table when it is
part 1, appends its entries, and moves the blocklist status on; a delta runs its operations with their evictions and takes
its to-version. The table's count and directory follow; the result counts entries, evictions and splits; EVICTION is raised
when there were evictions. An uncorrectable word of the buffer ends the package REFUSED with MEMORY after the records read
whole before it, and the blocklist status becomes NONE; one among the words of the table that a record needs ends it after
the records before, with RANGES marked, which the scrubber then leaves (R185), and the status as it was. Both are counted and
captured. (A count above 65535 is a free value, DESIGN CHOICE log 19; which words a record needs and which it writes is the
model's, logs 9, 12 and 13; where the scrubber stands after it has left, log 38.) -/
def Obligations.RangeApplyChangesTheTable : Prop :=
  ∀ (s : State) (b : BankId) (id : Half) (total : Nat),
    s.inReset = false → rolesLaw s → directoryLaw s → (s.recOf b).state = .building →
      let buffer := s.loader.buffer
      let r := s.recOf b
      let x := s.bank b
      -- the counts a result carries, and the events
      let counted (t : State) (scrub : Scrub) (n evictions splits : Nat) : Prop :=
        t.loader.result.index = none ∧ t.loader.result.packageId = id ∧ t.loader.result.records.toNat = n ∧
          (evictions ≤ 65535 → t.loader.result.evictions.toNat = evictions) ∧
          (splits ≤ 65535 → t.loader.result.splits.toNat = splits) ∧
          t.loader.state = .idle ∧ t.loader.buffer = [] ∧ t.bank (other b) = s.bank (other b) ∧
          t = { s with banks := t.banks, loader := t.loader, events := t.events, free := t.free, scrub := scrub }
      let done (t : State) (kind : PackageKind) (n evictions splits : Nat) : Prop :=
        t.loader.result.outcome = .done ∧ t.loader.result.kind = some kind ∧ t.loader.result.code = .ok ∧
          t.events = { s.events with flags := s.events.flags ||| (if 0 < evictions then 0x8001#24 else 1#24) } ∧
          counted t s.scrub n evictions splits
      let refused (t : State) (kind : PackageKind) (u : Upset) (state : Option BankState) (n evictions splits : Nat) : Prop :=
        t.loader.result.outcome = .refused ∧ t.loader.result.kind = some kind ∧ t.loader.result.code = .memory ∧
          t.events =
            { s.events with
              flags := s.events.flags ||| (if 0 < evictions then 0x28002#24 else 0x20002#24)
              uncorrectable := min 65535 (s.events.uncorrectable + 1)
              capture := some (s.events.capture.getD ⟨u.loc, .loader, state⟩) } ∧
          counted t (if state = none then s.scrub else s.scrub.leftRegion b .ranges) n evictions splits
      -- how many records have been read whole before word `o` of the buffer
      let whole (width o : Nat) : Nat := (8 * o - 18) / width
      (∀ (h : BaseHeader) (body : List Byte) (entries : List RangeRec),
        s.loader.state = .applying id .blockBase total .apply → baseHeaderOf buffer = some (h, body) →
        body.length = 17 * h.entries.toNat → (chunks 17 h.entries.toNat body).map entryOf = entries.map some →
          let start := if h.part = 1#16 then [] else x.ranges.records
          let table (n : Nat) := (entries.take n).foldl appendEntry start
          let splits (n : Nat) := ((entries.take n).map fun e => shelfOf e.last - shelfOf e.first).sum
          (s.upsets = [] →
            ∃ t, exec .applyPhaseEnd s = .next t ∧ done t .blockBase entries.length 0 (splits entries.length) ∧
              t.bank b =
                ⟨(if h.part < h.parts then { r with blockStatus := .inProgress (h.part + 1#16) h.parts h.version }
                  else { r with blockStatus := .complete, blockVersion := h.version }),
                  x.tariff, RangeRegion.ofRecords (table entries.length)⟩) ∧
          (∀ u o, s.upsets = [u] → u.loc = .buffer o → fatal u.kind = true → 8 * o < buffer.length →
            let n := if 8 * o < 18 then 0 else whole 17 o
            ∃ t, exec .applyPhaseEnd s = .next t ∧ refused t .blockBase u none n 0 (splits n) ∧
              t.bank b =
                ⟨{ r with blockStatus := .none }, x.tariff,
                  RangeRegion.ofRecords (if 8 * o < 18 then x.ranges.records else table n)⟩) ∧
          ∀ u o n, s.upsets = [u] → u.loc = .bank b .ranges o → fatal u.kind = true →
            (h.part = 1#16 → inItems b tableItems u.loc = false) →
            (∀ j, j < n →
              let old := RangeRegion.ofRecords (table j)
              let new := RangeRegion.ofRecords (table (j + 1))
              inItems b (entryItems old new ++ rangeItemsWritten old new) u.loc = false) →
            n < entries.length →
            inItems b (entryItems (RangeRegion.ofRecords (table n)) (RangeRegion.ofRecords (table (n + 1)))) u.loc = true →
              ∃ t, exec .applyPhaseEnd s = .next t ∧ refused t .blockBase u (some .building) n 0 (splits n) ∧
                t.bank b = ⟨{ r with marks := r.marks.mark .ranges o }, x.tariff, RangeRegion.ofRecords (table n)⟩) ∧
      (∀ (h : DeltaHeader) (body : List Byte) (ops : List DeltaOp),
        s.loader.state = .applying id .blockDelta total .apply → deltaHeaderOf buffer = some (h, body) →
        body.length = 18 * h.ops.toNat → (chunks 18 h.ops.toNat body).map deltaOpOf = ops.map some →
        r.evictions ≤ 65535 →
          let run (n : Nat) := deltaRun (ops.take n) (x.ranges.records, 0, 0)
          let evicted (n : Nat) : Nat := min 65535 (r.evictions + (run n).2.1)
          (s.upsets = [] →
            let n := ops.length
            ∃ t, exec .applyPhaseEnd s = .next t ∧ done t .blockDelta n (run n).2.1 (run n).2.2 ∧
              t.bank b =
                ⟨{ r with blockVersion := h.toVersion, evictions := evicted n }, x.tariff,
                  RangeRegion.ofRecords (run n).1⟩) ∧
          (∀ u o, s.upsets = [u] → u.loc = .buffer o → fatal u.kind = true → 8 * o < buffer.length →
            let n := if 8 * o < 18 then 0 else whole 18 o
            ∃ t, exec .applyPhaseEnd s = .next t ∧ refused t .blockDelta u none n (run n).2.1 (run n).2.2 ∧
              t.bank b =
                ⟨{ r with blockStatus := .none, evictions := evicted n }, x.tariff, RangeRegion.ofRecords (run n).1⟩) ∧
          ∀ u o n op, s.upsets = [u] → u.loc = .bank b .ranges o → fatal u.kind = true →
            (∀ j op', j < n → ops[j]? = some op' →
              let old := RangeRegion.ofRecords (run j).1
              inItems b (opItems old op' ++ rangeItemsWritten old (op'.result old)) u.loc = false) →
            ops[n]? = some op → inItems b (opItems (RangeRegion.ofRecords (run n).1) op) u.loc = true →
              ∃ t, exec .applyPhaseEnd s = .next t ∧
                refused t .blockDelta u (some .building) n (run n).2.1 (run n).2.2 ∧
                t.bank b =
                  ⟨{ r with marks := r.marks.mark .ranges o, evictions := evicted n }, x.tariff,
                    RangeRegion.ofRecords (run n).1⟩)

/-! ### The carousel (chapter 5) -/

/-- R87, R89, R90, R91: CAROUSEL_CONFIG takes five settings, each brought into its range, and answers them; CAROUSEL_START
makes the carousel RUNNING and puts every ENABLED link that is OFF into its cycle gap; CAROUSEL_STOP takes the links in
their gap OFF, and the carousel to STOPPING while some link is in a cycle, at once to STOPPED with CAROUSEL_STOPPED
otherwise. Where a rule says so they change nothing. -/
def Obligations.CarouselCommandsSetStateAndSettings : Prop :=
  ∀ (s : State) (tag : Half),
    s.portReady →
      (∀ (il rf li fg : Byte) (cg : Half),
        let i := Instr.carouselConfig tag il rf li fg cg
        let c : Settings :=
          ⟨min 15 il.toNat, max 1 rf.toNat, max 2 (min 64 li.toNat), fg.toNat, min 4095 cg.toNat⟩
        exec i s =
          .next
            (State.answered i tag .ok
              ([n8 c.interleave, n8 c.refresh, n8 c.leadIn, n8 c.frameGap] ++ n16 c.cycleGap)
              { s with carousel := { s.carousel with settings := c } })) ∧
      (s.carousel.state = .running →
        exec (.carouselStart tag) s = .next (s.answered (.carouselStart tag) tag .ok [])) ∧
      (s.carousel.state ≠ .running →
        ∃ t, exec (.carouselStart tag) s = .next t ∧
          (∀ k, t.link k =
            if (s.link k).state = .enabled ∧ (s.link k).phase = .off then { s.link k with phase := .gap } else s.link k) ∧
          t =
            State.answered (.carouselStart tag) tag .ok []
              { s with carousel := { s.carousel with state := .running }, links := t.links }) ∧
      (s.carousel.state ≠ .running →
        exec (.carouselStop tag) s = .next (s.answered (.carouselStop tag) tag .ok [])) ∧
      (s.carousel.state = .running →
        ∃ t, exec (.carouselStop tag) s = .next t ∧
          (∀ k, t.link k = if (s.link k).phase = .gap then { s.link k with phase := .off } else s.link k) ∧
          ((∃ k, (s.link k).phase = .inCycle) → t.carousel.state = .stopping ∧ t.events = s.events) ∧
          ((∀ k, (s.link k).phase ≠ .inCycle) →
            t.carousel.state = .stopped ∧ t.events = { s.events with flags := s.events.flags ||| 0x40000#24 }) ∧
          t =
            State.answered (.carouselStop tag) tag .ok []
              { s with carousel := { s.carousel with state := t.carousel.state }, links := t.links, events := t.events })

/-- R88, R91 to R93, R98 to R101: a cycle start on an ENABLED link in its gap while the carousel runs. The link takes up the
settings, the counter advances, content and composition are chosen by R99 and R100 (a content bank that carries a damage
mark is none, and the cycle HOLD), the frames by R92, the CYCLE_HEAD body is fixed by R93, and the content bank gains a
reader. For a FULL or CHANGED cycle the start reads the content bank's HEADER words and directory; one-bit errors among them are
corrected and counted (R181). An uncorrectable one is counted and captured and marks its region, which withdraws a PENDING bank
and cuts the cycles of the bank in force and fails a copy from it (R22, R23, R182); the start is then made again from R99 on the
banks as the mark left them (R101). Nothing else changes; on any other link the event changes nothing (log 3). (The model's own:
which words hold the HEADER and the directory, log 9; that they are read in that order, each once, so that the words before the
one that cannot be read have been corrected by then, log 12; that a directory entry is read with its first position, log 49;
where the scrubber stands when it leaves the region, R185, log 38.) -/
def Obligations.CycleStartFixesTheContext : Prop :=
  ∀ (s : State) (k : LinkId),
    s.inReset = false → rolesLaw s →
      let l := s.link k
      let starts : Prop := l.state = .enabled ∧ l.phase = .gap ∧ s.carousel.state = .running
      (¬starts → exec (.cycleStart k) s = .next s) ∧
      (starts →
        ∃ c : Choice, CycleChosen s k c ∧
          let number := l.cycleCounter + 1#16
          let reads : List Item := if c.composition = .hold then [] else .dims :: (List.range 256).map Item.dirEntry
          -- every word that the start reads can be given
          ((∀ b, c.content = some b → ∀ u ∈ s.upsets, inItems b reads u.loc = true → fatal u.kind = false) →
            -- which frames (R92)
            let full : Bool := c.composition = .full
            let count (x : Bank) (i : Nat) : Nat := (x.ranges.directory.getD i ⟨0, 0⟩).count
            let withTariff (x : Bank) : Bool := full || x.record.tariffChanged
            let tariff (x : Bank) : List FrameSpec :=
              let values := x.tariff.zones * x.tariff.zones + x.tariff.classCount * (x.tariff.zones * x.tariff.zones)
              FrameSpec.classes ::
                ((List.range ((values + 509) / 510)).map FrameSpec.matrix ++
                  (List.range (max 1 ((x.tariff.productCount + 21) / 22))).map FrameSpec.products)
            let shelves (x : Bank) : List Nat :=
              (List.range 256).filter fun i => decide (0 < count x i) && (full || x.record.shelfChanged.getD i false)
            let sent : Option Bank := if c.composition = .hold then none else c.content.map s.bank
            let tariffIncluded : Bool := sent.any withTariff
            let shelvesIncluded : Nat := (sent.map fun x => (shelves x).length).getD 0
            let frames : List FrameSpec :=
              match sent with
              | none => [.head]
              | some x =>
                .head :: .directory 0 :: .directory 1 ::
                  ((if withTariff x then tariff x else []) ++
                    (shelves x).flatMap fun i => (List.range ((count x i + 67) / 68)).map (.shelf i))
            -- how the head announces them (R93)
            let head : List Byte :=
              [n8 k.val] ++ be16 number ++ [c.composition.code] ++ be16 (s.seqOf s.inForce) ++
                be16 (s.seqOf s.pendingBank) ++ be16 (s.seqOf c.content) ++
                (match c.content with
                | some b => be32 (s.recOf b).imageCrc ++ be32 (s.recOf b).tariffVersion ++ be32 (s.recOf b).blockVersion
                | none => List.replicate 12 0#8) ++
                activationBytes s.activation ++ n16 shelvesIncluded ++ n16 frames.length ++
                [(if tariffIncluded then 1#8 else 0#8) |||
                  (if s.inForce = none ∧ s.pendingBank = none then 2#8 else 0#8) |||
                  (if s.inForce.any fun f => (s.recOf f).damaged then 4#8 else 0#8)]
            let read : State :=
              match c.content with
              | some b =>
                (s.correctedAt (inItems b reads)).setRec b { s.recOf b with readers := (s.recOf b).readers + 1 }
              | none => s
            exec (.cycleStart k) s =
              .next
                (read.setLink k
                  { l with
                    settings := s.carousel.settings
                    phase := .inCycle
                    cycleCounter := number
                    interleave := c.interleave
                    refresh := c.refresh
                    ctx :=
                      { number := number
                        content := c.content
                        contentSeq := s.seqOf c.content
                        composition := c.composition
                        inForceSeq := s.seqOf s.inForce
                        pendingSeq := s.seqOf s.pendingBank
                        activation := s.activation
                        tariffIncluded := tariffIncluded
                        shelvesIncluded := shelvesIncluded
                        following := frames.length
                        frameIndex := 0
                        sent := 0
                        aborted := 0
                        cut := false
                        head := head
                        todo := frames
                        wip := none
                        ending := none } })) ∧
          -- a word that the start cannot read (R101)
          ∀ b, c.content = some b →
            let hits := hitsIn b reads s.upsets
            (∀ u, u ∈ hits ↔ u ∈ s.upsets ∧ inItems b reads u.loc = true) ∧
            ∀ before u after, hits = before ++ u :: after → (∀ x ∈ before, fatal x.kind = false) → fatal u.kind = true →
              errorsLaw s →
              ∃ r o v, u.loc = .bank b r o ∧
                (let marked := (s.correctedAt fun loc => before.any fun x => decide (loc = x.loc)).found .carousel b r o
                 ((s.recOf b).state = .inForce ∧ InForceMarked marked b r v) ∨
                  ((s.recOf b).state = .pending ∧
                    ∃ w, Withdrawn marked b w ∧ v = { w with scrub := w.scrub.leftRegion b r })) ∧
                exec (.cycleStart k) s = exec (.cycleStart k) v)

/-- R91 to R97, R101, R102, R105 to R107, R116: a refill service. With no link in need it changes nothing; otherwise it serves
the first link in need after the pointer, which moves to it: it begins that link's next frame, or goes on with the one in
progress, and writes the frame's bytes until it is whole or the FIFO is full (the bytes of an aborted frame are dropped instead,
R109); the context counts a frame that is whole, and at its boundary the cycle ends or is cut and gives up its reader, which
completes the drain of a DRAINING bank when it was the last (R4, R7). The frames are those of R93 to R97, each with its CRC,
which is inverted when a word was unreadable. A word that cannot be read marks its region and counts the frame as aborted.
Before the service the bytes that a transmitter has taken leave the carousel frame on its line, and those that have arrived at
an ENABLED link join its receive FIFO as far as there is room; a byte beyond is dropped and the frame marked overflowed (R121).
(What has passed on the lines meanwhile comes with the command, logs 21 and 23; the bytes a frame carries for an unreadable word
are free, log 18; the name of a word is the model's, log 9; so is it that a CYCLE_END composed at a boundary stands, log 46,
that the frames aborted rise in the service that reads the word, log 47, and that this is the service of its item's first byte,
log 48; where the scrubber stands after a drain that leaves the bank EMPTY, log 38.) -/
def Obligations.RefillServesOneLink : Prop :=
  -- what has passed on the lines is taken first
  (∀ (s : State) (passed : List (Nat × List Byte)), s.inReset = false →
    ∃ u : State,
      (∀ k : LinkId,
        let l := s.link k
        let taken := (passed.getD k.val (0, [])).1
        let arrived := (passed.getD k.val (0, [])).2
        let room := 256 - ((l.rxFifo.map fun f => f.body.length + 5).sum + l.rxFrame.length)
        u.link k = { l with
          txFifo := (u.link k).txFifo, rxFrame := (u.link k).rxFrame, rxDropped := (u.link k).rxDropped } ∧
        ((∀ kind, l.tx ≠ .carousel kind) ∨ l.txFifo = [] → (u.link k).txFifo = l.txFifo) ∧
        (∀ kind f rest, l.tx = .carousel kind → l.txFifo = f :: rest →
          (u.link k).txFifo = { f with bytes := f.bytes.drop taken } :: rest) ∧
        (l.state = .enabled →
          (u.link k).rxFrame = l.rxFrame ++ arrived.take room ∧
            ((u.link k).rxDropped = true ↔ l.rxDropped = true ∨ room < arrived.length)) ∧
        (l.state ≠ .enabled → (u.link k).rxFrame = l.rxFrame ∧ (u.link k).rxDropped = l.rxDropped)) ∧
      u = { s with links := u.links } ∧ exec (.refillService passed) s = exec (.refillService []) u) ∧
  -- the service
  (∀ s : State, s.inReset = false →
    let needs (k : LinkId) : Prop :=
      (s.link k).state = .enabled ∧ (s.link k).phase = .inCycle ∧ (s.link k).txFill ≤ (s.link k).threshold ∧
        ((s.link k).ctx.wip ≠ none ∨ (s.link k).ctx.ending ≠ none ∨ (s.link k).ctx.todo ≠ [])
    let place (k : LinkId) : Nat := (k.val + 7 - s.carousel.pointer.val) % 8
    ((∀ k, ¬needs k) → exec (.refillService []) s = .next s) ∧
    ∀ k, needs k → (∀ j, needs j → place k ≤ place j) →
      let x := (s.link k).ctx.content.map s.bank
      let l := (s.link k).beginFrame x
      (∃ w, l.ctx.wip = some w) ∧
      (s.upsets = [] → ∀ w, l.ctx.wip = some w →
        (w.pieces.getLast? = some .crc ∨ ∃ c, w.pieces.getLast? = some (.plain [c])) →
        let room := if 0 < l.discard then l.discard else 1024 - l.txFill
        let whole : Bool := (w.rest x).length ≤ room
        let out := (w.rest x).take room
        let aborted := w.aborted || w.unreadable
        let stored : Link :=
          if 0 < l.discard then { l with discard := l.discard - out.length }
          else
            { l with
              txFifo :=
                if w.written = 0 then l.txFifo ++ [⟨w.kind, out, whole⟩]
                else
                  match l.txFifo.getLast? with
                  | some f => l.txFifo.dropLast ++ [{ f with bytes := f.bytes ++ out, whole := whole }]
                  | none => [⟨w.kind, out, whole⟩] }
        let lost := l.ctx.aborted + (if w.unreadable && !w.aborted then 1 else 0)
        ∃ (left : List Piece) (crc : Half),
          (whole = false → frameRest x crc w.unreadable left = (w.rest x).drop room) ∧
          let ctx : Context :=
            if whole then
              { l.ctx with
                wip := none
                frameIndex := l.ctx.frameIndex + 1
                sent := l.ctx.sent + (if aborted || decide (w.kind = .cycleEnd) then 0 else 1)
                aborted := lost }
            else
              { l.ctx with
                wip := some { w with pieces := left, crc := crc, written := w.written + out.length, aborted := aborted }
                aborted := lost }
          let u : State :=
            { s.setLink k { stored with ctx := ctx } with carousel := { s.carousel with pointer := k } }
          exec (.refillService []) s =
            .next (tryBegin k (if whole && decide (w.kind ≠ .cycleEnd) then frameBoundary k u else u))) ∧
      -- a word that cannot be read (R105)
      ∀ w i ps b u r o, (s.link k).ctx.wip = some w → w.pieces = .item i :: ps → (s.link k).ctx.content = some b →
        (s.link k).discard = 0 → (s.link k).txFill < 1024 → s.upsets = [u] → u.loc = .bank b r o →
        fatal u.kind = true → inItems b [i] u.loc = true →
        ((s.recOf b).state = .inForce ∨ (s.recOf b).state = .pending ∨ (s.recOf b).state = .stale) →
          ∃ t, exec (.refillService []) s = .next t ∧
            (t.recOf b).marks.get r = some (((s.recOf b).marks.get r).getD o) ∧ t.events.has .eccUncorrectable = true ∧
            (t.link k).ctx.aborted = (s.link k).ctx.aborted + (if w.aborted then 0 else 1) ∧
            ∀ w', (t.link k).ctx.wip = some w' → w'.unreadable = true ∧ w'.aborted = true) ∧
  -- the boundary after a frame (R101, R102)
  (∀ (u : State) (k : LinkId),
    let l := u.link k
    let composed : Link := { l with ctx := { l.ctx with content := none, ending := some (endBody l.ctx false) } }
    (l.ctx.content = none →
      frameBoundary k u = if l.ctx.todo = [] then u.setLink k composed else u) ∧
    ∀ b, l.ctx.content = some b →
      let sendable : Prop :=
        (u.recOf b).state = .pending ∨ ((u.recOf b).state = .inForce ∧ (u.recOf b).marks = ⟨none, none, none⟩)
      ∃ released, ReaderReleased u b released ∧
        (¬sendable → frameBoundary k u = released.setLink k l.cutOff) ∧
        (sendable → frameBoundary k u = if l.ctx.todo = [] then released.setLink k composed else u)) ∧
  -- the frames (R91, R93 to R97, R116)
  ∀ (l : Link) (x : Option Bank) (w : Wip), l.ctx.wip = none → (l.beginFrame x).ctx.wip = some w →
    w.written = 0 ∧ w.unreadable = false ∧ w.aborted = false ∧ w.pieces.getLast? = some .crc ∧
    (∀ body, l.ctx.ending = some body → w.kind = .cycleEnd ∧ w.rest x = linkFrame 0x16#8 body) ∧
    (l.ctx.ending = none → ∀ spec rest, l.ctx.todo = spec :: rest →
      (l.beginFrame x).ctx.todo = rest ∧ w.kind = spec.kind ∧
      (spec = .head → w.rest x = List.replicate l.settings.leadIn 0xAA#8 ++ linkFrame 0x10#8 l.ctx.head) ∧
      ∀ y, x = some y →
        let t := y.tariff
        let entry (i : Nat) : DirEntry := y.ranges.directory.getD i ⟨0, 0⟩
        let zz := t.zones * t.zones
        let values := zz + t.classCount * zz
        let fare (p : Nat) : List Byte :=
          ((if p < zz then t.base[p]? else t.prices[p - zz]?).map be16).getD []
        (∀ h, spec = .directory h →
          w.rest x =
            linkFrame 0x11#8
              (n8 h :: (List.range (min 128 (256 - 128 * h))).flatMap fun j =>
                let i := 128 * h + j
                n16 (entry i).count ++ be32 (y.record.shelfCrcs.getD i 0#32) ++
                  [flagByte (y.record.shelfChanged.getD i false)])) ∧
        (spec = .classes →
          w.rest x =
            linkFrame 0x12#8
              (be32 y.record.tariffVersion ++ [n8 t.zones, n8 t.classCount] ++ n16 t.productCount ++
                (List.range t.classCount).flatMap fun i => (t.classes[i]?.map encodeClass).getD [])) ∧
        (∀ i, spec = .matrix i →
          w.rest x =
            linkFrame 0x13#8
              (n8 i :: n8 ((values + 509) / 510) ::
                (List.range (min 510 (values - 510 * i))).flatMap fun j => fare (510 * i + j))) ∧
        (∀ i, spec = .products i →
          w.rest x =
            linkFrame 0x14#8
              (n8 i :: n8 (max 1 ((t.productCount + 21) / 22)) ::
                (List.range (min 22 (t.productCount - 22 * i))).flatMap fun j =>
                  (t.products[22 * i + j]?.map encodeProduct).getD [])) ∧
        ∀ shelf i, spec = .shelf shelf i →
          w.rest x =
            linkFrame 0x15#8
              (n8 shelf :: n8 i :: n8 (((entry shelf).count + 67) / 68) ::
                (List.range (min 68 ((entry shelf).count - 68 * i))).flatMap fun j =>
                  (y.ranges.records[(entry shelf).first + (68 * i + j)]?.map encodeRecord).getD []))

/-! ### Validator links (chapter 6) -/

/-- R113, R114, R88, R91: LINK_CONFIG and LINK_ENABLE: their refusals, the two values brought into range with the rate that
results, and what an enable sets. -/
def Obligations.LinkConfigAndEnableSetTheLink : Prop :=
  ∀ (s : State) (tag : Half) (link divider : Byte) (threshold : Half),
    s.portReady →
      let config := Instr.linkConfig tag link divider threshold
      let enable := Instr.linkEnable tag link
      (7 < link.toNat →
        exec config s = .next (s.answered config tag .badArg []) ∧ exec enable s = .next (s.answered enable tag .badArg [])) ∧
      ∀ k : LinkId, link = BitVec.ofNat 8 k.val →
        let l := s.link k
        let d := max 1 (min 8 divider.toNat)
        let th := max 64 (min 960 threshold.toNat)
        (l.state ≠ .disabled → exec config s = .next (s.answered config tag .badState [])) ∧
        (l.state = .disabled →
          exec config s =
            .next
              ((s.setLink k { l with divider := d, threshold := th }).answered config tag .ok
                ([link, BitVec.ofNat 8 d] ++ be16 (BitVec.ofNat 16 th) ++ be32 (BitVec.ofNat 32 (16000000 / 2 ^ d))))) ∧
        (l.state = .testing → exec enable s = .next (s.answered enable tag .badState [])) ∧
        (l.state = .enabled → exec enable s = .next (s.answered enable tag .ok [])) ∧
        (l.state = .disabled →
          exec enable s =
            .next
              ((s.setLink k
                { l with
                  state := .enabled
                  settings := s.carousel.settings
                  interleave := min l.interleave s.carousel.settings.interleave
                  refresh := min l.refresh (s.carousel.settings.refresh - 1)
                  tx := .gap
                  phase := if s.carousel.state = .running then .gap else .off }).answered enable tag .ok []))

/-- R115, R127, R128, R134, R90, R146, R158: LINK_DISABLE, and the link reset it performs: the link keeps its configuration,
settings and last test result and is else at its reset values, its queries leave the Lookup Engine, its lookup in service
is marked, its entry is reset with its excluded field kept and LOADING while a bank is PENDING, the reader of its cycle is
released, which completes the drain of a DRAINING bank when it was the last (R4, R7), a STOPPING carousel with no other link
in a cycle stops, and readiness is evaluated. (Where the scrubber stands after a drain that leaves the bank EMPTY is the
model's, log 38.) -/
def Obligations.LinkDisableResetsTheLink : Prop :=
  ∀ (s : State) (tag : Half) (link : Byte),
    s.portReady →
      let i := Instr.linkDisable tag link
      (7 < link.toNat → exec i s = .next (s.answered i tag .badArg [])) ∧
      ∀ k : LinkId, link = BitVec.ofNat 8 k.val →
        let l := s.link k
        let cleared : Link :=
          { Link.reset with
            divider := l.divider
            threshold := l.threshold
            settings := l.settings
            lastTest := l.lastTest }
        let entry : Entry :=
          { Entry.reset with
            excluded := (s.entry k).excluded
            pending :=
              if (s.recOf .bankA).state = .pending ∨ (s.recOf .bankB).state = .pending then .loading else .none }
        let stops : Prop := s.carousel.state = .stopping ∧ ∀ j, j ≠ k → (s.link j).phase ≠ .inCycle
        let u (released : State) : State :=
          { (released.setLink k cleared).setEntry k entry with
            lookups :=
              { s.lookups with
                queues := s.lookups.queues.set k []
                service :=
                  s.lookups.service.map fun v => if v.requester = .link k then { v with discard := true } else v }
            carousel := { s.carousel with state := if stops then .stopped else s.carousel.state }
            events :=
              { released.events with flags := released.events.flags ||| (if stops then 0x40000#24 else 0#24) } }
        (l.state = .testing → exec i s = .next (s.answered i tag .badState [])) ∧
        (l.state ≠ .testing →
          ∃ released t,
            (l.ctx.content = none → released = s) ∧ (∀ b, l.ctx.content = some b → ReaderReleased s b released) ∧
              exec i s = .next (t.answered i tag .ok []) ∧ ReadinessFollows (u released) t)

/-- R117, R125, R126: at a transmit boundary the BUSY notice goes first, then the oldest answer, then the next carousel
frame whose first byte is in the FIFO with nothing left to discard, and without any of them the link idles. A link that
idles begins at once, in the same order, what comes into existence (`tryBegin`); any other link does not. Off the end of a gap
the event changes nothing (log 3). -/
def Obligations.TransmitBoundaryTakesTheFirst : Prop :=
  (∀ (s : State) (k : LinkId),
    s.inReset = false →
      let l := s.link k
      (¬(l.state = .enabled ∧ l.tx = .gap) → exec (.transmitBoundary k) s = .next s) ∧
      (l.state = .enabled → l.tx = .gap →
        ∃ x, Begins l x ∧ exec (.transmitBoundary k) s = .next (s.setLink k x))) ∧
  ∀ (u : State) (k : LinkId),
    let l := u.link k
    (¬(l.state = .enabled ∧ l.tx = .idle) → tryBegin k u = u) ∧
      (l.state = .enabled → l.tx = .idle → ∃ x, Begins l x ∧ tryBegin k u = u.setLink k x)

/-- R120, R124, R125, R90, R91: the last CRC bit of a frame has been sent: it is counted under its own counter, an answer
frees its slot, a carousel frame leaves the FIFO, and a CYCLE_END ends the link's cycle, which stops a STOPPING carousel
that it leaves without a link in a cycle. With no frame on the line the event changes nothing (log 3). -/
def Obligations.FrameTransmittedCountsTheFrame : Prop :=
  ∀ (s : State) (k : LinkId),
    s.inReset = false →
      let l := s.link k
      let up (n : Nat) : Nat := min 4294967295 (n + 1)
      (l.state ≠ .enabled ∨ l.tx = .gap ∨ l.tx = .idle → exec (.frameTransmitted k) s = .next s) ∧
      (∀ kind, l.tx = .carousel kind → (∀ f rest, l.txFifo = f :: rest → f.whole = false) →
        exec (.frameTransmitted k) s = .next s) ∧
      (l.state = .enabled →
        (∀ bytes, l.tx = .notice bytes →
          exec (.frameTransmitted k) s =
            .next
              (s.setLink k { l with tx := .gap, counters := { l.counters with noticesSent := up l.counters.noticesSent } })) ∧
        (∀ bytes, l.tx = .answer bytes →
          exec (.frameTransmitted k) s =
            .next
              (s.setLink k
                { l with
                  tx := .gap
                  slots := l.slots - 1
                  counters := { l.counters with answersSent := up l.counters.answersSent } })) ∧
        (∀ kind f rest, l.tx = .carousel kind → l.txFifo = f :: rest → f.whole = true →
          let sent : Link :=
            { l with
              txFifo := rest
              tx := .gap
              counters := { l.counters with framesSent := up l.counters.framesSent } }
          (f.kind ≠ .cycleEnd → exec (.frameTransmitted k) s = .next (s.setLink k sent)) ∧
          (f.kind = .cycleEnd →
            let gone := s.setLink k { sent with phase := if s.carousel.state = .running then .gap else .off }
            exec (.frameTransmitted k) s =
              .next
                (if s.carousel.state = .stopping ∧ ∀ j, j ≠ k → (s.link j).phase ≠ .inCycle then
                  { gone with
                    carousel := { s.carousel with state := .stopped }
                    events := { s.events with flags := s.events.flags ||| 0x40000#24 } }
                else gone))))

/-- R119, R109, R97: an underrun of a carousel frame that has been begun and not written whole: the frame gap follows,
the frame's place in the FIFO is given up, the bytes not yet written are to be discarded, the abort is counted by the
link and, unless the frame is a CYCLE_END or counted already, once by the context, and LINK_FAULT is raised for the
link. (That every byte in the FIFO has gone, and what follows an underrun of a CYCLE_END, is the model's reading, logs
21 and 22; that an UNDERRUN with no such frame on the line changes nothing, log 3.) -/
def Obligations.UnderrunAbortsTheFrame : Prop :=
  ∀ (s : State) (k : LinkId),
    s.inReset = false →
      let l := s.link k
      (l.state ≠ .enabled ∨ l.txFifo = [] ∨ (∀ kind, l.tx ≠ .carousel kind) ∨
          (∃ f rest, l.txFifo = f :: rest ∧ f.whole = true) →
        exec (.underrun k) s = .next s) ∧
      (∀ kind f rest, l.state = .enabled → l.tx = .carousel kind → l.txFifo = f :: rest → f.whole = false →
        ∃ t, exec (.underrun k) s = .next t ∧
          t.link k =
            { l with
              tx := .gap
              txFifo := rest
              counters := { l.counters with framesAborted := min 4294967295 (l.counters.framesAborted + 1) }
              discard := l.ctx.unwritten (l.ctx.content.map s.bank)
              ctx := (t.link k).ctx } ∧
          (l.ctx.wip = none → (t.link k).ctx = l.ctx) ∧
          (∀ w, l.ctx.wip = some w →
            (t.link k).ctx =
              { l.ctx with
                aborted := if w.kind = .cycleEnd ∨ w.aborted = true then l.ctx.aborted else l.ctx.aborted + 1
                wip := some { w with aborted := true } }) ∧
          t.events =
            { s.events with
              flags := s.events.flags ||| 0x2000#24
              sets := { s.events.sets with fault := s.events.sets.fault ||| (1#8 <<< k.val) } } ∧
          (∀ j, j ≠ k → t.link j = s.link j) ∧ t = { s with links := t.links, events := t.events })

/-- R121 to R124: a received frame, the bytes of it that the FIFO already holds and those that end it, is judged FRAMING,
LENGTH, CRC, KIND in that order and counted under the first cause that fails; a good report joins the frames that wait in
the receive FIFO, and so does a good query behind a waiting report; a good query, when no report waits, takes one of four slots
and joins the link's queue, whereupon a take is attempted (LookupCompleteAnswersAndTakesTheNext says what it does), or sets the
BUSY notice, which an idle transmitter begins at once (TransmitBoundaryTakesTheFirst). The queries at the head of the FIFO are
judged so, one after the other, when a report before them has been taken (`handOn`). A frame judged is no longer being received.
On a link not ENABLED, or for an envelope begun before the enable, nothing changes (log 23). -/
def Obligations.FrameReceivedIsJudged : Prop :=
  let up (n : Nat) : Nat := min 4294967295 (n + 1)
  -- what becomes of a query handed on
  let accepted (k : LinkId) (q : Query) (u : State) : State :=
    { u.setLink k { u.link k with slots := (u.link k).slots + 1 } with
      lookups := { u.lookups with queues := u.lookups.queues.set k (u.lookups.queues.get k ++ [q]) } }
  let refused (k : LinkId) (qk : QueryKind) (q : Query) (u : State) : State :=
    u.setLink k
      { u.link k with
        notice := some (q.tag, qk)
        counters := { (u.link k).counters with busyOverflows := up (u.link k).counters.busyOverflows } }
  (∀ (s : State) (k : LinkId) (bytes : List Byte) (extra : Nat) (dropped : Bool),
    s.inReset = false →
      let l := s.link k
      let judged : Link := { l with rxFrame := [], rxDropped := false }
      let counted (c : Counters) : State := s.setLink k { judged with counters := c }
      let frame := l.rxFrame ++ bytes
      let declared := (frame.getD 1 0#8).toNat * 256 + (frame.getD 2 0#8).toNat
      let overflow : Prop :=
        dropped = true ∨ l.rxDropped = true ∨ 256 < (l.rxFifo.map fun f => f.body.length + 5).sum + frame.length
      let wrongLength : Prop := overflow ∨ 64 < frame.length ∨ frame.length < 5 ∨ declared + 5 ≠ frame.length
      let body := (frame.drop 3).take declared
      let kind := frame.getD 0 0#8
      let wrongCrc : Prop := be16 (crc16 (frame.take (declared + 3))) ≠ frame.drop (declared + 3)
      let wrongKind : Prop :=
        (kind.toNat, body.length) ∉ [(0x40, 19), (0x41, 9), (0x42, 5), (0x43, 4)]
      (l.state ≠ .enabled → ∀ old, exec (.frameReceived k bytes extra dropped old) s = .next s) ∧
      (exec (.frameReceived k bytes extra dropped true) s = .next s) ∧
      (l.state = .enabled →
        (extra ≠ 0 →
          exec (.frameReceived k bytes extra dropped false) s =
            .next (counted { l.counters with discFraming := up l.counters.discFraming })) ∧
        (extra = 0 → wrongLength →
          exec (.frameReceived k bytes extra dropped false) s =
            .next (counted { l.counters with discLength := up l.counters.discLength })) ∧
        (extra = 0 → ¬wrongLength → wrongCrc →
          exec (.frameReceived k bytes extra dropped false) s =
            .next (counted { l.counters with discCrc := up l.counters.discCrc })) ∧
        (extra = 0 → ¬wrongLength → ¬wrongCrc → wrongKind →
          exec (.frameReceived k bytes extra dropped false) s =
            .next (counted { l.counters with discKind := up l.counters.discKind })) ∧
        (extra = 0 → ¬wrongLength → ¬wrongCrc → kind = 0x40#8 → body.length = 19 →
          (∀ f rest, l.rxFifo = f :: rest → f.kind = .report) →
          exec (.frameReceived k bytes extra dropped false) s =
            .next
              (s.setLink k
                { judged with
                  rxFifo := l.rxFifo ++ [⟨.report, body⟩]
                  counters := { l.counters with framesGood := up l.counters.framesGood } })) ∧
        (∀ qk : QueryKind, extra = 0 → ¬wrongLength → ¬wrongCrc → ¬wrongKind → kind = qk.code →
          let good : Link := { judged with counters := { l.counters with framesGood := up l.counters.framesGood } }
          (∀ f rest, l.rxFifo = f :: rest → f.kind = .report →
            exec (.frameReceived k bytes extra dropped false) s =
              .next (s.setLink k { good with rxFifo := l.rxFifo ++ [⟨.query qk, body⟩] })) ∧
          (l.rxFifo = [] →
            ∃ q, queryOf kind (half (body.getD 0 0#8) (body.getD 1 0#8)) (body.drop 2) = some q ∧
              (l.slots < 4 →
                exec (.frameReceived k bytes extra dropped false) s =
                  .next (attemptTake (accepted k q (s.setLink k good)))) ∧
              (4 ≤ l.slots →
                exec (.frameReceived k bytes extra dropped false) s =
                  .next (tryBegin k (refused k qk q (s.setLink k good)))))))) ∧
  -- the queries that wait at the head of the receive FIFO are judged
  ∀ (u : State) (k : LinkId),
    ((∀ f rest, (u.link k).rxFifo = f :: rest → f.kind = .report) → handOn k u = u) ∧
    ∀ (qk : QueryKind) (q : Query) (body : List Byte) (rest : List RxFrame),
      (u.link k).rxFifo = ⟨.query qk, body⟩ :: rest →
      queryOf qk.code (half (body.getD 0 0#8) (body.getD 1 0#8)) (body.drop 2) = some q →
      let freed := u.setLink k { u.link k with rxFifo := rest }
      ((u.link k).slots < 4 → handOn k u = handOn k (attemptTake (accepted k q freed))) ∧
      (4 ≤ (u.link k).slots → handOn k u = handOn k (tryBegin k (refused k qk q freed)))

/-- R129, R130, R131: LINK_TEST and its run: the refusals, the start, a returned frame equal to the frame sent (the
next frame waits for its gap, the last one ends the run PASS), one that differs (FAIL with the first differing
position), no echo (NO_ECHO). In EXTERNAL the line carries each test frame; in INTERNAL it carries nothing, and what returns
is the frame sent. A run's end takes the link to DISABLED and raises LINK_TEST_DONE for it. (That frame 0 is sent with
LINK_TEST, that INTERNAL cannot fail, and the index where several cases of FAIL hold, are the model's reading, logs 24 and
33; that the three events change nothing on a link that is not TESTING, log 3.) -/
def Obligations.LoopbackRunReportsItsResult : Prop :=
  ∀ (s : State) (tag : Half) (link mode count : Byte) (k : LinkId),
    let l := s.link k
    let i := Instr.linkTest tag link mode count
    let frame (n : Nat) : List Byte :=
      linkFrame 0x30#8 ((List.range 32).map fun j => BitVec.ofNat 8 (47 * n + 29 * j + 91))
    let line (m : TestMode) (n : Nat) : TxLine := if m = .internal then .gap else .test (frame n)
    let ended (r : LastTest) : State :=
      { s.setLink k { l with state := .disabled, tx := .gap, run := none, lastTest := r } with
        events :=
          { s.events with
            flags := s.events.flags ||| 0x4000#24
            sets := { s.events.sets with testDone := s.events.sets.testDone ||| (1#8 <<< k.val) } } }
    (s.portReady →
      (7 < link.toNat ∨ 1 < mode.toNat ∨ count = 0#8 → exec i s = .next (s.answered i tag .badArg [])) ∧
      (link = BitVec.ofNat 8 k.val → mode.toNat ≤ 1 → count ≠ 0#8 →
        let m : TestMode := if mode = 0#8 then .internal else .external
        (l.state ≠ .disabled → exec i s = .next (s.answered i tag .badState [])) ∧
        (l.state = .disabled →
          exec i s =
            .next
              ((s.setLink k
                { l with
                  state := .testing
                  tx := line m 0
                  run := some ⟨m, count.toNat, 0, true, s.carousel.settings.frameGap⟩ }).answered i tag .accepted [])))) ∧
    (s.inReset = false → l.state ≠ .testing →
      exec (.testFrameStart k) s = .next s ∧ exec (.testNoEcho k) s = .next s ∧
        ∀ bytes extra, exec (.testFrameReturned k bytes extra) s = .next s) ∧
    ∀ r, s.inReset = false → l.state = .testing → l.run = some r →
      exec (.testFrameStart k) s =
        .next (s.setLink k { l with tx := line r.mode r.frame, run := some { r with sent := true } }) ∧
      (r.sent = true →
        (r.mode = .internal → exec (.testNoEcho k) s = .next s) ∧
        (r.mode = .external → exec (.testNoEcho k) s = .next (ended ⟨.noEcho, r.frame, 0⟩)) ∧
        ∀ (bytes : List Byte) (extra : Nat),
          let equal : Prop := r.mode = .internal ∨ (bytes = frame r.frame ∧ extra = 0)
          (equal → r.frame + 1 = r.count →
            exec (.testFrameReturned k bytes extra) s = .next (ended ⟨.pass, r.count, 0⟩)) ∧
          (equal → r.frame + 1 ≠ r.count →
            exec (.testFrameReturned k bytes extra) s =
              .next (s.setLink k { l with tx := .gap, run := some { r with frame := r.frame + 1, sent := false } })) ∧
          ∀ n, ¬equal → bytes.take n = (frame r.frame).take n →
            bytes[n]? ≠ (frame r.frame)[n]? ∨ (extra ≠ 0 ∧ bytes = frame r.frame ∧ n = 37) →
            exec (.testFrameReturned k bytes extra) s = .next (ended ⟨.fail, r.frame, n⟩))

/-! ### The Validator Table (chapter 7) -/

/-- R142, R144 to R147, R158: VALIDATOR_CONFIG brings its two values into range, answers them, and applies the silence limit
at once, entry by entry in ascending link order, each entry that falls SILENT being followed by a readiness evaluation;
VALIDATOR_EXCLUDE and VALIDATOR_INCLUDE set their fields and are followed by one, and refuse a link above 7. (The order in
which entries fall SILENT is the model's, log 34.) -/
def Obligations.ValidatorCommandsSetTheTable : Prop :=
  ∀ (s : State) (tag : Half),
    s.portReady →
      (∀ (silence : Half) (mismatch : Byte),
        let i := Instr.validatorConfig tag silence mismatch
        let a := max 100 silence.toNat
        let m := max 1 (min 15 mismatch.toNat)
        let falls (k : LinkId) : Prop := (s.entry k).presence = .active ∧ a ≤ (s.entry k).interval
        let set : State := { s with table := { s.table with silenceLimit := a, mismatchLimit := m } }
        let fallen (k : LinkId) (u : State) : State :=
          { u.setEntry k { u.entry k with presence := .silent } with
            events :=
              { u.events with
                flags := u.events.flags ||| 0x800#24
                sets := { u.events.sets with silent := u.events.sets.silent ||| (1#8 <<< k.val) } } }
        ∃ after : Nat → State,
          after 0 = set ∧ exec i s = .next ((after 8).answered i tag .ok (n16 a ++ [n8 m])) ∧
            ∀ k : LinkId,
              (falls k → ReadinessFollows (fallen k (after k.val)) (after (k.val + 1))) ∧
                (¬falls k → after (k.val + 1) = after k.val)) ∧
      (∀ link : Byte, 7 < link.toNat →
        exec (.validatorExclude tag link) s = .next (s.answered (.validatorExclude tag link) tag .badArg []) ∧
          exec (.validatorInclude tag link) s = .next (s.answered (.validatorInclude tag link) tag .badArg [])) ∧
      ∀ (k : LinkId) (i : Instr) (e : Entry),
        (i = .validatorExclude tag (BitVec.ofNat 8 k.val) ∧ e = { s.entry k with excluded := true }) ∨
            (i = .validatorInclude tag (BitVec.ofNat 8 k.val) ∧
              e = { s.entry k with excluded := false, suspect := false, mismatches := 0 }) →
          ∃ t, exec i s = .next (t.answered i tag .ok []) ∧ ReadinessFollows (s.setEntry k e) t

/-- R135 to R140, R142, R147, R158: the table takes the report at the head of the receive FIFO. A changed validator ID gives
a fresh entry; the report is recorded; the two holdings and the mismatch are judged from it; readiness is evaluated; and the
queries that waited behind the report are judged (`handOn`, of which FrameReceivedIsJudged says what it does). An
ACTIVE entry of an ENABLED link whose counter stands at the silence limit becomes SILENT, and readiness is evaluated.
Without a report at the head, or such an entry, the events change nothing (logs 3 and 4). -/
def Obligations.ReportsAndSilenceUpdateTheEntry : Prop :=
  ∀ (s : State) (k : LinkId),
    s.inReset = false →
      let e := s.entry k
      let l := s.link k
      ((∀ f rest, l.rxFifo = f :: rest → f.kind ≠ .report) → exec (.report k) s = .next s) ∧
      (∀ (id ucrc ncrc : Word32) (useq nseq lacking : Half) (complete : Byte) (rest : List RxFrame) (changed mismatch : Bool),
        l.rxFifo = ⟨.report, be32 id ++ be16 useq ++ be32 ucrc ++ be16 nseq ++ [complete] ++ be32 ncrc ++ be16 lacking⟩ :: rest →
        (changed = true ↔ ∃ old, e.validatorId = some old ∧ old ≠ id) →
        (mismatch = true ↔
          (∃ f, s.inForce = some f ∧ useq = (s.recOf f).seq ∧ ucrc ≠ (s.recOf f).imageCrc) ∨
            ∃ p, s.pendingBank = some p ∧ nseq = (s.recOf p).seq ∧ complete ≠ 0#8 ∧ ncrc ≠ (s.recOf p).imageCrc) →
          let base : Entry := if changed then { Entry.reset with excluded := e.excluded } else e
          let count := if mismatch then min 15 (base.mismatches + 1) else base.mismatches
          ∃ (holding : Holding) (pending : PendingHolding),
            (holding = .holds ∨ holding = .lacks) ∧
            (holding = .holds ↔ ∃ f, s.inForce = some f ∧ useq = (s.recOf f).seq ∧ ucrc = (s.recOf f).imageCrc) ∧
            (pending = .none ↔ s.pendingBank = none) ∧
            (pending = .ready ↔
              ∃ p, s.pendingBank = some p ∧ nseq = (s.recOf p).seq ∧ complete ≠ 0#8 ∧ ncrc = (s.recOf p).imageCrc) ∧
            let u : State :=
              { (s.setLink k { l with rxFifo := rest }).setEntry k
                  { validatorId := some id
                    presence := .active
                    excluded := e.excluded
                    suspect := base.suspect || (mismatch && decide (s.table.mismatchLimit ≤ count))
                    holding := holding
                    pending := pending
                    lastReport := ⟨useq, ucrc, nseq, decide (complete ≠ 0#8), ncrc, min 256 lacking.toNat⟩
                    interval := 0
                    lastInterval := base.interval
                    mismatches := count
                    reports := min 65535 (base.reports + 1)
                    lookups := base.lookups } with
                events :=
                  { s.events with
                    flags :=
                      s.events.flags ||| (if changed then 0x400#24 else 0#24) ||| (if mismatch then 0x1000#24 else 0#24)
                    sets :=
                      { s.events.sets with
                        changed := s.events.sets.changed ||| (if changed then 1#8 <<< k.val else 0#8)
                        mismatch := s.events.sets.mismatch ||| (if mismatch then 1#8 <<< k.val else 0#8) } } }
            ∃ t, exec (.report k) s = .next (handOn k t) ∧ ReadinessFollows u t) ∧
      let due : Prop := l.state = .enabled ∧ e.presence = .active ∧ s.table.silenceLimit ≤ e.interval
      (¬due → exec (.validatorSilent k) s = .next s) ∧
      (due →
        ∃ t, exec (.validatorSilent k) s = .next t ∧
          ReadinessFollows
            { s.setEntry k { e with presence := .silent } with
              events :=
                { s.events with
                  flags := s.events.flags ||| 0x800#24
                  sets := { s.events.sets with silent := s.events.sets.silent ||| (1#8 <<< k.val) } } } t)

/-! ### Cutover Control (chapter 8) -/

/-- R152, R153, R159: TIME_SET refuses a minute above 1439 and otherwise sets the clock VALID at that minute; the minute
event advances a VALID clock whose milliseconds have run, and which holds at day 65535, minute 1439 (after a TIME_SET taken
first they have not run, log 4). Where the AT trigger is not due afterwards nothing else happens; where it is, INHIBIT
decides it (R160). -/
def Obligations.ClockEventsAndTheAtTrigger : Prop :=
  ∀ (s : State) (tag day minute : Half),
    let due (c : Clock) : Prop :=
      s.cutover.state = .waiting ∧ ∃ d m, s.activation = some (.atTime d m) ∧
        (d < c.day ∨ (d = c.day ∧ m ≤ c.minute))
    let deferred (t : State) : Prop :=
      t.cutover = { s.cutover with state := .deferred, cause := some .atTime, graceTimer := 0 }
    let i := Instr.timeSet tag day minute
    let set : State := { s with clock := ⟨true, day, minute, 0⟩ }
    let next : Clock :=
      if s.clock.minute.toNat < 1439 then ⟨true, s.clock.day, s.clock.minute + 1#16, 0⟩
      else ⟨true, s.clock.day + 1#16, 0#16, 0⟩
    let advanced : State := { s with clock := next }
    let holds : Prop :=
      s.clock.valid = false ∨ (s.clock.day = 65535#16 ∧ s.clock.minute = 1439#16) ∨ s.clock.ms < 59999
    (s.portReady →
      (1439 < minute.toNat → exec i s = .next (s.answered i tag .badArg [])) ∧
      (minute.toNat ≤ 1439 → ¬due set.clock →
        exec i s = .next (set.answered i tag .ok (be16 day ++ be16 minute))) ∧
      (minute.toNat ≤ 1439 → due set.clock → s.cutover.inhibit = true → s.cutover.grace ≠ 0 →
        ∃ t, exec i s = .next t ∧ deferred t ∧
          t = { set.answered i tag .ok (be16 day ++ be16 minute) with cutover := t.cutover }) ∧
      (minute.toNat ≤ 1439 → due set.clock → rolesLaw s → (s.cutover.inhibit = true → s.cutover.grace = 0) →
        ∀ p, (s.recOf p).state = .pending →
          ∃ t, exec i s = .next t ∧
            CutOver set p (some .atTime) (if s.cutover.inhibit = true then .grace else .immediate) t ∧
            t.port = s.port.answered i tag .ok (be16 day ++ be16 minute) ∧
            t.lookups = { s.lookups with slot := s.lookups.slot.afterAnswer })) ∧
    (s.inReset = false →
      (holds → exec .minuteEvent s = .next s) ∧
      (¬holds → ¬due next → exec .minuteEvent s = .next advanced) ∧
      (¬holds → due next → s.cutover.inhibit = true → s.cutover.grace ≠ 0 →
        ∃ t, exec .minuteEvent s = .next t ∧ deferred t ∧ t = { advanced with cutover := t.cutover }) ∧
      (¬holds → due next → rolesLaw s → (s.cutover.inhibit = true → s.cutover.grace = 0) →
        ∀ p, (s.recOf p).state = .pending →
          ∃ t, exec .minuteEvent s = .next t ∧
            CutOver advanced p (some .atTime) (if s.cutover.inhibit = true then .grace else .immediate) t ∧
            t.port = s.port ∧ t.lookups = s.lookups))

/-- R155, R158, R160, R161, R162: the wait expires under ON_READY with its event and INHIBIT decides the WAIT trigger;
the grace runs out and an INHIBIT release ends a deferral with the cause recorded; CUTOVER_CONFIG brings its values
into range, answers them, and acts at once when a running timer already stands at its limit. A timed event whose timer does
not stand at its limit changes nothing, nor does one whose condition fails (logs 3 and 4). (What the INHIBIT events do to
the pin and the last sample is the model's, log 26.) -/
def Obligations.TimersAndInhibitDecideTheCutover : Prop :=
  ∀ (s : State) (p : BankId),
    s.inReset = false → rolesLaw s → cutoverLaw s → (s.cutover.state ≠ .idle → (s.recOf p).state = .pending) →
      let onReady : Prop := s.cutover.state = .waiting ∧ s.activation = some .onReady
      let expired : Prop := onReady ∧ s.cutover.waitLimit * 60000 ≤ s.cutover.waitTimer
      let runOut : Prop := s.cutover.state = .deferred ∧ s.cutover.grace * 1000 ≤ s.cutover.graceTimer
      let flagged : State := { s with events := { s.events with flags := s.events.flags ||| 0x100#24 } }
      let level (v : Bool) : State := { s with cutover := { s.cutover with inhibit := v, lastSample := v, pin := v } }
      (¬expired → exec .waitExpired s = .next s) ∧
      (expired →
        (s.cutover.inhibit = true ∧ s.cutover.grace ≠ 0 →
          exec .waitExpired s =
            .next
              { flagged with cutover := { s.cutover with state := .deferred, cause := some .wait, graceTimer := 0 } }) ∧
        ((s.cutover.inhibit = true → s.cutover.grace = 0) →
          ∃ t, exec .waitExpired s = .next t ∧
            CutOver flagged p (some .wait) (if s.cutover.inhibit = true then .grace else .immediate) t ∧
            t.port = s.port ∧ t.lookups = s.lookups)) ∧
      (¬runOut → exec .graceRunOut s = .next s) ∧
      (runOut →
        ∃ t, exec .graceRunOut s = .next t ∧ CutOver s p s.cutover.cause .grace t ∧ t.port = s.port ∧
          t.lookups = s.lookups) ∧
      exec .inhibitAssertion s = .next (level true) ∧
      (s.cutover.state ≠ .deferred → exec .inhibitDeassertion s = .next (level false)) ∧
      (s.cutover.state = .deferred →
        ∃ t, exec .inhibitDeassertion s = .next t ∧ CutOver (level false) p s.cutover.cause .release t ∧
          t.port = s.port ∧ t.lookups = s.lookups) ∧
      ∀ (tag : Half) (waitLimit : Byte) (grace : Half),
        s.portReady →
          let i := Instr.cutoverConfig tag waitLimit grace
          let w := max 1 (min 240 waitLimit.toNat)
          let g := min 600 grace.toNat
          let set : State := { s with cutover := { s.cutover with waitLimit := w, grace := g } }
          let waitOver : Prop := onReady ∧ w * 60000 ≤ s.cutover.waitTimer
          let graceOver : Prop := s.cutover.state = .deferred ∧ g * 1000 ≤ s.cutover.graceTimer
          let body := n8 w :: n16 g
          let expiredNow : State := { set with events := flagged.events }
          (¬waitOver → ¬graceOver → exec i s = .next (set.answered i tag .ok body)) ∧
          (waitOver → s.cutover.inhibit = true ∧ g ≠ 0 →
            exec i s =
              .next
                (State.answered i tag .ok body
                  { expiredNow with
                    cutover := { set.cutover with state := .deferred, cause := some .wait, graceTimer := 0 } })) ∧
          (waitOver → (s.cutover.inhibit = true → g = 0) →
            ∃ t, exec i s = .next (t.answered i tag .ok body) ∧
              CutOver expiredNow p (some .wait) (if s.cutover.inhibit = true then .grace else .immediate) t ∧
              t.port = s.port ∧ t.lookups = s.lookups) ∧
          (graceOver →
            ∃ t, exec i s = .next (t.answered i tag .ok body) ∧ CutOver set p s.cutover.cause .grace t ∧
              t.port = s.port ∧ t.lookups = s.lookups)

/-- R163: CUTOVER_NOW, by its option and the state of Cutover Control: refused BAD_ARG for another option and NO_IMAGE in
IDLE; FORCE performs the cutover with end FORCE whatever INHIBIT says; PLAIN in WAITING is a trigger that INHIBIT decides;
PLAIN in DEFERRED changes nothing. The answer is OK with the new seq when the cutover is performed, else ACCEPTED. -/
def Obligations.CutoverNowPerformsTheCutover : Prop :=
  ∀ (s : State) (tag : Half) (option : Byte),
    s.portReady → rolesLaw s →
      let i := Instr.cutoverNow tag option
      (1 < option.toNat → exec i s = .next (s.answered i tag .badArg [])) ∧
      (option.toNat ≤ 1 → s.cutover.state = .idle → exec i s = .next (s.answered i tag .noImage [])) ∧
      ∀ p, (s.recOf p).state = .pending → s.cutover.state ≠ .idle →
        let done (cause : Option Cause) (cutEnd : CutEnd) : Prop :=
          ∃ t, exec i s = .next t ∧ CutOver s p cause cutEnd t ∧
            t.port = s.port.answered i tag .ok (be16 (s.recOf p).seq) ∧
            t.lookups = { s.lookups with slot := s.lookups.slot.afterAnswer }
        (option = 1#8 → s.cutover.state = .waiting → done (some .force) .force) ∧
        (option = 1#8 → s.cutover.state = .deferred → done s.cutover.cause .force) ∧
        (option = 0#8 → s.cutover.state = .deferred → exec i s = .next (s.answered i tag .accepted [])) ∧
        (option = 0#8 → s.cutover.state = .waiting →
          (s.cutover.inhibit = false → done (some .command) .immediate) ∧
          (s.cutover.inhibit = true → s.cutover.grace = 0 → done (some .command) .grace) ∧
          (s.cutover.inhibit = true → s.cutover.grace ≠ 0 →
            exec i s =
              .next
                (State.answered i tag .accepted []
                  { s with
                    cutover := { s.cutover with state := .deferred, cause := some .command, graceTimer := 0 } })))

/-! ### The Lookup Engine (chapter 9) -/

/-- R169, R170, R171: QUERY. Bytes that make no query are refused BAD_ARG, an occupied slot BUSY. A query that comes while
a lookup is in service waits in the slot, without an answer yet. One that finds the engine idle and nothing waiting is
taken at once: with no bank in force, or a mark on a region it needs, it is answered UNKNOWN; else it is in service on
the bank in force, which gains a reader. -/
def Obligations.QueryTakesTheSlot : Prop :=
  ∀ (s : State) (tag qtag : Half) (kind : Byte) (args : List Byte),
    s.portReady →
      let i := Instr.query tag kind qtag args
      (queryOf kind qtag args = none → exec i s = .next (s.answered i tag .badArg [])) ∧
      ∀ q, queryOf kind qtag args = some q →
        (s.lookups.slot ≠ .free → exec i s = .next (s.answered i tag .busy [])) ∧
        (s.lookups.slot = .free →
          (s.lookups.service ≠ none →
            exec i s =
              .next { s with port := s.port.awaits i tag, lookups := { s.lookups with slot := .waiting q } }) ∧
          (s.lookups.service = none → (∀ k, s.lookups.queues.get k = []) →
            let day := if s.clock.valid = true then some s.clock.day else none
            let unknown (seq : Half) (c : UnknownCause) : State :=
              { s with
                port := s.port.answered i tag .ok (answerBody ⟨qtag, q.args.kind, .unknown c, seq, day⟩)
                lookups := { s.lookups with slot := .answered, pointer := .link 0 } }
            (s.inForce = none → exec i s = .next (unknown 0#16 .noImage)) ∧
            ∀ b, s.inForce = some b →
              let m := (s.recOf b).marks
              let marked : Prop :=
                (q.args.kind = .cardCheck ∧ m.ranges ≠ none) ∨
                  (q.args.kind ≠ .cardCheck ∧ (m.header ≠ none ∨ m.tariff ≠ none))
              (marked → exec i s = .next (unknown (s.recOf b).seq .damaged)) ∧
              (¬marked →
                exec i s =
                  .next
                    { s.setRec b { s.recOf b with readers := (s.recOf b).readers + 1 } with
                      port := s.port.awaits i tag
                      lookups :=
                        { s.lookups with
                          slot := .inService
                          pointer := .link 0
                          service := some ⟨.gateway, q, some b, day, false⟩ } })))

/-- R125, R151, R170 to R172, R176, R177, R179: the lookup in service completes. Its reader is released; unless it is marked
for discard its answer goes to the gateway's response, or joins the answer queue of its link and is counted (an idle
transmitter begins it, R117); then takes are attempted, each of the oldest query of the first requester from the pointer on
that has one: it goes into service on the bank in force, which gains a reader, or, with no bank in force or a mark on a
region it needs, is answered UNKNOWN at once and the next take is attempted, until a lookup stays in service or no query
waits. A lookup whose first word cannot be read marks the word's region and answers UNKNOWN, cause DAMAGED. When the reader
released was the last of a DRAINING bank, the drain completes before the takes (R4, R7). (The model's own: which words a
lookup reads, log 9; that it reads them all in this step, log 51; where the scrubber stands after a drain that leaves the bank
EMPTY, log 38; that the event changes nothing with no lookup in service, log 3.) -/
def Obligations.LookupCompleteAnswersAndTakesTheNext : Prop :=
  let damagedFor (q : Query) (m : Marks) : Bool :=
    if q.args.kind = .cardCheck then m.ranges.isSome else m.header.isSome || m.tariff.isSome
  let delivered (r : Requester) (a : Answer) (u : State) : State :=
    match r with
    | .link k =>
      tryBegin k
        ((u.setLink k { u.link k with answers := (u.link k).answers ++ [a] }).setEntry k
          { u.entry k with lookups := min 65535 ((u.entry k).lookups + 1) })
    | .gateway =>
      { u with
        port :=
          { u.port with
            rdy := true
            dispatched := none
            awaiting := none
            response := .held ⟨u.port.awaiting.getD 0#16, .ok, answerBody a⟩ }
        lookups := { u.lookups with slot := .answered } }
  -- the completion
  (∀ s : State, s.inReset = false → s.lookups.service = none → exec .lookupComplete s = .next s) ∧
  (∀ (s : State) (v : Service) (b : BankId),
    s.inReset = false → s.lookups.service = some v → v.bank = some b →
      let answer (verdict : Verdict) : Answer := ⟨v.query.tag, v.query.args.kind, verdict, (s.recOf b).seq, v.day⟩
      (s.upsets = [] →
        let verdict :=
          if damagedFor v.query (s.recOf b).marks then .unknown .damaged
          else (lookUp b v.day v.query.args s).2.getD (.unknown .damaged)
        ∃ released, ReaderReleased s b released ∧
          let freed : State := { released with lookups := { s.lookups with service := none } }
          exec .lookupComplete s =
            .next (attemptTake (if v.discard then freed else delivered v.requester (answer verdict) freed))) ∧
      -- a first word that cannot be read
      ∀ u region o, s.upsets = [u] → u.loc = .bank b region o → fatal u.kind = true →
        inItems b [match v.query.args with
          | .cardCheck c => Item.dirEntry (shelfOf c)
          | .fareQuote _ _ _ => Item.dims
          | .productInfo _ => Item.dims] u.loc = true →
        ((s.recOf b).state = .inForce ∨ (s.recOf b).state = .stale) → v.discard = false →
          ∃ t, exec .lookupComplete s = .next t ∧
            (t.recOf b).marks.get region = some (((s.recOf b).marks.get region).getD o) ∧
            t.events.has .eccUncorrectable = true ∧
            (v.requester = .gateway →
              t.port.response = .held ⟨s.port.awaiting.getD 0#16, .ok, answerBody (answer (.unknown .damaged))⟩) ∧
            ∀ k, v.requester = .link k → (s.link k).tx ≠ .idle →
              ∃ more, (t.link k).answers = (s.link k).answers ++ [answer (.unknown .damaged)] ++ more) ∧
  -- the takes
  (∀ (u : Lookups) (r : Requester) (q : Query),
    let turn (x : Requester) : Nat := (x.place + 9 - u.pointer.place) % 9
    u.next = some (r, q) ↔ u.oldest r = some q ∧ ∀ x, u.oldest x ≠ none → turn r ≤ turn x) ∧
  (∀ u : State, u.lookups.service ≠ none ∨ (∀ r, u.lookups.oldest r = none) → attemptTake u = u) ∧
  (∀ (u : State) (r : Requester) (q : Query), u.lookups.service = none → u.lookups.next = some (r, q) →
    let day := if u.clock.valid = true then some u.clock.day else none
    let taken : Lookups :=
      match r with
      | .link k => { u.lookups with queues := u.lookups.queues.set k (u.lookups.queues.get k).tail, pointer := r.after }
      | .gateway => { u.lookups with slot := .inService, pointer := r.after }
    let unknown (seq : Half) (c : UnknownCause) : State :=
      delivered r ⟨q.tag, q.args.kind, .unknown c, seq, day⟩ { u with lookups := taken }
    (u.inForce = none → attemptTake u = attemptTake (unknown 0#16 .noImage)) ∧
    ∀ f, u.inForce = some f →
      (damagedFor q (u.recOf f).marks = true → attemptTake u = attemptTake (unknown (u.recOf f).seq .damaged)) ∧
      (damagedFor q (u.recOf f).marks = false →
        attemptTake u =
          { u.setRec f { u.recOf f with readers := (u.recOf f).readers + 1 } with
            lookups := { taken with service := some ⟨r, q, some f, day, false⟩ } })) ∧
  ∀ s t : State, s.inReset = false → s.lookups.service ≠ none → exec .lookupComplete s = .next t →
    t.lookups.service = none → ∀ r, t.lookups.oldest r = none

/-- R173 to R176: on words without errors the searches by halving find what their rules ask for. CARD_CHECK in a table of
canonical shape finds the record that lists the card, in any table of the bank's directory; PRODUCT_INFO in ascending
codes finds the product with the code; FARE_QUOTE gives the price at its position, or BAD_QUERY outside the dimensions. A
range is BLOCKED unless a day was taken and its expiry lies before that day. -/
def Obligations.SearchesFindWhatTheirRulesAsk : Prop :=
  ∀ (s : State) (b : BankId) (day : Option Half),
    s.upsets = [] →
      let x := s.bank b
      (∀ c : Card, canonical x.ranges.records → x.ranges = RangeRegion.ofRecords x.ranges.records →
        lookUp b day (.cardCheck c) s = (s, some (cardVerdict day (x.ranges.records.find? fun r => r.lists c)))) ∧
      (∀ code : Half, x.tariff.products.Pairwise (fun p q => p.code < q.code) →
        x.tariff.productCount = x.tariff.products.length →
          lookUp b day (.productInfo code) s =
            (s,
              some
                (match x.tariff.products.find? fun p => decide (p.code = code) with
                 | some p => .product (validToday day p) p
                 | none => .notFound))) ∧
      (∀ cls origin dest : Byte,
        let t := x.tariff
        let outside : Prop :=
          t.classCount ≤ cls.toNat ∨ origin = 0#8 ∨ t.zones < origin.toNat ∨ dest = 0#8 ∨ t.zones < dest.toNat
        (outside → lookUp b day (.fareQuote cls origin dest) s = (s, some .badQuery)) ∧
        (¬outside →
          ∀ price, t.prices[cls.toNat * t.zones * t.zones + (origin.toNat - 1) * t.zones + (dest.toNat - 1)]? = some price →
            lookUp b day (.fareQuote cls origin dest) s = (s, some (.price price)))) ∧
      (cardVerdict day none = .clear none) ∧
      (∀ r : RangeRec,
        (∀ d e, day = some d → r.expiry = some e → e < d → cardVerdict day (some r) = .clear (some e)) ∧
        ((day = none ∨ r.expiry = none ∨ ∃ d e, day = some d ∧ r.expiry = some e ∧ d ≤ e) →
          cardVerdict day (some r) = .blocked r)) ∧
      ∀ p : Product,
        (validToday day p = true ↔ ∃ d, day = some d ∧ p.validFrom ≤ d ∧ ∀ e, p.validTo = some e → d ≤ e)

/-! ### Events, errors and the scrubber (chapter 10) -/

/-- R184, R188, R189, R191: EVENTS_CLEAR clears the named flags, their link sets and, with ECC_UNCORRECTABLE, the capture;
EVENT_MASK replaces the masks and answers the level of ALERT; a set with a bit above 18 is refused BAD_ARG by both;
SCRUB_CONFIG answers the period taken and acts by the state of the scrubber. (That the level of ALERT is sent as 1 when
asserted and 0 when deasserted is the model's, log 20.) -/
def Obligations.EventAndScrubCommandsSetTheUnit : Prop :=
  ∀ (s : State) (tag : Half) (set : FlagSet) (period : Byte),
    s.portReady →
      let clear := Instr.eventsClear tag set
      let mask := Instr.eventMask tag set
      let config := Instr.scrubConfig tag period
      let kept (n : Nat) (links : Byte) : Byte := if set.getLsbD n = true then 0#8 else links
      let scrubbed (c : Scrub) : State := State.answered config tag .ok [period] { s with scrub := c }
      (s.alert = true ↔ ∃ n : Nat, s.events.flags.getLsbD n = true ∧ s.events.masks.getLsbD n = true) ∧
      (2 ^ 19 ≤ set.toNat →
        exec clear s = .next (s.answered clear tag .badArg []) ∧ exec mask s = .next (s.answered mask tag .badArg [])) ∧
      (set.toNat < 2 ^ 19 →
        exec clear s =
          .next
            (State.answered clear tag .ok (be24 (s.events.flags &&& ~~~set))
              { s with
                events :=
                  { s.events with
                    flags := s.events.flags &&& ~~~set
                    sets :=
                      ⟨kept 10 s.events.sets.changed, kept 11 s.events.sets.silent, kept 12 s.events.sets.mismatch,
                        kept 13 s.events.sets.fault, kept 14 s.events.sets.testDone⟩
                    capture := if set.getLsbD 17 = true then none else s.events.capture } }) ∧
        exec mask s =
          .next
            (State.answered mask tag .ok (be24 set ++ [if s.events.flags &&& set = 0#24 then 0#8 else 1#8])
              { s with events := { s.events with masks := set } })) ∧
      (period = 0#8 → exec config s = .next (scrubbed { s.scrub with period := 0, mode := .off, timer := 0 })) ∧
      (period ≠ 0#8 →
        (s.scrub.mode = .off →
          exec config s = .next (scrubbed { s.scrub with period := period.toNat, mode := .resting, timer := 0 })) ∧
        (s.scrub.mode = .resting → s.scrub.timer < period.toNat * 1000 →
          exec config s = .next (scrubbed { s.scrub with period := period.toNat })) ∧
        (s.scrub.mode = .resting → period.toNat * 1000 ≤ s.scrub.timer →
          exec config s =
            .next
              (scrubbed { s.scrub with period := period.toNat, mode := .walking .bankA .header 0, timer := 0 })) ∧
        (∀ b r o, s.scrub.mode = .walking b r o →
          exec config s = .next (scrubbed { s.scrub with period := period.toNat })))

/-- R181, R182, R184 to R186, R23: a pass begins when the period timer stands at the period while RESTING. A SCRUB_READ reads
the pass's next word, the first at or after its position in the order bank A, bank B, in each HEADER, TARIFF, RANGES, in each
ascending offset, that is in its bank's extent, EMPTY banks and marked regions passed over: a sound word changes only the position, a one-bit error is corrected and counted, a two-bit error is
counted and captured and marks the region, which withdraws a PENDING bank, cuts the cycles of the bank in force and fails a
copy from it, fails the run of a CLOSING bank, and has no further effect in the other states. The scrubber leaves a region that
is marked: the pass goes on with the next, or is counted and ends; it ends too when no word is left. (The model's own: that
errors strike with the command, pass or no pass, and that a second one makes a word uncorrectable, log 10; that a copy in
progress goes on by then, log 16; how much of its acts a closing run has made when it fails so, log 15, and what these are, logs
9, 12 and 13; the counter of free values, log 30; that a SCRUB_PERIOD that is not due changes nothing, logs 3 and 4; and that
the position is the word after the one read, or the start of the next region, that a pass ends with its last word, and that an
empty pass ends at the next SCRUB_READ, log 38; which words hold which item, log 9.) -/
def Obligations.ScrubberReadsItsPass : Prop :=
  -- the pass's next word
  (∀ (u : State) (b : BankId) (r : Region) (o : Nat),
    u.scrubWord = some (b, r, o) ↔
      ∃ b₀ r₀ o₀, u.scrub.mode = .walking b₀ r₀ o₀ ∧ u.passReads b r o ∧ passOrder b₀ r₀ o₀ b r o ∧
        ∀ b' r' o', u.passReads b' r' o' → passOrder b₀ r₀ o₀ b' r' o' → passOrder b r o b' r' o') ∧
  ∀ s : State,
    s.inReset = false → errorsLaw s →
      let ends (t : State) : State :=
        let t' : State := { t with free := t.free + 1 }
        if t'.scrub.midPass = true ∧ t'.scrubWord = none then { t' with scrub := t'.scrub.ended } else t'
      let due : Prop := s.scrub.mode = .resting ∧ s.scrub.period * 1000 ≤ s.scrub.timer
      (¬due → exec .scrubPeriod s = .next s) ∧
      (due →
        exec .scrubPeriod s =
          .next { s with scrub := { s.scrub with mode := .walking .bankA .header 0, timer := 0 } }) ∧
      -- an error strikes a word
      (∀ (u : Upset) (us : List Upset), upsetsWf us →
        let kindAt (l : WordLoc) (xs : List Upset) : Option UpsetKind :=
          (xs.find? fun x => decide (x.loc = l)).map (·.kind)
        upsetsWf (strike u us) ∧
          ∀ loc, kindAt loc (strike u us) =
            if loc = u.loc then
              match kindAt loc us with
              | none => some u.kind
              | some kind =>
                if kind = .stuck ∨ kind = .stuckDouble ∨ u.kind = .stuck ∨ u.kind = .stuckDouble then some .stuckDouble
                else some .double
            else kindAt loc us) ∧
      -- `c` is `s` when the copy, if there is one, has gone on
      ∃ c : State, CopyGoesOn s c ∧
        ∀ strikes : List Upset,
          -- `v` is that state when the errors have struck
          let v : State := { c with upsets := strikes.foldl (fun us u => strike u us) c.upsets }
          let read := exec (.scrubRead strikes) s
          ((s.scrub.mode = .off ∨ s.scrub.mode = .resting) → read = .next v) ∧
          ((∃ b r o, s.scrub.mode = .walking b r o) → v.scrubWord = none →
            read = .next { v with scrub := s.scrub.ended }) ∧
          ∀ b r o, v.scrubWord = some (b, r, o) →
            let loc : WordLoc := .bank b r o
            let onward : State := { v with scrub := { v.scrub with mode := .walking b r (o + 1) } }
            let marked : State := onward.found .scrub b r o
            let left (t : State) : State := { t with scrub := t.scrub.leftRegion b r }
            let fails : Prop := v.upsetAt loc = some .double ∨ v.upsetAt loc = some .stuckDouble
            (v.upsetAt loc = none → read = .next (ends onward)) ∧
            (∀ kind, v.upsetAt loc = some kind → kind = .single ∨ kind = .stuck →
              read =
                .next
                  (ends
                    { onward with
                      upsets := if kind = .stuck then v.upsets else v.upsets.filter fun u => decide (u.loc ≠ loc)
                      events :=
                        { v.events with
                          flags := v.events.flags ||| 0x10000#24
                          corrected := min 4294967295 (v.events.corrected + 1) } })) ∧
            (fails →
              (marked.recOf b).marks.get r = some (((s.recOf b).marks.get r).getD o) ∧
              (left marked).scrub = onward.scrub.movedTo (regionAfter b r) ∧
              ((s.recOf b).state = .building ∨ (s.recOf b).state = .stale ∨ (s.recOf b).state = .draining ∨
                  (s.recOf b).state = .copying →
                read = .next (ends (left marked))) ∧
              ((s.recOf b).state = .pending → rolesLaw s →
                ∃ t, Withdrawn marked b t ∧ read = .next (ends (left t))) ∧
              ((s.recOf b).state = .inForce → rolesLaw s →
                ∃ t, InForceMarked marked b r t ∧ read = .next (ends t)) ∧
              ((s.recOf b).state = .closing →
                let acts := closeActs s.closeDay (s.bank b)
                ∃ made more p, acts = made ++ more ∧ marked.readable b (some loc) made ∧ pointAllows (pointAfter made) p ∧
                  read = .next (ends (left ((marked.ranOn b (some loc) made).closeFailed b p loc)))))

/-! ### Laws that every step keeps -/

/-- R3, R13, R156: at most one bank is IN_FORCE and at most one on the build side, the seqs of numbered banks are as R13
says, a bank that is being built has no readers, and Cutover Control is IDLE exactly while no bank is PENDING: every step
keeps these. -/
def Obligations.StepKeepsBankRoles : Prop :=
  ∀ s t : State,
    rolesLaw s → sequenceLaw s → quietLaw s → cutoverLaw s → step s = .next t →
      rolesLaw t ∧ sequenceLaw t ∧ quietLaw t ∧ cutoverLaw t

/-- R4: a bank's reader count is the number of cycle contexts naming it plus one while the Lookup Engine serves from it;
every step keeps this, with what it rests on: where each link's context stands in its cycle (R91, R97, R101), the banks
without readers, and the settings. -/
def Obligations.StepKeepsReaderCounts : Prop :=
  ∀ s t : State,
    readersLaw s → (∀ k, (s.link k).contextLaw) → quietLaw s → settingsLaw s → step s = .next t →
      readersLaw t ∧ ∀ k, (t.link k).contextLaw

/-- R28, R87, R98, R113, R145, R152, R155, R187, and the FIFOs of R106 and R121: directories follow their records, words in
error keep their canonical list (log 10), and the clock, the flags, the settings and the FIFOs stay within their ranges:
every step keeps these. -/
def Obligations.StepKeepsTablesAndRanges : Prop :=
  ∀ s t : State,
    directoryLaw s → errorsLaw s → clockLaw s → flagsLaw s → settingsLaw s → fifoLaw s → step s = .next t →
      directoryLaw t ∧ errorsLaw t ∧ clockLaw t ∧ flagsLaw t ∧ settingsLaw t ∧ fifoLaw t

/-- R27, R28, R42: the table of each bank has canonical shape and at most 16,384 records: every step keeps this, with what
it rests on: a package in its apply phase has passed its checks against the bank being built (R33, R34, R76, R78). -/
def Obligations.StepKeepsTablesCanonical : Prop :=
  ∀ s t : State, rolesLaw s → tablesLaw s → packageLaw s → step s = .next t → tablesLaw t ∧ packageLaw t

/-- R139, R146, R147: the all-ready flag is the condition it stands for, and an entry is READY only while a bank is PENDING
that its last report named complete: every step keeps these. -/
def Obligations.StepKeepsReadiness : Prop :=
  ∀ s t : State, rolesLaw s → allReadyLaw s → readyLaw s → step s = .next t → allReadyLaw t ∧ readyLaw t

/-- R124, R167, R169, R170, R194: a link's slots in use are the queries it holds, at most four; no query waits while no
lookup is in service; the gateway slot follows the lookup; the response buffer is EMPTY while RDY is low: every step
keeps these. -/
def Obligations.StepKeepsQueriesAndPort : Prop :=
  ∀ s t : State,
    slotsLaw s → turnLaw s → gatewaySlotLaw s → portLaw s → step s = .next t →
      slotsLaw t ∧ turnLaw t ∧ gatewaySlotLaw t ∧ portLaw t
end

