-- ==== Sys2Proof/Laws/State.lean ====
section
/-!
SUPPORT. One lemma per field of the state for every plain update, all true by `rfl`, and the reads of a bank, a link or
an entry after an update.
-/

namespace Sys2Proof.Machine

/-! ### Eight like things -/

@[simp] theorem PerLink.get_set_same {α : Type} (p : PerLink α) (k : LinkId) (x : α) : (p.set k x).get k = x := by
  match k with
  | 0 => rfl
  | 1 => rfl
  | 2 => rfl
  | 3 => rfl
  | 4 => rfl
  | 5 => rfl
  | 6 => rfl
  | 7 => rfl

theorem PerLink.get_set_ne {α : Type} (p : PerLink α) {k j : LinkId} (x : α) (h : j ≠ k) : (p.set k x).get j = p.get j := by
  revert h
  match k, j with
  | 0, j => match j with | 0 => simp | 1 | 2 | 3 | 4 | 5 | 6 | 7 => intro _; rfl
  | 1, j => match j with | 1 => simp | 0 | 2 | 3 | 4 | 5 | 6 | 7 => intro _; rfl
  | 2, j => match j with | 2 => simp | 0 | 1 | 3 | 4 | 5 | 6 | 7 => intro _; rfl
  | 3, j => match j with | 3 => simp | 0 | 1 | 2 | 4 | 5 | 6 | 7 => intro _; rfl
  | 4, j => match j with | 4 => simp | 0 | 1 | 2 | 3 | 5 | 6 | 7 => intro _; rfl
  | 5, j => match j with | 5 => simp | 0 | 1 | 2 | 3 | 4 | 6 | 7 => intro _; rfl
  | 6, j => match j with | 6 => simp | 0 | 1 | 2 | 3 | 4 | 5 | 7 => intro _; rfl
  | 7, j => match j with | 7 => simp | 0 | 1 | 2 | 3 | 4 | 5 | 6 => intro _; rfl

theorem PerLink.get_set {α : Type} (p : PerLink α) (k j : LinkId) (x : α) :
    (p.set k x).get j = if j = k then x else p.get j := by
  split
  next h => rw [h, PerLink.get_set_same]
  next h => exact PerLink.get_set_ne p x h

@[simp] theorem PerLink.get_all {α : Type} (x : α) (k : LinkId) : (PerLink.all x).get k = x := by
  match k with
  | 0 | 1 | 2 | 3 | 4 | 5 | 6 | 7 => rfl

@[simp] theorem PerLink.get_map {α β : Type} (f : α → β) (p : PerLink α) (k : LinkId) : (p.map f).get k = f (p.get k) := by
  match k with
  | 0 | 1 | 2 | 3 | 4 | 5 | 6 | 7 => rfl

@[simp] theorem PerLink.set_get {α : Type} (p : PerLink α) (k : LinkId) : p.set k (p.get k) = p := by
  match k with
  | 0 | 1 | 2 | 3 | 4 | 5 | 6 | 7 => rfl

@[simp] theorem PerLink.set_set {α : Type} (p : PerLink α) (k : LinkId) (x y : α) : (p.set k x).set k y = p.set k y := by
  match k with
  | 0 | 1 | 2 | 3 | 4 | 5 | 6 | 7 => rfl

theorem PerLink.ext_get {α : Type} {p q : PerLink α} (h : ∀ k, p.get k = q.get k) : p = q := by
  cases p; cases q
  have h0 := h 0; have h1 := h 1; have h2 := h 2; have h3 := h 3
  have h4 := h 4; have h5 := h 5; have h6 := h 6; have h7 := h 7
  simp only [PerLink.get] at h0 h1 h2 h3 h4 h5 h6 h7
  subst h0 h1 h2 h3 h4 h5 h6 h7
  rfl

theorem PerLink.mem_toList {α : Type} (p : PerLink α) (x : α) : x ∈ p.toList ↔ ∃ k, p.get k = x := by
  constructor
  · intro h
    simp only [PerLink.toList, List.mem_cons, List.not_mem_nil, or_false] at h
    rcases h with h | h | h | h | h | h | h | h
    · exact ⟨0, h.symm⟩
    · exact ⟨1, h.symm⟩
    · exact ⟨2, h.symm⟩
    · exact ⟨3, h.symm⟩
    · exact ⟨4, h.symm⟩
    · exact ⟨5, h.symm⟩
    · exact ⟨6, h.symm⟩
    · exact ⟨7, h.symm⟩
  · rintro ⟨k, rfl⟩
    match k with
    | 0 | 1 | 2 | 3 | 4 | 5 | 6 | 7 => simp [PerLink.toList, PerLink.get]

@[simp] theorem mem_allLinks (k : LinkId) : k ∈ allLinks := by
  match k with
  | 0 | 1 | 2 | 3 | 4 | 5 | 6 | 7 => decide

/-! ### The two banks -/

@[simp] theorem Banks.get_set_same (p : Banks) (b : BankId) (x : Bank) : (p.set b x).get b = x := by cases b <;> rfl

@[simp] theorem Banks.get_set_other (p : Banks) (b : BankId) (x : Bank) : (p.set b x).get (other b) = p.get (other b) := by
  cases b <;> rfl

theorem Banks.get_set (p : Banks) (b c : BankId) (x : Bank) : (p.set b x).get c = if c = b then x else p.get c := by
  cases b <;> cases c <;> rfl

@[simp] theorem Banks.set_get (p : Banks) (b : BankId) : p.set b (p.get b) = p := by cases b <;> rfl

@[simp] theorem Banks.set_set (p : Banks) (b : BankId) (x y : Bank) : (p.set b x).set b y = p.set b y := by cases b <;> rfl

@[simp] theorem other_other (b : BankId) : other (other b) = b := by cases b <;> rfl

@[simp] theorem other_ne (b : BankId) : other b ≠ b := by cases b <;> decide

@[simp] theorem ne_other (b : BankId) : b ≠ other b := by cases b <;> decide

theorem eq_or_other (b c : BankId) : c = b ∨ c = other b := by cases b <;> cases c <;> decide

/-! ### Reads after updates -/

theorem State.bank_setBank (b c : BankId) (x : Bank) (s : State) :
    (State.setBank b x s).bank c = if c = b then x else s.bank c := Banks.get_set _ _ _ _

@[simp] theorem State.bank_setBank_same (b : BankId) (x : Bank) (s : State) : (State.setBank b x s).bank b = x :=
  Banks.get_set_same _ _ _

theorem State.recOf_setRec (b c : BankId) (r : BankRecord) (s : State) :
    (State.setRec b r s).recOf c = if c = b then r else s.recOf c := by cases b <;> cases c <;> rfl

@[simp] theorem State.recOf_setRec_same (b : BankId) (r : BankRecord) (s : State) : (State.setRec b r s).recOf b = r := by
  cases b <;> rfl

@[simp] theorem State.recOf_setRec_other (b : BankId) (r : BankRecord) (s : State) :
    (State.setRec b r s).recOf (other b) = s.recOf (other b) := by cases b <;> rfl

theorem State.recOf_setBank (b c : BankId) (x : Bank) (s : State) :
    (State.setBank b x s).recOf c = if c = b then x.record else s.recOf c := by cases b <;> cases c <;> rfl

@[simp] theorem State.ranges_setRec (b c : BankId) (r : BankRecord) (s : State) :
    ((State.setRec b r s).bank c).ranges = (s.bank c).ranges := by cases b <;> cases c <;> rfl

@[simp] theorem State.tariff_setRec (b c : BankId) (r : BankRecord) (s : State) :
    ((State.setRec b r s).bank c).tariff = (s.bank c).tariff := by cases b <;> cases c <;> rfl

theorem State.link_setLink (k j : LinkId) (l : Link) (s : State) :
    (State.setLink k l s).link j = if j = k then l else s.link j := PerLink.get_set _ _ _ _

@[simp] theorem State.setLink_setLink (k : LinkId) (l m : Link) (s : State) :
    State.setLink k l (State.setLink k m s) = State.setLink k l s := by simp [State.setLink]

@[simp] theorem State.link_setLink_same (k : LinkId) (l : Link) (s : State) : (State.setLink k l s).link k = l :=
  PerLink.get_set_same _ _ _

theorem State.entry_setEntry (k j : LinkId) (e : Entry) (s : State) :
    (State.setEntry k e s).entry j = if j = k then e else s.entry j := PerLink.get_set _ _ _ _

@[simp] theorem State.entry_setEntry_same (k : LinkId) (e : Entry) (s : State) : (State.setEntry k e s).entry k = e :=
  PerLink.get_set_same _ _ _

@[simp] theorem State.entry_mapEntries (f : Entry → Entry) (s : State) (k : LinkId) :
    (mapEntries f s).entry k = f (s.entry k) := PerLink.get_map _ _ _

@[simp] theorem State.link_mapLinks (f : Link → Link) (s : State) (k : LinkId) :
    (mapLinks f s).link k = f (s.link k) := PerLink.get_map _ _ _

/-! ### One lemma per field per update -/

@[simp] theorem State.setBank_inReset (b : BankId) (x : Bank) (s : State) :
    (State.setBank b x s).inReset = s.inReset := rfl

@[simp] theorem State.setBank_lastSeq (b : BankId) (x : Bank) (s : State) :
    (State.setBank b x s).lastSeq = s.lastSeq := rfl

@[simp] theorem State.setBank_closeResult (b : BankId) (x : Bank) (s : State) :
    (State.setBank b x s).closeResult = s.closeResult := rfl

@[simp] theorem State.setBank_closeDay (b : BankId) (x : Bank) (s : State) :
    (State.setBank b x s).closeDay = s.closeDay := rfl

@[simp] theorem State.setBank_copied (b : BankId) (x : Bank) (s : State) :
    (State.setBank b x s).copied = s.copied := rfl

@[simp] theorem State.setBank_upsets (b : BankId) (x : Bank) (s : State) :
    (State.setBank b x s).upsets = s.upsets := rfl

@[simp] theorem State.setBank_loader (b : BankId) (x : Bank) (s : State) :
    (State.setBank b x s).loader = s.loader := rfl

@[simp] theorem State.setBank_carousel (b : BankId) (x : Bank) (s : State) :
    (State.setBank b x s).carousel = s.carousel := rfl

@[simp] theorem State.setBank_links (b : BankId) (x : Bank) (s : State) :
    (State.setBank b x s).links = s.links := rfl

@[simp] theorem State.setBank_table (b : BankId) (x : Bank) (s : State) :
    (State.setBank b x s).table = s.table := rfl

@[simp] theorem State.setBank_clock (b : BankId) (x : Bank) (s : State) :
    (State.setBank b x s).clock = s.clock := rfl

@[simp] theorem State.setBank_cutover (b : BankId) (x : Bank) (s : State) :
    (State.setBank b x s).cutover = s.cutover := rfl

@[simp] theorem State.setBank_lookups (b : BankId) (x : Bank) (s : State) :
    (State.setBank b x s).lookups = s.lookups := rfl

@[simp] theorem State.setBank_events (b : BankId) (x : Bank) (s : State) :
    (State.setBank b x s).events = s.events := rfl

@[simp] theorem State.setBank_scrub (b : BankId) (x : Bank) (s : State) :
    (State.setBank b x s).scrub = s.scrub := rfl

@[simp] theorem State.setBank_port (b : BankId) (x : Bank) (s : State) :
    (State.setBank b x s).port = s.port := rfl

@[simp] theorem State.setBank_free (b : BankId) (x : Bank) (s : State) :
    (State.setBank b x s).free = s.free := rfl

@[simp] theorem State.setBank_pending (b : BankId) (x : Bank) (s : State) :
    (State.setBank b x s).pending = s.pending := rfl

@[simp] theorem State.setBank_link (b : BankId) (x : Bank) (s : State) (j : LinkId) :
    (State.setBank b x s).link j = s.link j := rfl

@[simp] theorem State.setBank_entry (b : BankId) (x : Bank) (s : State) (j : LinkId) :
    (State.setBank b x s).entry j = s.entry j := rfl

@[simp] theorem State.setRec_inReset (b : BankId) (r : BankRecord) (s : State) :
    (State.setRec b r s).inReset = s.inReset := rfl

@[simp] theorem State.setRec_lastSeq (b : BankId) (r : BankRecord) (s : State) :
    (State.setRec b r s).lastSeq = s.lastSeq := rfl

@[simp] theorem State.setRec_closeResult (b : BankId) (r : BankRecord) (s : State) :
    (State.setRec b r s).closeResult = s.closeResult := rfl

@[simp] theorem State.setRec_closeDay (b : BankId) (r : BankRecord) (s : State) :
    (State.setRec b r s).closeDay = s.closeDay := rfl

@[simp] theorem State.setRec_copied (b : BankId) (r : BankRecord) (s : State) :
    (State.setRec b r s).copied = s.copied := rfl

@[simp] theorem State.setRec_upsets (b : BankId) (r : BankRecord) (s : State) :
    (State.setRec b r s).upsets = s.upsets := rfl

@[simp] theorem State.setRec_loader (b : BankId) (r : BankRecord) (s : State) :
    (State.setRec b r s).loader = s.loader := rfl

@[simp] theorem State.setRec_carousel (b : BankId) (r : BankRecord) (s : State) :
    (State.setRec b r s).carousel = s.carousel := rfl

@[simp] theorem State.setRec_links (b : BankId) (r : BankRecord) (s : State) :
    (State.setRec b r s).links = s.links := rfl

@[simp] theorem State.setRec_table (b : BankId) (r : BankRecord) (s : State) :
    (State.setRec b r s).table = s.table := rfl

@[simp] theorem State.setRec_clock (b : BankId) (r : BankRecord) (s : State) :
    (State.setRec b r s).clock = s.clock := rfl

@[simp] theorem State.setRec_cutover (b : BankId) (r : BankRecord) (s : State) :
    (State.setRec b r s).cutover = s.cutover := rfl

@[simp] theorem State.setRec_lookups (b : BankId) (r : BankRecord) (s : State) :
    (State.setRec b r s).lookups = s.lookups := rfl

@[simp] theorem State.setRec_events (b : BankId) (r : BankRecord) (s : State) :
    (State.setRec b r s).events = s.events := rfl

@[simp] theorem State.setRec_scrub (b : BankId) (r : BankRecord) (s : State) :
    (State.setRec b r s).scrub = s.scrub := rfl

@[simp] theorem State.setRec_port (b : BankId) (r : BankRecord) (s : State) :
    (State.setRec b r s).port = s.port := rfl

@[simp] theorem State.setRec_free (b : BankId) (r : BankRecord) (s : State) :
    (State.setRec b r s).free = s.free := rfl

@[simp] theorem State.setRec_pending (b : BankId) (r : BankRecord) (s : State) :
    (State.setRec b r s).pending = s.pending := rfl

@[simp] theorem State.setRec_link (b : BankId) (r : BankRecord) (s : State) (j : LinkId) :
    (State.setRec b r s).link j = s.link j := rfl

@[simp] theorem State.setRec_entry (b : BankId) (r : BankRecord) (s : State) (j : LinkId) :
    (State.setRec b r s).entry j = s.entry j := rfl

@[simp] theorem State.setLink_inReset (k : LinkId) (l : Link) (s : State) :
    (State.setLink k l s).inReset = s.inReset := rfl

@[simp] theorem State.setLink_banks (k : LinkId) (l : Link) (s : State) :
    (State.setLink k l s).banks = s.banks := rfl

@[simp] theorem State.setLink_lastSeq (k : LinkId) (l : Link) (s : State) :
    (State.setLink k l s).lastSeq = s.lastSeq := rfl

@[simp] theorem State.setLink_closeResult (k : LinkId) (l : Link) (s : State) :
    (State.setLink k l s).closeResult = s.closeResult := rfl

@[simp] theorem State.setLink_closeDay (k : LinkId) (l : Link) (s : State) :
    (State.setLink k l s).closeDay = s.closeDay := rfl

@[simp] theorem State.setLink_copied (k : LinkId) (l : Link) (s : State) :
    (State.setLink k l s).copied = s.copied := rfl

@[simp] theorem State.setLink_upsets (k : LinkId) (l : Link) (s : State) :
    (State.setLink k l s).upsets = s.upsets := rfl

@[simp] theorem State.setLink_loader (k : LinkId) (l : Link) (s : State) :
    (State.setLink k l s).loader = s.loader := rfl

@[simp] theorem State.setLink_carousel (k : LinkId) (l : Link) (s : State) :
    (State.setLink k l s).carousel = s.carousel := rfl

@[simp] theorem State.setLink_table (k : LinkId) (l : Link) (s : State) :
    (State.setLink k l s).table = s.table := rfl

@[simp] theorem State.setLink_clock (k : LinkId) (l : Link) (s : State) :
    (State.setLink k l s).clock = s.clock := rfl

@[simp] theorem State.setLink_cutover (k : LinkId) (l : Link) (s : State) :
    (State.setLink k l s).cutover = s.cutover := rfl

@[simp] theorem State.setLink_lookups (k : LinkId) (l : Link) (s : State) :
    (State.setLink k l s).lookups = s.lookups := rfl

@[simp] theorem State.setLink_events (k : LinkId) (l : Link) (s : State) :
    (State.setLink k l s).events = s.events := rfl

@[simp] theorem State.setLink_scrub (k : LinkId) (l : Link) (s : State) :
    (State.setLink k l s).scrub = s.scrub := rfl

@[simp] theorem State.setLink_port (k : LinkId) (l : Link) (s : State) :
    (State.setLink k l s).port = s.port := rfl

@[simp] theorem State.setLink_free (k : LinkId) (l : Link) (s : State) :
    (State.setLink k l s).free = s.free := rfl

@[simp] theorem State.setLink_pending (k : LinkId) (l : Link) (s : State) :
    (State.setLink k l s).pending = s.pending := rfl

@[simp] theorem State.setLink_bank (k : LinkId) (l : Link) (s : State) (c : BankId) :
    (State.setLink k l s).bank c = s.bank c := rfl

@[simp] theorem State.setLink_recOf (k : LinkId) (l : Link) (s : State) (c : BankId) :
    (State.setLink k l s).recOf c = s.recOf c := rfl

@[simp] theorem State.setLink_findBank (k : LinkId) (l : Link) (s : State) (t : BankState) :
    (State.setLink k l s).findBank t = s.findBank t := rfl

@[simp] theorem State.setLink_inForce (k : LinkId) (l : Link) (s : State) :
    (State.setLink k l s).inForce = s.inForce := rfl

@[simp] theorem State.setLink_pendingBank (k : LinkId) (l : Link) (s : State) :
    (State.setLink k l s).pendingBank = s.pendingBank := rfl

@[simp] theorem State.setLink_activation (k : LinkId) (l : Link) (s : State) :
    (State.setLink k l s).activation = s.activation := rfl

@[simp] theorem State.setLink_entry (k : LinkId) (l : Link) (s : State) (j : LinkId) :
    (State.setLink k l s).entry j = s.entry j := rfl

@[simp] theorem State.setEntry_inReset (k : LinkId) (e : Entry) (s : State) :
    (State.setEntry k e s).inReset = s.inReset := rfl

@[simp] theorem State.setEntry_banks (k : LinkId) (e : Entry) (s : State) :
    (State.setEntry k e s).banks = s.banks := rfl

@[simp] theorem State.setEntry_lastSeq (k : LinkId) (e : Entry) (s : State) :
    (State.setEntry k e s).lastSeq = s.lastSeq := rfl

@[simp] theorem State.setEntry_closeResult (k : LinkId) (e : Entry) (s : State) :
    (State.setEntry k e s).closeResult = s.closeResult := rfl

@[simp] theorem State.setEntry_closeDay (k : LinkId) (e : Entry) (s : State) :
    (State.setEntry k e s).closeDay = s.closeDay := rfl

@[simp] theorem State.setEntry_copied (k : LinkId) (e : Entry) (s : State) :
    (State.setEntry k e s).copied = s.copied := rfl

@[simp] theorem State.setEntry_upsets (k : LinkId) (e : Entry) (s : State) :
    (State.setEntry k e s).upsets = s.upsets := rfl

@[simp] theorem State.setEntry_loader (k : LinkId) (e : Entry) (s : State) :
    (State.setEntry k e s).loader = s.loader := rfl

@[simp] theorem State.setEntry_carousel (k : LinkId) (e : Entry) (s : State) :
    (State.setEntry k e s).carousel = s.carousel := rfl

@[simp] theorem State.setEntry_links (k : LinkId) (e : Entry) (s : State) :
    (State.setEntry k e s).links = s.links := rfl

@[simp] theorem State.setEntry_clock (k : LinkId) (e : Entry) (s : State) :
    (State.setEntry k e s).clock = s.clock := rfl

@[simp] theorem State.setEntry_cutover (k : LinkId) (e : Entry) (s : State) :
    (State.setEntry k e s).cutover = s.cutover := rfl

@[simp] theorem State.setEntry_lookups (k : LinkId) (e : Entry) (s : State) :
    (State.setEntry k e s).lookups = s.lookups := rfl

@[simp] theorem State.setEntry_events (k : LinkId) (e : Entry) (s : State) :
    (State.setEntry k e s).events = s.events := rfl

@[simp] theorem State.setEntry_scrub (k : LinkId) (e : Entry) (s : State) :
    (State.setEntry k e s).scrub = s.scrub := rfl

@[simp] theorem State.setEntry_port (k : LinkId) (e : Entry) (s : State) :
    (State.setEntry k e s).port = s.port := rfl

@[simp] theorem State.setEntry_free (k : LinkId) (e : Entry) (s : State) :
    (State.setEntry k e s).free = s.free := rfl

@[simp] theorem State.setEntry_pending (k : LinkId) (e : Entry) (s : State) :
    (State.setEntry k e s).pending = s.pending := rfl

@[simp] theorem State.setEntry_bank (k : LinkId) (e : Entry) (s : State) (c : BankId) :
    (State.setEntry k e s).bank c = s.bank c := rfl

@[simp] theorem State.setEntry_recOf (k : LinkId) (e : Entry) (s : State) (c : BankId) :
    (State.setEntry k e s).recOf c = s.recOf c := rfl

@[simp] theorem State.setEntry_findBank (k : LinkId) (e : Entry) (s : State) (t : BankState) :
    (State.setEntry k e s).findBank t = s.findBank t := rfl

@[simp] theorem State.setEntry_inForce (k : LinkId) (e : Entry) (s : State) :
    (State.setEntry k e s).inForce = s.inForce := rfl

@[simp] theorem State.setEntry_pendingBank (k : LinkId) (e : Entry) (s : State) :
    (State.setEntry k e s).pendingBank = s.pendingBank := rfl

@[simp] theorem State.setEntry_activation (k : LinkId) (e : Entry) (s : State) :
    (State.setEntry k e s).activation = s.activation := rfl

@[simp] theorem State.setEntry_link (k : LinkId) (e : Entry) (s : State) (j : LinkId) :
    (State.setEntry k e s).link j = s.link j := rfl

@[simp] theorem State.raise_inReset (e : Event) (s : State) :
    (State.raise e s).inReset = s.inReset := rfl

@[simp] theorem State.raise_banks (e : Event) (s : State) :
    (State.raise e s).banks = s.banks := rfl

@[simp] theorem State.raise_lastSeq (e : Event) (s : State) :
    (State.raise e s).lastSeq = s.lastSeq := rfl

@[simp] theorem State.raise_closeResult (e : Event) (s : State) :
    (State.raise e s).closeResult = s.closeResult := rfl

@[simp] theorem State.raise_closeDay (e : Event) (s : State) :
    (State.raise e s).closeDay = s.closeDay := rfl

@[simp] theorem State.raise_copied (e : Event) (s : State) :
    (State.raise e s).copied = s.copied := rfl

@[simp] theorem State.raise_upsets (e : Event) (s : State) :
    (State.raise e s).upsets = s.upsets := rfl

@[simp] theorem State.raise_loader (e : Event) (s : State) :
    (State.raise e s).loader = s.loader := rfl

@[simp] theorem State.raise_carousel (e : Event) (s : State) :
    (State.raise e s).carousel = s.carousel := rfl

@[simp] theorem State.raise_links (e : Event) (s : State) :
    (State.raise e s).links = s.links := rfl

@[simp] theorem State.raise_table (e : Event) (s : State) :
    (State.raise e s).table = s.table := rfl

@[simp] theorem State.raise_clock (e : Event) (s : State) :
    (State.raise e s).clock = s.clock := rfl

@[simp] theorem State.raise_cutover (e : Event) (s : State) :
    (State.raise e s).cutover = s.cutover := rfl

@[simp] theorem State.raise_lookups (e : Event) (s : State) :
    (State.raise e s).lookups = s.lookups := rfl

@[simp] theorem State.raise_scrub (e : Event) (s : State) :
    (State.raise e s).scrub = s.scrub := rfl

@[simp] theorem State.raise_port (e : Event) (s : State) :
    (State.raise e s).port = s.port := rfl

@[simp] theorem State.raise_free (e : Event) (s : State) :
    (State.raise e s).free = s.free := rfl

@[simp] theorem State.raise_pending (e : Event) (s : State) :
    (State.raise e s).pending = s.pending := rfl

@[simp] theorem State.raise_bank (e : Event) (s : State) (c : BankId) :
    (State.raise e s).bank c = s.bank c := rfl

@[simp] theorem State.raise_recOf (e : Event) (s : State) (c : BankId) :
    (State.raise e s).recOf c = s.recOf c := rfl

@[simp] theorem State.raise_findBank (e : Event) (s : State) (t : BankState) :
    (State.raise e s).findBank t = s.findBank t := rfl

@[simp] theorem State.raise_inForce (e : Event) (s : State) :
    (State.raise e s).inForce = s.inForce := rfl

@[simp] theorem State.raise_pendingBank (e : Event) (s : State) :
    (State.raise e s).pendingBank = s.pendingBank := rfl

@[simp] theorem State.raise_activation (e : Event) (s : State) :
    (State.raise e s).activation = s.activation := rfl

@[simp] theorem State.raise_link (e : Event) (s : State) (j : LinkId) :
    (State.raise e s).link j = s.link j := rfl

@[simp] theorem State.raise_entry (e : Event) (s : State) (j : LinkId) :
    (State.raise e s).entry j = s.entry j := rfl

@[simp] theorem State.raiseLink_inReset (e : Event) (k : LinkId) (s : State) :
    (State.raiseLink e k s).inReset = s.inReset := rfl

@[simp] theorem State.raiseLink_banks (e : Event) (k : LinkId) (s : State) :
    (State.raiseLink e k s).banks = s.banks := rfl

@[simp] theorem State.raiseLink_lastSeq (e : Event) (k : LinkId) (s : State) :
    (State.raiseLink e k s).lastSeq = s.lastSeq := rfl

@[simp] theorem State.raiseLink_closeResult (e : Event) (k : LinkId) (s : State) :
    (State.raiseLink e k s).closeResult = s.closeResult := rfl

@[simp] theorem State.raiseLink_closeDay (e : Event) (k : LinkId) (s : State) :
    (State.raiseLink e k s).closeDay = s.closeDay := rfl

@[simp] theorem State.raiseLink_copied (e : Event) (k : LinkId) (s : State) :
    (State.raiseLink e k s).copied = s.copied := rfl

@[simp] theorem State.raiseLink_upsets (e : Event) (k : LinkId) (s : State) :
    (State.raiseLink e k s).upsets = s.upsets := rfl

@[simp] theorem State.raiseLink_loader (e : Event) (k : LinkId) (s : State) :
    (State.raiseLink e k s).loader = s.loader := rfl

@[simp] theorem State.raiseLink_carousel (e : Event) (k : LinkId) (s : State) :
    (State.raiseLink e k s).carousel = s.carousel := rfl

@[simp] theorem State.raiseLink_links (e : Event) (k : LinkId) (s : State) :
    (State.raiseLink e k s).links = s.links := rfl

@[simp] theorem State.raiseLink_table (e : Event) (k : LinkId) (s : State) :
    (State.raiseLink e k s).table = s.table := rfl

@[simp] theorem State.raiseLink_clock (e : Event) (k : LinkId) (s : State) :
    (State.raiseLink e k s).clock = s.clock := rfl

@[simp] theorem State.raiseLink_cutover (e : Event) (k : LinkId) (s : State) :
    (State.raiseLink e k s).cutover = s.cutover := rfl

@[simp] theorem State.raiseLink_lookups (e : Event) (k : LinkId) (s : State) :
    (State.raiseLink e k s).lookups = s.lookups := rfl

@[simp] theorem State.raiseLink_scrub (e : Event) (k : LinkId) (s : State) :
    (State.raiseLink e k s).scrub = s.scrub := rfl

@[simp] theorem State.raiseLink_port (e : Event) (k : LinkId) (s : State) :
    (State.raiseLink e k s).port = s.port := rfl

@[simp] theorem State.raiseLink_free (e : Event) (k : LinkId) (s : State) :
    (State.raiseLink e k s).free = s.free := rfl

@[simp] theorem State.raiseLink_pending (e : Event) (k : LinkId) (s : State) :
    (State.raiseLink e k s).pending = s.pending := rfl

@[simp] theorem State.raiseLink_bank (e : Event) (k : LinkId) (s : State) (c : BankId) :
    (State.raiseLink e k s).bank c = s.bank c := rfl

@[simp] theorem State.raiseLink_recOf (e : Event) (k : LinkId) (s : State) (c : BankId) :
    (State.raiseLink e k s).recOf c = s.recOf c := rfl

@[simp] theorem State.raiseLink_findBank (e : Event) (k : LinkId) (s : State) (t : BankState) :
    (State.raiseLink e k s).findBank t = s.findBank t := rfl

@[simp] theorem State.raiseLink_inForce (e : Event) (k : LinkId) (s : State) :
    (State.raiseLink e k s).inForce = s.inForce := rfl

@[simp] theorem State.raiseLink_pendingBank (e : Event) (k : LinkId) (s : State) :
    (State.raiseLink e k s).pendingBank = s.pendingBank := rfl

@[simp] theorem State.raiseLink_activation (e : Event) (k : LinkId) (s : State) :
    (State.raiseLink e k s).activation = s.activation := rfl

@[simp] theorem State.raiseLink_link (e : Event) (k : LinkId) (s : State) (j : LinkId) :
    (State.raiseLink e k s).link j = s.link j := rfl

@[simp] theorem State.raiseLink_entry (e : Event) (k : LinkId) (s : State) (j : LinkId) :
    (State.raiseLink e k s).entry j = s.entry j := rfl

@[simp] theorem State.refresh_inReset (w : WordLoc → Bool) (s : State) :
    (State.refresh w s).inReset = s.inReset := rfl

@[simp] theorem State.refresh_banks (w : WordLoc → Bool) (s : State) :
    (State.refresh w s).banks = s.banks := rfl

@[simp] theorem State.refresh_lastSeq (w : WordLoc → Bool) (s : State) :
    (State.refresh w s).lastSeq = s.lastSeq := rfl

@[simp] theorem State.refresh_closeResult (w : WordLoc → Bool) (s : State) :
    (State.refresh w s).closeResult = s.closeResult := rfl

@[simp] theorem State.refresh_closeDay (w : WordLoc → Bool) (s : State) :
    (State.refresh w s).closeDay = s.closeDay := rfl

@[simp] theorem State.refresh_copied (w : WordLoc → Bool) (s : State) :
    (State.refresh w s).copied = s.copied := rfl

@[simp] theorem State.refresh_loader (w : WordLoc → Bool) (s : State) :
    (State.refresh w s).loader = s.loader := rfl

@[simp] theorem State.refresh_carousel (w : WordLoc → Bool) (s : State) :
    (State.refresh w s).carousel = s.carousel := rfl

@[simp] theorem State.refresh_links (w : WordLoc → Bool) (s : State) :
    (State.refresh w s).links = s.links := rfl

@[simp] theorem State.refresh_table (w : WordLoc → Bool) (s : State) :
    (State.refresh w s).table = s.table := rfl

@[simp] theorem State.refresh_clock (w : WordLoc → Bool) (s : State) :
    (State.refresh w s).clock = s.clock := rfl

@[simp] theorem State.refresh_cutover (w : WordLoc → Bool) (s : State) :
    (State.refresh w s).cutover = s.cutover := rfl

@[simp] theorem State.refresh_lookups (w : WordLoc → Bool) (s : State) :
    (State.refresh w s).lookups = s.lookups := rfl

@[simp] theorem State.refresh_events (w : WordLoc → Bool) (s : State) :
    (State.refresh w s).events = s.events := rfl

@[simp] theorem State.refresh_scrub (w : WordLoc → Bool) (s : State) :
    (State.refresh w s).scrub = s.scrub := rfl

@[simp] theorem State.refresh_port (w : WordLoc → Bool) (s : State) :
    (State.refresh w s).port = s.port := rfl

@[simp] theorem State.refresh_free (w : WordLoc → Bool) (s : State) :
    (State.refresh w s).free = s.free := rfl

@[simp] theorem State.refresh_pending (w : WordLoc → Bool) (s : State) :
    (State.refresh w s).pending = s.pending := rfl

@[simp] theorem State.refresh_bank (w : WordLoc → Bool) (s : State) (c : BankId) :
    (State.refresh w s).bank c = s.bank c := rfl

@[simp] theorem State.refresh_recOf (w : WordLoc → Bool) (s : State) (c : BankId) :
    (State.refresh w s).recOf c = s.recOf c := rfl

@[simp] theorem State.refresh_findBank (w : WordLoc → Bool) (s : State) (t : BankState) :
    (State.refresh w s).findBank t = s.findBank t := rfl

@[simp] theorem State.refresh_inForce (w : WordLoc → Bool) (s : State) :
    (State.refresh w s).inForce = s.inForce := rfl

@[simp] theorem State.refresh_pendingBank (w : WordLoc → Bool) (s : State) :
    (State.refresh w s).pendingBank = s.pendingBank := rfl

@[simp] theorem State.refresh_activation (w : WordLoc → Bool) (s : State) :
    (State.refresh w s).activation = s.activation := rfl

@[simp] theorem State.refresh_link (w : WordLoc → Bool) (s : State) (j : LinkId) :
    (State.refresh w s).link j = s.link j := rfl

@[simp] theorem State.refresh_entry (w : WordLoc → Bool) (s : State) (j : LinkId) :
    (State.refresh w s).entry j = s.entry j := rfl

@[simp] theorem mapEntries_inReset (f : Entry → Entry) (s : State) :
    (mapEntries f s).inReset = s.inReset := rfl

@[simp] theorem mapEntries_banks (f : Entry → Entry) (s : State) :
    (mapEntries f s).banks = s.banks := rfl

@[simp] theorem mapEntries_lastSeq (f : Entry → Entry) (s : State) :
    (mapEntries f s).lastSeq = s.lastSeq := rfl

@[simp] theorem mapEntries_closeResult (f : Entry → Entry) (s : State) :
    (mapEntries f s).closeResult = s.closeResult := rfl

@[simp] theorem mapEntries_closeDay (f : Entry → Entry) (s : State) :
    (mapEntries f s).closeDay = s.closeDay := rfl

@[simp] theorem mapEntries_copied (f : Entry → Entry) (s : State) :
    (mapEntries f s).copied = s.copied := rfl

@[simp] theorem mapEntries_upsets (f : Entry → Entry) (s : State) :
    (mapEntries f s).upsets = s.upsets := rfl

@[simp] theorem mapEntries_loader (f : Entry → Entry) (s : State) :
    (mapEntries f s).loader = s.loader := rfl

@[simp] theorem mapEntries_carousel (f : Entry → Entry) (s : State) :
    (mapEntries f s).carousel = s.carousel := rfl

@[simp] theorem mapEntries_links (f : Entry → Entry) (s : State) :
    (mapEntries f s).links = s.links := rfl

@[simp] theorem mapEntries_clock (f : Entry → Entry) (s : State) :
    (mapEntries f s).clock = s.clock := rfl

@[simp] theorem mapEntries_cutover (f : Entry → Entry) (s : State) :
    (mapEntries f s).cutover = s.cutover := rfl

@[simp] theorem mapEntries_lookups (f : Entry → Entry) (s : State) :
    (mapEntries f s).lookups = s.lookups := rfl

@[simp] theorem mapEntries_events (f : Entry → Entry) (s : State) :
    (mapEntries f s).events = s.events := rfl

@[simp] theorem mapEntries_scrub (f : Entry → Entry) (s : State) :
    (mapEntries f s).scrub = s.scrub := rfl

@[simp] theorem mapEntries_port (f : Entry → Entry) (s : State) :
    (mapEntries f s).port = s.port := rfl

@[simp] theorem mapEntries_free (f : Entry → Entry) (s : State) :
    (mapEntries f s).free = s.free := rfl

@[simp] theorem mapEntries_pending (f : Entry → Entry) (s : State) :
    (mapEntries f s).pending = s.pending := rfl

@[simp] theorem mapEntries_bank (f : Entry → Entry) (s : State) (c : BankId) :
    (mapEntries f s).bank c = s.bank c := rfl

@[simp] theorem mapEntries_recOf (f : Entry → Entry) (s : State) (c : BankId) :
    (mapEntries f s).recOf c = s.recOf c := rfl

@[simp] theorem mapEntries_findBank (f : Entry → Entry) (s : State) (t : BankState) :
    (mapEntries f s).findBank t = s.findBank t := rfl

@[simp] theorem mapEntries_inForce (f : Entry → Entry) (s : State) :
    (mapEntries f s).inForce = s.inForce := rfl

@[simp] theorem mapEntries_pendingBank (f : Entry → Entry) (s : State) :
    (mapEntries f s).pendingBank = s.pendingBank := rfl

@[simp] theorem mapEntries_activation (f : Entry → Entry) (s : State) :
    (mapEntries f s).activation = s.activation := rfl

@[simp] theorem mapEntries_link (f : Entry → Entry) (s : State) (j : LinkId) :
    (mapEntries f s).link j = s.link j := rfl

@[simp] theorem mapLinks_inReset (f : Link → Link) (s : State) :
    (mapLinks f s).inReset = s.inReset := rfl

@[simp] theorem mapLinks_banks (f : Link → Link) (s : State) :
    (mapLinks f s).banks = s.banks := rfl

@[simp] theorem mapLinks_lastSeq (f : Link → Link) (s : State) :
    (mapLinks f s).lastSeq = s.lastSeq := rfl

@[simp] theorem mapLinks_closeResult (f : Link → Link) (s : State) :
    (mapLinks f s).closeResult = s.closeResult := rfl

@[simp] theorem mapLinks_closeDay (f : Link → Link) (s : State) :
    (mapLinks f s).closeDay = s.closeDay := rfl

@[simp] theorem mapLinks_copied (f : Link → Link) (s : State) :
    (mapLinks f s).copied = s.copied := rfl

@[simp] theorem mapLinks_upsets (f : Link → Link) (s : State) :
    (mapLinks f s).upsets = s.upsets := rfl

@[simp] theorem mapLinks_loader (f : Link → Link) (s : State) :
    (mapLinks f s).loader = s.loader := rfl

@[simp] theorem mapLinks_carousel (f : Link → Link) (s : State) :
    (mapLinks f s).carousel = s.carousel := rfl

@[simp] theorem mapLinks_table (f : Link → Link) (s : State) :
    (mapLinks f s).table = s.table := rfl

@[simp] theorem mapLinks_clock (f : Link → Link) (s : State) :
    (mapLinks f s).clock = s.clock := rfl

@[simp] theorem mapLinks_cutover (f : Link → Link) (s : State) :
    (mapLinks f s).cutover = s.cutover := rfl

@[simp] theorem mapLinks_lookups (f : Link → Link) (s : State) :
    (mapLinks f s).lookups = s.lookups := rfl

@[simp] theorem mapLinks_events (f : Link → Link) (s : State) :
    (mapLinks f s).events = s.events := rfl

@[simp] theorem mapLinks_scrub (f : Link → Link) (s : State) :
    (mapLinks f s).scrub = s.scrub := rfl

@[simp] theorem mapLinks_port (f : Link → Link) (s : State) :
    (mapLinks f s).port = s.port := rfl

@[simp] theorem mapLinks_free (f : Link → Link) (s : State) :
    (mapLinks f s).free = s.free := rfl

@[simp] theorem mapLinks_pending (f : Link → Link) (s : State) :
    (mapLinks f s).pending = s.pending := rfl

@[simp] theorem mapLinks_bank (f : Link → Link) (s : State) (c : BankId) :
    (mapLinks f s).bank c = s.bank c := rfl

@[simp] theorem mapLinks_recOf (f : Link → Link) (s : State) (c : BankId) :
    (mapLinks f s).recOf c = s.recOf c := rfl

@[simp] theorem mapLinks_findBank (f : Link → Link) (s : State) (t : BankState) :
    (mapLinks f s).findBank t = s.findBank t := rfl

@[simp] theorem mapLinks_inForce (f : Link → Link) (s : State) :
    (mapLinks f s).inForce = s.inForce := rfl

@[simp] theorem mapLinks_pendingBank (f : Link → Link) (s : State) :
    (mapLinks f s).pendingBank = s.pendingBank := rfl

@[simp] theorem mapLinks_activation (f : Link → Link) (s : State) :
    (mapLinks f s).activation = s.activation := rfl

@[simp] theorem mapLinks_entry (f : Link → Link) (s : State) (j : LinkId) :
    (mapLinks f s).entry j = s.entry j := rfl

@[simp] theorem respond_inReset (code : ResultCode) (body : List Byte) (s : State) :
    (respond code body s).inReset = s.inReset := rfl

@[simp] theorem respond_banks (code : ResultCode) (body : List Byte) (s : State) :
    (respond code body s).banks = s.banks := rfl

@[simp] theorem respond_lastSeq (code : ResultCode) (body : List Byte) (s : State) :
    (respond code body s).lastSeq = s.lastSeq := rfl

@[simp] theorem respond_closeResult (code : ResultCode) (body : List Byte) (s : State) :
    (respond code body s).closeResult = s.closeResult := rfl

@[simp] theorem respond_closeDay (code : ResultCode) (body : List Byte) (s : State) :
    (respond code body s).closeDay = s.closeDay := rfl

@[simp] theorem respond_copied (code : ResultCode) (body : List Byte) (s : State) :
    (respond code body s).copied = s.copied := rfl

@[simp] theorem respond_upsets (code : ResultCode) (body : List Byte) (s : State) :
    (respond code body s).upsets = s.upsets := rfl

@[simp] theorem respond_loader (code : ResultCode) (body : List Byte) (s : State) :
    (respond code body s).loader = s.loader := rfl

@[simp] theorem respond_carousel (code : ResultCode) (body : List Byte) (s : State) :
    (respond code body s).carousel = s.carousel := rfl

@[simp] theorem respond_links (code : ResultCode) (body : List Byte) (s : State) :
    (respond code body s).links = s.links := rfl

@[simp] theorem respond_table (code : ResultCode) (body : List Byte) (s : State) :
    (respond code body s).table = s.table := rfl

@[simp] theorem respond_clock (code : ResultCode) (body : List Byte) (s : State) :
    (respond code body s).clock = s.clock := rfl

@[simp] theorem respond_cutover (code : ResultCode) (body : List Byte) (s : State) :
    (respond code body s).cutover = s.cutover := rfl

@[simp] theorem respond_events (code : ResultCode) (body : List Byte) (s : State) :
    (respond code body s).events = s.events := rfl

@[simp] theorem respond_scrub (code : ResultCode) (body : List Byte) (s : State) :
    (respond code body s).scrub = s.scrub := rfl

@[simp] theorem respond_free (code : ResultCode) (body : List Byte) (s : State) :
    (respond code body s).free = s.free := rfl

@[simp] theorem respond_pending (code : ResultCode) (body : List Byte) (s : State) :
    (respond code body s).pending = s.pending := rfl

@[simp] theorem respond_bank (code : ResultCode) (body : List Byte) (s : State) (c : BankId) :
    (respond code body s).bank c = s.bank c := rfl

@[simp] theorem respond_recOf (code : ResultCode) (body : List Byte) (s : State) (c : BankId) :
    (respond code body s).recOf c = s.recOf c := rfl

@[simp] theorem respond_findBank (code : ResultCode) (body : List Byte) (s : State) (t : BankState) :
    (respond code body s).findBank t = s.findBank t := rfl

@[simp] theorem respond_inForce (code : ResultCode) (body : List Byte) (s : State) :
    (respond code body s).inForce = s.inForce := rfl

@[simp] theorem respond_pendingBank (code : ResultCode) (body : List Byte) (s : State) :
    (respond code body s).pendingBank = s.pendingBank := rfl

@[simp] theorem respond_activation (code : ResultCode) (body : List Byte) (s : State) :
    (respond code body s).activation = s.activation := rfl

@[simp] theorem respond_link (code : ResultCode) (body : List Byte) (s : State) (j : LinkId) :
    (respond code body s).link j = s.link j := rfl

@[simp] theorem respond_entry (code : ResultCode) (body : List Byte) (s : State) (j : LinkId) :
    (respond code body s).entry j = s.entry j := rfl

@[simp] theorem beginMessage_inReset (tag : Half) (bytes : List Byte) (s : State) :
    (beginMessage tag bytes s).inReset = s.inReset := rfl

@[simp] theorem beginMessage_banks (tag : Half) (bytes : List Byte) (s : State) :
    (beginMessage tag bytes s).banks = s.banks := rfl

@[simp] theorem beginMessage_lastSeq (tag : Half) (bytes : List Byte) (s : State) :
    (beginMessage tag bytes s).lastSeq = s.lastSeq := rfl

@[simp] theorem beginMessage_closeResult (tag : Half) (bytes : List Byte) (s : State) :
    (beginMessage tag bytes s).closeResult = s.closeResult := rfl

@[simp] theorem beginMessage_closeDay (tag : Half) (bytes : List Byte) (s : State) :
    (beginMessage tag bytes s).closeDay = s.closeDay := rfl

@[simp] theorem beginMessage_copied (tag : Half) (bytes : List Byte) (s : State) :
    (beginMessage tag bytes s).copied = s.copied := rfl

@[simp] theorem beginMessage_upsets (tag : Half) (bytes : List Byte) (s : State) :
    (beginMessage tag bytes s).upsets = s.upsets := rfl

@[simp] theorem beginMessage_loader (tag : Half) (bytes : List Byte) (s : State) :
    (beginMessage tag bytes s).loader = s.loader := rfl

@[simp] theorem beginMessage_carousel (tag : Half) (bytes : List Byte) (s : State) :
    (beginMessage tag bytes s).carousel = s.carousel := rfl

@[simp] theorem beginMessage_links (tag : Half) (bytes : List Byte) (s : State) :
    (beginMessage tag bytes s).links = s.links := rfl

@[simp] theorem beginMessage_table (tag : Half) (bytes : List Byte) (s : State) :
    (beginMessage tag bytes s).table = s.table := rfl

@[simp] theorem beginMessage_clock (tag : Half) (bytes : List Byte) (s : State) :
    (beginMessage tag bytes s).clock = s.clock := rfl

@[simp] theorem beginMessage_cutover (tag : Half) (bytes : List Byte) (s : State) :
    (beginMessage tag bytes s).cutover = s.cutover := rfl

@[simp] theorem beginMessage_lookups (tag : Half) (bytes : List Byte) (s : State) :
    (beginMessage tag bytes s).lookups = s.lookups := rfl

@[simp] theorem beginMessage_events (tag : Half) (bytes : List Byte) (s : State) :
    (beginMessage tag bytes s).events = s.events := rfl

@[simp] theorem beginMessage_scrub (tag : Half) (bytes : List Byte) (s : State) :
    (beginMessage tag bytes s).scrub = s.scrub := rfl

@[simp] theorem beginMessage_free (tag : Half) (bytes : List Byte) (s : State) :
    (beginMessage tag bytes s).free = s.free := rfl

@[simp] theorem beginMessage_pending (tag : Half) (bytes : List Byte) (s : State) :
    (beginMessage tag bytes s).pending = s.pending := rfl

@[simp] theorem beginMessage_bank (tag : Half) (bytes : List Byte) (s : State) (c : BankId) :
    (beginMessage tag bytes s).bank c = s.bank c := rfl

@[simp] theorem beginMessage_recOf (tag : Half) (bytes : List Byte) (s : State) (c : BankId) :
    (beginMessage tag bytes s).recOf c = s.recOf c := rfl

@[simp] theorem beginMessage_findBank (tag : Half) (bytes : List Byte) (s : State) (t : BankState) :
    (beginMessage tag bytes s).findBank t = s.findBank t := rfl

@[simp] theorem beginMessage_inForce (tag : Half) (bytes : List Byte) (s : State) :
    (beginMessage tag bytes s).inForce = s.inForce := rfl

@[simp] theorem beginMessage_pendingBank (tag : Half) (bytes : List Byte) (s : State) :
    (beginMessage tag bytes s).pendingBank = s.pendingBank := rfl

@[simp] theorem beginMessage_activation (tag : Half) (bytes : List Byte) (s : State) :
    (beginMessage tag bytes s).activation = s.activation := rfl

@[simp] theorem beginMessage_link (tag : Half) (bytes : List Byte) (s : State) (j : LinkId) :
    (beginMessage tag bytes s).link j = s.link j := rfl

@[simp] theorem beginMessage_entry (tag : Half) (bytes : List Byte) (s : State) (j : LinkId) :
    (beginMessage tag bytes s).entry j = s.entry j := rfl

@[simp] theorem overrun_inReset (n : Nat) (s : State) :
    (overrun n s).inReset = s.inReset := rfl

@[simp] theorem overrun_banks (n : Nat) (s : State) :
    (overrun n s).banks = s.banks := rfl

@[simp] theorem overrun_lastSeq (n : Nat) (s : State) :
    (overrun n s).lastSeq = s.lastSeq := rfl

@[simp] theorem overrun_closeResult (n : Nat) (s : State) :
    (overrun n s).closeResult = s.closeResult := rfl

@[simp] theorem overrun_closeDay (n : Nat) (s : State) :
    (overrun n s).closeDay = s.closeDay := rfl

@[simp] theorem overrun_copied (n : Nat) (s : State) :
    (overrun n s).copied = s.copied := rfl

@[simp] theorem overrun_upsets (n : Nat) (s : State) :
    (overrun n s).upsets = s.upsets := rfl

@[simp] theorem overrun_loader (n : Nat) (s : State) :
    (overrun n s).loader = s.loader := rfl

@[simp] theorem overrun_carousel (n : Nat) (s : State) :
    (overrun n s).carousel = s.carousel := rfl

@[simp] theorem overrun_links (n : Nat) (s : State) :
    (overrun n s).links = s.links := rfl

@[simp] theorem overrun_table (n : Nat) (s : State) :
    (overrun n s).table = s.table := rfl

@[simp] theorem overrun_clock (n : Nat) (s : State) :
    (overrun n s).clock = s.clock := rfl

@[simp] theorem overrun_cutover (n : Nat) (s : State) :
    (overrun n s).cutover = s.cutover := rfl

@[simp] theorem overrun_lookups (n : Nat) (s : State) :
    (overrun n s).lookups = s.lookups := rfl

@[simp] theorem overrun_events (n : Nat) (s : State) :
    (overrun n s).events = s.events := rfl

@[simp] theorem overrun_scrub (n : Nat) (s : State) :
    (overrun n s).scrub = s.scrub := rfl

@[simp] theorem overrun_free (n : Nat) (s : State) :
    (overrun n s).free = s.free := rfl

@[simp] theorem overrun_pending (n : Nat) (s : State) :
    (overrun n s).pending = s.pending := rfl

@[simp] theorem overrun_bank (n : Nat) (s : State) (c : BankId) :
    (overrun n s).bank c = s.bank c := rfl

@[simp] theorem overrun_recOf (n : Nat) (s : State) (c : BankId) :
    (overrun n s).recOf c = s.recOf c := rfl

@[simp] theorem overrun_findBank (n : Nat) (s : State) (t : BankState) :
    (overrun n s).findBank t = s.findBank t := rfl

@[simp] theorem overrun_inForce (n : Nat) (s : State) :
    (overrun n s).inForce = s.inForce := rfl

@[simp] theorem overrun_pendingBank (n : Nat) (s : State) :
    (overrun n s).pendingBank = s.pendingBank := rfl

@[simp] theorem overrun_activation (n : Nat) (s : State) :
    (overrun n s).activation = s.activation := rfl

@[simp] theorem overrun_link (n : Nat) (s : State) (j : LinkId) :
    (overrun n s).link j = s.link j := rfl

@[simp] theorem overrun_entry (n : Nat) (s : State) (j : LinkId) :
    (overrun n s).entry j = s.entry j := rfl

@[simp] theorem addReader_inReset (b : BankId) (s : State) :
    (addReader b s).inReset = s.inReset := rfl

@[simp] theorem addReader_lastSeq (b : BankId) (s : State) :
    (addReader b s).lastSeq = s.lastSeq := rfl

@[simp] theorem addReader_closeResult (b : BankId) (s : State) :
    (addReader b s).closeResult = s.closeResult := rfl

@[simp] theorem addReader_closeDay (b : BankId) (s : State) :
    (addReader b s).closeDay = s.closeDay := rfl

@[simp] theorem addReader_copied (b : BankId) (s : State) :
    (addReader b s).copied = s.copied := rfl

@[simp] theorem addReader_upsets (b : BankId) (s : State) :
    (addReader b s).upsets = s.upsets := rfl

@[simp] theorem addReader_loader (b : BankId) (s : State) :
    (addReader b s).loader = s.loader := rfl

@[simp] theorem addReader_carousel (b : BankId) (s : State) :
    (addReader b s).carousel = s.carousel := rfl

@[simp] theorem addReader_links (b : BankId) (s : State) :
    (addReader b s).links = s.links := rfl

@[simp] theorem addReader_table (b : BankId) (s : State) :
    (addReader b s).table = s.table := rfl

@[simp] theorem addReader_clock (b : BankId) (s : State) :
    (addReader b s).clock = s.clock := rfl

@[simp] theorem addReader_cutover (b : BankId) (s : State) :
    (addReader b s).cutover = s.cutover := rfl

@[simp] theorem addReader_lookups (b : BankId) (s : State) :
    (addReader b s).lookups = s.lookups := rfl

@[simp] theorem addReader_events (b : BankId) (s : State) :
    (addReader b s).events = s.events := rfl

@[simp] theorem addReader_scrub (b : BankId) (s : State) :
    (addReader b s).scrub = s.scrub := rfl

@[simp] theorem addReader_port (b : BankId) (s : State) :
    (addReader b s).port = s.port := rfl

@[simp] theorem addReader_free (b : BankId) (s : State) :
    (addReader b s).free = s.free := rfl

@[simp] theorem addReader_pending (b : BankId) (s : State) :
    (addReader b s).pending = s.pending := rfl

@[simp] theorem addReader_link (b : BankId) (s : State) (j : LinkId) :
    (addReader b s).link j = s.link j := rfl

@[simp] theorem addReader_entry (b : BankId) (s : State) (j : LinkId) :
    (addReader b s).entry j = s.entry j := rfl

@[simp] theorem emptyBank_inReset (b : BankId) (s : State) :
    (emptyBank b s).inReset = s.inReset := rfl

@[simp] theorem emptyBank_lastSeq (b : BankId) (s : State) :
    (emptyBank b s).lastSeq = s.lastSeq := rfl

@[simp] theorem emptyBank_closeResult (b : BankId) (s : State) :
    (emptyBank b s).closeResult = s.closeResult := rfl

@[simp] theorem emptyBank_closeDay (b : BankId) (s : State) :
    (emptyBank b s).closeDay = s.closeDay := rfl

@[simp] theorem emptyBank_copied (b : BankId) (s : State) :
    (emptyBank b s).copied = s.copied := rfl

@[simp] theorem emptyBank_upsets (b : BankId) (s : State) :
    (emptyBank b s).upsets = s.upsets := rfl

@[simp] theorem emptyBank_loader (b : BankId) (s : State) :
    (emptyBank b s).loader = s.loader := rfl

@[simp] theorem emptyBank_carousel (b : BankId) (s : State) :
    (emptyBank b s).carousel = s.carousel := rfl

@[simp] theorem emptyBank_links (b : BankId) (s : State) :
    (emptyBank b s).links = s.links := rfl

@[simp] theorem emptyBank_table (b : BankId) (s : State) :
    (emptyBank b s).table = s.table := rfl

@[simp] theorem emptyBank_clock (b : BankId) (s : State) :
    (emptyBank b s).clock = s.clock := rfl

@[simp] theorem emptyBank_cutover (b : BankId) (s : State) :
    (emptyBank b s).cutover = s.cutover := rfl

@[simp] theorem emptyBank_lookups (b : BankId) (s : State) :
    (emptyBank b s).lookups = s.lookups := rfl

@[simp] theorem emptyBank_events (b : BankId) (s : State) :
    (emptyBank b s).events = s.events := rfl

@[simp] theorem emptyBank_port (b : BankId) (s : State) :
    (emptyBank b s).port = s.port := rfl

@[simp] theorem emptyBank_free (b : BankId) (s : State) :
    (emptyBank b s).free = s.free := rfl

@[simp] theorem emptyBank_pending (b : BankId) (s : State) :
    (emptyBank b s).pending = s.pending := rfl

@[simp] theorem emptyBank_link (b : BankId) (s : State) (j : LinkId) :
    (emptyBank b s).link j = s.link j := rfl

@[simp] theorem emptyBank_entry (b : BankId) (s : State) (j : LinkId) :
    (emptyBank b s).entry j = s.entry j := rfl

@[simp] theorem markRegion_inReset (b : BankId) (r : Region) (o : Nat) (s : State) :
    (markRegion b r o s).inReset = s.inReset := rfl

@[simp] theorem markRegion_lastSeq (b : BankId) (r : Region) (o : Nat) (s : State) :
    (markRegion b r o s).lastSeq = s.lastSeq := rfl

@[simp] theorem markRegion_closeResult (b : BankId) (r : Region) (o : Nat) (s : State) :
    (markRegion b r o s).closeResult = s.closeResult := rfl

@[simp] theorem markRegion_closeDay (b : BankId) (r : Region) (o : Nat) (s : State) :
    (markRegion b r o s).closeDay = s.closeDay := rfl

@[simp] theorem markRegion_copied (b : BankId) (r : Region) (o : Nat) (s : State) :
    (markRegion b r o s).copied = s.copied := rfl

@[simp] theorem markRegion_upsets (b : BankId) (r : Region) (o : Nat) (s : State) :
    (markRegion b r o s).upsets = s.upsets := rfl

@[simp] theorem markRegion_loader (b : BankId) (r : Region) (o : Nat) (s : State) :
    (markRegion b r o s).loader = s.loader := rfl

@[simp] theorem markRegion_carousel (b : BankId) (r : Region) (o : Nat) (s : State) :
    (markRegion b r o s).carousel = s.carousel := rfl

@[simp] theorem markRegion_links (b : BankId) (r : Region) (o : Nat) (s : State) :
    (markRegion b r o s).links = s.links := rfl

@[simp] theorem markRegion_table (b : BankId) (r : Region) (o : Nat) (s : State) :
    (markRegion b r o s).table = s.table := rfl

@[simp] theorem markRegion_clock (b : BankId) (r : Region) (o : Nat) (s : State) :
    (markRegion b r o s).clock = s.clock := rfl

@[simp] theorem markRegion_cutover (b : BankId) (r : Region) (o : Nat) (s : State) :
    (markRegion b r o s).cutover = s.cutover := rfl

@[simp] theorem markRegion_lookups (b : BankId) (r : Region) (o : Nat) (s : State) :
    (markRegion b r o s).lookups = s.lookups := rfl

@[simp] theorem markRegion_events (b : BankId) (r : Region) (o : Nat) (s : State) :
    (markRegion b r o s).events = s.events := rfl

@[simp] theorem markRegion_scrub (b : BankId) (r : Region) (o : Nat) (s : State) :
    (markRegion b r o s).scrub = s.scrub := rfl

@[simp] theorem markRegion_port (b : BankId) (r : Region) (o : Nat) (s : State) :
    (markRegion b r o s).port = s.port := rfl

@[simp] theorem markRegion_free (b : BankId) (r : Region) (o : Nat) (s : State) :
    (markRegion b r o s).free = s.free := rfl

@[simp] theorem markRegion_pending (b : BankId) (r : Region) (o : Nat) (s : State) :
    (markRegion b r o s).pending = s.pending := rfl

@[simp] theorem markRegion_link (b : BankId) (r : Region) (o : Nat) (s : State) (j : LinkId) :
    (markRegion b r o s).link j = s.link j := rfl

@[simp] theorem markRegion_entry (b : BankId) (r : Region) (o : Nat) (s : State) (j : LinkId) :
    (markRegion b r o s).entry j = s.entry j := rfl

@[simp] theorem scrubLeaves_inReset (b : BankId) (r : Region) (s : State) :
    (scrubLeaves b r s).inReset = s.inReset := rfl

@[simp] theorem scrubLeaves_banks (b : BankId) (r : Region) (s : State) :
    (scrubLeaves b r s).banks = s.banks := rfl

@[simp] theorem scrubLeaves_lastSeq (b : BankId) (r : Region) (s : State) :
    (scrubLeaves b r s).lastSeq = s.lastSeq := rfl

@[simp] theorem scrubLeaves_closeResult (b : BankId) (r : Region) (s : State) :
    (scrubLeaves b r s).closeResult = s.closeResult := rfl

@[simp] theorem scrubLeaves_closeDay (b : BankId) (r : Region) (s : State) :
    (scrubLeaves b r s).closeDay = s.closeDay := rfl

@[simp] theorem scrubLeaves_copied (b : BankId) (r : Region) (s : State) :
    (scrubLeaves b r s).copied = s.copied := rfl

@[simp] theorem scrubLeaves_upsets (b : BankId) (r : Region) (s : State) :
    (scrubLeaves b r s).upsets = s.upsets := rfl

@[simp] theorem scrubLeaves_loader (b : BankId) (r : Region) (s : State) :
    (scrubLeaves b r s).loader = s.loader := rfl

@[simp] theorem scrubLeaves_carousel (b : BankId) (r : Region) (s : State) :
    (scrubLeaves b r s).carousel = s.carousel := rfl

@[simp] theorem scrubLeaves_links (b : BankId) (r : Region) (s : State) :
    (scrubLeaves b r s).links = s.links := rfl

@[simp] theorem scrubLeaves_table (b : BankId) (r : Region) (s : State) :
    (scrubLeaves b r s).table = s.table := rfl

@[simp] theorem scrubLeaves_clock (b : BankId) (r : Region) (s : State) :
    (scrubLeaves b r s).clock = s.clock := rfl

@[simp] theorem scrubLeaves_cutover (b : BankId) (r : Region) (s : State) :
    (scrubLeaves b r s).cutover = s.cutover := rfl

@[simp] theorem scrubLeaves_lookups (b : BankId) (r : Region) (s : State) :
    (scrubLeaves b r s).lookups = s.lookups := rfl

@[simp] theorem scrubLeaves_events (b : BankId) (r : Region) (s : State) :
    (scrubLeaves b r s).events = s.events := rfl

@[simp] theorem scrubLeaves_port (b : BankId) (r : Region) (s : State) :
    (scrubLeaves b r s).port = s.port := rfl

@[simp] theorem scrubLeaves_free (b : BankId) (r : Region) (s : State) :
    (scrubLeaves b r s).free = s.free := rfl

@[simp] theorem scrubLeaves_pending (b : BankId) (r : Region) (s : State) :
    (scrubLeaves b r s).pending = s.pending := rfl

@[simp] theorem scrubLeaves_bank (b : BankId) (r : Region) (s : State) (c : BankId) :
    (scrubLeaves b r s).bank c = s.bank c := rfl

@[simp] theorem scrubLeaves_recOf (b : BankId) (r : Region) (s : State) (c : BankId) :
    (scrubLeaves b r s).recOf c = s.recOf c := rfl

@[simp] theorem scrubLeaves_findBank (b : BankId) (r : Region) (s : State) (t : BankState) :
    (scrubLeaves b r s).findBank t = s.findBank t := rfl

@[simp] theorem scrubLeaves_inForce (b : BankId) (r : Region) (s : State) :
    (scrubLeaves b r s).inForce = s.inForce := rfl

@[simp] theorem scrubLeaves_pendingBank (b : BankId) (r : Region) (s : State) :
    (scrubLeaves b r s).pendingBank = s.pendingBank := rfl

@[simp] theorem scrubLeaves_activation (b : BankId) (r : Region) (s : State) :
    (scrubLeaves b r s).activation = s.activation := rfl

@[simp] theorem scrubLeaves_link (b : BankId) (r : Region) (s : State) (j : LinkId) :
    (scrubLeaves b r s).link j = s.link j := rfl

@[simp] theorem scrubLeaves_entry (b : BankId) (r : Region) (s : State) (j : LinkId) :
    (scrubLeaves b r s).entry j = s.entry j := rfl

@[simp] theorem reportUncorrectable_inReset (l : WordLoc) (r : Reader) (s : State) :
    (reportUncorrectable l r s).inReset = s.inReset := rfl

@[simp] theorem reportUncorrectable_banks (l : WordLoc) (r : Reader) (s : State) :
    (reportUncorrectable l r s).banks = s.banks := rfl

@[simp] theorem reportUncorrectable_lastSeq (l : WordLoc) (r : Reader) (s : State) :
    (reportUncorrectable l r s).lastSeq = s.lastSeq := rfl

@[simp] theorem reportUncorrectable_closeResult (l : WordLoc) (r : Reader) (s : State) :
    (reportUncorrectable l r s).closeResult = s.closeResult := rfl

@[simp] theorem reportUncorrectable_closeDay (l : WordLoc) (r : Reader) (s : State) :
    (reportUncorrectable l r s).closeDay = s.closeDay := rfl

@[simp] theorem reportUncorrectable_copied (l : WordLoc) (r : Reader) (s : State) :
    (reportUncorrectable l r s).copied = s.copied := rfl

@[simp] theorem reportUncorrectable_upsets (l : WordLoc) (r : Reader) (s : State) :
    (reportUncorrectable l r s).upsets = s.upsets := rfl

@[simp] theorem reportUncorrectable_loader (l : WordLoc) (r : Reader) (s : State) :
    (reportUncorrectable l r s).loader = s.loader := rfl

@[simp] theorem reportUncorrectable_carousel (l : WordLoc) (r : Reader) (s : State) :
    (reportUncorrectable l r s).carousel = s.carousel := rfl

@[simp] theorem reportUncorrectable_links (l : WordLoc) (r : Reader) (s : State) :
    (reportUncorrectable l r s).links = s.links := rfl

@[simp] theorem reportUncorrectable_table (l : WordLoc) (r : Reader) (s : State) :
    (reportUncorrectable l r s).table = s.table := rfl

@[simp] theorem reportUncorrectable_clock (l : WordLoc) (r : Reader) (s : State) :
    (reportUncorrectable l r s).clock = s.clock := rfl

@[simp] theorem reportUncorrectable_cutover (l : WordLoc) (r : Reader) (s : State) :
    (reportUncorrectable l r s).cutover = s.cutover := rfl

@[simp] theorem reportUncorrectable_lookups (l : WordLoc) (r : Reader) (s : State) :
    (reportUncorrectable l r s).lookups = s.lookups := rfl

@[simp] theorem reportUncorrectable_scrub (l : WordLoc) (r : Reader) (s : State) :
    (reportUncorrectable l r s).scrub = s.scrub := rfl

@[simp] theorem reportUncorrectable_port (l : WordLoc) (r : Reader) (s : State) :
    (reportUncorrectable l r s).port = s.port := rfl

@[simp] theorem reportUncorrectable_free (l : WordLoc) (r : Reader) (s : State) :
    (reportUncorrectable l r s).free = s.free := rfl

@[simp] theorem reportUncorrectable_pending (l : WordLoc) (r : Reader) (s : State) :
    (reportUncorrectable l r s).pending = s.pending := rfl

@[simp] theorem reportUncorrectable_bank (l : WordLoc) (r : Reader) (s : State) (c : BankId) :
    (reportUncorrectable l r s).bank c = s.bank c := rfl

@[simp] theorem reportUncorrectable_recOf (l : WordLoc) (r : Reader) (s : State) (c : BankId) :
    (reportUncorrectable l r s).recOf c = s.recOf c := rfl

@[simp] theorem reportUncorrectable_findBank (l : WordLoc) (r : Reader) (s : State) (t : BankState) :
    (reportUncorrectable l r s).findBank t = s.findBank t := rfl

@[simp] theorem reportUncorrectable_inForce (l : WordLoc) (r : Reader) (s : State) :
    (reportUncorrectable l r s).inForce = s.inForce := rfl

@[simp] theorem reportUncorrectable_pendingBank (l : WordLoc) (r : Reader) (s : State) :
    (reportUncorrectable l r s).pendingBank = s.pendingBank := rfl

@[simp] theorem reportUncorrectable_activation (l : WordLoc) (r : Reader) (s : State) :
    (reportUncorrectable l r s).activation = s.activation := rfl

@[simp] theorem reportUncorrectable_link (l : WordLoc) (r : Reader) (s : State) (j : LinkId) :
    (reportUncorrectable l r s).link j = s.link j := rfl

@[simp] theorem reportUncorrectable_entry (l : WordLoc) (r : Reader) (s : State) (j : LinkId) :
    (reportUncorrectable l r s).entry j = s.entry j := rfl

@[simp] theorem correctWord_inReset (u : Upset) (s : State) :
    (correctWord u s).inReset = s.inReset := rfl

@[simp] theorem correctWord_banks (u : Upset) (s : State) :
    (correctWord u s).banks = s.banks := rfl

@[simp] theorem correctWord_lastSeq (u : Upset) (s : State) :
    (correctWord u s).lastSeq = s.lastSeq := rfl

@[simp] theorem correctWord_closeResult (u : Upset) (s : State) :
    (correctWord u s).closeResult = s.closeResult := rfl

@[simp] theorem correctWord_closeDay (u : Upset) (s : State) :
    (correctWord u s).closeDay = s.closeDay := rfl

@[simp] theorem correctWord_copied (u : Upset) (s : State) :
    (correctWord u s).copied = s.copied := rfl

@[simp] theorem correctWord_loader (u : Upset) (s : State) :
    (correctWord u s).loader = s.loader := rfl

@[simp] theorem correctWord_carousel (u : Upset) (s : State) :
    (correctWord u s).carousel = s.carousel := rfl

@[simp] theorem correctWord_links (u : Upset) (s : State) :
    (correctWord u s).links = s.links := rfl

@[simp] theorem correctWord_table (u : Upset) (s : State) :
    (correctWord u s).table = s.table := rfl

@[simp] theorem correctWord_clock (u : Upset) (s : State) :
    (correctWord u s).clock = s.clock := rfl

@[simp] theorem correctWord_cutover (u : Upset) (s : State) :
    (correctWord u s).cutover = s.cutover := rfl

@[simp] theorem correctWord_lookups (u : Upset) (s : State) :
    (correctWord u s).lookups = s.lookups := rfl

@[simp] theorem correctWord_scrub (u : Upset) (s : State) :
    (correctWord u s).scrub = s.scrub := rfl

@[simp] theorem correctWord_port (u : Upset) (s : State) :
    (correctWord u s).port = s.port := rfl

@[simp] theorem correctWord_free (u : Upset) (s : State) :
    (correctWord u s).free = s.free := rfl

@[simp] theorem correctWord_pending (u : Upset) (s : State) :
    (correctWord u s).pending = s.pending := rfl

@[simp] theorem correctWord_bank (u : Upset) (s : State) (c : BankId) :
    (correctWord u s).bank c = s.bank c := rfl

@[simp] theorem correctWord_recOf (u : Upset) (s : State) (c : BankId) :
    (correctWord u s).recOf c = s.recOf c := rfl

@[simp] theorem correctWord_findBank (u : Upset) (s : State) (t : BankState) :
    (correctWord u s).findBank t = s.findBank t := rfl

@[simp] theorem correctWord_inForce (u : Upset) (s : State) :
    (correctWord u s).inForce = s.inForce := rfl

@[simp] theorem correctWord_pendingBank (u : Upset) (s : State) :
    (correctWord u s).pendingBank = s.pendingBank := rfl

@[simp] theorem correctWord_activation (u : Upset) (s : State) :
    (correctWord u s).activation = s.activation := rfl

@[simp] theorem correctWord_link (u : Upset) (s : State) (j : LinkId) :
    (correctWord u s).link j = s.link j := rfl

@[simp] theorem correctWord_entry (u : Upset) (s : State) (j : LinkId) :
    (correctWord u s).entry j = s.entry j := rfl

@[simp] theorem writeRanges_inReset (b : BankId) (n : RangeRegion) (s : State) :
    (writeRanges b n s).inReset = s.inReset := rfl

@[simp] theorem writeRanges_lastSeq (b : BankId) (n : RangeRegion) (s : State) :
    (writeRanges b n s).lastSeq = s.lastSeq := rfl

@[simp] theorem writeRanges_closeResult (b : BankId) (n : RangeRegion) (s : State) :
    (writeRanges b n s).closeResult = s.closeResult := rfl

@[simp] theorem writeRanges_closeDay (b : BankId) (n : RangeRegion) (s : State) :
    (writeRanges b n s).closeDay = s.closeDay := rfl

@[simp] theorem writeRanges_copied (b : BankId) (n : RangeRegion) (s : State) :
    (writeRanges b n s).copied = s.copied := rfl

@[simp] theorem writeRanges_loader (b : BankId) (n : RangeRegion) (s : State) :
    (writeRanges b n s).loader = s.loader := rfl

@[simp] theorem writeRanges_carousel (b : BankId) (n : RangeRegion) (s : State) :
    (writeRanges b n s).carousel = s.carousel := rfl

@[simp] theorem writeRanges_links (b : BankId) (n : RangeRegion) (s : State) :
    (writeRanges b n s).links = s.links := rfl

@[simp] theorem writeRanges_table (b : BankId) (n : RangeRegion) (s : State) :
    (writeRanges b n s).table = s.table := rfl

@[simp] theorem writeRanges_clock (b : BankId) (n : RangeRegion) (s : State) :
    (writeRanges b n s).clock = s.clock := rfl

@[simp] theorem writeRanges_cutover (b : BankId) (n : RangeRegion) (s : State) :
    (writeRanges b n s).cutover = s.cutover := rfl

@[simp] theorem writeRanges_lookups (b : BankId) (n : RangeRegion) (s : State) :
    (writeRanges b n s).lookups = s.lookups := rfl

@[simp] theorem writeRanges_events (b : BankId) (n : RangeRegion) (s : State) :
    (writeRanges b n s).events = s.events := rfl

@[simp] theorem writeRanges_scrub (b : BankId) (n : RangeRegion) (s : State) :
    (writeRanges b n s).scrub = s.scrub := rfl

@[simp] theorem writeRanges_port (b : BankId) (n : RangeRegion) (s : State) :
    (writeRanges b n s).port = s.port := rfl

@[simp] theorem writeRanges_free (b : BankId) (n : RangeRegion) (s : State) :
    (writeRanges b n s).free = s.free := rfl

@[simp] theorem writeRanges_pending (b : BankId) (n : RangeRegion) (s : State) :
    (writeRanges b n s).pending = s.pending := rfl

@[simp] theorem writeRanges_link (b : BankId) (n : RangeRegion) (s : State) (j : LinkId) :
    (writeRanges b n s).link j = s.link j := rfl

@[simp] theorem writeRanges_entry (b : BankId) (n : RangeRegion) (s : State) (j : LinkId) :
    (writeRanges b n s).entry j = s.entry j := rfl

@[simp] theorem emptyTable_inReset (b : BankId) (s : State) :
    (emptyTable b s).inReset = s.inReset := rfl

@[simp] theorem emptyTable_lastSeq (b : BankId) (s : State) :
    (emptyTable b s).lastSeq = s.lastSeq := rfl

@[simp] theorem emptyTable_closeResult (b : BankId) (s : State) :
    (emptyTable b s).closeResult = s.closeResult := rfl

@[simp] theorem emptyTable_closeDay (b : BankId) (s : State) :
    (emptyTable b s).closeDay = s.closeDay := rfl

@[simp] theorem emptyTable_copied (b : BankId) (s : State) :
    (emptyTable b s).copied = s.copied := rfl

@[simp] theorem emptyTable_loader (b : BankId) (s : State) :
    (emptyTable b s).loader = s.loader := rfl

@[simp] theorem emptyTable_carousel (b : BankId) (s : State) :
    (emptyTable b s).carousel = s.carousel := rfl

@[simp] theorem emptyTable_links (b : BankId) (s : State) :
    (emptyTable b s).links = s.links := rfl

@[simp] theorem emptyTable_table (b : BankId) (s : State) :
    (emptyTable b s).table = s.table := rfl

@[simp] theorem emptyTable_clock (b : BankId) (s : State) :
    (emptyTable b s).clock = s.clock := rfl

@[simp] theorem emptyTable_cutover (b : BankId) (s : State) :
    (emptyTable b s).cutover = s.cutover := rfl

@[simp] theorem emptyTable_lookups (b : BankId) (s : State) :
    (emptyTable b s).lookups = s.lookups := rfl

@[simp] theorem emptyTable_events (b : BankId) (s : State) :
    (emptyTable b s).events = s.events := rfl

@[simp] theorem emptyTable_scrub (b : BankId) (s : State) :
    (emptyTable b s).scrub = s.scrub := rfl

@[simp] theorem emptyTable_port (b : BankId) (s : State) :
    (emptyTable b s).port = s.port := rfl

@[simp] theorem emptyTable_free (b : BankId) (s : State) :
    (emptyTable b s).free = s.free := rfl

@[simp] theorem emptyTable_pending (b : BankId) (s : State) :
    (emptyTable b s).pending = s.pending := rfl

@[simp] theorem emptyTable_link (b : BankId) (s : State) (j : LinkId) :
    (emptyTable b s).link j = s.link j := rfl

@[simp] theorem emptyTable_entry (b : BankId) (s : State) (j : LinkId) :
    (emptyTable b s).entry j = s.entry j := rfl

@[simp] theorem writeTariff_inReset (b : BankId) (t : TariffPackage) (n : Nat) (s : State) :
    (writeTariff b t n s).inReset = s.inReset := rfl

@[simp] theorem writeTariff_lastSeq (b : BankId) (t : TariffPackage) (n : Nat) (s : State) :
    (writeTariff b t n s).lastSeq = s.lastSeq := rfl

@[simp] theorem writeTariff_closeResult (b : BankId) (t : TariffPackage) (n : Nat) (s : State) :
    (writeTariff b t n s).closeResult = s.closeResult := rfl

@[simp] theorem writeTariff_closeDay (b : BankId) (t : TariffPackage) (n : Nat) (s : State) :
    (writeTariff b t n s).closeDay = s.closeDay := rfl

@[simp] theorem writeTariff_copied (b : BankId) (t : TariffPackage) (n : Nat) (s : State) :
    (writeTariff b t n s).copied = s.copied := rfl

@[simp] theorem writeTariff_loader (b : BankId) (t : TariffPackage) (n : Nat) (s : State) :
    (writeTariff b t n s).loader = s.loader := rfl

@[simp] theorem writeTariff_carousel (b : BankId) (t : TariffPackage) (n : Nat) (s : State) :
    (writeTariff b t n s).carousel = s.carousel := rfl

@[simp] theorem writeTariff_links (b : BankId) (t : TariffPackage) (n : Nat) (s : State) :
    (writeTariff b t n s).links = s.links := rfl

@[simp] theorem writeTariff_table (b : BankId) (t : TariffPackage) (n : Nat) (s : State) :
    (writeTariff b t n s).table = s.table := rfl

@[simp] theorem writeTariff_clock (b : BankId) (t : TariffPackage) (n : Nat) (s : State) :
    (writeTariff b t n s).clock = s.clock := rfl

@[simp] theorem writeTariff_cutover (b : BankId) (t : TariffPackage) (n : Nat) (s : State) :
    (writeTariff b t n s).cutover = s.cutover := rfl

@[simp] theorem writeTariff_lookups (b : BankId) (t : TariffPackage) (n : Nat) (s : State) :
    (writeTariff b t n s).lookups = s.lookups := rfl

@[simp] theorem writeTariff_events (b : BankId) (t : TariffPackage) (n : Nat) (s : State) :
    (writeTariff b t n s).events = s.events := rfl

@[simp] theorem writeTariff_scrub (b : BankId) (t : TariffPackage) (n : Nat) (s : State) :
    (writeTariff b t n s).scrub = s.scrub := rfl

@[simp] theorem writeTariff_port (b : BankId) (t : TariffPackage) (n : Nat) (s : State) :
    (writeTariff b t n s).port = s.port := rfl

@[simp] theorem writeTariff_free (b : BankId) (t : TariffPackage) (n : Nat) (s : State) :
    (writeTariff b t n s).free = s.free := rfl

@[simp] theorem writeTariff_pending (b : BankId) (t : TariffPackage) (n : Nat) (s : State) :
    (writeTariff b t n s).pending = s.pending := rfl

@[simp] theorem writeTariff_link (b : BankId) (t : TariffPackage) (n : Nat) (s : State) (j : LinkId) :
    (writeTariff b t n s).link j = s.link j := rfl

@[simp] theorem writeTariff_entry (b : BankId) (t : TariffPackage) (n : Nat) (s : State) (j : LinkId) :
    (writeTariff b t n s).entry j = s.entry j := rfl

@[simp] theorem idleLoader_inReset (s : State) :
    (idleLoader s).inReset = s.inReset := rfl

@[simp] theorem idleLoader_banks (s : State) :
    (idleLoader s).banks = s.banks := rfl

@[simp] theorem idleLoader_lastSeq (s : State) :
    (idleLoader s).lastSeq = s.lastSeq := rfl

@[simp] theorem idleLoader_closeResult (s : State) :
    (idleLoader s).closeResult = s.closeResult := rfl

@[simp] theorem idleLoader_closeDay (s : State) :
    (idleLoader s).closeDay = s.closeDay := rfl

@[simp] theorem idleLoader_copied (s : State) :
    (idleLoader s).copied = s.copied := rfl

@[simp] theorem idleLoader_upsets (s : State) :
    (idleLoader s).upsets = s.upsets := rfl

@[simp] theorem idleLoader_carousel (s : State) :
    (idleLoader s).carousel = s.carousel := rfl

@[simp] theorem idleLoader_links (s : State) :
    (idleLoader s).links = s.links := rfl

@[simp] theorem idleLoader_table (s : State) :
    (idleLoader s).table = s.table := rfl

@[simp] theorem idleLoader_clock (s : State) :
    (idleLoader s).clock = s.clock := rfl

@[simp] theorem idleLoader_cutover (s : State) :
    (idleLoader s).cutover = s.cutover := rfl

@[simp] theorem idleLoader_lookups (s : State) :
    (idleLoader s).lookups = s.lookups := rfl

@[simp] theorem idleLoader_events (s : State) :
    (idleLoader s).events = s.events := rfl

@[simp] theorem idleLoader_scrub (s : State) :
    (idleLoader s).scrub = s.scrub := rfl

@[simp] theorem idleLoader_port (s : State) :
    (idleLoader s).port = s.port := rfl

@[simp] theorem idleLoader_free (s : State) :
    (idleLoader s).free = s.free := rfl

@[simp] theorem idleLoader_pending (s : State) :
    (idleLoader s).pending = s.pending := rfl

@[simp] theorem idleLoader_bank (s : State) (c : BankId) :
    (idleLoader s).bank c = s.bank c := rfl

@[simp] theorem idleLoader_recOf (s : State) (c : BankId) :
    (idleLoader s).recOf c = s.recOf c := rfl

@[simp] theorem idleLoader_findBank (s : State) (t : BankState) :
    (idleLoader s).findBank t = s.findBank t := rfl

@[simp] theorem idleLoader_inForce (s : State) :
    (idleLoader s).inForce = s.inForce := rfl

@[simp] theorem idleLoader_pendingBank (s : State) :
    (idleLoader s).pendingBank = s.pendingBank := rfl

@[simp] theorem idleLoader_activation (s : State) :
    (idleLoader s).activation = s.activation := rfl

@[simp] theorem idleLoader_link (s : State) (j : LinkId) :
    (idleLoader s).link j = s.link j := rfl

@[simp] theorem idleLoader_entry (s : State) (j : LinkId) :
    (idleLoader s).entry j = s.entry j := rfl

@[simp] theorem strikeAll_inReset (us : List Upset) (s : State) :
    (strikeAll us s).inReset = s.inReset := rfl

@[simp] theorem strikeAll_banks (us : List Upset) (s : State) :
    (strikeAll us s).banks = s.banks := rfl

@[simp] theorem strikeAll_lastSeq (us : List Upset) (s : State) :
    (strikeAll us s).lastSeq = s.lastSeq := rfl

@[simp] theorem strikeAll_closeResult (us : List Upset) (s : State) :
    (strikeAll us s).closeResult = s.closeResult := rfl

@[simp] theorem strikeAll_closeDay (us : List Upset) (s : State) :
    (strikeAll us s).closeDay = s.closeDay := rfl

@[simp] theorem strikeAll_copied (us : List Upset) (s : State) :
    (strikeAll us s).copied = s.copied := rfl

@[simp] theorem strikeAll_loader (us : List Upset) (s : State) :
    (strikeAll us s).loader = s.loader := rfl

@[simp] theorem strikeAll_carousel (us : List Upset) (s : State) :
    (strikeAll us s).carousel = s.carousel := rfl

@[simp] theorem strikeAll_links (us : List Upset) (s : State) :
    (strikeAll us s).links = s.links := rfl

@[simp] theorem strikeAll_table (us : List Upset) (s : State) :
    (strikeAll us s).table = s.table := rfl

@[simp] theorem strikeAll_clock (us : List Upset) (s : State) :
    (strikeAll us s).clock = s.clock := rfl

@[simp] theorem strikeAll_cutover (us : List Upset) (s : State) :
    (strikeAll us s).cutover = s.cutover := rfl

@[simp] theorem strikeAll_lookups (us : List Upset) (s : State) :
    (strikeAll us s).lookups = s.lookups := rfl

@[simp] theorem strikeAll_events (us : List Upset) (s : State) :
    (strikeAll us s).events = s.events := rfl

@[simp] theorem strikeAll_scrub (us : List Upset) (s : State) :
    (strikeAll us s).scrub = s.scrub := rfl

@[simp] theorem strikeAll_port (us : List Upset) (s : State) :
    (strikeAll us s).port = s.port := rfl

@[simp] theorem strikeAll_free (us : List Upset) (s : State) :
    (strikeAll us s).free = s.free := rfl

@[simp] theorem strikeAll_pending (us : List Upset) (s : State) :
    (strikeAll us s).pending = s.pending := rfl

@[simp] theorem strikeAll_bank (us : List Upset) (s : State) (c : BankId) :
    (strikeAll us s).bank c = s.bank c := rfl

@[simp] theorem strikeAll_recOf (us : List Upset) (s : State) (c : BankId) :
    (strikeAll us s).recOf c = s.recOf c := rfl

@[simp] theorem strikeAll_findBank (us : List Upset) (s : State) (t : BankState) :
    (strikeAll us s).findBank t = s.findBank t := rfl

@[simp] theorem strikeAll_inForce (us : List Upset) (s : State) :
    (strikeAll us s).inForce = s.inForce := rfl

@[simp] theorem strikeAll_pendingBank (us : List Upset) (s : State) :
    (strikeAll us s).pendingBank = s.pendingBank := rfl

@[simp] theorem strikeAll_activation (us : List Upset) (s : State) :
    (strikeAll us s).activation = s.activation := rfl

@[simp] theorem strikeAll_link (us : List Upset) (s : State) (j : LinkId) :
    (strikeAll us s).link j = s.link j := rfl

@[simp] theorem strikeAll_entry (us : List Upset) (s : State) (j : LinkId) :
    (strikeAll us s).entry j = s.entry j := rfl

/-- A record replaced leaves every field of the table, the links and so on as they stand; the table's settings after an
entry is replaced. -/
@[simp] theorem State.setEntry_allReady (k : LinkId) (e : Entry) (s : State) :
    (State.setEntry k e s).table.allReady = s.table.allReady := rfl

@[simp] theorem State.setEntry_silenceLimit (k : LinkId) (e : Entry) (s : State) :
    (State.setEntry k e s).table.silenceLimit = s.table.silenceLimit := rfl

@[simp] theorem State.setEntry_mismatchLimit (k : LinkId) (e : Entry) (s : State) :
    (State.setEntry k e s).table.mismatchLimit = s.table.mismatchLimit := rfl

end Sys2Proof.Machine
end

