-- ==== Sys2Proof/Laws/Bytes.lean ====
section
/-!
SUPPORT. Fields as bytes and back, and the lengths of the encodings.
-/

namespace Sys2Proof.Machine

/-- Two adjacent fields of a value, put side by side, are the field that spans both. -/
theorem append_extract {w : Nat} (v : BitVec w) (lo m n : Nat) :
    v.extractLsb' (lo + n) m ++ v.extractLsb' lo n = v.extractLsb' lo (m + n) := by
  apply BitVec.eq_of_getLsbD_eq
  intro i hi
  simp only [BitVec.getLsbD_append, BitVec.getLsbD_extractLsb']
  by_cases h : i < n
  · simp [h, hi]
  · have h1 : i - n < m := by omega
    have h2 : lo + n + (i - n) = lo + i := by omega
    simp [h, hi, h1, h2]

/-- The field that spans a whole value is the value. -/
theorem extract_all {w : Nat} (v : BitVec w) : v.extractLsb' 0 w = v := by
  apply BitVec.eq_of_getLsbD_eq
  intro i hi
  simp [hi]

@[simp] theorem half_bytes (v : Half) : half (v.extractLsb' 8 8) (v.extractLsb' 0 8) = v :=
  (append_extract v 0 8 8).trans (extract_all v)

@[simp] theorem word24_bytes (v : BitVec 24) :
    word24 (v.extractLsb' 16 8) (v.extractLsb' 8 8) (v.extractLsb' 0 8) = v := by
  unfold word24
  rw [append_extract v 8 8 8, append_extract v 0 16 8, extract_all]

@[simp] theorem word32_bytes (v : Word32) :
    word32 (v.extractLsb' 24 8) (v.extractLsb' 16 8) (v.extractLsb' 8 8) (v.extractLsb' 0 8) = v := by
  unfold word32
  rw [append_extract v 16 8 8, append_extract v 8 16 8, append_extract v 0 24 8, extract_all]

@[simp] theorem card56_bytes (v : Card) :
    card56 (v.extractLsb' 48 8) (v.extractLsb' 40 8) (v.extractLsb' 32 8) (v.extractLsb' 24 8) (v.extractLsb' 16 8)
      (v.extractLsb' 8 8) (v.extractLsb' 0 8) = v := by
  unfold card56
  rw [append_extract v 40 8 8, append_extract v 32 16 8, append_extract v 24 24 8, append_extract v 16 32 8,
    append_extract v 8 40 8, append_extract v 0 48 8, extract_all]

@[simp] theorem be16_length (v : Half) : (be16 v).length = 2 := rfl

@[simp] theorem be24_length (v : BitVec 24) : (be24 v).length = 3 := rfl

@[simp] theorem be32_length (v : Word32) : (be32 v).length = 4 := rfl

@[simp] theorem be48_length (v : Card) : (be48 v).length = 6 := rfl

@[simp] theorem be56_length (v : Card) : (be56 v).length = 7 := rfl

@[simp] theorem n16_length (n : Nat) : (n16 n).length = 2 := rfl

theorem n8_toNat {n : Nat} (h : n < 256) : (n8 n).toNat = n := by
  simp only [n8, BitVec.toNat_ofNat]; omega

/-- A presence byte and the field: one byte more than the field, present or not. -/
theorem optional_length {α : Type} (width : Nat) (enc : α → List Byte) (h : ∀ x, (enc x).length = width) (o : Option α) :
    (optional width enc o).length = width + 1 := by
  cases o with
  | none => simp [optional]
  | some x => simp [optional, h x]

/-- A class record is 7 bytes (R53). -/
@[simp] theorem encodeClass_length (c : ClassRec) : (encodeClass c).length = 7 := rfl

/-- A range record is 15 bytes (R200). -/
@[simp] theorem encodeRecord_length (r : RangeRec) : (encodeRecord r).length = 15 := rfl

/-- A link frame is 5 bytes longer than its body (R116). -/
@[simp] theorem linkFrame_length (kind : Byte) (body : List Byte) : (linkFrame kind body).length = body.length + 5 := by
  simp [linkFrame]; omega

/-- A response is 6 bytes longer than its body (R195). -/
@[simp] theorem responseBytes_length (r : Response) : (responseBytes r).length = r.body.length + 6 := by
  simp [responseBytes]; omega

/-- A message is 6 bytes longer than its body (R193). -/
@[simp] theorem sealMessage_length (type : Byte) (tag : Half) (body : List Byte) :
    (sealMessage type tag body).length = body.length + 6 := by
  simp [sealMessage]; omega

/-- A sealed message passes checks 1 and 2 of R193. -/
theorem judgeMessage_sealMessage (type : Byte) (tag : Half) (body : List Byte) (h : body.length ≤ 250) :
    judgeMessage (sealMessage type tag body) = decodeBody type tag body := by
  have hn : (n8 body.length).toNat = body.length := n8_toNat (by omega)
  have hl := sealMessage_length type tag body
  have hs : sealMessage type tag body =
      type :: tag.extractLsb' 8 8 :: tag.extractLsb' 0 8 :: n8 body.length ::
        (body ++ be16 (crc16 (type :: (be16 tag ++ n8 body.length :: body)))) := by
    simp [sealMessage, be16]
  rw [hs] at hl ⊢
  have h1 : ¬250 < body.length := by omega
  simp only [judgeMessage, hn, hl, List.take_left', List.drop_left', half_bytes]
  simp [h1, be16]
  omega

/-- The message that carries a command begins with its type, tag and body length and ends with its CRC-16. -/
theorem encodeMessage_of (i : Instr) (type : Byte) (tag : Half) (body : List Byte) (h : messageOf i = some (type, tag, body)) :
    encodeMessage i = sealMessage type tag body := by simp [encodeMessage, h]

/-- The tag of a sealed message is read back. -/
@[simp] theorem messageTag_sealMessage (type : Byte) (tag : Half) (body : List Byte) :
    messageTag (sealMessage type tag body) = tag := by
  simp [messageTag, sealMessage, be16]

end Sys2Proof.Machine
end

