-- ==== Sys2Proof/Laws/Frames.lean ====
section
/-!
SUPPORT. What the shared operations leave alone: one lemma per operation and untouched field. An operation that is not
named with a field here may change that field.
-/

namespace Sys2Proof.Machine

/-- What every step of a fold keeps, the fold keeps. -/
theorem foldl_keeps {α β γ : Type} (f : β → γ) (g : β → α → β) (h : ∀ b a, f (g b a) = f b) (l : List α) (b : β) :
    f (l.foldl g b) = f b := by
  induction l generalizing b with
  | nil => rfl
  | cons a l ih => rw [List.foldl_cons, ih, h]

/-- What every step of a fold keeps true, the fold keeps true. -/
theorem foldl_invariant {α β : Type} (P : β → Prop) (g : β → α → β) (h : ∀ b a, P b → P (g b a)) (l : List α) (b : β)
    (hb : P b) : P (l.foldl g b) := by
  induction l generalizing b with
  | nil => exact hb
  | cons a l ih => exact ih _ (h _ _ hb)

/-! ### evalReady -/

@[simp] theorem evalReady_inReset (s : State) : (evalReady s).inReset = s.inReset := by
  unfold evalReady; repeat' (first | split | dsimp only)
  all_goals simp

@[simp] theorem evalReady_banks (s : State) : (evalReady s).banks = s.banks := by
  unfold evalReady; repeat' (first | split | dsimp only)
  all_goals simp

@[simp] theorem evalReady_lastSeq (s : State) : (evalReady s).lastSeq = s.lastSeq := by
  unfold evalReady; repeat' (first | split | dsimp only)
  all_goals simp

@[simp] theorem evalReady_closeResult (s : State) : (evalReady s).closeResult = s.closeResult := by
  unfold evalReady; repeat' (first | split | dsimp only)
  all_goals simp

@[simp] theorem evalReady_closeDay (s : State) : (evalReady s).closeDay = s.closeDay := by
  unfold evalReady; repeat' (first | split | dsimp only)
  all_goals simp

@[simp] theorem evalReady_copied (s : State) : (evalReady s).copied = s.copied := by
  unfold evalReady; repeat' (first | split | dsimp only)
  all_goals simp

@[simp] theorem evalReady_upsets (s : State) : (evalReady s).upsets = s.upsets := by
  unfold evalReady; repeat' (first | split | dsimp only)
  all_goals simp

@[simp] theorem evalReady_loader (s : State) : (evalReady s).loader = s.loader := by
  unfold evalReady; repeat' (first | split | dsimp only)
  all_goals simp

@[simp] theorem evalReady_carousel (s : State) : (evalReady s).carousel = s.carousel := by
  unfold evalReady; repeat' (first | split | dsimp only)
  all_goals simp

@[simp] theorem evalReady_links (s : State) : (evalReady s).links = s.links := by
  unfold evalReady; repeat' (first | split | dsimp only)
  all_goals simp

@[simp] theorem evalReady_clock (s : State) : (evalReady s).clock = s.clock := by
  unfold evalReady; repeat' (first | split | dsimp only)
  all_goals simp

@[simp] theorem evalReady_cutover (s : State) : (evalReady s).cutover = s.cutover := by
  unfold evalReady; repeat' (first | split | dsimp only)
  all_goals simp

@[simp] theorem evalReady_lookups (s : State) : (evalReady s).lookups = s.lookups := by
  unfold evalReady; repeat' (first | split | dsimp only)
  all_goals simp

@[simp] theorem evalReady_scrub (s : State) : (evalReady s).scrub = s.scrub := by
  unfold evalReady; repeat' (first | split | dsimp only)
  all_goals simp

@[simp] theorem evalReady_port (s : State) : (evalReady s).port = s.port := by
  unfold evalReady; repeat' (first | split | dsimp only)
  all_goals simp

@[simp] theorem evalReady_free (s : State) : (evalReady s).free = s.free := by
  unfold evalReady; repeat' (first | split | dsimp only)
  all_goals simp

@[simp] theorem evalReady_pending (s : State) : (evalReady s).pending = s.pending := by
  unfold evalReady; repeat' (first | split | dsimp only)
  all_goals simp

/-! ### beginBuild -/

@[simp] theorem beginBuild_inReset (b : BankId) (o : BuildOption) (s : State) : (beginBuild b o s).inReset = s.inReset := by cases o <;> rfl

@[simp] theorem beginBuild_lastSeq (b : BankId) (o : BuildOption) (s : State) : (beginBuild b o s).lastSeq = s.lastSeq := by cases o <;> rfl

@[simp] theorem beginBuild_closeResult (b : BankId) (o : BuildOption) (s : State) : (beginBuild b o s).closeResult = s.closeResult := by cases o <;> rfl

@[simp] theorem beginBuild_closeDay (b : BankId) (o : BuildOption) (s : State) : (beginBuild b o s).closeDay = s.closeDay := by cases o <;> rfl

@[simp] theorem beginBuild_loader (b : BankId) (o : BuildOption) (s : State) : (beginBuild b o s).loader = s.loader := by cases o <;> rfl

@[simp] theorem beginBuild_carousel (b : BankId) (o : BuildOption) (s : State) : (beginBuild b o s).carousel = s.carousel := by cases o <;> rfl

@[simp] theorem beginBuild_links (b : BankId) (o : BuildOption) (s : State) : (beginBuild b o s).links = s.links := by cases o <;> rfl

@[simp] theorem beginBuild_table (b : BankId) (o : BuildOption) (s : State) : (beginBuild b o s).table = s.table := by cases o <;> rfl

@[simp] theorem beginBuild_clock (b : BankId) (o : BuildOption) (s : State) : (beginBuild b o s).clock = s.clock := by cases o <;> rfl

@[simp] theorem beginBuild_cutover (b : BankId) (o : BuildOption) (s : State) : (beginBuild b o s).cutover = s.cutover := by cases o <;> rfl

@[simp] theorem beginBuild_lookups (b : BankId) (o : BuildOption) (s : State) : (beginBuild b o s).lookups = s.lookups := by cases o <;> rfl

@[simp] theorem beginBuild_scrub (b : BankId) (o : BuildOption) (s : State) : (beginBuild b o s).scrub = s.scrub := by cases o <;> rfl

@[simp] theorem beginBuild_port (b : BankId) (o : BuildOption) (s : State) : (beginBuild b o s).port = s.port := by cases o <;> rfl

@[simp] theorem beginBuild_free (b : BankId) (o : BuildOption) (s : State) : (beginBuild b o s).free = s.free := by cases o <;> rfl

@[simp] theorem beginBuild_pending (b : BankId) (o : BuildOption) (s : State) : (beginBuild b o s).pending = s.pending := by cases o <;> rfl

/-! ### drainDone -/

@[simp] theorem drainDone_inReset (b : BankId) (s : State) : (drainDone b s).inReset = s.inReset := by
  unfold drainDone; repeat' (first | split | dsimp only)
  all_goals simp

@[simp] theorem drainDone_lastSeq (b : BankId) (s : State) : (drainDone b s).lastSeq = s.lastSeq := by
  unfold drainDone; repeat' (first | split | dsimp only)
  all_goals simp

@[simp] theorem drainDone_closeResult (b : BankId) (s : State) : (drainDone b s).closeResult = s.closeResult := by
  unfold drainDone; repeat' (first | split | dsimp only)
  all_goals simp

@[simp] theorem drainDone_closeDay (b : BankId) (s : State) : (drainDone b s).closeDay = s.closeDay := by
  unfold drainDone; repeat' (first | split | dsimp only)
  all_goals simp

@[simp] theorem drainDone_loader (b : BankId) (s : State) : (drainDone b s).loader = s.loader := by
  unfold drainDone; repeat' (first | split | dsimp only)
  all_goals simp

@[simp] theorem drainDone_carousel (b : BankId) (s : State) : (drainDone b s).carousel = s.carousel := by
  unfold drainDone; repeat' (first | split | dsimp only)
  all_goals simp

@[simp] theorem drainDone_links (b : BankId) (s : State) : (drainDone b s).links = s.links := by
  unfold drainDone; repeat' (first | split | dsimp only)
  all_goals simp

@[simp] theorem drainDone_table (b : BankId) (s : State) : (drainDone b s).table = s.table := by
  unfold drainDone; repeat' (first | split | dsimp only)
  all_goals simp

@[simp] theorem drainDone_clock (b : BankId) (s : State) : (drainDone b s).clock = s.clock := by
  unfold drainDone; repeat' (first | split | dsimp only)
  all_goals simp

@[simp] theorem drainDone_cutover (b : BankId) (s : State) : (drainDone b s).cutover = s.cutover := by
  unfold drainDone; repeat' (first | split | dsimp only)
  all_goals simp

@[simp] theorem drainDone_lookups (b : BankId) (s : State) : (drainDone b s).lookups = s.lookups := by
  unfold drainDone; repeat' (first | split | dsimp only)
  all_goals simp

@[simp] theorem drainDone_port (b : BankId) (s : State) : (drainDone b s).port = s.port := by
  unfold drainDone; repeat' (first | split | dsimp only)
  all_goals simp

@[simp] theorem drainDone_free (b : BankId) (s : State) : (drainDone b s).free = s.free := by
  unfold drainDone; repeat' (first | split | dsimp only)
  all_goals simp

@[simp] theorem drainDone_pending (b : BankId) (s : State) : (drainDone b s).pending = s.pending := by
  unfold drainDone; repeat' (first | split | dsimp only)
  all_goals simp

/-! ### releaseReader -/

@[simp] theorem releaseReader_inReset (b : BankId) (s : State) : (releaseReader b s).inReset = s.inReset := by
  unfold releaseReader; repeat' (first | split | dsimp only)
  all_goals simp

@[simp] theorem releaseReader_lastSeq (b : BankId) (s : State) : (releaseReader b s).lastSeq = s.lastSeq := by
  unfold releaseReader; repeat' (first | split | dsimp only)
  all_goals simp

@[simp] theorem releaseReader_closeResult (b : BankId) (s : State) : (releaseReader b s).closeResult = s.closeResult := by
  unfold releaseReader; repeat' (first | split | dsimp only)
  all_goals simp

@[simp] theorem releaseReader_closeDay (b : BankId) (s : State) : (releaseReader b s).closeDay = s.closeDay := by
  unfold releaseReader; repeat' (first | split | dsimp only)
  all_goals simp

@[simp] theorem releaseReader_loader (b : BankId) (s : State) : (releaseReader b s).loader = s.loader := by
  unfold releaseReader; repeat' (first | split | dsimp only)
  all_goals simp

@[simp] theorem releaseReader_carousel (b : BankId) (s : State) : (releaseReader b s).carousel = s.carousel := by
  unfold releaseReader; repeat' (first | split | dsimp only)
  all_goals simp

@[simp] theorem releaseReader_links (b : BankId) (s : State) : (releaseReader b s).links = s.links := by
  unfold releaseReader; repeat' (first | split | dsimp only)
  all_goals simp

@[simp] theorem releaseReader_table (b : BankId) (s : State) : (releaseReader b s).table = s.table := by
  unfold releaseReader; repeat' (first | split | dsimp only)
  all_goals simp

@[simp] theorem releaseReader_clock (b : BankId) (s : State) : (releaseReader b s).clock = s.clock := by
  unfold releaseReader; repeat' (first | split | dsimp only)
  all_goals simp

@[simp] theorem releaseReader_cutover (b : BankId) (s : State) : (releaseReader b s).cutover = s.cutover := by
  unfold releaseReader; repeat' (first | split | dsimp only)
  all_goals simp

@[simp] theorem releaseReader_lookups (b : BankId) (s : State) : (releaseReader b s).lookups = s.lookups := by
  unfold releaseReader; repeat' (first | split | dsimp only)
  all_goals simp

@[simp] theorem releaseReader_port (b : BankId) (s : State) : (releaseReader b s).port = s.port := by
  unfold releaseReader; repeat' (first | split | dsimp only)
  all_goals simp

@[simp] theorem releaseReader_free (b : BankId) (s : State) : (releaseReader b s).free = s.free := by
  unfold releaseReader; repeat' (first | split | dsimp only)
  all_goals simp

@[simp] theorem releaseReader_pending (b : BankId) (s : State) : (releaseReader b s).pending = s.pending := by
  unfold releaseReader; repeat' (first | split | dsimp only)
  all_goals simp

/-! ### failCopyFrom -/

@[simp] theorem failCopyFrom_inReset (b : BankId) (s : State) : (failCopyFrom b s).inReset = s.inReset := by
  unfold failCopyFrom; repeat' (first | split | dsimp only)
  all_goals simp

@[simp] theorem failCopyFrom_lastSeq (b : BankId) (s : State) : (failCopyFrom b s).lastSeq = s.lastSeq := by
  unfold failCopyFrom; repeat' (first | split | dsimp only)
  all_goals simp

@[simp] theorem failCopyFrom_closeResult (b : BankId) (s : State) : (failCopyFrom b s).closeResult = s.closeResult := by
  unfold failCopyFrom; repeat' (first | split | dsimp only)
  all_goals simp

@[simp] theorem failCopyFrom_closeDay (b : BankId) (s : State) : (failCopyFrom b s).closeDay = s.closeDay := by
  unfold failCopyFrom; repeat' (first | split | dsimp only)
  all_goals simp

@[simp] theorem failCopyFrom_copied (b : BankId) (s : State) : (failCopyFrom b s).copied = s.copied := by
  unfold failCopyFrom; repeat' (first | split | dsimp only)
  all_goals simp

@[simp] theorem failCopyFrom_upsets (b : BankId) (s : State) : (failCopyFrom b s).upsets = s.upsets := by
  unfold failCopyFrom; repeat' (first | split | dsimp only)
  all_goals simp

@[simp] theorem failCopyFrom_loader (b : BankId) (s : State) : (failCopyFrom b s).loader = s.loader := by
  unfold failCopyFrom; repeat' (first | split | dsimp only)
  all_goals simp

@[simp] theorem failCopyFrom_carousel (b : BankId) (s : State) : (failCopyFrom b s).carousel = s.carousel := by
  unfold failCopyFrom; repeat' (first | split | dsimp only)
  all_goals simp

@[simp] theorem failCopyFrom_links (b : BankId) (s : State) : (failCopyFrom b s).links = s.links := by
  unfold failCopyFrom; repeat' (first | split | dsimp only)
  all_goals simp

@[simp] theorem failCopyFrom_table (b : BankId) (s : State) : (failCopyFrom b s).table = s.table := by
  unfold failCopyFrom; repeat' (first | split | dsimp only)
  all_goals simp

@[simp] theorem failCopyFrom_clock (b : BankId) (s : State) : (failCopyFrom b s).clock = s.clock := by
  unfold failCopyFrom; repeat' (first | split | dsimp only)
  all_goals simp

@[simp] theorem failCopyFrom_cutover (b : BankId) (s : State) : (failCopyFrom b s).cutover = s.cutover := by
  unfold failCopyFrom; repeat' (first | split | dsimp only)
  all_goals simp

@[simp] theorem failCopyFrom_lookups (b : BankId) (s : State) : (failCopyFrom b s).lookups = s.lookups := by
  unfold failCopyFrom; repeat' (first | split | dsimp only)
  all_goals simp

@[simp] theorem failCopyFrom_port (b : BankId) (s : State) : (failCopyFrom b s).port = s.port := by
  unfold failCopyFrom; repeat' (first | split | dsimp only)
  all_goals simp

@[simp] theorem failCopyFrom_free (b : BankId) (s : State) : (failCopyFrom b s).free = s.free := by
  unfold failCopyFrom; repeat' (first | split | dsimp only)
  all_goals simp

@[simp] theorem failCopyFrom_pending (b : BankId) (s : State) : (failCopyFrom b s).pending = s.pending := by
  unfold failCopyFrom; repeat' (first | split | dsimp only)
  all_goals simp

/-! ### takeCut -/

@[simp] theorem takeCut_inReset (k : LinkId) (s : State) : (takeCut k s).inReset = s.inReset := by
  unfold takeCut; repeat' (first | split | dsimp only)
  all_goals simp

@[simp] theorem takeCut_lastSeq (k : LinkId) (s : State) : (takeCut k s).lastSeq = s.lastSeq := by
  unfold takeCut; repeat' (first | split | dsimp only)
  all_goals simp

@[simp] theorem takeCut_closeResult (k : LinkId) (s : State) : (takeCut k s).closeResult = s.closeResult := by
  unfold takeCut; repeat' (first | split | dsimp only)
  all_goals simp

@[simp] theorem takeCut_closeDay (k : LinkId) (s : State) : (takeCut k s).closeDay = s.closeDay := by
  unfold takeCut; repeat' (first | split | dsimp only)
  all_goals simp

@[simp] theorem takeCut_loader (k : LinkId) (s : State) : (takeCut k s).loader = s.loader := by
  unfold takeCut; repeat' (first | split | dsimp only)
  all_goals simp

@[simp] theorem takeCut_carousel (k : LinkId) (s : State) : (takeCut k s).carousel = s.carousel := by
  unfold takeCut; repeat' (first | split | dsimp only)
  all_goals simp

@[simp] theorem takeCut_table (k : LinkId) (s : State) : (takeCut k s).table = s.table := by
  unfold takeCut; repeat' (first | split | dsimp only)
  all_goals simp

@[simp] theorem takeCut_clock (k : LinkId) (s : State) : (takeCut k s).clock = s.clock := by
  unfold takeCut; repeat' (first | split | dsimp only)
  all_goals simp

@[simp] theorem takeCut_cutover (k : LinkId) (s : State) : (takeCut k s).cutover = s.cutover := by
  unfold takeCut; repeat' (first | split | dsimp only)
  all_goals simp

@[simp] theorem takeCut_lookups (k : LinkId) (s : State) : (takeCut k s).lookups = s.lookups := by
  unfold takeCut; repeat' (first | split | dsimp only)
  all_goals simp

@[simp] theorem takeCut_port (k : LinkId) (s : State) : (takeCut k s).port = s.port := by
  unfold takeCut; repeat' (first | split | dsimp only)
  all_goals simp

@[simp] theorem takeCut_free (k : LinkId) (s : State) : (takeCut k s).free = s.free := by
  unfold takeCut; repeat' (first | split | dsimp only)
  all_goals simp

@[simp] theorem takeCut_pending (k : LinkId) (s : State) : (takeCut k s).pending = s.pending := by
  unfold takeCut; repeat' (first | split | dsimp only)
  all_goals simp

/-! ### composeEnd -/

@[simp] theorem composeEnd_inReset (k : LinkId) (s : State) : (composeEnd k s).inReset = s.inReset := by
  unfold composeEnd; repeat' (first | split | dsimp only)
  all_goals simp

@[simp] theorem composeEnd_lastSeq (k : LinkId) (s : State) : (composeEnd k s).lastSeq = s.lastSeq := by
  unfold composeEnd; repeat' (first | split | dsimp only)
  all_goals simp

@[simp] theorem composeEnd_closeResult (k : LinkId) (s : State) : (composeEnd k s).closeResult = s.closeResult := by
  unfold composeEnd; repeat' (first | split | dsimp only)
  all_goals simp

@[simp] theorem composeEnd_closeDay (k : LinkId) (s : State) : (composeEnd k s).closeDay = s.closeDay := by
  unfold composeEnd; repeat' (first | split | dsimp only)
  all_goals simp

@[simp] theorem composeEnd_loader (k : LinkId) (s : State) : (composeEnd k s).loader = s.loader := by
  unfold composeEnd; repeat' (first | split | dsimp only)
  all_goals simp

@[simp] theorem composeEnd_carousel (k : LinkId) (s : State) : (composeEnd k s).carousel = s.carousel := by
  unfold composeEnd; repeat' (first | split | dsimp only)
  all_goals simp

@[simp] theorem composeEnd_table (k : LinkId) (s : State) : (composeEnd k s).table = s.table := by
  unfold composeEnd; repeat' (first | split | dsimp only)
  all_goals simp

@[simp] theorem composeEnd_clock (k : LinkId) (s : State) : (composeEnd k s).clock = s.clock := by
  unfold composeEnd; repeat' (first | split | dsimp only)
  all_goals simp

@[simp] theorem composeEnd_cutover (k : LinkId) (s : State) : (composeEnd k s).cutover = s.cutover := by
  unfold composeEnd; repeat' (first | split | dsimp only)
  all_goals simp

@[simp] theorem composeEnd_lookups (k : LinkId) (s : State) : (composeEnd k s).lookups = s.lookups := by
  unfold composeEnd; repeat' (first | split | dsimp only)
  all_goals simp

@[simp] theorem composeEnd_port (k : LinkId) (s : State) : (composeEnd k s).port = s.port := by
  unfold composeEnd; repeat' (first | split | dsimp only)
  all_goals simp

@[simp] theorem composeEnd_free (k : LinkId) (s : State) : (composeEnd k s).free = s.free := by
  unfold composeEnd; repeat' (first | split | dsimp only)
  all_goals simp

@[simp] theorem composeEnd_pending (k : LinkId) (s : State) : (composeEnd k s).pending = s.pending := by
  unfold composeEnd; repeat' (first | split | dsimp only)
  all_goals simp

/-! ### cutCyclesOf -/

@[simp] theorem cutCyclesOf_inReset (b : BankId) (s : State) : (cutCyclesOf b s).inReset = s.inReset :=
  foldl_keeps (fun t : State => t.inReset) _ (fun t k => by split <;> simp) _ _

@[simp] theorem cutCyclesOf_lastSeq (b : BankId) (s : State) : (cutCyclesOf b s).lastSeq = s.lastSeq :=
  foldl_keeps (fun t : State => t.lastSeq) _ (fun t k => by split <;> simp) _ _

@[simp] theorem cutCyclesOf_closeResult (b : BankId) (s : State) : (cutCyclesOf b s).closeResult = s.closeResult :=
  foldl_keeps (fun t : State => t.closeResult) _ (fun t k => by split <;> simp) _ _

@[simp] theorem cutCyclesOf_closeDay (b : BankId) (s : State) : (cutCyclesOf b s).closeDay = s.closeDay :=
  foldl_keeps (fun t : State => t.closeDay) _ (fun t k => by split <;> simp) _ _

@[simp] theorem cutCyclesOf_loader (b : BankId) (s : State) : (cutCyclesOf b s).loader = s.loader :=
  foldl_keeps (fun t : State => t.loader) _ (fun t k => by split <;> simp) _ _

@[simp] theorem cutCyclesOf_carousel (b : BankId) (s : State) : (cutCyclesOf b s).carousel = s.carousel :=
  foldl_keeps (fun t : State => t.carousel) _ (fun t k => by split <;> simp) _ _

@[simp] theorem cutCyclesOf_table (b : BankId) (s : State) : (cutCyclesOf b s).table = s.table :=
  foldl_keeps (fun t : State => t.table) _ (fun t k => by split <;> simp) _ _

@[simp] theorem cutCyclesOf_clock (b : BankId) (s : State) : (cutCyclesOf b s).clock = s.clock :=
  foldl_keeps (fun t : State => t.clock) _ (fun t k => by split <;> simp) _ _

@[simp] theorem cutCyclesOf_cutover (b : BankId) (s : State) : (cutCyclesOf b s).cutover = s.cutover :=
  foldl_keeps (fun t : State => t.cutover) _ (fun t k => by split <;> simp) _ _

@[simp] theorem cutCyclesOf_lookups (b : BankId) (s : State) : (cutCyclesOf b s).lookups = s.lookups :=
  foldl_keeps (fun t : State => t.lookups) _ (fun t k => by split <;> simp) _ _

@[simp] theorem cutCyclesOf_port (b : BankId) (s : State) : (cutCyclesOf b s).port = s.port :=
  foldl_keeps (fun t : State => t.port) _ (fun t k => by split <;> simp) _ _

@[simp] theorem cutCyclesOf_free (b : BankId) (s : State) : (cutCyclesOf b s).free = s.free :=
  foldl_keeps (fun t : State => t.free) _ (fun t k => by split <;> simp) _ _

@[simp] theorem cutCyclesOf_pending (b : BankId) (s : State) : (cutCyclesOf b s).pending = s.pending :=
  foldl_keeps (fun t : State => t.pending) _ (fun t k => by split <;> simp) _ _

/-! ### promote -/

@[simp] theorem promote_inReset (p : BankId) (s : State) : (promote p s).inReset = s.inReset := by
  unfold promote; repeat' (first | split | dsimp only)
  all_goals simp

@[simp] theorem promote_lastSeq (p : BankId) (s : State) : (promote p s).lastSeq = s.lastSeq := by
  unfold promote; repeat' (first | split | dsimp only)
  all_goals simp

@[simp] theorem promote_closeResult (p : BankId) (s : State) : (promote p s).closeResult = s.closeResult := by
  unfold promote; repeat' (first | split | dsimp only)
  all_goals simp

@[simp] theorem promote_closeDay (p : BankId) (s : State) : (promote p s).closeDay = s.closeDay := by
  unfold promote; repeat' (first | split | dsimp only)
  all_goals simp

@[simp] theorem promote_copied (p : BankId) (s : State) : (promote p s).copied = s.copied := by
  unfold promote; repeat' (first | split | dsimp only)
  all_goals simp

@[simp] theorem promote_upsets (p : BankId) (s : State) : (promote p s).upsets = s.upsets := by
  unfold promote; repeat' (first | split | dsimp only)
  all_goals simp

@[simp] theorem promote_loader (p : BankId) (s : State) : (promote p s).loader = s.loader := by
  unfold promote; repeat' (first | split | dsimp only)
  all_goals simp

@[simp] theorem promote_carousel (p : BankId) (s : State) : (promote p s).carousel = s.carousel := by
  unfold promote; repeat' (first | split | dsimp only)
  all_goals simp

@[simp] theorem promote_links (p : BankId) (s : State) : (promote p s).links = s.links := by
  unfold promote; repeat' (first | split | dsimp only)
  all_goals simp

@[simp] theorem promote_table (p : BankId) (s : State) : (promote p s).table = s.table := by
  unfold promote; repeat' (first | split | dsimp only)
  all_goals simp

@[simp] theorem promote_clock (p : BankId) (s : State) : (promote p s).clock = s.clock := by
  unfold promote; repeat' (first | split | dsimp only)
  all_goals simp

@[simp] theorem promote_cutover (p : BankId) (s : State) : (promote p s).cutover = s.cutover := by
  unfold promote; repeat' (first | split | dsimp only)
  all_goals simp

@[simp] theorem promote_lookups (p : BankId) (s : State) : (promote p s).lookups = s.lookups := by
  unfold promote; repeat' (first | split | dsimp only)
  all_goals simp

@[simp] theorem promote_events (p : BankId) (s : State) : (promote p s).events = s.events := by
  unfold promote; repeat' (first | split | dsimp only)
  all_goals simp

@[simp] theorem promote_scrub (p : BankId) (s : State) : (promote p s).scrub = s.scrub := by
  unfold promote; repeat' (first | split | dsimp only)
  all_goals simp

@[simp] theorem promote_port (p : BankId) (s : State) : (promote p s).port = s.port := by
  unfold promote; repeat' (first | split | dsimp only)
  all_goals simp

@[simp] theorem promote_free (p : BankId) (s : State) : (promote p s).free = s.free := by
  unfold promote; repeat' (first | split | dsimp only)
  all_goals simp

@[simp] theorem promote_pending (p : BankId) (s : State) : (promote p s).pending = s.pending := by
  unfold promote; repeat' (first | split | dsimp only)
  all_goals simp

/-! ### performCutover -/

@[simp] theorem performCutover_inReset (c : Option Cause) (e : CutEnd) (s : State) : (performCutover c e s).inReset = s.inReset := by
  unfold performCutover; repeat' (first | split | dsimp only)
  all_goals simp

@[simp] theorem performCutover_lastSeq (c : Option Cause) (e : CutEnd) (s : State) : (performCutover c e s).lastSeq = s.lastSeq := by
  unfold performCutover; repeat' (first | split | dsimp only)
  all_goals simp

@[simp] theorem performCutover_closeResult (c : Option Cause) (e : CutEnd) (s : State) : (performCutover c e s).closeResult = s.closeResult := by
  unfold performCutover; repeat' (first | split | dsimp only)
  all_goals simp

@[simp] theorem performCutover_closeDay (c : Option Cause) (e : CutEnd) (s : State) : (performCutover c e s).closeDay = s.closeDay := by
  unfold performCutover; repeat' (first | split | dsimp only)
  all_goals simp

@[simp] theorem performCutover_loader (c : Option Cause) (e : CutEnd) (s : State) : (performCutover c e s).loader = s.loader := by
  unfold performCutover; repeat' (first | split | dsimp only)
  all_goals simp

@[simp] theorem performCutover_carousel (c : Option Cause) (e : CutEnd) (s : State) : (performCutover c e s).carousel = s.carousel := by
  unfold performCutover; repeat' (first | split | dsimp only)
  all_goals simp

@[simp] theorem performCutover_clock (c : Option Cause) (e : CutEnd) (s : State) : (performCutover c e s).clock = s.clock := by
  unfold performCutover; repeat' (first | split | dsimp only)
  all_goals simp

@[simp] theorem performCutover_lookups (c : Option Cause) (e : CutEnd) (s : State) : (performCutover c e s).lookups = s.lookups := by
  unfold performCutover; repeat' (first | split | dsimp only)
  all_goals simp

@[simp] theorem performCutover_port (c : Option Cause) (e : CutEnd) (s : State) : (performCutover c e s).port = s.port := by
  unfold performCutover; repeat' (first | split | dsimp only)
  all_goals simp

@[simp] theorem performCutover_free (c : Option Cause) (e : CutEnd) (s : State) : (performCutover c e s).free = s.free := by
  unfold performCutover; repeat' (first | split | dsimp only)
  all_goals simp

@[simp] theorem performCutover_pending (c : Option Cause) (e : CutEnd) (s : State) : (performCutover c e s).pending = s.pending := by
  unfold performCutover; repeat' (first | split | dsimp only)
  all_goals simp

/-! ### takeTrigger -/

@[simp] theorem takeTrigger_inReset (c : Cause) (s : State) : (takeTrigger c s).inReset = s.inReset := by
  unfold takeTrigger; repeat' (first | split | dsimp only)
  all_goals simp

@[simp] theorem takeTrigger_lastSeq (c : Cause) (s : State) : (takeTrigger c s).lastSeq = s.lastSeq := by
  unfold takeTrigger; repeat' (first | split | dsimp only)
  all_goals simp

@[simp] theorem takeTrigger_closeResult (c : Cause) (s : State) : (takeTrigger c s).closeResult = s.closeResult := by
  unfold takeTrigger; repeat' (first | split | dsimp only)
  all_goals simp

@[simp] theorem takeTrigger_closeDay (c : Cause) (s : State) : (takeTrigger c s).closeDay = s.closeDay := by
  unfold takeTrigger; repeat' (first | split | dsimp only)
  all_goals simp

@[simp] theorem takeTrigger_loader (c : Cause) (s : State) : (takeTrigger c s).loader = s.loader := by
  unfold takeTrigger; repeat' (first | split | dsimp only)
  all_goals simp

@[simp] theorem takeTrigger_carousel (c : Cause) (s : State) : (takeTrigger c s).carousel = s.carousel := by
  unfold takeTrigger; repeat' (first | split | dsimp only)
  all_goals simp

@[simp] theorem takeTrigger_clock (c : Cause) (s : State) : (takeTrigger c s).clock = s.clock := by
  unfold takeTrigger; repeat' (first | split | dsimp only)
  all_goals simp

@[simp] theorem takeTrigger_lookups (c : Cause) (s : State) : (takeTrigger c s).lookups = s.lookups := by
  unfold takeTrigger; repeat' (first | split | dsimp only)
  all_goals simp

@[simp] theorem takeTrigger_port (c : Cause) (s : State) : (takeTrigger c s).port = s.port := by
  unfold takeTrigger; repeat' (first | split | dsimp only)
  all_goals simp

@[simp] theorem takeTrigger_free (c : Cause) (s : State) : (takeTrigger c s).free = s.free := by
  unfold takeTrigger; repeat' (first | split | dsimp only)
  all_goals simp

@[simp] theorem takeTrigger_pending (c : Cause) (s : State) : (takeTrigger c s).pending = s.pending := by
  unfold takeTrigger; repeat' (first | split | dsimp only)
  all_goals simp

/-! ### tellReady -/

@[simp] theorem tellReady_inReset (s : State) : (tellReady s).inReset = s.inReset := by
  unfold tellReady; repeat' (first | split | dsimp only)
  all_goals simp

@[simp] theorem tellReady_lastSeq (s : State) : (tellReady s).lastSeq = s.lastSeq := by
  unfold tellReady; repeat' (first | split | dsimp only)
  all_goals simp

@[simp] theorem tellReady_closeResult (s : State) : (tellReady s).closeResult = s.closeResult := by
  unfold tellReady; repeat' (first | split | dsimp only)
  all_goals simp

@[simp] theorem tellReady_closeDay (s : State) : (tellReady s).closeDay = s.closeDay := by
  unfold tellReady; repeat' (first | split | dsimp only)
  all_goals simp

@[simp] theorem tellReady_loader (s : State) : (tellReady s).loader = s.loader := by
  unfold tellReady; repeat' (first | split | dsimp only)
  all_goals simp

@[simp] theorem tellReady_carousel (s : State) : (tellReady s).carousel = s.carousel := by
  unfold tellReady; repeat' (first | split | dsimp only)
  all_goals simp

@[simp] theorem tellReady_clock (s : State) : (tellReady s).clock = s.clock := by
  unfold tellReady; repeat' (first | split | dsimp only)
  all_goals simp

@[simp] theorem tellReady_lookups (s : State) : (tellReady s).lookups = s.lookups := by
  unfold tellReady; repeat' (first | split | dsimp only)
  all_goals simp

@[simp] theorem tellReady_port (s : State) : (tellReady s).port = s.port := by
  unfold tellReady; repeat' (first | split | dsimp only)
  all_goals simp

@[simp] theorem tellReady_free (s : State) : (tellReady s).free = s.free := by
  unfold tellReady; repeat' (first | split | dsimp only)
  all_goals simp

@[simp] theorem tellReady_pending (s : State) : (tellReady s).pending = s.pending := by
  unfold tellReady; repeat' (first | split | dsimp only)
  all_goals simp

/-! ### reevaluate -/

@[simp] theorem reevaluate_inReset (s : State) : (reevaluate s).inReset = s.inReset := by
  unfold reevaluate; repeat' (first | split | dsimp only)
  all_goals simp

@[simp] theorem reevaluate_lastSeq (s : State) : (reevaluate s).lastSeq = s.lastSeq := by
  unfold reevaluate; repeat' (first | split | dsimp only)
  all_goals simp

@[simp] theorem reevaluate_closeResult (s : State) : (reevaluate s).closeResult = s.closeResult := by
  unfold reevaluate; repeat' (first | split | dsimp only)
  all_goals simp

@[simp] theorem reevaluate_closeDay (s : State) : (reevaluate s).closeDay = s.closeDay := by
  unfold reevaluate; repeat' (first | split | dsimp only)
  all_goals simp

@[simp] theorem reevaluate_loader (s : State) : (reevaluate s).loader = s.loader := by
  unfold reevaluate; repeat' (first | split | dsimp only)
  all_goals simp

@[simp] theorem reevaluate_carousel (s : State) : (reevaluate s).carousel = s.carousel := by
  unfold reevaluate; repeat' (first | split | dsimp only)
  all_goals simp

@[simp] theorem reevaluate_clock (s : State) : (reevaluate s).clock = s.clock := by
  unfold reevaluate; repeat' (first | split | dsimp only)
  all_goals simp

@[simp] theorem reevaluate_lookups (s : State) : (reevaluate s).lookups = s.lookups := by
  unfold reevaluate; repeat' (first | split | dsimp only)
  all_goals simp

@[simp] theorem reevaluate_port (s : State) : (reevaluate s).port = s.port := by
  unfold reevaluate; repeat' (first | split | dsimp only)
  all_goals simp

@[simp] theorem reevaluate_free (s : State) : (reevaluate s).free = s.free := by
  unfold reevaluate; repeat' (first | split | dsimp only)
  all_goals simp

@[simp] theorem reevaluate_pending (s : State) : (reevaluate s).pending = s.pending := by
  unfold reevaluate; repeat' (first | split | dsimp only)
  all_goals simp

/-! ### examineAt -/

@[simp] theorem examineAt_inReset (s : State) : (examineAt s).inReset = s.inReset := by
  unfold examineAt; repeat' (first | split | dsimp only)
  all_goals simp

@[simp] theorem examineAt_lastSeq (s : State) : (examineAt s).lastSeq = s.lastSeq := by
  unfold examineAt; repeat' (first | split | dsimp only)
  all_goals simp

@[simp] theorem examineAt_closeResult (s : State) : (examineAt s).closeResult = s.closeResult := by
  unfold examineAt; repeat' (first | split | dsimp only)
  all_goals simp

@[simp] theorem examineAt_closeDay (s : State) : (examineAt s).closeDay = s.closeDay := by
  unfold examineAt; repeat' (first | split | dsimp only)
  all_goals simp

@[simp] theorem examineAt_loader (s : State) : (examineAt s).loader = s.loader := by
  unfold examineAt; repeat' (first | split | dsimp only)
  all_goals simp

@[simp] theorem examineAt_carousel (s : State) : (examineAt s).carousel = s.carousel := by
  unfold examineAt; repeat' (first | split | dsimp only)
  all_goals simp

@[simp] theorem examineAt_clock (s : State) : (examineAt s).clock = s.clock := by
  unfold examineAt; repeat' (first | split | dsimp only)
  all_goals simp

@[simp] theorem examineAt_lookups (s : State) : (examineAt s).lookups = s.lookups := by
  unfold examineAt; repeat' (first | split | dsimp only)
  all_goals simp

@[simp] theorem examineAt_port (s : State) : (examineAt s).port = s.port := by
  unfold examineAt; repeat' (first | split | dsimp only)
  all_goals simp

@[simp] theorem examineAt_free (s : State) : (examineAt s).free = s.free := by
  unfold examineAt; repeat' (first | split | dsimp only)
  all_goals simp

@[simp] theorem examineAt_pending (s : State) : (examineAt s).pending = s.pending := by
  unfold examineAt; repeat' (first | split | dsimp only)
  all_goals simp

/-! ### expireWait -/

@[simp] theorem expireWait_inReset (s : State) : (expireWait s).inReset = s.inReset := by
  unfold expireWait; repeat' (first | split | dsimp only)
  all_goals simp

@[simp] theorem expireWait_lastSeq (s : State) : (expireWait s).lastSeq = s.lastSeq := by
  unfold expireWait; repeat' (first | split | dsimp only)
  all_goals simp

@[simp] theorem expireWait_closeResult (s : State) : (expireWait s).closeResult = s.closeResult := by
  unfold expireWait; repeat' (first | split | dsimp only)
  all_goals simp

@[simp] theorem expireWait_closeDay (s : State) : (expireWait s).closeDay = s.closeDay := by
  unfold expireWait; repeat' (first | split | dsimp only)
  all_goals simp

@[simp] theorem expireWait_loader (s : State) : (expireWait s).loader = s.loader := by
  unfold expireWait; repeat' (first | split | dsimp only)
  all_goals simp

@[simp] theorem expireWait_carousel (s : State) : (expireWait s).carousel = s.carousel := by
  unfold expireWait; repeat' (first | split | dsimp only)
  all_goals simp

@[simp] theorem expireWait_clock (s : State) : (expireWait s).clock = s.clock := by
  unfold expireWait; repeat' (first | split | dsimp only)
  all_goals simp

@[simp] theorem expireWait_lookups (s : State) : (expireWait s).lookups = s.lookups := by
  unfold expireWait; repeat' (first | split | dsimp only)
  all_goals simp

@[simp] theorem expireWait_port (s : State) : (expireWait s).port = s.port := by
  unfold expireWait; repeat' (first | split | dsimp only)
  all_goals simp

@[simp] theorem expireWait_free (s : State) : (expireWait s).free = s.free := by
  unfold expireWait; repeat' (first | split | dsimp only)
  all_goals simp

@[simp] theorem expireWait_pending (s : State) : (expireWait s).pending = s.pending := by
  unfold expireWait; repeat' (first | split | dsimp only)
  all_goals simp

/-! ### endDeferral -/

@[simp] theorem endDeferral_inReset (e : CutEnd) (s : State) : (endDeferral e s).inReset = s.inReset := by
  unfold endDeferral; repeat' (first | split | dsimp only)
  all_goals simp

@[simp] theorem endDeferral_lastSeq (e : CutEnd) (s : State) : (endDeferral e s).lastSeq = s.lastSeq := by
  unfold endDeferral; repeat' (first | split | dsimp only)
  all_goals simp

@[simp] theorem endDeferral_closeResult (e : CutEnd) (s : State) : (endDeferral e s).closeResult = s.closeResult := by
  unfold endDeferral; repeat' (first | split | dsimp only)
  all_goals simp

@[simp] theorem endDeferral_closeDay (e : CutEnd) (s : State) : (endDeferral e s).closeDay = s.closeDay := by
  unfold endDeferral; repeat' (first | split | dsimp only)
  all_goals simp

@[simp] theorem endDeferral_loader (e : CutEnd) (s : State) : (endDeferral e s).loader = s.loader := by
  unfold endDeferral; repeat' (first | split | dsimp only)
  all_goals simp

@[simp] theorem endDeferral_carousel (e : CutEnd) (s : State) : (endDeferral e s).carousel = s.carousel := by
  unfold endDeferral; repeat' (first | split | dsimp only)
  all_goals simp

@[simp] theorem endDeferral_clock (e : CutEnd) (s : State) : (endDeferral e s).clock = s.clock := by
  unfold endDeferral; repeat' (first | split | dsimp only)
  all_goals simp

@[simp] theorem endDeferral_lookups (e : CutEnd) (s : State) : (endDeferral e s).lookups = s.lookups := by
  unfold endDeferral; repeat' (first | split | dsimp only)
  all_goals simp

@[simp] theorem endDeferral_port (e : CutEnd) (s : State) : (endDeferral e s).port = s.port := by
  unfold endDeferral; repeat' (first | split | dsimp only)
  all_goals simp

@[simp] theorem endDeferral_free (e : CutEnd) (s : State) : (endDeferral e s).free = s.free := by
  unfold endDeferral; repeat' (first | split | dsimp only)
  all_goals simp

@[simp] theorem endDeferral_pending (e : CutEnd) (s : State) : (endDeferral e s).pending = s.pending := by
  unfold endDeferral; repeat' (first | split | dsimp only)
  all_goals simp

/-! ### withdrawBank -/

@[simp] theorem withdrawBank_inReset (b : BankId) (s : State) : (withdrawBank b s).inReset = s.inReset := by
  unfold withdrawBank; repeat' (first | split | dsimp only)
  all_goals simp

@[simp] theorem withdrawBank_lastSeq (b : BankId) (s : State) : (withdrawBank b s).lastSeq = s.lastSeq := by
  unfold withdrawBank; repeat' (first | split | dsimp only)
  all_goals simp

@[simp] theorem withdrawBank_closeResult (b : BankId) (s : State) : (withdrawBank b s).closeResult = s.closeResult := by
  unfold withdrawBank; repeat' (first | split | dsimp only)
  all_goals simp

@[simp] theorem withdrawBank_closeDay (b : BankId) (s : State) : (withdrawBank b s).closeDay = s.closeDay := by
  unfold withdrawBank; repeat' (first | split | dsimp only)
  all_goals simp

@[simp] theorem withdrawBank_loader (b : BankId) (s : State) : (withdrawBank b s).loader = s.loader := by
  unfold withdrawBank; repeat' (first | split | dsimp only)
  all_goals simp

@[simp] theorem withdrawBank_carousel (b : BankId) (s : State) : (withdrawBank b s).carousel = s.carousel := by
  unfold withdrawBank; repeat' (first | split | dsimp only)
  all_goals simp

@[simp] theorem withdrawBank_clock (b : BankId) (s : State) : (withdrawBank b s).clock = s.clock := by
  unfold withdrawBank; repeat' (first | split | dsimp only)
  all_goals simp

@[simp] theorem withdrawBank_lookups (b : BankId) (s : State) : (withdrawBank b s).lookups = s.lookups := by
  unfold withdrawBank; repeat' (first | split | dsimp only)
  all_goals simp

@[simp] theorem withdrawBank_port (b : BankId) (s : State) : (withdrawBank b s).port = s.port := by
  unfold withdrawBank; repeat' (first | split | dsimp only)
  all_goals simp

@[simp] theorem withdrawBank_free (b : BankId) (s : State) : (withdrawBank b s).free = s.free := by
  unfold withdrawBank; repeat' (first | split | dsimp only)
  all_goals simp

@[simp] theorem withdrawBank_pending (b : BankId) (s : State) : (withdrawBank b s).pending = s.pending := by
  unfold withdrawBank; repeat' (first | split | dsimp only)
  all_goals simp

/-! ### failClose -/

@[simp] theorem failClose_inReset (b : BankId) (pt : ClosePoint) (fd : WordLoc) (s : State) : (failClose b pt fd s).inReset = s.inReset := by
  unfold failClose; repeat' (first | split | dsimp only)
  all_goals simp

@[simp] theorem failClose_copied (b : BankId) (pt : ClosePoint) (fd : WordLoc) (s : State) : (failClose b pt fd s).copied = s.copied := by
  unfold failClose; repeat' (first | split | dsimp only)
  all_goals simp

@[simp] theorem failClose_loader (b : BankId) (pt : ClosePoint) (fd : WordLoc) (s : State) : (failClose b pt fd s).loader = s.loader := by
  unfold failClose; repeat' (first | split | dsimp only)
  all_goals simp

@[simp] theorem failClose_carousel (b : BankId) (pt : ClosePoint) (fd : WordLoc) (s : State) : (failClose b pt fd s).carousel = s.carousel := by
  unfold failClose; repeat' (first | split | dsimp only)
  all_goals simp

@[simp] theorem failClose_links (b : BankId) (pt : ClosePoint) (fd : WordLoc) (s : State) : (failClose b pt fd s).links = s.links := by
  unfold failClose; repeat' (first | split | dsimp only)
  all_goals simp

@[simp] theorem failClose_table (b : BankId) (pt : ClosePoint) (fd : WordLoc) (s : State) : (failClose b pt fd s).table = s.table := by
  unfold failClose; repeat' (first | split | dsimp only)
  all_goals simp

@[simp] theorem failClose_clock (b : BankId) (pt : ClosePoint) (fd : WordLoc) (s : State) : (failClose b pt fd s).clock = s.clock := by
  unfold failClose; repeat' (first | split | dsimp only)
  all_goals simp

@[simp] theorem failClose_cutover (b : BankId) (pt : ClosePoint) (fd : WordLoc) (s : State) : (failClose b pt fd s).cutover = s.cutover := by
  unfold failClose; repeat' (first | split | dsimp only)
  all_goals simp

@[simp] theorem failClose_lookups (b : BankId) (pt : ClosePoint) (fd : WordLoc) (s : State) : (failClose b pt fd s).lookups = s.lookups := by
  unfold failClose; repeat' (first | split | dsimp only)
  all_goals simp

@[simp] theorem failClose_scrub (b : BankId) (pt : ClosePoint) (fd : WordLoc) (s : State) : (failClose b pt fd s).scrub = s.scrub := by
  unfold failClose; repeat' (first | split | dsimp only)
  all_goals simp

@[simp] theorem failClose_port (b : BankId) (pt : ClosePoint) (fd : WordLoc) (s : State) : (failClose b pt fd s).port = s.port := by
  unfold failClose; repeat' (first | split | dsimp only)
  all_goals simp

@[simp] theorem failClose_free (b : BankId) (pt : ClosePoint) (fd : WordLoc) (s : State) : (failClose b pt fd s).free = s.free := by
  unfold failClose; repeat' (first | split | dsimp only)
  all_goals simp

@[simp] theorem failClose_pending (b : BankId) (pt : ClosePoint) (fd : WordLoc) (s : State) : (failClose b pt fd s).pending = s.pending := by
  unfold failClose; repeat' (first | split | dsimp only)
  all_goals simp

/-! ### runActs -/

@[simp] theorem runActs_inReset (b : BankId) (kept : Option WordLoc) (acts : List CloseAct) (pt : ClosePoint) (s : State) : (runActs b kept acts pt s).1.inReset = s.inReset := by
  induction acts generalizing pt s with
  | nil => rfl
  | cons a acts ih => cases a <;> simp only [runActs] <;> (repeat' split) <;> simp [ih]

@[simp] theorem runActs_banks (b : BankId) (kept : Option WordLoc) (acts : List CloseAct) (pt : ClosePoint) (s : State) : (runActs b kept acts pt s).1.banks = s.banks := by
  induction acts generalizing pt s with
  | nil => rfl
  | cons a acts ih => cases a <;> simp only [runActs] <;> (repeat' split) <;> simp [ih]

@[simp] theorem runActs_lastSeq (b : BankId) (kept : Option WordLoc) (acts : List CloseAct) (pt : ClosePoint) (s : State) : (runActs b kept acts pt s).1.lastSeq = s.lastSeq := by
  induction acts generalizing pt s with
  | nil => rfl
  | cons a acts ih => cases a <;> simp only [runActs] <;> (repeat' split) <;> simp [ih]

@[simp] theorem runActs_closeResult (b : BankId) (kept : Option WordLoc) (acts : List CloseAct) (pt : ClosePoint) (s : State) : (runActs b kept acts pt s).1.closeResult = s.closeResult := by
  induction acts generalizing pt s with
  | nil => rfl
  | cons a acts ih => cases a <;> simp only [runActs] <;> (repeat' split) <;> simp [ih]

@[simp] theorem runActs_closeDay (b : BankId) (kept : Option WordLoc) (acts : List CloseAct) (pt : ClosePoint) (s : State) : (runActs b kept acts pt s).1.closeDay = s.closeDay := by
  induction acts generalizing pt s with
  | nil => rfl
  | cons a acts ih => cases a <;> simp only [runActs] <;> (repeat' split) <;> simp [ih]

@[simp] theorem runActs_copied (b : BankId) (kept : Option WordLoc) (acts : List CloseAct) (pt : ClosePoint) (s : State) : (runActs b kept acts pt s).1.copied = s.copied := by
  induction acts generalizing pt s with
  | nil => rfl
  | cons a acts ih => cases a <;> simp only [runActs] <;> (repeat' split) <;> simp [ih]

@[simp] theorem runActs_loader (b : BankId) (kept : Option WordLoc) (acts : List CloseAct) (pt : ClosePoint) (s : State) : (runActs b kept acts pt s).1.loader = s.loader := by
  induction acts generalizing pt s with
  | nil => rfl
  | cons a acts ih => cases a <;> simp only [runActs] <;> (repeat' split) <;> simp [ih]

@[simp] theorem runActs_carousel (b : BankId) (kept : Option WordLoc) (acts : List CloseAct) (pt : ClosePoint) (s : State) : (runActs b kept acts pt s).1.carousel = s.carousel := by
  induction acts generalizing pt s with
  | nil => rfl
  | cons a acts ih => cases a <;> simp only [runActs] <;> (repeat' split) <;> simp [ih]

@[simp] theorem runActs_links (b : BankId) (kept : Option WordLoc) (acts : List CloseAct) (pt : ClosePoint) (s : State) : (runActs b kept acts pt s).1.links = s.links := by
  induction acts generalizing pt s with
  | nil => rfl
  | cons a acts ih => cases a <;> simp only [runActs] <;> (repeat' split) <;> simp [ih]

@[simp] theorem runActs_table (b : BankId) (kept : Option WordLoc) (acts : List CloseAct) (pt : ClosePoint) (s : State) : (runActs b kept acts pt s).1.table = s.table := by
  induction acts generalizing pt s with
  | nil => rfl
  | cons a acts ih => cases a <;> simp only [runActs] <;> (repeat' split) <;> simp [ih]

@[simp] theorem runActs_clock (b : BankId) (kept : Option WordLoc) (acts : List CloseAct) (pt : ClosePoint) (s : State) : (runActs b kept acts pt s).1.clock = s.clock := by
  induction acts generalizing pt s with
  | nil => rfl
  | cons a acts ih => cases a <;> simp only [runActs] <;> (repeat' split) <;> simp [ih]

@[simp] theorem runActs_cutover (b : BankId) (kept : Option WordLoc) (acts : List CloseAct) (pt : ClosePoint) (s : State) : (runActs b kept acts pt s).1.cutover = s.cutover := by
  induction acts generalizing pt s with
  | nil => rfl
  | cons a acts ih => cases a <;> simp only [runActs] <;> (repeat' split) <;> simp [ih]

@[simp] theorem runActs_lookups (b : BankId) (kept : Option WordLoc) (acts : List CloseAct) (pt : ClosePoint) (s : State) : (runActs b kept acts pt s).1.lookups = s.lookups := by
  induction acts generalizing pt s with
  | nil => rfl
  | cons a acts ih => cases a <;> simp only [runActs] <;> (repeat' split) <;> simp [ih]

@[simp] theorem runActs_scrub (b : BankId) (kept : Option WordLoc) (acts : List CloseAct) (pt : ClosePoint) (s : State) : (runActs b kept acts pt s).1.scrub = s.scrub := by
  induction acts generalizing pt s with
  | nil => rfl
  | cons a acts ih => cases a <;> simp only [runActs] <;> (repeat' split) <;> simp [ih]

@[simp] theorem runActs_port (b : BankId) (kept : Option WordLoc) (acts : List CloseAct) (pt : ClosePoint) (s : State) : (runActs b kept acts pt s).1.port = s.port := by
  induction acts generalizing pt s with
  | nil => rfl
  | cons a acts ih => cases a <;> simp only [runActs] <;> (repeat' split) <;> simp [ih]

@[simp] theorem runActs_free (b : BankId) (kept : Option WordLoc) (acts : List CloseAct) (pt : ClosePoint) (s : State) : (runActs b kept acts pt s).1.free = s.free := by
  induction acts generalizing pt s with
  | nil => rfl
  | cons a acts ih => cases a <;> simp only [runActs] <;> (repeat' split) <;> simp [ih]

@[simp] theorem runActs_pending (b : BankId) (kept : Option WordLoc) (acts : List CloseAct) (pt : ClosePoint) (s : State) : (runActs b kept acts pt s).1.pending = s.pending := by
  induction acts generalizing pt s with
  | nil => rfl
  | cons a acts ih => cases a <;> simp only [runActs] <;> (repeat' split) <;> simp [ih]

/-! ### failCloseAt -/

@[simp] theorem failCloseAt_inReset (b : BankId) (fd : WordLoc) (s : State) : (failCloseAt b fd s).inReset = s.inReset := by
  unfold failCloseAt; repeat' (first | split | dsimp only)
  all_goals simp

@[simp] theorem failCloseAt_copied (b : BankId) (fd : WordLoc) (s : State) : (failCloseAt b fd s).copied = s.copied := by
  unfold failCloseAt; repeat' (first | split | dsimp only)
  all_goals simp

@[simp] theorem failCloseAt_loader (b : BankId) (fd : WordLoc) (s : State) : (failCloseAt b fd s).loader = s.loader := by
  unfold failCloseAt; repeat' (first | split | dsimp only)
  all_goals simp

@[simp] theorem failCloseAt_carousel (b : BankId) (fd : WordLoc) (s : State) : (failCloseAt b fd s).carousel = s.carousel := by
  unfold failCloseAt; repeat' (first | split | dsimp only)
  all_goals simp

@[simp] theorem failCloseAt_links (b : BankId) (fd : WordLoc) (s : State) : (failCloseAt b fd s).links = s.links := by
  unfold failCloseAt; repeat' (first | split | dsimp only)
  all_goals simp

@[simp] theorem failCloseAt_table (b : BankId) (fd : WordLoc) (s : State) : (failCloseAt b fd s).table = s.table := by
  unfold failCloseAt; repeat' (first | split | dsimp only)
  all_goals simp

@[simp] theorem failCloseAt_clock (b : BankId) (fd : WordLoc) (s : State) : (failCloseAt b fd s).clock = s.clock := by
  unfold failCloseAt; repeat' (first | split | dsimp only)
  all_goals simp

@[simp] theorem failCloseAt_cutover (b : BankId) (fd : WordLoc) (s : State) : (failCloseAt b fd s).cutover = s.cutover := by
  unfold failCloseAt; repeat' (first | split | dsimp only)
  all_goals simp

@[simp] theorem failCloseAt_lookups (b : BankId) (fd : WordLoc) (s : State) : (failCloseAt b fd s).lookups = s.lookups := by
  unfold failCloseAt; repeat' (first | split | dsimp only)
  all_goals simp

@[simp] theorem failCloseAt_scrub (b : BankId) (fd : WordLoc) (s : State) : (failCloseAt b fd s).scrub = s.scrub := by
  unfold failCloseAt; repeat' (first | split | dsimp only)
  all_goals simp

@[simp] theorem failCloseAt_port (b : BankId) (fd : WordLoc) (s : State) : (failCloseAt b fd s).port = s.port := by
  unfold failCloseAt; repeat' (first | split | dsimp only)
  all_goals simp

@[simp] theorem failCloseAt_free (b : BankId) (fd : WordLoc) (s : State) : (failCloseAt b fd s).free = s.free := by
  unfold failCloseAt; repeat' (first | split | dsimp only)
  all_goals simp

@[simp] theorem failCloseAt_pending (b : BankId) (fd : WordLoc) (s : State) : (failCloseAt b fd s).pending = s.pending := by
  unfold failCloseAt; repeat' (first | split | dsimp only)
  all_goals simp

/-! ### setMark -/

@[simp] theorem setMark_inReset (b : BankId) (r : Region) (o : Nat) (s : State) : (setMark b r o s).inReset = s.inReset := by
  unfold setMark; repeat' (first | split | dsimp only)
  all_goals simp

@[simp] theorem setMark_loader (b : BankId) (r : Region) (o : Nat) (s : State) : (setMark b r o s).loader = s.loader := by
  unfold setMark; repeat' (first | split | dsimp only)
  all_goals simp

@[simp] theorem setMark_carousel (b : BankId) (r : Region) (o : Nat) (s : State) : (setMark b r o s).carousel = s.carousel := by
  unfold setMark; repeat' (first | split | dsimp only)
  all_goals simp

@[simp] theorem setMark_clock (b : BankId) (r : Region) (o : Nat) (s : State) : (setMark b r o s).clock = s.clock := by
  unfold setMark; repeat' (first | split | dsimp only)
  all_goals simp

@[simp] theorem setMark_lookups (b : BankId) (r : Region) (o : Nat) (s : State) : (setMark b r o s).lookups = s.lookups := by
  unfold setMark; repeat' (first | split | dsimp only)
  all_goals simp

@[simp] theorem setMark_port (b : BankId) (r : Region) (o : Nat) (s : State) : (setMark b r o s).port = s.port := by
  unfold setMark; repeat' (first | split | dsimp only)
  all_goals simp

@[simp] theorem setMark_free (b : BankId) (r : Region) (o : Nat) (s : State) : (setMark b r o s).free = s.free := by
  unfold setMark; repeat' (first | split | dsimp only)
  all_goals simp

@[simp] theorem setMark_pending (b : BankId) (r : Region) (o : Nat) (s : State) : (setMark b r o s).pending = s.pending := by
  unfold setMark; repeat' (first | split | dsimp only)
  all_goals simp

/-! ### uncorrectable -/

@[simp] theorem uncorrectable_inReset (l : WordLoc) (r : Reader) (s : State) : (uncorrectable l r s).inReset = s.inReset := by
  unfold uncorrectable; repeat' (first | split | dsimp only)
  all_goals simp

@[simp] theorem uncorrectable_loader (l : WordLoc) (r : Reader) (s : State) : (uncorrectable l r s).loader = s.loader := by
  unfold uncorrectable; repeat' (first | split | dsimp only)
  all_goals simp

@[simp] theorem uncorrectable_carousel (l : WordLoc) (r : Reader) (s : State) : (uncorrectable l r s).carousel = s.carousel := by
  unfold uncorrectable; repeat' (first | split | dsimp only)
  all_goals simp

@[simp] theorem uncorrectable_clock (l : WordLoc) (r : Reader) (s : State) : (uncorrectable l r s).clock = s.clock := by
  unfold uncorrectable; repeat' (first | split | dsimp only)
  all_goals simp

@[simp] theorem uncorrectable_lookups (l : WordLoc) (r : Reader) (s : State) : (uncorrectable l r s).lookups = s.lookups := by
  unfold uncorrectable; repeat' (first | split | dsimp only)
  all_goals simp

@[simp] theorem uncorrectable_port (l : WordLoc) (r : Reader) (s : State) : (uncorrectable l r s).port = s.port := by
  unfold uncorrectable; repeat' (first | split | dsimp only)
  all_goals simp

@[simp] theorem uncorrectable_free (l : WordLoc) (r : Reader) (s : State) : (uncorrectable l r s).free = s.free := by
  unfold uncorrectable; repeat' (first | split | dsimp only)
  all_goals simp

@[simp] theorem uncorrectable_pending (l : WordLoc) (r : Reader) (s : State) : (uncorrectable l r s).pending = s.pending := by
  unfold uncorrectable; repeat' (first | split | dsimp only)
  all_goals simp

/-! ### failOwnRead -/

@[simp] theorem failOwnRead_inReset (b : BankId) (r : Region) (o : Nat) (pt : ClosePoint) (s : State) : (failOwnRead b r o pt s).inReset = s.inReset := by
  unfold failOwnRead; repeat' (first | split | dsimp only)
  all_goals simp

@[simp] theorem failOwnRead_copied (b : BankId) (r : Region) (o : Nat) (pt : ClosePoint) (s : State) : (failOwnRead b r o pt s).copied = s.copied := by
  unfold failOwnRead; repeat' (first | split | dsimp only)
  all_goals simp

@[simp] theorem failOwnRead_loader (b : BankId) (r : Region) (o : Nat) (pt : ClosePoint) (s : State) : (failOwnRead b r o pt s).loader = s.loader := by
  unfold failOwnRead; repeat' (first | split | dsimp only)
  all_goals simp

@[simp] theorem failOwnRead_carousel (b : BankId) (r : Region) (o : Nat) (pt : ClosePoint) (s : State) : (failOwnRead b r o pt s).carousel = s.carousel := by
  unfold failOwnRead; repeat' (first | split | dsimp only)
  all_goals simp

@[simp] theorem failOwnRead_links (b : BankId) (r : Region) (o : Nat) (pt : ClosePoint) (s : State) : (failOwnRead b r o pt s).links = s.links := by
  unfold failOwnRead; repeat' (first | split | dsimp only)
  all_goals simp

@[simp] theorem failOwnRead_table (b : BankId) (r : Region) (o : Nat) (pt : ClosePoint) (s : State) : (failOwnRead b r o pt s).table = s.table := by
  unfold failOwnRead; repeat' (first | split | dsimp only)
  all_goals simp

@[simp] theorem failOwnRead_clock (b : BankId) (r : Region) (o : Nat) (pt : ClosePoint) (s : State) : (failOwnRead b r o pt s).clock = s.clock := by
  unfold failOwnRead; repeat' (first | split | dsimp only)
  all_goals simp

@[simp] theorem failOwnRead_cutover (b : BankId) (r : Region) (o : Nat) (pt : ClosePoint) (s : State) : (failOwnRead b r o pt s).cutover = s.cutover := by
  unfold failOwnRead; repeat' (first | split | dsimp only)
  all_goals simp

@[simp] theorem failOwnRead_lookups (b : BankId) (r : Region) (o : Nat) (pt : ClosePoint) (s : State) : (failOwnRead b r o pt s).lookups = s.lookups := by
  unfold failOwnRead; repeat' (first | split | dsimp only)
  all_goals simp

@[simp] theorem failOwnRead_port (b : BankId) (r : Region) (o : Nat) (pt : ClosePoint) (s : State) : (failOwnRead b r o pt s).port = s.port := by
  unfold failOwnRead; repeat' (first | split | dsimp only)
  all_goals simp

@[simp] theorem failOwnRead_pending (b : BankId) (r : Region) (o : Nat) (pt : ClosePoint) (s : State) : (failOwnRead b r o pt s).pending = s.pending := by
  unfold failOwnRead; repeat' (first | split | dsimp only)
  all_goals simp

/-! ### readHits -/

@[simp] theorem readHits_inReset (r : Reader) (us : List Upset) (s : State) : (readHits r us s).1.inReset = s.inReset := by
  induction us generalizing s with
  | nil => rfl
  | cons u us ih => unfold readHits; split <;> simp [ih]

@[simp] theorem readHits_loader (r : Reader) (us : List Upset) (s : State) : (readHits r us s).1.loader = s.loader := by
  induction us generalizing s with
  | nil => rfl
  | cons u us ih => unfold readHits; split <;> simp [ih]

@[simp] theorem readHits_carousel (r : Reader) (us : List Upset) (s : State) : (readHits r us s).1.carousel = s.carousel := by
  induction us generalizing s with
  | nil => rfl
  | cons u us ih => unfold readHits; split <;> simp [ih]

@[simp] theorem readHits_clock (r : Reader) (us : List Upset) (s : State) : (readHits r us s).1.clock = s.clock := by
  induction us generalizing s with
  | nil => rfl
  | cons u us ih => unfold readHits; split <;> simp [ih]

@[simp] theorem readHits_lookups (r : Reader) (us : List Upset) (s : State) : (readHits r us s).1.lookups = s.lookups := by
  induction us generalizing s with
  | nil => rfl
  | cons u us ih => unfold readHits; split <;> simp [ih]

@[simp] theorem readHits_port (r : Reader) (us : List Upset) (s : State) : (readHits r us s).1.port = s.port := by
  induction us generalizing s with
  | nil => rfl
  | cons u us ih => unfold readHits; split <;> simp [ih]

@[simp] theorem readHits_free (r : Reader) (us : List Upset) (s : State) : (readHits r us s).1.free = s.free := by
  induction us generalizing s with
  | nil => rfl
  | cons u us ih => unfold readHits; split <;> simp [ih]

@[simp] theorem readHits_pending (r : Reader) (us : List Upset) (s : State) : (readHits r us s).1.pending = s.pending := by
  induction us generalizing s with
  | nil => rfl
  | cons u us ih => unfold readHits; split <;> simp [ih]

/-! ### readOn -/

@[simp] theorem readOn_inReset (r : Reader) (us : List Upset) (s : State) : (readOn r us s).1.inReset = s.inReset := by
  induction us generalizing s with
  | nil => rfl
  | cons u us ih => unfold readOn; split <;> simp [ih]

@[simp] theorem readOn_loader (r : Reader) (us : List Upset) (s : State) : (readOn r us s).1.loader = s.loader := by
  induction us generalizing s with
  | nil => rfl
  | cons u us ih => unfold readOn; split <;> simp [ih]

@[simp] theorem readOn_carousel (r : Reader) (us : List Upset) (s : State) : (readOn r us s).1.carousel = s.carousel := by
  induction us generalizing s with
  | nil => rfl
  | cons u us ih => unfold readOn; split <;> simp [ih]

@[simp] theorem readOn_clock (r : Reader) (us : List Upset) (s : State) : (readOn r us s).1.clock = s.clock := by
  induction us generalizing s with
  | nil => rfl
  | cons u us ih => unfold readOn; split <;> simp [ih]

@[simp] theorem readOn_lookups (r : Reader) (us : List Upset) (s : State) : (readOn r us s).1.lookups = s.lookups := by
  induction us generalizing s with
  | nil => rfl
  | cons u us ih => unfold readOn; split <;> simp [ih]

@[simp] theorem readOn_port (r : Reader) (us : List Upset) (s : State) : (readOn r us s).1.port = s.port := by
  induction us generalizing s with
  | nil => rfl
  | cons u us ih => unfold readOn; split <;> simp [ih]

@[simp] theorem readOn_free (r : Reader) (us : List Upset) (s : State) : (readOn r us s).1.free = s.free := by
  induction us generalizing s with
  | nil => rfl
  | cons u us ih => unfold readOn; split <;> simp [ih]

@[simp] theorem readOn_pending (r : Reader) (us : List Upset) (s : State) : (readOn r us s).1.pending = s.pending := by
  induction us generalizing s with
  | nil => rfl
  | cons u us ih => unfold readOn; split <;> simp [ih]

/-! ### readWords -/

@[simp] theorem readWords_inReset (r : Reader) (sel : WordLoc → Bool) (s : State) : (readWords r sel s).1.inReset = s.inReset := by
  unfold readWords; repeat' (first | split | dsimp only)
  all_goals simp

@[simp] theorem readWords_loader (r : Reader) (sel : WordLoc → Bool) (s : State) : (readWords r sel s).1.loader = s.loader := by
  unfold readWords; repeat' (first | split | dsimp only)
  all_goals simp

@[simp] theorem readWords_carousel (r : Reader) (sel : WordLoc → Bool) (s : State) : (readWords r sel s).1.carousel = s.carousel := by
  unfold readWords; repeat' (first | split | dsimp only)
  all_goals simp

@[simp] theorem readWords_clock (r : Reader) (sel : WordLoc → Bool) (s : State) : (readWords r sel s).1.clock = s.clock := by
  unfold readWords; repeat' (first | split | dsimp only)
  all_goals simp

@[simp] theorem readWords_lookups (r : Reader) (sel : WordLoc → Bool) (s : State) : (readWords r sel s).1.lookups = s.lookups := by
  unfold readWords; repeat' (first | split | dsimp only)
  all_goals simp

@[simp] theorem readWords_port (r : Reader) (sel : WordLoc → Bool) (s : State) : (readWords r sel s).1.port = s.port := by
  unfold readWords; repeat' (first | split | dsimp only)
  all_goals simp

@[simp] theorem readWords_free (r : Reader) (sel : WordLoc → Bool) (s : State) : (readWords r sel s).1.free = s.free := by
  unfold readWords; repeat' (first | split | dsimp only)
  all_goals simp

@[simp] theorem readWords_pending (r : Reader) (sel : WordLoc → Bool) (s : State) : (readWords r sel s).1.pending = s.pending := by
  unfold readWords; repeat' (first | split | dsimp only)
  all_goals simp

/-! ### readItems -/

@[simp] theorem readItems_inReset (r : Reader) (b : BankId) (is : List Item) (s : State) : (readItems r b is s).1.inReset = s.inReset := by
  unfold readItems; repeat' (first | split | dsimp only)
  all_goals simp

@[simp] theorem readItems_loader (r : Reader) (b : BankId) (is : List Item) (s : State) : (readItems r b is s).1.loader = s.loader := by
  unfold readItems; repeat' (first | split | dsimp only)
  all_goals simp

@[simp] theorem readItems_carousel (r : Reader) (b : BankId) (is : List Item) (s : State) : (readItems r b is s).1.carousel = s.carousel := by
  unfold readItems; repeat' (first | split | dsimp only)
  all_goals simp

@[simp] theorem readItems_clock (r : Reader) (b : BankId) (is : List Item) (s : State) : (readItems r b is s).1.clock = s.clock := by
  unfold readItems; repeat' (first | split | dsimp only)
  all_goals simp

@[simp] theorem readItems_lookups (r : Reader) (b : BankId) (is : List Item) (s : State) : (readItems r b is s).1.lookups = s.lookups := by
  unfold readItems; repeat' (first | split | dsimp only)
  all_goals simp

@[simp] theorem readItems_port (r : Reader) (b : BankId) (is : List Item) (s : State) : (readItems r b is s).1.port = s.port := by
  unfold readItems; repeat' (first | split | dsimp only)
  all_goals simp

@[simp] theorem readItems_free (r : Reader) (b : BankId) (is : List Item) (s : State) : (readItems r b is s).1.free = s.free := by
  unfold readItems; repeat' (first | split | dsimp only)
  all_goals simp

@[simp] theorem readItems_pending (r : Reader) (b : BankId) (is : List Item) (s : State) : (readItems r b is s).1.pending = s.pending := by
  unfold readItems; repeat' (first | split | dsimp only)
  all_goals simp

/-! ### readBuffer -/

@[simp] theorem readBuffer_inReset (lo hi : Nat) (s : State) : (readBuffer lo hi s).1.inReset = s.inReset := by
  unfold readBuffer; repeat' (first | split | dsimp only)
  all_goals simp

@[simp] theorem readBuffer_loader (lo hi : Nat) (s : State) : (readBuffer lo hi s).1.loader = s.loader := by
  unfold readBuffer; repeat' (first | split | dsimp only)
  all_goals simp

@[simp] theorem readBuffer_carousel (lo hi : Nat) (s : State) : (readBuffer lo hi s).1.carousel = s.carousel := by
  unfold readBuffer; repeat' (first | split | dsimp only)
  all_goals simp

@[simp] theorem readBuffer_clock (lo hi : Nat) (s : State) : (readBuffer lo hi s).1.clock = s.clock := by
  unfold readBuffer; repeat' (first | split | dsimp only)
  all_goals simp

@[simp] theorem readBuffer_lookups (lo hi : Nat) (s : State) : (readBuffer lo hi s).1.lookups = s.lookups := by
  unfold readBuffer; repeat' (first | split | dsimp only)
  all_goals simp

@[simp] theorem readBuffer_port (lo hi : Nat) (s : State) : (readBuffer lo hi s).1.port = s.port := by
  unfold readBuffer; repeat' (first | split | dsimp only)
  all_goals simp

@[simp] theorem readBuffer_free (lo hi : Nat) (s : State) : (readBuffer lo hi s).1.free = s.free := by
  unfold readBuffer; repeat' (first | split | dsimp only)
  all_goals simp

@[simp] theorem readBuffer_pending (lo hi : Nat) (s : State) : (readBuffer lo hi s).1.pending = s.pending := by
  unfold readBuffer; repeat' (first | split | dsimp only)
  all_goals simp

/-! ### readNewBytes -/

@[simp] theorem readNewBytes_inReset (lo hi : Nat) (s : State) : (readNewBytes lo hi s).1.inReset = s.inReset := by
  unfold readNewBytes; repeat' (first | split | dsimp only)
  all_goals simp

@[simp] theorem readNewBytes_loader (lo hi : Nat) (s : State) : (readNewBytes lo hi s).1.loader = s.loader := by
  unfold readNewBytes; repeat' (first | split | dsimp only)
  all_goals simp

@[simp] theorem readNewBytes_carousel (lo hi : Nat) (s : State) : (readNewBytes lo hi s).1.carousel = s.carousel := by
  unfold readNewBytes; repeat' (first | split | dsimp only)
  all_goals simp

@[simp] theorem readNewBytes_clock (lo hi : Nat) (s : State) : (readNewBytes lo hi s).1.clock = s.clock := by
  unfold readNewBytes; repeat' (first | split | dsimp only)
  all_goals simp

@[simp] theorem readNewBytes_lookups (lo hi : Nat) (s : State) : (readNewBytes lo hi s).1.lookups = s.lookups := by
  unfold readNewBytes; repeat' (first | split | dsimp only)
  all_goals simp

@[simp] theorem readNewBytes_port (lo hi : Nat) (s : State) : (readNewBytes lo hi s).1.port = s.port := by
  unfold readNewBytes; repeat' (first | split | dsimp only)
  all_goals simp

@[simp] theorem readNewBytes_free (lo hi : Nat) (s : State) : (readNewBytes lo hi s).1.free = s.free := by
  unfold readNewBytes; repeat' (first | split | dsimp only)
  all_goals simp

@[simp] theorem readNewBytes_pending (lo hi : Nat) (s : State) : (readNewBytes lo hi s).1.pending = s.pending := by
  unfold readNewBytes; repeat' (first | split | dsimp only)
  all_goals simp

/-! ### runCheckReads -/

@[simp] theorem runCheckReads_inReset (b : BankId) (rs : List CheckRead) (s : State) : (runCheckReads b rs s).1.inReset = s.inReset := by
  induction rs generalizing s with
  | nil => rfl
  | cons r rs ih => unfold runCheckReads; cases r <;> dsimp only <;> split <;> simp [ih]

@[simp] theorem runCheckReads_loader (b : BankId) (rs : List CheckRead) (s : State) : (runCheckReads b rs s).1.loader = s.loader := by
  induction rs generalizing s with
  | nil => rfl
  | cons r rs ih => unfold runCheckReads; cases r <;> dsimp only <;> split <;> simp [ih]

@[simp] theorem runCheckReads_carousel (b : BankId) (rs : List CheckRead) (s : State) : (runCheckReads b rs s).1.carousel = s.carousel := by
  induction rs generalizing s with
  | nil => rfl
  | cons r rs ih => unfold runCheckReads; cases r <;> dsimp only <;> split <;> simp [ih]

@[simp] theorem runCheckReads_clock (b : BankId) (rs : List CheckRead) (s : State) : (runCheckReads b rs s).1.clock = s.clock := by
  induction rs generalizing s with
  | nil => rfl
  | cons r rs ih => unfold runCheckReads; cases r <;> dsimp only <;> split <;> simp [ih]

@[simp] theorem runCheckReads_lookups (b : BankId) (rs : List CheckRead) (s : State) : (runCheckReads b rs s).1.lookups = s.lookups := by
  induction rs generalizing s with
  | nil => rfl
  | cons r rs ih => unfold runCheckReads; cases r <;> dsimp only <;> split <;> simp [ih]

@[simp] theorem runCheckReads_port (b : BankId) (rs : List CheckRead) (s : State) : (runCheckReads b rs s).1.port = s.port := by
  induction rs generalizing s with
  | nil => rfl
  | cons r rs ih => unfold runCheckReads; cases r <;> dsimp only <;> split <;> simp [ih]

@[simp] theorem runCheckReads_free (b : BankId) (rs : List CheckRead) (s : State) : (runCheckReads b rs s).1.free = s.free := by
  induction rs generalizing s with
  | nil => rfl
  | cons r rs ih => unfold runCheckReads; cases r <;> dsimp only <;> split <;> simp [ih]

@[simp] theorem runCheckReads_pending (b : BankId) (rs : List CheckRead) (s : State) : (runCheckReads b rs s).1.pending = s.pending := by
  induction rs generalizing s with
  | nil => rfl
  | cons r rs ih => unfold runCheckReads; cases r <;> dsimp only <;> split <;> simp [ih]

/-! ### copyTo -/

@[simp] theorem copyTo_inReset (t f : BankId) (c : Copied) (s : State) : (copyTo t f c s).1.inReset = s.inReset := by
  unfold copyTo; repeat' (first | split | dsimp only)
  all_goals simp

@[simp] theorem copyTo_loader (t f : BankId) (c : Copied) (s : State) : (copyTo t f c s).1.loader = s.loader := by
  unfold copyTo; repeat' (first | split | dsimp only)
  all_goals simp

@[simp] theorem copyTo_carousel (t f : BankId) (c : Copied) (s : State) : (copyTo t f c s).1.carousel = s.carousel := by
  unfold copyTo; repeat' (first | split | dsimp only)
  all_goals simp

@[simp] theorem copyTo_clock (t f : BankId) (c : Copied) (s : State) : (copyTo t f c s).1.clock = s.clock := by
  unfold copyTo; repeat' (first | split | dsimp only)
  all_goals simp

@[simp] theorem copyTo_lookups (t f : BankId) (c : Copied) (s : State) : (copyTo t f c s).1.lookups = s.lookups := by
  unfold copyTo; repeat' (first | split | dsimp only)
  all_goals simp

@[simp] theorem copyTo_port (t f : BankId) (c : Copied) (s : State) : (copyTo t f c s).1.port = s.port := by
  unfold copyTo; repeat' (first | split | dsimp only)
  all_goals simp

@[simp] theorem copyTo_free (t f : BankId) (c : Copied) (s : State) : (copyTo t f c s).1.free = s.free := by
  unfold copyTo; repeat' (first | split | dsimp only)
  all_goals simp

@[simp] theorem copyTo_pending (t f : BankId) (c : Copied) (s : State) : (copyTo t f c s).1.pending = s.pending := by
  unfold copyTo; repeat' (first | split | dsimp only)
  all_goals simp

/-! ### enterWaiting -/

@[simp] theorem enterWaiting_inReset (s : State) : (enterWaiting s).inReset = s.inReset := by
  unfold enterWaiting; repeat' (first | split | dsimp only)
  all_goals simp

@[simp] theorem enterWaiting_lastSeq (s : State) : (enterWaiting s).lastSeq = s.lastSeq := by
  unfold enterWaiting; repeat' (first | split | dsimp only)
  all_goals simp

@[simp] theorem enterWaiting_closeResult (s : State) : (enterWaiting s).closeResult = s.closeResult := by
  unfold enterWaiting; repeat' (first | split | dsimp only)
  all_goals simp

@[simp] theorem enterWaiting_closeDay (s : State) : (enterWaiting s).closeDay = s.closeDay := by
  unfold enterWaiting; repeat' (first | split | dsimp only)
  all_goals simp

@[simp] theorem enterWaiting_loader (s : State) : (enterWaiting s).loader = s.loader := by
  unfold enterWaiting; repeat' (first | split | dsimp only)
  all_goals simp

@[simp] theorem enterWaiting_carousel (s : State) : (enterWaiting s).carousel = s.carousel := by
  unfold enterWaiting; repeat' (first | split | dsimp only)
  all_goals simp

@[simp] theorem enterWaiting_clock (s : State) : (enterWaiting s).clock = s.clock := by
  unfold enterWaiting; repeat' (first | split | dsimp only)
  all_goals simp

@[simp] theorem enterWaiting_lookups (s : State) : (enterWaiting s).lookups = s.lookups := by
  unfold enterWaiting; repeat' (first | split | dsimp only)
  all_goals simp

@[simp] theorem enterWaiting_port (s : State) : (enterWaiting s).port = s.port := by
  unfold enterWaiting; repeat' (first | split | dsimp only)
  all_goals simp

@[simp] theorem enterWaiting_free (s : State) : (enterWaiting s).free = s.free := by
  unfold enterWaiting; repeat' (first | split | dsimp only)
  all_goals simp

@[simp] theorem enterWaiting_pending (s : State) : (enterWaiting s).pending = s.pending := by
  unfold enterWaiting; repeat' (first | split | dsimp only)
  all_goals simp

/-! ### tryBegin -/

@[simp] theorem tryBegin_inReset (k : LinkId) (s : State) : (tryBegin k s).inReset = s.inReset := by
  unfold tryBegin; repeat' (first | split | dsimp only)
  all_goals simp

@[simp] theorem tryBegin_banks (k : LinkId) (s : State) : (tryBegin k s).banks = s.banks := by
  unfold tryBegin; repeat' (first | split | dsimp only)
  all_goals simp

@[simp] theorem tryBegin_lastSeq (k : LinkId) (s : State) : (tryBegin k s).lastSeq = s.lastSeq := by
  unfold tryBegin; repeat' (first | split | dsimp only)
  all_goals simp

@[simp] theorem tryBegin_closeResult (k : LinkId) (s : State) : (tryBegin k s).closeResult = s.closeResult := by
  unfold tryBegin; repeat' (first | split | dsimp only)
  all_goals simp

@[simp] theorem tryBegin_closeDay (k : LinkId) (s : State) : (tryBegin k s).closeDay = s.closeDay := by
  unfold tryBegin; repeat' (first | split | dsimp only)
  all_goals simp

@[simp] theorem tryBegin_copied (k : LinkId) (s : State) : (tryBegin k s).copied = s.copied := by
  unfold tryBegin; repeat' (first | split | dsimp only)
  all_goals simp

@[simp] theorem tryBegin_upsets (k : LinkId) (s : State) : (tryBegin k s).upsets = s.upsets := by
  unfold tryBegin; repeat' (first | split | dsimp only)
  all_goals simp

@[simp] theorem tryBegin_loader (k : LinkId) (s : State) : (tryBegin k s).loader = s.loader := by
  unfold tryBegin; repeat' (first | split | dsimp only)
  all_goals simp

@[simp] theorem tryBegin_carousel (k : LinkId) (s : State) : (tryBegin k s).carousel = s.carousel := by
  unfold tryBegin; repeat' (first | split | dsimp only)
  all_goals simp

@[simp] theorem tryBegin_table (k : LinkId) (s : State) : (tryBegin k s).table = s.table := by
  unfold tryBegin; repeat' (first | split | dsimp only)
  all_goals simp

@[simp] theorem tryBegin_clock (k : LinkId) (s : State) : (tryBegin k s).clock = s.clock := by
  unfold tryBegin; repeat' (first | split | dsimp only)
  all_goals simp

@[simp] theorem tryBegin_cutover (k : LinkId) (s : State) : (tryBegin k s).cutover = s.cutover := by
  unfold tryBegin; repeat' (first | split | dsimp only)
  all_goals simp

@[simp] theorem tryBegin_lookups (k : LinkId) (s : State) : (tryBegin k s).lookups = s.lookups := by
  unfold tryBegin; repeat' (first | split | dsimp only)
  all_goals simp

@[simp] theorem tryBegin_events (k : LinkId) (s : State) : (tryBegin k s).events = s.events := by
  unfold tryBegin; repeat' (first | split | dsimp only)
  all_goals simp

@[simp] theorem tryBegin_scrub (k : LinkId) (s : State) : (tryBegin k s).scrub = s.scrub := by
  unfold tryBegin; repeat' (first | split | dsimp only)
  all_goals simp

@[simp] theorem tryBegin_port (k : LinkId) (s : State) : (tryBegin k s).port = s.port := by
  unfold tryBegin; repeat' (first | split | dsimp only)
  all_goals simp

@[simp] theorem tryBegin_free (k : LinkId) (s : State) : (tryBegin k s).free = s.free := by
  unfold tryBegin; repeat' (first | split | dsimp only)
  all_goals simp

@[simp] theorem tryBegin_pending (k : LinkId) (s : State) : (tryBegin k s).pending = s.pending := by
  unfold tryBegin; repeat' (first | split | dsimp only)
  all_goals simp

/-! ### leftCycle -/

@[simp] theorem leftCycle_inReset (s : State) : (leftCycle s).inReset = s.inReset := by
  unfold leftCycle; repeat' (first | split | dsimp only)
  all_goals simp

@[simp] theorem leftCycle_banks (s : State) : (leftCycle s).banks = s.banks := by
  unfold leftCycle; repeat' (first | split | dsimp only)
  all_goals simp

@[simp] theorem leftCycle_lastSeq (s : State) : (leftCycle s).lastSeq = s.lastSeq := by
  unfold leftCycle; repeat' (first | split | dsimp only)
  all_goals simp

@[simp] theorem leftCycle_closeResult (s : State) : (leftCycle s).closeResult = s.closeResult := by
  unfold leftCycle; repeat' (first | split | dsimp only)
  all_goals simp

@[simp] theorem leftCycle_closeDay (s : State) : (leftCycle s).closeDay = s.closeDay := by
  unfold leftCycle; repeat' (first | split | dsimp only)
  all_goals simp

@[simp] theorem leftCycle_copied (s : State) : (leftCycle s).copied = s.copied := by
  unfold leftCycle; repeat' (first | split | dsimp only)
  all_goals simp

@[simp] theorem leftCycle_upsets (s : State) : (leftCycle s).upsets = s.upsets := by
  unfold leftCycle; repeat' (first | split | dsimp only)
  all_goals simp

@[simp] theorem leftCycle_loader (s : State) : (leftCycle s).loader = s.loader := by
  unfold leftCycle; repeat' (first | split | dsimp only)
  all_goals simp

@[simp] theorem leftCycle_links (s : State) : (leftCycle s).links = s.links := by
  unfold leftCycle; repeat' (first | split | dsimp only)
  all_goals simp

@[simp] theorem leftCycle_table (s : State) : (leftCycle s).table = s.table := by
  unfold leftCycle; repeat' (first | split | dsimp only)
  all_goals simp

@[simp] theorem leftCycle_clock (s : State) : (leftCycle s).clock = s.clock := by
  unfold leftCycle; repeat' (first | split | dsimp only)
  all_goals simp

@[simp] theorem leftCycle_cutover (s : State) : (leftCycle s).cutover = s.cutover := by
  unfold leftCycle; repeat' (first | split | dsimp only)
  all_goals simp

@[simp] theorem leftCycle_lookups (s : State) : (leftCycle s).lookups = s.lookups := by
  unfold leftCycle; repeat' (first | split | dsimp only)
  all_goals simp

@[simp] theorem leftCycle_scrub (s : State) : (leftCycle s).scrub = s.scrub := by
  unfold leftCycle; repeat' (first | split | dsimp only)
  all_goals simp

@[simp] theorem leftCycle_port (s : State) : (leftCycle s).port = s.port := by
  unfold leftCycle; repeat' (first | split | dsimp only)
  all_goals simp

@[simp] theorem leftCycle_free (s : State) : (leftCycle s).free = s.free := by
  unfold leftCycle; repeat' (first | split | dsimp only)
  all_goals simp

@[simp] theorem leftCycle_pending (s : State) : (leftCycle s).pending = s.pending := by
  unfold leftCycle; repeat' (first | split | dsimp only)
  all_goals simp

/-! ### linkReset -/

@[simp] theorem linkReset_inReset (k : LinkId) (s : State) : (linkReset k s).inReset = s.inReset := by
  unfold linkReset; repeat' (first | split | dsimp only)
  all_goals simp

@[simp] theorem linkReset_lastSeq (k : LinkId) (s : State) : (linkReset k s).lastSeq = s.lastSeq := by
  unfold linkReset; repeat' (first | split | dsimp only)
  all_goals simp

@[simp] theorem linkReset_closeResult (k : LinkId) (s : State) : (linkReset k s).closeResult = s.closeResult := by
  unfold linkReset; repeat' (first | split | dsimp only)
  all_goals simp

@[simp] theorem linkReset_closeDay (k : LinkId) (s : State) : (linkReset k s).closeDay = s.closeDay := by
  unfold linkReset; repeat' (first | split | dsimp only)
  all_goals simp

@[simp] theorem linkReset_loader (k : LinkId) (s : State) : (linkReset k s).loader = s.loader := by
  unfold linkReset; repeat' (first | split | dsimp only)
  all_goals simp

@[simp] theorem linkReset_clock (k : LinkId) (s : State) : (linkReset k s).clock = s.clock := by
  unfold linkReset; repeat' (first | split | dsimp only)
  all_goals simp

@[simp] theorem linkReset_port (k : LinkId) (s : State) : (linkReset k s).port = s.port := by
  unfold linkReset; repeat' (first | split | dsimp only)
  all_goals simp

@[simp] theorem linkReset_free (k : LinkId) (s : State) : (linkReset k s).free = s.free := by
  unfold linkReset; repeat' (first | split | dsimp only)
  all_goals simp

@[simp] theorem linkReset_pending (k : LinkId) (s : State) : (linkReset k s).pending = s.pending := by
  unfold linkReset; repeat' (first | split | dsimp only)
  all_goals simp

end Sys2Proof.Machine
end

