-- ==== Sys2Proof/Laws/Gateway.lean ====
section
/-!
SUPPORT. What happens to a gateway command that the port takes: one lemma for each way its owner may reply.
-/

namespace Sys2Proof.Machine

theorem GatewaySlot.afterAnswer_eq (x : GatewaySlot) : (if x = .answered then .free else x) = x.afterAnswer := by
  cases x <;> rfl

@[simp] theorem GatewaySlot.afterAnswer_ne_answered (x : GatewaySlot) : x.afterAnswer ≠ .answered := by
  cases x <;> simp [GatewaySlot.afterAnswer]

/-- A port that takes messages: the owner's reply to the message just begun decides. -/
theorem gateway_ready {i : Instr} {type : Byte} {tag : Half} {body : List Byte} {own : State → Reply} {s : State}
    (h : s.portReady) (hm : messageOf i = some (type, tag, body)) :
    gateway i own s =
      match (own (beginMessage tag (sealMessage type tag body) s)).answer with
      | none => (own (beginMessage tag (sealMessage type tag body) s)).state
      | some (code, out) => respond code out (own (beginMessage tag (sealMessage type tag body) s)).state := by
  obtain ⟨h1, h2, h3⟩ := h
  simp only [gateway, hm, h1, h2, h3]
  rfl

/-- The response to a message just begun, when its owner has left the port alone. -/
theorem respond_answered {i : Instr} {type : Byte} {tag : Half} {body : List Byte} {s t : State} {code : ResultCode}
    {out : List Byte} (hm : messageOf i = some (type, tag, body)) (hs : s.port.dispatched = none)
    (ht : t.port = (beginMessage tag (sealMessage type tag body) s).port) :
    respond code out t = State.answered i tag code out { t with port := s.port } := by
  have he : encodeMessage i = sealMessage type tag body := by simp [encodeMessage, hm]
  simp [respond, State.answered, Port.answered, ht, beginMessage, he, Config.messageBytes, hs, GatewaySlot.afterAnswer_eq]

/-- A command that is answered when its message is taken. -/
theorem gateway_answered {i : Instr} {type : Byte} {tag : Half} {body : List Byte} {own : State → Reply} {s t : State}
    {code : ResultCode} {out : List Byte} (h : s.portReady) (hm : messageOf i = some (type, tag, body))
    (ho : own (beginMessage tag (sealMessage type tag body) s) = ⟨t, some (code, out)⟩)
    (ht : t.port = (beginMessage tag (sealMessage type tag body) s).port) :
    gateway i own s = State.answered i tag code out { t with port := s.port } := by
  rw [gateway_ready h hm, ho]
  exact respond_answered hm h.2.2 ht

/-- A command that is refused, or answered without any change. -/
theorem gateway_unchanged {i : Instr} {type : Byte} {tag : Half} {body : List Byte} {own : State → Reply} {s : State}
    {code : ResultCode} {out : List Byte} (h : s.portReady) (hm : messageOf i = some (type, tag, body))
    (ho : own (beginMessage tag (sealMessage type tag body) s) =
      ⟨beginMessage tag (sealMessage type tag body) s, some (code, out)⟩) :
    gateway i own s = s.answered i tag code out :=
  gateway_answered (t := beginMessage tag (sealMessage type tag body) s) h hm ho rfl

/-- A message that comes while RDY is low and is not the one dispatched. -/
theorem gateway_overrun {i : Instr} {own : State → Reply} {s : State} (hm : messageOf i ≠ none) (h : s.inReset = false)
    (hr : s.port.rdy = false) (hd : s.port.dispatched ≠ some i) : gateway i own s = overrun (encodeMessage i).length s := by
  cases hmo : messageOf i with
  | none => exact absurd hmo hm
  | some p => simp [gateway, encodeMessage, hmo, h, hr, hd]

/-- During a device reset no message is taken (log 5). -/
theorem gateway_inReset {i : Instr} {own : State → Reply} {s : State} (h : s.inReset = true) : gateway i own s = s := by
  unfold gateway
  split
  · rfl
  · rw [if_pos h]

/-- During a device reset no event happens (log 5). -/
theorem event_inReset {f : State → State} {s : State} (h : s.inReset = true) : event f s = s := if_pos h

@[simp] theorem event_running {f : State → State} {s : State} (h : s.inReset = false) : event f s = f s := by
  simp [event, h]

end Sys2Proof.Machine
end

