-- ==== Sys2Proof/Laws/Readiness.lean ====
section
/-!
SUPPORT. Bank roles depend on the banks alone; a readiness evaluation as one update; numbers of links and banks read
back from their codes.
-/

namespace Sys2Proof.Machine

/-! ### Roles -/

theorem findBank_congr {s t : State} (h : t.banks = s.banks) (x : BankState) : t.findBank x = s.findBank x := by
  cases s
  cases t
  subst h
  rfl

theorem inForce_congr {s t : State} (h : t.banks = s.banks) : t.inForce = s.inForce := findBank_congr h _

theorem pendingBank_congr {s t : State} (h : t.banks = s.banks) : t.pendingBank = s.pendingBank := findBank_congr h _

theorem activation_congr {s t : State} (h : t.banks = s.banks) : t.activation = s.activation := by
  simp only [State.activation, pendingBank_congr h, State.recOf, State.bank, h]

/-- With the roles of R3 the bank in a state of the build side is the only one there. -/
theorem findBank_some {s : State} {x : BankState} {b : BankId} (h : s.findBank x = some b) : (s.recOf b).state = x := by
  unfold State.findBank at h
  split at h
  · next hx => cases h; exact hx
  · split at h
    · next hx => cases h; exact hx
    · cases h

theorem findBank_none {s : State} {x : BankState} : s.findBank x = none ↔ ∀ b, (s.recOf b).state ≠ x := by
  unfold State.findBank
  constructor
  · intro h b
    split at h
    · cases h
    · split at h
      · cases h
      · cases b <;> assumption
  · intro h
    rw [if_neg (h .bankA), if_neg (h .bankB)]

theorem eq_other {a b : BankId} (h : a ≠ b) : a = other b := by
  cases a <;> cases b <;> first | rfl | exact absurd rfl h

/-- Under R3 at most one bank is in force. -/
theorem inForce_of {s : State} (h : rolesLaw s) {b : BankId} (hb : (s.recOf b).state = .inForce) : s.inForce = some b := by
  obtain ⟨h1, -⟩ := h
  unfold State.inForce State.findBank
  cases b
  · rw [if_pos hb]
  · rw [if_neg (fun ha => h1 ⟨ha, hb⟩), if_pos hb]

/-- Under R3 at most one bank is on the build side. -/
theorem findBank_of {s : State} (h : rolesLaw s) {b : BankId} {x : BankState} (hx : x.buildSide = true)
    (hb : (s.recOf b).state = x) : s.findBank x = some b := by
  obtain ⟨-, h2⟩ := h
  unfold State.findBank
  cases b
  · rw [if_pos hb]
  · rw [if_neg (fun ha => h2 ⟨by rw [ha]; exact hx, by rw [hb]; exact hx⟩), if_pos hb]

theorem pendingBank_of {s : State} (h : rolesLaw s) {b : BankId} (hb : (s.recOf b).state = .pending) :
    s.pendingBank = some b := findBank_of h rfl hb

/-! ### Readiness -/

/-- A readiness evaluation writes the flag and, at a rise, the event (R146). -/
theorem evalReady_eq (s : State) :
    evalReady s =
      { s with
        table := { s.table with allReady := s.allReadyHolds }
        events :=
          if s.allReadyHolds = true ∧ s.table.allReady = false then
            { s.events with flags := s.events.flags ||| 0x80#24 }
          else s.events } := by
  unfold evalReady
  by_cases h : s.allReadyHolds = true ∧ s.table.allReady = false
  · simp [h, State.raise, Events.raise, Event.bit, Event.number]
  · rw [if_neg (by simpa using h), if_neg h]

/-- Where no trigger waits for readiness, a re-evaluation is an evaluation. -/
theorem reevaluate_quiet (s : State) (h : s.cutover.state ≠ .waiting ∨ s.activation ≠ some .onReady) :
    reevaluate s = evalReady s := by
  unfold reevaluate
  split
  · unfold tellReady
    rw [if_neg]
    rw [evalReady_cutover, activation_congr (evalReady_banks s)]
    rcases h with h | h
    · exact fun hx => h hx.1
    · exact fun hx => h hx.2
  · rfl

/-! ### Numbers -/

theorem linkOf_val (k : LinkId) : linkOf (BitVec.ofNat 8 k.val) = some k := by
  revert k
  decide

theorem linkOf_none {link : Byte} (h : 7 < link.toNat) : linkOf link = none := by
  simp [linkOf]
  omega

theorem bankOf_code (b : BankId) : bankOf (bankCode b) = some b := by cases b <;> rfl

end Sys2Proof.Machine
end

