-- ==== Sys2Proof/Laws/Ranges.lean ====
section
/-!
SUPPORT. The empty table and its directory, the order of the words in error, and reads that meet no error.
-/

namespace Sys2Proof.Machine

/-! ### Tables (R28) -/

theorem directoryFrom_nil (p : Nat) (l : List Nat) : directoryFrom [] p l = List.replicate l.length ⟨0, p⟩ := by
  induction l generalizing p with
  | nil => rfl
  | cons a l ih => simp [directoryFrom, shelfRecords, ih, List.replicate_succ]

/-- The table a build begins with is the directory of no records (R6, R28). -/
theorem ofRecords_nil : RangeRegion.ofRecords [] = RangeRegion.empty := by
  rw [RangeRegion.ofRecords, directoryFrom_nil, List.length_range]
  rfl

@[simp] theorem ofRecords_records (rs : List RangeRec) : (RangeRegion.ofRecords rs).records = rs := rfl

@[simp] theorem ofRecords_count (rs : List RangeRec) : (RangeRegion.ofRecords rs).count = rs.length := rfl

/-- Pruning a whole table keeps the ranges that have not expired (R45). -/
theorem pruneFirst_all (day : Half) (rs : List RangeRec) (n : Nat) (h : rs.length ≤ n) :
    pruneFirst day n rs = rs.filter fun r => !(r.expiry.any fun e => decide (e < day)) := by
  induction rs generalizing n with
  | nil => simp [pruneFirst]
  | cons r rs ih =>
    have he : expired day r = r.expiry.any fun e => decide (e < day) := by
      unfold expired
      cases r.expiry <;> rfl
    simp only [List.length_cons] at h
    match n with
    | n + 1 =>
      unfold pruneFirst
      rw [he]
      cases hr : r.expiry.any fun e => decide (e < day) with
      | true => simp [hr, ih n (by omega)]
      | false => simp [hr, ih (n + 1) (by omega)]

/-! ### Words in error (log 10) -/

/-- No two locations have the same rank. -/
theorem locKey_injective {a b : WordLoc} (h : locKey a = locKey b) : a = b := by
  cases a with
  | bank b1 r1 o1 =>
    cases b with
    | bank b2 r2 o2 =>
      cases b1 <;> cases r1 <;> cases b2 <;> cases r2 <;> simp only [locKey] at h <;>
        first
          | omega
          | (have : o1 = o2 := by omega
             rw [this])
    | buffer o2 => cases b1 <;> cases r1 <;> simp only [locKey] at h <;> omega
  | buffer o1 =>
    cases b with
    | bank b2 r2 o2 => cases b2 <;> cases r2 <;> simp only [locKey] at h <;> omega
    | buffer o2 =>
      simp only [locKey] at h
      have : o1 = o2 := by omega
      rw [this]

/-- A strike puts no location below the least of those struck and held. -/
theorem strike_lower (u : Upset) (us : List Upset) (n : Nat) (hu : n < locKey u.loc) (h : ∀ v ∈ us, n < locKey v.loc) :
    ∀ v ∈ strike u us, n < locKey v.loc := by
  induction us with
  | nil =>
    intro v hv
    simp only [strike, List.mem_singleton] at hv
    rw [hv]
    exact hu
  | cons w ws ih =>
    intro v hv
    simp only [strike] at hv
    split at hv
    · rcases List.mem_cons.mp hv with rfl | hv
      · exact hu
      · exact h v hv
    · split at hv
      · rcases List.mem_cons.mp hv with hv | hv
        · rw [hv]
          exact h w List.mem_cons_self
        · exact h v (List.mem_cons_of_mem _ hv)
      · rcases List.mem_cons.mp hv with hv | hv
        · rw [hv]
          exact h w List.mem_cons_self
        · exact ih (fun x hx => h x (List.mem_cons_of_mem _ hx)) v hv

/-- A strike keeps the canonical list. -/
theorem strike_wf (u : Upset) (us : List Upset) (h : upsetsWf us) : upsetsWf (strike u us) := by
  induction us with
  | nil => simp [strike, upsetsWf]
  | cons w ws ih =>
    simp only [upsetsWf, List.pairwise_cons] at h
    simp only [strike]
    split
    · next hlt =>
      simp only [upsetsWf, List.pairwise_cons]
      refine ⟨?_, h.1, h.2⟩
      intro v hv
      rcases List.mem_cons.mp hv with rfl | hv
      · exact hlt
      · exact Nat.lt_trans hlt (h.1 v hv)
    · split
      · exact List.pairwise_cons.mpr ⟨h.1, h.2⟩
      · refine List.pairwise_cons.mpr ⟨?_, ih h.2⟩
        exact strike_lower u ws _ (by omega) h.1

/-- A write leaves what it does not renew as it was, and of what it renews no error but a stuck bit (R180, R181). -/
theorem mem_refresh (w : WordLoc → Bool) (s : State) (v : Upset) :
    v ∈ (s.refresh w).upsets ↔
      (v ∈ s.upsets ∧ w v.loc = false) ∨ (v.kind = .stuck ∧ w v.loc = true ∧ ∃ u ∈ s.upsets, u.loc = v.loc ∧ hasStuck u.kind) := by
  simp only [State.refresh, List.mem_filterMap]
  constructor
  · rintro ⟨u, hu, h⟩
    split at h
    · next hw =>
      simp only [afterWrite] at h
      split at h
      · next hs =>
        cases h
        exact .inr ⟨rfl, hw, u, hu, rfl, hs⟩
      · cases h
    · next hw =>
      cases h
      exact .inl ⟨hu, by simpa using hw⟩
  · rintro (⟨hv, hw⟩ | ⟨hk, hw, u, hu, hl, hs⟩)
    · exact ⟨v, hv, by simp [hw]⟩
    · refine ⟨u, hu, ?_⟩
      cases v
      simp only at hk hl hw
      subst hk hl
      simp [hw, afterWrite, hs]

/-- A write keeps the canonical list of words in error. -/
theorem refresh_wf (w : WordLoc → Bool) (s : State) (h : upsetsWf s.upsets) : upsetsWf (s.refresh w).upsets := by
  have keep : ∀ {u v : Upset}, (if w u.loc then afterWrite u else some u) = some v → v.loc = u.loc := by
    intro u v huv
    unfold afterWrite at huv
    repeat' split at huv
    all_goals cases huv <;> rfl
  simp only [upsetsWf, State.refresh, List.pairwise_filterMap]
  refine h.imp fun {a c} hac x hx y hy => ?_
  rw [keep hx, keep hy]
  exact hac

@[simp] theorem refresh_none (s : State) (w : WordLoc → Bool) (h : s.upsets = []) : s.refresh w = s := by
  simp only [State.refresh, h, List.filterMap_nil]
  cases s
  subst h
  rfl

/-! ### Reads -/

theorem inItems_cons (b : BankId) (i : Item) (items : List Item) (l : WordLoc) :
    inItems b (i :: items) l = (inItems b [i] l || inItems b items l) := by
  cases l with
  | bank b' r o =>
    simp only [inItems, List.any_cons, List.any_nil, Bool.or_false]
    cases decide (b' = b) <;> simp
  | buffer o => rfl

@[simp] theorem inItems_nil (b : BankId) (l : WordLoc) : inItems b [] l = false := by
  cases l <;> simp [inItems]

/-- The reads of items meet exactly the words in error that are theirs (R180). -/
theorem mem_hitsIn (b : BankId) (items : List Item) (us : List Upset) (u : Upset) :
    u ∈ hitsIn b items us ↔ u ∈ us ∧ inItems b items u.loc = true := by
  induction items generalizing us with
  | nil => simp [hitsIn]
  | cons i items ih =>
    rw [hitsIn, List.mem_append, ih, inItems_cons]
    cases h : inItems b [i] u.loc <;> simp [h]

@[simp] theorem hitsIn_nil (b : BankId) (items : List Item) : hitsIn b items [] = [] :=
  List.eq_nil_iff_forall_not_mem.mpr fun u hu => by simpa using (mem_hitsIn b items [] u).mp hu

theorem hitsIn_sound {b : BankId} {items : List Item} {us : List Upset} (h : ∀ u ∈ us, inItems b items u.loc = false) :
    hitsIn b items us = [] :=
  List.eq_nil_iff_forall_not_mem.mpr fun u hu => by
    have := (mem_hitsIn b items us u).mp hu
    rw [h u this.1] at this
    exact Bool.noConfusion this.2

/-- A read that selects no word in error changes nothing (R180). -/
theorem readWords_sound (reader : Reader) (sel : WordLoc → Bool) (s : State)
    (h : ∀ u ∈ s.upsets, sel u.loc = false) : readWords reader sel s = (s, true) := by
  have : (s.upsets.filter fun u => sel u.loc) = [] := List.filter_eq_nil_iff.mpr fun u hu => by simp [h u hu]
  simp [readWords, this, readHits]

theorem readItems_sound (reader : Reader) (b : BankId) (items : List Item) (s : State)
    (h : ∀ u ∈ s.upsets, inItems b items u.loc = false) : readItems reader b items s = (s, true) := by
  simp [readItems, hitsIn_sound h, readHits]

theorem readItems_clean (reader : Reader) (b : BankId) (items : List Item) (s : State) (h : s.upsets = []) :
    readItems reader b items s = (s, true) := readItems_sound _ _ _ _ (by simp [h])

theorem readBuffer_clean (lo hi : Nat) (s : State) (h : s.upsets = []) : readBuffer lo hi s = (s, true) :=
  readWords_sound _ _ _ (by simp [h])

theorem runCheckReads_clean (b : BankId) (rs : List CheckRead) (s : State) (h : s.upsets = []) :
    runCheckReads b rs s = (s, true) := by
  induction rs with
  | nil => rfl
  | cons r rs ih => cases r <;> simp [runCheckReads, readNewBytes, readBuffer_clean, readItems_clean, h, ih]

/-- A read answers the word, or words, exactly when none of those in error holds an error of two bits (R181, R182). -/
theorem readHits_ok (reader : Reader) (us : List Upset) (s : State) :
    (readHits reader us s).2 = true ↔ ∀ u ∈ us, fatal u.kind = false := by
  induction us generalizing s with
  | nil => simp [readHits]
  | cons u us ih =>
    unfold readHits
    cases hk : fatal u.kind <;> simp [ih, hk]

/-- What one write leaves of a word in error. -/
def leftBy (w : WordLoc → Bool) (u : Upset) : Option Upset := if w u.loc then afterWrite u else some u

theorem refresh_eq (w : WordLoc → Bool) (s : State) : s.refresh w = { s with upsets := s.upsets.filterMap (leftBy w) } := rfl

theorem leftBy_leftBy (v w : WordLoc → Bool) (u : Upset) :
    (leftBy w u).bind (leftBy v) = leftBy (fun l => w l || v l) u := by
  obtain ⟨l, kind⟩ := u
  cases hw : w l <;> cases hv : v l <;> cases kind <;> simp [leftBy, afterWrite, hw, hv, hasStuck]

/-- Writes that select the same words of those in error leave the same. -/
theorem refresh_congr {v w : WordLoc → Bool} (s : State) (h : ∀ u ∈ s.upsets, v u.loc = w u.loc) :
    s.refresh v = s.refresh w := by
  have : ∀ us : List Upset, (∀ u ∈ us, v u.loc = w u.loc) → us.filterMap (leftBy v) = us.filterMap (leftBy w) := by
    intro us
    induction us with
    | nil => simp
    | cons u us ih =>
      intro hu
      have h1 : leftBy v u = leftBy w u := by simp [leftBy, hu u (by simp)]
      rw [List.filterMap_cons, List.filterMap_cons, h1, ih fun x hx => hu x (by simp [hx])]
  rw [refresh_eq, refresh_eq, this _ h]

/-- Two writes, one after the other, leave what one write of both leaves. -/
theorem refresh_refresh (v w : WordLoc → Bool) (s : State) :
    (s.refresh w).refresh v = s.refresh fun l => w l || v l := by
  simp only [refresh_eq, List.filterMap_filterMap, leftBy_leftBy]

/-- What a read does that meets no error of two bits: it corrects every word in error, and counts them (R181). -/
theorem readHits_corrects (reader : Reader) (us : List Upset) (s : State)
    (h : ∀ u ∈ us, fatal u.kind = false) :
    readHits reader us s =
      ({ s.refresh (fun l => us.any fun u => decide (l = u.loc)) with
          events :=
            { s.events with
              flags := if us.length = 0 then s.events.flags else s.events.flags ||| 0x10000#24
              corrected :=
                if us.length = 0 then s.events.corrected else min 4294967295 (s.events.corrected + us.length) } },
        true) := by
  induction us generalizing s with
  | nil => simp [readHits, State.refresh]
  | cons u us ih =>
    have hu := h u (by simp)
    unfold readHits
    rw [if_neg (by simp [hu]), ih _ fun v hv => h v (by simp [hv])]
    have hr : (correctWord u s).refresh (fun l => us.any fun u => decide (l = u.loc)) =
        { s.refresh (fun l => (u :: us).any fun u => decide (l = u.loc)) with events := (correctWord u s).events } := by
      have := congrArg State.upsets
        (refresh_refresh (fun l => us.any fun u => decide (l = u.loc)) (fun l => decide (l = u.loc)) s)
      simp only [correctWord, State.raise, State.refresh, List.any_cons] at this ⊢
      rw [this]
      rfl
    have he : (correctWord u s).events =
        { s.events with
          flags := s.events.flags ||| 0x10000#24
          corrected := min 4294967295 (s.events.corrected + 1) } := rfl
    rw [hr]
    simp only [he, List.length_cons]
    rcases us with - | ⟨u', us⟩
    · simp
    · simp only [List.length_cons, Nat.add_eq_zero_iff, Nat.succ_ne_self, and_false, if_false, BitVec.or_assoc,
        BitVec.or_self]
      congr 3
      omega

theorem hitsIn_length (b : BankId) (items : List Item) (us : List Upset) :
    (hitsIn b items us).length = (us.filter fun u => inItems b items u.loc).length := by
  induction items generalizing us with
  | nil => rw [hitsIn, List.filter_eq_nil_iff.mpr (by simp)]
  | cons i items ih =>
    rw [hitsIn, List.length_append, ih]
    induction us with
    | nil => rfl
    | cons u us ihu =>
      cases hi : inItems b [i] u.loc <;> cases hr : inItems b items u.loc <;>
        simp only [List.filter_cons, inItems_cons b i items u.loc, hi, hr, Bool.or_self, Bool.or_true, Bool.or_false, Bool.not_true,
          Bool.not_false, if_true, if_false, List.length_cons, Bool.false_eq_true] <;> omega

/-- What a read of items does when each of their words can be given. -/
theorem readItems_corrects (reader : Reader) (b : BankId) (items : List Item) (s : State)
    (h : ∀ u ∈ s.upsets, inItems b items u.loc = true → fatal u.kind = false) :
    readItems reader b items s = (s.correctedAt (inItems b items), true) := by
  unfold readItems
  rw [readHits_corrects reader _ s fun u hu => h u ((mem_hitsIn _ _ _ _).1 hu).1 ((mem_hitsIn _ _ _ _).1 hu).2, hitsIn_length]
  have hr := refresh_congr (v := fun l => (hitsIn b items s.upsets).any fun u => decide (l = u.loc)) (w := inItems b items) s
    fun u hu => by
      rw [Bool.eq_iff_iff]
      simp only [List.any_eq_true, mem_hitsIn, decide_eq_true_eq]
      exact ⟨fun ⟨v, hv, he⟩ => he ▸ hv.2, fun hp => ⟨u, ⟨hu, hp⟩, rfl⟩⟩
  rw [hr]
  unfold State.correctedAt Events.correctedBy
  split <;> rfl

/-- What a read does that meets an error of two bits: the words before the first such error are corrected, and it is
reported (R181, R182). -/
theorem readHits_stops (reader : Reader) (us : List Upset) (s : State) (h : ∃ u ∈ us, fatal u.kind = true) :
    ∃ before u after, us = before ++ u :: after ∧ (∀ v ∈ before, fatal v.kind = false) ∧ fatal u.kind = true ∧
      readHits reader us s = (uncorrectable u.loc reader (readHits reader before s).1, false) := by
  induction us generalizing s with
  | nil => obtain ⟨u, hu, -⟩ := h; cases hu
  | cons x us ih =>
    cases hx : fatal x.kind with
    | true => exact ⟨[], x, us, rfl, by simp, hx, by simp [readHits, hx]⟩
    | false =>
      obtain ⟨u, hu, hk⟩ := h
      have hu' : u ∈ us := by
        rcases List.mem_cons.mp hu with rfl | hu'
        · rw [hx] at hk; cases hk
        · exact hu'
      obtain ⟨before, v, after, rfl, hb, hv, he⟩ := ih (correctWord x s) ⟨u, hu', hk⟩
      refine ⟨x :: before, v, after, rfl, ?_, hv, by simp [readHits, hx, he]⟩
      intro y hy
      rcases List.mem_cons.mp hy with rfl | hy'
      · exact hx
      · exact hb y hy'

theorem correctedAt_sound {s : State} {read : WordLoc → Bool} (h : ∀ u ∈ s.upsets, read u.loc = false) :
    s.correctedAt read = s := by
  have hf : (s.upsets.filter fun u => read u.loc) = [] := List.filter_eq_nil_iff.mpr fun u hu => by simp [h u hu]
  have hr : s.refresh read = s := by
    rw [refresh_congr (w := fun _ => false) s h, refresh_eq]
    have : s.upsets.filterMap (leftBy fun _ => false) = s.upsets := by
      rw [show (leftBy fun _ => false) = some from rfl, List.filterMap_some]
    rw [this]
  simp [State.correctedAt, hf, hr, Events.correctedBy]

/-! ### The scrubber's extents (R185) -/

/-- The words of the items of a region in a bank's extent. -/
theorem mem_extentItems (x : Bank) (r : Region) (o : Nat) :
    o ∈ (extentItems x r).flatMap Config.itemWords ↔ inExtent x r o := by
  rw [List.mem_flatMap]
  constructor
  · rintro ⟨i, hi, ho⟩
    refine ⟨i, ho, ?_⟩
    cases r <;> simp only [extentItems, headerItems, tariffItems, rangeItems] at hi
    · split at hi <;> simp_all
    · split at hi
      · rename_i hp
        simp only [List.mem_append, List.mem_map, List.mem_range] at hi
        rcases hi with ((⟨n, hn, rfl⟩ | ⟨n, hn, rfl⟩) | hi) | ⟨n, hn, rfl⟩
        · exact ⟨hp, hn⟩
        · exact ⟨hp, hn⟩
        · split at hi
          · cases hi
          · rename_i hd
            simp only [List.mem_map, List.mem_range] at hi
            obtain ⟨n, hn, rfl⟩ := hi
            exact ⟨hp, by simpa using hd, hn⟩
        · exact ⟨hp, hn⟩
      · cases hi
    · simp only [List.mem_cons, List.mem_append, List.mem_map, List.mem_range] at hi
      rcases hi with rfl | ⟨n, hn, rfl⟩ | ⟨n, hn, rfl⟩
      · trivial
      · exact hn
      · exact hn
  · rintro ⟨i, ho, h⟩
    refine ⟨i, ?_, ho⟩
    cases r <;> cases i <;> simp_all [extentItems, headerItems, tariffItems, rangeItems]

/-- The words of a region that a pass reads. -/
theorem mem_scrubExtent (s : State) (b : BankId) (r : Region) (o : Nat) : o ∈ scrubExtent b r s ↔ s.passReads b r o := by
  unfold scrubExtent State.passReads
  by_cases he : (s.recOf b).state = .empty
  · simp [he]
  by_cases hm : (s.recOf b).marks.get r = none
  · rw [if_neg (by simp [he, hm])]
    by_cases hc : (s.recOf b).state = .copying
    · rw [if_pos hc]
      have only : ∀ f, (s.recOf f).state = .inForce → s.inForce = some f := by
        intro f hf
        cases b <;> cases f <;> simp_all [State.inForce, State.findBank]
      cases hi : s.inForce with
      | none =>
        simp only [List.not_mem_nil, false_iff]
        rintro ⟨-, -, -, h⟩
        obtain ⟨f, hf, -⟩ := h hc
        rw [only f hf] at hi
        cases hi
      | some f =>
        simp only [List.mem_filter, mem_extentItems, decide_eq_true_eq]
        constructor
        · rintro ⟨h1, h2⟩
          have hf : (s.recOf f).state = .inForce := by
            simp only [State.inForce, State.findBank] at hi
            split at hi <;> rename_i h
            · cases hi; exact h
            · split at hi <;> rename_i h' <;> cases hi
              exact h'
          exact ⟨he, hm, fun h => absurd hc h, fun _ => ⟨f, hf, h2, h1⟩⟩
        · rintro ⟨-, -, -, h⟩
          obtain ⟨g, hg, h1, h2⟩ := h hc
          rw [only g hg] at hi
          cases hi
          exact ⟨h2, h1⟩
    · rw [if_neg hc, mem_extentItems]
      simp [he, hm, hc]
  · have : ((s.recOf b).marks.get r).isSome = true := by
      cases h : (s.recOf b).marks.get r <;> simp_all
    rw [if_pos (.inr this)]
    simp [hm]

/-! ### The copy (R8) -/

theorem offsetIn_bank (r r' : Region) (b : BankId) (o : Nat) :
    offsetIn r (.bank b r' o) = if r' = r then some o else none := rfl

/-- The copy's reads meet exactly the words in error that it passes. -/
theorem mem_copyHits (f : BankId) (items : List Item) (c : Copied) (c' : Option Copied) (us : List Upset) (u : Upset) :
    u ∈ copyHits f items c c' us ↔ u ∈ us ∧ copyPasses f items c c' u.loc = true := by
  obtain ⟨l, kind⟩ := u
  cases l with
  | bank b r o => cases r <;> simp [copyHits, offsetIn_bank]
  | buffer o => simp [copyHits, copyPasses]

theorem copyHits_length (f : BankId) (items : List Item) (c : Copied) (c' : Option Copied) (us : List Upset) :
    (copyHits f items c c' us).length = (us.filter fun u => copyPasses f items c c' u.loc).length := by
  induction us with
  | nil => rfl
  | cons u us ih =>
    simp only [copyHits, List.flatMap_cons, List.flatMap_nil, List.length_append, List.append_nil] at ih ⊢
    obtain ⟨l, kind⟩ := u
    cases hp : copyPasses f items c c' l with
    | false => simpa [hp] using ih
    | true =>
      cases l with
      | bank b r o => cases r <;> simp [hp, offsetIn_bank] <;> omega
      | buffer o => simp [copyPasses] at hp

/-- The copy goes on to points with no word before them that it cannot read. -/
theorem copyTo_copiedTo (t f : BankId) (c : Copied) (s : State)
    (h : ∀ u ∈ s.upsets, copyPasses f (allExtentItems (s.bank f)) s.copied (some c) u.loc = true → fatal u.kind = false) :
    copyTo t f c s = (s.copiedTo t f (some c), true) := by
  unfold copyTo
  simp only [readHits_corrects .copy _ s fun u hu =>
    h u ((mem_copyHits _ _ _ _ _ _).1 hu).1 ((mem_copyHits _ _ _ _ _ _).1 hu).2, copyHits_length, if_true]
  have hr := refresh_congr
    (v := fun l => (copyHits f (allExtentItems (s.bank f)) s.copied (some c) s.upsets).any fun u => decide (l = u.loc))
    (w := copyPasses f (allExtentItems (s.bank f)) s.copied (some c)) s fun u hu => by
      rw [Bool.eq_iff_iff]
      simp only [List.any_eq_true, mem_copyHits, decide_eq_true_eq]
      exact ⟨fun ⟨v, hv, he⟩ => he ▸ hv.2, fun hp => ⟨u, ⟨hu, hp⟩, rfl⟩⟩
  have h2 := congrArg State.upsets (refresh_refresh
    (copyPasses t (allExtentItems (s.bank f)) s.copied (some c))
    (copyPasses f (allExtentItems (s.bank f)) s.copied (some c)) s)
  simp only [hr]
  simp only [refresh_eq, State.copiedTo] at h2 ⊢
  rw [h2]
  rfl

/-- The points cut short are not before those the hits lie behind, nor behind those they were cut from. -/
theorem short_get (hits : List Upset) (c : Copied) (r : Region) :
    ((c.short hits).get r = c.get r ∨
      ∃ u ∈ hits, fatal u.kind = true ∧ offsetIn r u.loc = some ((c.short hits).get r)) ∧
    ∀ u ∈ hits, fatal u.kind = true → ∀ o, offsetIn r u.loc = some o → (c.short hits).get r ≤ o := by
  have hg : (c.short hits).get r =
      (((hits.filter fun u => fatal u.kind).filterMap fun u => offsetIn r u.loc).min?).getD (c.get r) := by
    cases r <;> rfl
  have mem : ∀ o, o ∈ ((hits.filter fun u => fatal u.kind).filterMap fun u => offsetIn r u.loc) ↔
      ∃ u ∈ hits, fatal u.kind = true ∧ offsetIn r u.loc = some o := by
    intro o; simp [List.mem_filterMap, and_assoc]
  rw [hg]
  cases hm : ((hits.filter fun u => fatal u.kind).filterMap fun u => offsetIn r u.loc).min? with
  | none =>
    rw [List.min?_eq_none_iff] at hm
    refine ⟨.inl rfl, fun u hu hf o ho => ?_⟩
    have := (mem o).2 ⟨u, hu, hf, ho⟩
    rw [hm] at this
    cases this
  | some m =>
    have hm' := List.min?_eq_some_iff.1 hm
    exact ⟨.inr ((mem m).1 hm'.1), fun u hu hf o ho => hm'.2 o ((mem o).2 ⟨u, hu, hf, ho⟩)⟩

theorem onward_get (free : Nat) (c : Copied) (r : Region) : c.get r ≤ (c.onward free).get r := by
  cases r <;> exact Nat.le_max_left _ _

/-- What a copy in progress does when it goes on. -/
theorem copyOn_goesOn (s : State) : CopyGoesOn s (copyOn s) where
  idle h := by
    unfold copyOn
    split
    · next t f ht hf =>
      exact absurd (show (s.recOf f).state = .inForce from findBank_some hf) (h t f (findBank_some ht))
    · rfl
  goes t f ht hf := by
    have hft : f = other t := by
      cases t <;> cases f <;> first | rfl | (rw [ht] at hf; cases hf)
    have h1 : s.findBank .copying = some t := by
      subst hft
      cases t <;> simp_all [State.findBank, other]
    have h2 : s.inForce = some f := by
      subst hft
      cases t <;> simp_all [State.inForce, State.findBank, other]
    let c := s.copied.onward s.free
    let hits := copyHits f (allExtentItems (s.bank f)) s.copied (some c) s.upsets
    have hsound : ∀ u ∈ s.upsets,
        copyPasses f (allExtentItems (s.bank f)) s.copied (some (c.short hits)) u.loc = true → fatal u.kind = false := by
      intro u hu hp
      refine Bool.eq_false_iff.mpr fun hk => ?_
      obtain ⟨l, kind⟩ := u
      cases l with
      | buffer o => simp [copyPasses] at hp
      | bank b r o =>
        simp only [copyPasses, Bool.and_eq_true, decide_eq_true_eq, Option.all_some] at hp
        obtain ⟨hle, hge⟩ := short_get hits c r
        have hlt : o < c.get r := by
          rcases hle with h | ⟨v, hv, -, ho⟩
          · omega
          · have hv' := ((mem_copyHits _ _ _ _ _ _).1 hv).2
            obtain ⟨lv, kv⟩ := v
            cases lv with
            | buffer o' => cases ho
            | bank b' r' o' =>
              simp only [offsetIn_bank] at ho
              split at ho
              · next hr =>
                cases ho
                subst hr
                simp only [copyPasses, Bool.and_eq_true, decide_eq_true_eq, Option.all_some] at hv'
                omega
              · cases ho
        have hmem : (⟨.bank b r o, kind⟩ : Upset) ∈ hits := by
          rw [mem_copyHits]
          refine ⟨hu, ?_⟩
          simp only [copyPasses, Bool.and_eq_true, decide_eq_true_eq, Option.all_some]
          exact ⟨hp.1, hlt⟩
        have := hge _ hmem hk o (by simp [offsetIn_bank])
        omega
    refine ⟨c.short hits, fun r => ?_, hsound, ?_⟩
    · rcases (short_get hits c r).1 with h | ⟨v, hv, -, ho⟩
      · rw [h]; exact onward_get _ _ _
      · have hv' := ((mem_copyHits _ _ _ _ _ _).1 hv).2
        obtain ⟨lv, kv⟩ := v
        cases lv with
        | buffer o' => cases ho
        | bank b' r' o' =>
          simp only [offsetIn_bank] at ho
          split at ho
          · next hr =>
            cases ho
            subst hr
            simp only [copyPasses, Bool.and_eq_true, decide_eq_true_eq] at hv'
            exact hv'.1.2
          · cases ho
    · simp only [copyOn, h1, h2]
      rw [copyTo_copiedTo t f _ s hsound]

/-- A copy that goes on changes words in error, their events, how far it has come and the counter of free values, and nothing
else. -/
theorem CopyGoesOn.rest {s v : State} (h : CopyGoesOn s v) :
    v = { s with upsets := v.upsets, events := v.events, copied := v.copied, free := v.free } := by
  by_cases hc : ∃ t f, (s.recOf t).state = .copying ∧ (s.recOf f).state = .inForce
  · obtain ⟨t, f, ht, hf⟩ := hc
    obtain ⟨c, -, -, rfl⟩ := h.goes t f ht hf
    rfl
  · rw [h.idle fun t f ht hf => hc ⟨t, f, ht, hf⟩]

end Sys2Proof.Machine
end

