-- ==== Sys2Proof/Laws/CloseRun.lean ====
section
/-!
SUPPORT. What the acts of a closing run can do, said once (R15, R45, R60, R66, R180 to R182), and where the scrubber goes when
it leaves a bank or a region (R184, R185).
-/

namespace Sys2Proof.Machine

/-! ### The scrubber -/

theorem Scrub.endPass_eq (c : Scrub) : c.endPass = c.ended := by
  simp only [Scrub.endPass, Scrub.ended, Scrub.beginPass, Scrub.periodMs, satAdd]
  rfl

theorem Scrub.leaveBank_eq (b : BankId) (c : Scrub) : c.leaveBank b = c.leftBank b := by
  obtain ⟨period, mode, timer, passes⟩ := c
  cases mode with
  | off => rfl
  | resting => rfl
  | walking b' r o => cases b <;> cases b' <;> cases r <;> first | rfl | exact Scrub.endPass_eq _

theorem Scrub.leaveRegion_eq (b : BankId) (r : Region) (c : Scrub) : c.leaveRegion b r = c.leftRegion b r := by
  obtain ⟨period, mode, timer, passes⟩ := c
  cases mode with
  | off => rfl
  | resting => rfl
  | walking b' r' o =>
    unfold Scrub.leaveRegion Scrub.leftRegion
    have next : ∀ d : Scrub, d.goTo (regionsFrom b r).tail = d.movedTo (regionAfter b r) := fun d => by
      cases b <;> cases r <;> first | rfl | exact Scrub.endPass_eq d
    simp only [next]

/-! ### Corrections -/

@[simp] theorem Events.correctedBy_zero (e : Events) : e.correctedBy 0 = e := rfl

theorem Events.correctedBy_add (m n : Nat) (e : Events) : (e.correctedBy m).correctedBy n = e.correctedBy (m + n) := by
  unfold Events.correctedBy
  by_cases hm : m = 0 <;> by_cases hn : n = 0 <;> simp [hm, hn, BitVec.or_assoc]
  omega

/-! ### The acts of a closing run -/

theorem no_corrections (us : List Upset) : (us.map fun _ => 0).sum = 0 := by induction us <;> simp_all

theorem leftBy_eq (w : WordLoc → Bool) : leftBy w = fun u => if w u.loc then afterWrite u else some u := rfl

theorem leftBy_loc {w : WordLoc → Bool} {u v : Upset} (h : leftBy w u = some v) : v.loc = u.loc := by
  unfold leftBy afterWrite at h
  repeat' split at h
  all_goals cases h <;> rfl

/-- One act that leaves of each word in error what `f` says, correcting it as often as `d` says, followed by others. -/
theorem ranOn_cons {b : BankId} {kept : Option WordLoc} {a : CloseAct} {s s' : State}
    (f : Upset → Option Upset) (d : Upset → Nat)
    (hf : ∀ u ∈ s.upsets, ∀ v, f u = some v → v.loc = u.loc)
    (he : ∀ acts, ∀ u ∈ s.upsets,
      errorAfter b kept u.loc (a :: acts) u.kind =
        match f u with
        | none => some (none, d u)
        | some v => (errorAfter b kept v.loc acts v.kind).map fun p => (p.1, p.2 + d u))
    (hs : s' =
      { s with upsets := s.upsets.filterMap f, events := s.events.correctedBy (s.upsets.map d).sum }) (acts : List CloseAct) :
    (s.readable b kept (a :: acts) ↔ s'.readable b kept acts) ∧
      (s.readable b kept (a :: acts) → s.ranOn b kept (a :: acts) = s'.ranOn b kept acts) := by
  subst hs
  have hi : s.readable b kept (a :: acts) ↔
      ∀ v ∈ s.upsets.filterMap f, errorAfter b kept v.loc acts v.kind ≠ none := by
    constructor
    · intro h v hv
      obtain ⟨u, hu, huv⟩ := List.mem_filterMap.mp hv
      have := h u hu
      rw [he acts u hu, huv] at this
      intro hn
      simp [hn] at this
    · intro h u hu
      rw [he acts u hu]
      cases hfu : f u with
      | none => simp
      | some v => simpa using h v (List.mem_filterMap.mpr ⟨u, hu, hfu⟩)
  refine ⟨hi, fun h => ?_⟩
  have hr := hi.mp h
  have key : ∀ us : List Upset, (∀ u ∈ us, u ∈ s.upsets) →
      (us.filterMap fun u => ((errorAfter b kept u.loc (a :: acts) u.kind).getD (none, 0)).1.map fun k => (⟨u.loc, k⟩ : Upset)) =
        ((us.filterMap f).filterMap fun u =>
          ((errorAfter b kept u.loc acts u.kind).getD (none, 0)).1.map fun k => (⟨u.loc, k⟩ : Upset)) ∧
      (us.map fun u => ((errorAfter b kept u.loc (a :: acts) u.kind).getD (none, 0)).2).sum =
        (us.map d).sum + ((us.filterMap f).map fun u => ((errorAfter b kept u.loc acts u.kind).getD (none, 0)).2).sum := by
    intro us
    induction us with
    | nil => simp
    | cons u us ih =>
      intro hu
      obtain ⟨h1, h2⟩ := ih fun x hx => hu x (by simp [hx])
      have hus := hu u (by simp)
      have heu := he acts u hus
      cases hfu : f u with
      | none =>
        simp only [hfu] at heu
        simp only [List.filterMap_cons, List.map_cons, List.sum_cons, heu, hfu, Option.getD_some, Option.map_none, h1, h2]
        exact ⟨trivial, by omega⟩
      | some v =>
        have hl := hf u hus v hfu
        have hv := hr v (List.mem_filterMap.mpr ⟨u, hus, hfu⟩)
        simp only [hfu] at heu
        rw [hl] at heu hv
        obtain ⟨p, hp⟩ := Option.ne_none_iff_exists'.mp hv
        simp only [List.filterMap_cons, List.map_cons, List.sum_cons, heu, hfu, hp, Option.getD_some, Option.map_some, h1, h2, hl]
        exact ⟨trivial, by omega⟩
  obtain ⟨h1, h2⟩ := key s.upsets fun u hu => hu
  simp only [State.ranOn, h1, h2, Events.correctedBy_add]

theorem upsets_unique {us : List Upset} (h : upsetsWf us) {u v : Upset} (hu : u ∈ us) (hv : v ∈ us) (e : u.loc = v.loc) :
    u = v := by
  induction us with
  | nil => cases hu
  | cons x us ih =>
    obtain ⟨h1, h2⟩ := List.pairwise_cons.mp h
    rcases List.mem_cons.mp hu with rfl | hu' <;> rcases List.mem_cons.mp hv with rfl | hv'
    · rfl
    · exact absurd (h1 v hv') (by rw [e]; omega)
    · exact absurd (h1 u hu') (by rw [e]; omega)
    · exact ih h2 hu' hv'

theorem upsetAt_none {s : State} {l : WordLoc} (h : s.upsetAt l = none) : ∀ u ∈ s.upsets, u.loc ≠ l := by
  simpa [State.upsetAt] using h

theorem upsetAt_some {s : State} {l : WordLoc} {k : UpsetKind} (h : s.upsetAt l = some k) : ⟨l, k⟩ ∈ s.upsets := by
  simp only [State.upsetAt, Option.map_eq_some_iff] at h
  obtain ⟨u, hu, rfl⟩ := h
  have := List.mem_of_find?_eq_some hu
  have hl := List.find?_some hu
  simp only [decide_eq_true_eq] at hl
  subst hl
  exact this

/-- The words in error keep their canonical list when each keeps its place or goes. -/
theorem upsetsWf_filterMap {us : List Upset} (f : Upset → Option Upset) (hf : ∀ u v, f u = some v → v.loc = u.loc)
    (h : upsetsWf us) : upsetsWf (us.filterMap f) := by
  induction us with
  | nil => exact h
  | cons x us ih =>
    obtain ⟨h1, h2⟩ := List.pairwise_cons.mp h
    cases hx : f x with
    | none => rw [List.filterMap_cons, hx]; exact ih h2
    | some y =>
      rw [List.filterMap_cons, hx]
      refine List.pairwise_cons.mpr ⟨fun z hz => ?_, ih h2⟩
      obtain ⟨u, hu, huz⟩ := List.mem_filterMap.mp hz
      rw [hf x y hx, hf u z huz]
      exact h1 u hu

/-- In a canonical list one word in error lies at its location. -/
theorem countAt_one {us : List Upset} (h : upsetsWf us) {u : Upset} (hu : u ∈ us) :
    (us.map fun v => if v.loc = u.loc then 1 else 0).sum = 1 := by
  have absent : ∀ ys : List Upset, (∀ y ∈ ys, y.loc ≠ u.loc) → (ys.map fun v => if v.loc = u.loc then 1 else 0).sum = 0 := by
    intro ys
    induction ys with
    | nil => simp
    | cons y ys ih => intro hy; simp [hy y (by simp), ih fun z hz => hy z (by simp [hz])]
  induction us with
  | nil => cases hu
  | cons x us ih =>
    obtain ⟨h1, h2⟩ := List.pairwise_cons.mp h
    rcases List.mem_cons.mp hu with rfl | hu'
    · simp only [List.map_cons, List.sum_cons, if_true]
      rw [absent us fun y hy e => by have := h1 y hy; rw [e] at this; exact Nat.lt_irrefl _ this]
    · have := h1 _ hu'
      simp only [List.map_cons, List.sum_cons, ih h2 hu']
      rw [if_neg fun e => by rw [e] at this; exact Nat.lt_irrefl _ this]

/-- An error of one bit keeps no word from being read (R181). -/
theorem errorAfter_single (b : BankId) (kept : Option WordLoc) (l : WordLoc) (acts : List CloseAct) (k : UpsetKind)
    (h : fatal k = false) : errorAfter b kept l acts k ≠ none := by
  induction acts generalizing k with
  | nil => simp [errorAfter]
  | cons a acts ih =>
    have stuck := ih .stuck rfl
    cases a <;> simp only [errorAfter] <;> repeat' split
    all_goals first | exact ih _ h | exact stuck | simp_all

/-- The act of reading a word that cannot be given. -/
abbrev CloseAct.blocked (b : BankId) (s : State) (a : CloseAct) : Prop :=
  ∃ r o k, a = .read r o ∧ s.upsetAt (.bank b r o) = some k ∧ fatal k = true

/-- One act that is not blocked, with what others make of the state it leaves. -/
theorem runActs_cons (b : BankId) (kept : Option WordLoc) (a : CloseAct) (pt : ClosePoint) (s : State)
    (hl : errorsLaw s) (ha : ¬a.blocked b s) :
    ∃ s' : State, errorsLaw s' ∧ ∀ acts : List CloseAct,
      runActs b kept (a :: acts) pt s = runActs b kept acts (pointFrom pt [a]) s' ∧
        (s.readable b kept (a :: acts) ↔ s'.readable b kept acts) ∧
        (s.readable b kept (a :: acts) → s.ranOn b kept (a :: acts) = s'.ranOn b kept acts) := by
  cases a with
  | reach q =>
    exact ⟨s, hl, fun acts => ⟨rfl, ranOn_cons some (fun _ => 0) (fun u _ v hv => by cases hv; rfl)
      (fun acts u _ => by simp [errorAfter]) (by simp [no_corrections]) acts⟩⟩
  | write items =>
    let w : WordLoc → Bool := fun l => inItems b items l && decide (kept ≠ some l)
    exact ⟨s.refresh w, upsetsWf_filterMap (leftBy w) (fun _ _ => leftBy_loc) hl, fun acts =>
      ⟨rfl, ranOn_cons (leftBy w) (fun _ => 0) (fun u _ v => leftBy_loc)
        (fun acts u _ => by
          cases hi : inItems b items u.loc <;> by_cases hk : kept = some u.loc <;> cases hs : hasStuck u.kind <;>
            simp [errorAfter, leftBy, afterWrite, w, hi, hk, hs])
        (by simp [refresh_eq, no_corrections]) acts⟩⟩
  | read r o =>
    cases hu : s.upsetAt (.bank b r o) with
    | none =>
      have hn := upsetAt_none hu
      exact ⟨s, hl, fun acts => ⟨by simp [runActs, hu, pointFrom], ranOn_cons some (fun _ => 0)
        (fun u _ v hv => by cases hv; rfl) (fun acts u hu => by simp [errorAfter, hn u hu])
        (by simp [no_corrections]) acts⟩⟩
    | some k =>
      have hm := upsetAt_some hu
      have hf : fatal k = false := by
        cases hk : fatal k
        · rfl
        · exact absurd ⟨r, o, k, rfl, hu, hk⟩ ha
      refine ⟨correctWord ⟨.bank b r o, k⟩ s, ?_, fun acts => ⟨by simp [runActs, hu, hf, pointFrom],
        ranOn_cons (leftBy fun l => decide (l = .bank b r o)) (fun u => if u.loc = .bank b r o then 1 else 0)
          (fun u _ v => leftBy_loc) (fun acts u hu' => ?_) ?_ acts⟩⟩
      · have := upsetsWf_filterMap (leftBy fun l => decide (l = .bank b r o)) (fun _ _ => leftBy_loc) hl
        simpa [errorsLaw, correctWord, State.raise, State.refresh, leftBy_eq] using this
      · by_cases he : u.loc = .bank b r o
        · have : u = ⟨.bank b r o, k⟩ := upsets_unique hl hu' hm he
          subst this
          cases hs : hasStuck k <;> simp [errorAfter, leftBy, afterWrite, hf, hs]
        · simp [errorAfter, leftBy, he]
      · rw [countAt_one hl hm]
        rfl

/-- Everything the acts of a closing run can do: they are made, with what `State.ranOn` says, up to the first that is
blocked. -/
theorem runActs_ranOn (b : BankId) (kept : Option WordLoc) (acts : List CloseAct) (pt : ClosePoint) (s : State)
    (hl : errorsLaw s) :
    ∃ made left : List CloseAct, acts = made ++ left ∧ s.readable b kept made ∧
      (∀ a ∈ left.head?, a.blocked b (s.ranOn b kept made)) ∧
      runActs b kept acts pt s = (s.ranOn b kept made, pointFrom pt made, left) := by
  have h0 : s.ranOn b kept [] = s := by simp [State.ranOn, errorAfter, no_corrections]
  induction acts generalizing pt s with
  | nil => exact ⟨[], [], rfl, by simp [State.readable, errorAfter], by simp, by rw [h0]; rfl⟩
  | cons a acts ih =>
    by_cases ha : a.blocked b s
    · refine ⟨[], a :: acts, rfl, by simp [State.readable, errorAfter], by simpa [h0] using ha, ?_⟩
      obtain ⟨r, o, k, rfl, hu, hk⟩ := ha
      rw [h0]
      simp [runActs, hu, hk, pointFrom]
    · obtain ⟨s', hl', h⟩ := runActs_cons b kept a pt s hl ha
      obtain ⟨made, left, rfl, hr, hb, he⟩ := ih (pointFrom pt [a]) s' hl'
        (by simp [State.ranOn, errorAfter, no_corrections])
      have hra := (h made).2.1.mpr hr
      refine ⟨a :: made, left, rfl, hra, ?_, ?_⟩
      · rw [(h made).2.2 hra]; exact hb
      · rw [(h (made ++ left)).1, he, (h made).2.2 hra]
        cases a <;> rfl

/-- The acts before one of the reads of a word are those up to it. -/
theorem actsBefore_of_eq {a : CloseAct} {again : Nat} {made left : List CloseAct} (h : made.count a = again) :
    actsBefore a again (made ++ a :: left) = some made := by
  induction made generalizing again with
  | nil => subst h; simp [actsBefore]
  | cons x made ih =>
    by_cases hx : x = a
    · subst hx
      simp only [List.count_cons_self] at h
      subst h
      simp [actsBefore, ih rfl]
    · rw [List.count_cons_of_ne hx] at h
      simp [actsBefore, hx, ih h]

theorem actsBefore_none {a : CloseAct} {again : Nat} {acts : List CloseAct} (h : acts.count a ≤ again) :
    actsBefore a again acts = none := by
  induction acts generalizing again with
  | nil => rfl
  | cons x acts ih =>
    by_cases hx : x = a
    · subst hx
      simp only [List.count_cons_self] at h
      obtain ⟨n, rfl⟩ : ∃ n, again = n + 1 := ⟨again - 1, by omega⟩
      simp [actsBefore, ih (again := n) (by omega)]
    · rw [List.count_cons_of_ne hx] at h
      simp [actsBefore, hx, ih h]

/-- Acts that can all be made. -/
theorem runActs_readable (b : BankId) (kept : Option WordLoc) (made left : List CloseAct) (pt : ClosePoint) (s : State)
    (hl : errorsLaw s) (h : s.readable b kept made) :
    runActs b kept (made ++ left) pt s = runActs b kept left (pointFrom pt made) (s.ranOn b kept made) := by
  induction made generalizing pt s with
  | nil => simp [State.ranOn, errorAfter, no_corrections, pointFrom]
  | cons a made ih =>
    have ha : ¬a.blocked b s := by
      rintro ⟨r, o, k, rfl, hu, hk⟩
      exact h _ (upsetAt_some hu) (by simp [errorAfter, hk])
    obtain ⟨s', hl', hc⟩ := runActs_cons b kept a pt s hl ha
    rw [List.cons_append, (hc (made ++ left)).1, ih _ s' hl' ((hc made).2.1.mp h), (hc made).2.2 h]
    cases a <;> rfl

end Sys2Proof.Machine
end

