-- ==== Sys2Proof/Laws/Cutover.lean ====
section
/-!
SUPPORT. What cutting the cycles of a bank, a cutover, a trigger and a withdrawal can do, each said once.
-/

namespace Sys2Proof.Machine

/-! ### Readers and cuts (R4, R102) -/

/-- A reader released from a bank that is not draining: its count falls, and nothing else changes (R4). -/
theorem releaseReader_eq {b : BankId} {s : State} (h : (s.recOf b).state ≠ .draining) :
    releaseReader b s = s.setRec b { s.recOf b with readers := (s.recOf b).readers - 1 } := by
  unfold releaseReader
  simp [h]

/-- The context of a cycle that has been cut (R102). -/
def Context.cutShort (c : Context) : Context :=
  { c with cut := true, content := none, todo := [], ending := some (endBody c true) }

/-- From `s` to `t` the cycles of bank `b` on the links `ks` that stand at a frame boundary are cut, and the bank's
readers fall (R102). -/
structure CyclesCut (b : BankId) (ks : List LinkId) (s t : State) : Prop where
  bank : t.bank b =
    { s.bank b with
      record :=
        { s.recOf b with
          readers := (s.recOf b).readers - (ks.filter fun k => decide ((s.link k).atBoundaryOf b)).length } }
  otherBank : t.bank (other b) = s.bank (other b)
  cut : ∀ k, k ∈ ks → (s.link k).atBoundaryOf b → t.link k = { s.link k with ctx := (s.link k).ctx.cutShort }
  kept : ∀ k, (k ∉ ks ∨ ¬(s.link k).atBoundaryOf b) → t.link k = s.link k
  rest : t = { s with banks := t.banks, links := t.links }

theorem CyclesCut.events {b : BankId} {ks : List LinkId} {s t : State} (c : CyclesCut b ks s t) : t.events = s.events :=
  (congrArg (fun x : State => x.events) c.rest : _)

theorem CyclesCut.upsets {b : BankId} {ks : List LinkId} {s t : State} (c : CyclesCut b ks s t) : t.upsets = s.upsets :=
  (congrArg (fun x : State => x.upsets) c.rest : _)

theorem atBoundaryOf_iff (l : Link) (b : BankId) :
    (l.inCycle && decide (l.ctx.content = some b) && l.ctx.atBoundary) = true ↔ l.atBoundaryOf b := by
  simp [Link.inCycle, Context.atBoundary, Link.atBoundaryOf, and_assoc]

/-- The cut of one link at a boundary. -/
theorem takeCut_eq {b : BankId} {k : LinkId} {s : State} (h : (s.recOf b).state ≠ .draining)
    (hk : (s.link k).atBoundaryOf b) :
    takeCut k s =
      (s.setLink k { s.link k with ctx := (s.link k).ctx.cutShort }).setRec b
        { s.recOf b with readers := (s.recOf b).readers - 1 } := by
  unfold takeCut
  simp only [hk.2.1]
  rw [releaseReader_eq (by exact h)]
  rfl

theorem CyclesCut.refl (b : BankId) (s : State) : CyclesCut b [] s s where
  bank := by cases b <;> rfl
  otherBank := rfl
  cut := fun _ hk => absurd hk List.not_mem_nil
  kept := fun _ _ => rfl
  rest := rfl

theorem foldl_cuts (b : BankId) (ks : List LinkId) (hks : ks.Nodup) (s : State) (h : (s.recOf b).state ≠ .draining) :
    CyclesCut b ks s
      (ks.foldl
        (fun s k =>
          if (s.link k).inCycle && decide ((s.link k).ctx.content = some b) && (s.link k).ctx.atBoundary then takeCut k s
          else s) s) := by
  induction ks generalizing s with
  | nil => exact CyclesCut.refl b s
  | cons k ks ih =>
    obtain ⟨hk, hnd⟩ := List.nodup_cons.mp hks
    simp only [List.foldl_cons]
    split
    · next hb =>
      have hb := (atBoundaryOf_iff _ _).mp hb
      rw [takeCut_eq h hb]
      let m := (s.setLink k { s.link k with ctx := (s.link k).ctx.cutShort }).setRec b
        { s.recOf b with readers := (s.recOf b).readers - 1 }
      have hm : (m.recOf b).state ≠ .draining := by simpa [m] using h
      have c := ih hnd m hm
      have hl : ∀ j, m.link j = if j = k then { s.link k with ctx := (s.link k).ctx.cutShort } else s.link j := fun j => by
        simp [m, State.link_setLink]
      have hcount : (ks.filter fun j => decide ((m.link j).atBoundaryOf b)) =
          ks.filter fun j => decide ((s.link j).atBoundaryOf b) := by
        refine List.filter_congr fun j hj => ?_
        have hjk : j ≠ k := fun e => hk (e ▸ hj)
        rw [hl, if_neg hjk]
      have hmb : m.recOf b = { s.recOf b with readers := (s.recOf b).readers - 1 } := by simp [m]
      have hmbank : m.bank b = { s.bank b with record := { s.recOf b with readers := (s.recOf b).readers - 1 } } := by
        cases b <;> rfl
      refine ⟨?_, ?_, ?_, ?_, ?_⟩
      · rw [c.bank, hcount, hmb, hmbank, List.filter_cons, if_pos (by simpa using hb), List.length_cons]
        simp only [Nat.sub_sub, Nat.add_comm 1]
      · rw [c.otherBank]
        cases b <;> rfl
      · intro j hj hjb
        rcases List.mem_cons.mp hj with rfl | hj
        · rw [c.kept j (.inl hk), hl, if_pos rfl]
        · have hjk : j ≠ k := fun e => hk (e ▸ hj)
          rw [c.cut j hj (by rw [hl, if_neg hjk]; exact hjb), hl, if_neg hjk]
      · intro j hj
        have hjk : j ≠ k := by
          rintro rfl
          rcases hj with hj | hj
          · exact hj List.mem_cons_self
          · exact hj hb
        rw [c.kept j (by
          rw [hl, if_neg hjk]
          exact hj.imp_left fun hn hm => hn (List.mem_cons_of_mem k hm)), hl, if_neg hjk]
      · have hr := c.rest
        rw [hr]
        rfl
    · next hb =>
      have c := ih hnd s h
      have hnb : ¬(s.link k).atBoundaryOf b := fun h => hb ((atBoundaryOf_iff _ _).mpr h)
      refine ⟨?_, c.otherBank, ?_, ?_, c.rest⟩
      · rw [c.bank, List.filter_cons, if_neg (by simpa using hnb)]
      · intro j hj hjb
        rcases List.mem_cons.mp hj with rfl | hj
        · exact absurd ((atBoundaryOf_iff _ _).mpr hjb) hb
        · exact c.cut j hj hjb
      · intro j hj
        by_cases hjb : (s.link j).atBoundaryOf b
        · refine c.kept j (.inl fun hm => ?_)
          rcases hj with hj | hj
          · exact hj (List.mem_cons_of_mem k hm)
          · exact hj hjb
        · exact c.kept j (.inr hjb)

/-- What cutting the cycles of a bank can do: the links at a frame boundary in a cycle of the bank are cut, its readers
fall, and nothing else changes (R102). -/
theorem cutCyclesOf_cuts {b : BankId} {s : State} (h : (s.recOf b).state ≠ .draining) :
    CyclesCut b allLinks s (cutCyclesOf b s) :=
  foldl_cuts b allLinks (by decide) s h

/-! ### The cutover (R21, R164 to R166) -/

theorem pendingBank_ne_inForce {s : State} {p f : BankId} (hp : (s.recOf p).state = .pending)
    (hf : (s.recOf f).state = .inForce) : f = other p := by
  refine eq_other fun e => ?_
  rw [e, hp] at hf
  cases hf

/-- The state in which a cutover has made every change but the cuts (R165). -/
def beforeCuts (cause : Option Cause) (cutEnd : CutEnd) (p : BankId) (s : State) : State :=
  { promote p s with
    table :=
      { s.table with entries := s.table.entries.map Entry.atCutover, allReady := false }
    links := s.links.map fun l => { l with interleave := 0, refresh := 0 }
    cutover := { s.cutover.toIdle with last := cutRecordOf s p cause cutEnd }
    events := { s.events with flags := s.events.flags ||| 0x200#24, cutoverSeq := (s.recOf p).seq } }

theorem promote_eq {s : State} {p : BankId} (hp : (s.recOf p).state = .pending) :
    promote p s =
      (if (s.recOf (other p)).state = .inForce then
        s.setRec (other p) { s.recOf (other p) with state := .stale }
      else s).setRec p { s.recOf p with state := .inForce } := by
  unfold promote
  split
  · next f hf =>
    have hf' := findBank_some hf
    have := pendingBank_ne_inForce hp hf'
    subst this
    simp only [hf', if_true]
    cases p <;> rfl
  · next hf =>
    have := findBank_none.mp hf (other p)
    simp [this]

theorem promote_pendingBank {s : State} (h : rolesLaw s) {p : BankId} (hp : (s.recOf p).state = .pending) :
    (promote p s).pendingBank = none := by
  refine findBank_none.mpr fun b => ?_
  rw [promote_eq hp, State.recOf_setRec]
  split
  · simp
  · next hb =>
    have hb := eq_other hb
    split
    · subst hb
      simp
    · intro hx
      subst hb
      have h2 := h.2
      cases p
      · exact h2 ⟨by rw [hp]; rfl, by simp only [other] at hx; rw [hx]; rfl⟩
      · exact h2 ⟨by simp only [other] at hx; rw [hx]; rfl, by rw [hp]; rfl⟩

/-- A cutover as its changes followed by its cuts. -/
theorem performCutover_eq (cause : Option Cause) (cutEnd : CutEnd) {s : State} (h : rolesLaw s) {p : BankId}
    (hp : (s.recOf p).state = .pending) :
    performCutover cause cutEnd s =
      match s.inForce with
      | some f => cutCyclesOf f (beforeCuts cause cutEnd p s)
      | none => beforeCuts cause cutEnd p s := by
  have key : ∀ t : State, t.pendingBank = none →
      evalReady t = { t with table := { t.table with allReady := false } } := fun t ht => by
    rw [evalReady_eq]
    simp [State.allReadyHolds, ht]
  have hq := promote_pendingBank h hp
  unfold performCutover
  rw [pendingBank_of h hp]
  simp only
  rw [key _ (by rw [← hq]; exact pendingBank_congr rfl)]
  unfold beforeCuts
  cases s.inForce <;> simp [State.raise, Events.raise, Event.bit, Event.number, mapEntries, mapLinks]

theorem beforeCuts_bank (cause : Option Cause) (cutEnd : CutEnd) {p : BankId} {s : State}
    (hp : (s.recOf p).state = .pending) :
    (beforeCuts cause cutEnd p s).bank p = { s.bank p with record := { s.recOf p with state := .inForce } } ∧
      (beforeCuts cause cutEnd p s).bank (other p) =
        if (s.recOf (other p)).state = .inForce then
          { s.bank (other p) with record := { s.recOf (other p) with state := .stale } }
        else s.bank (other p) := by
  have hb : ∀ b, (beforeCuts cause cutEnd p s).bank b = (promote p s).bank b := fun _ => rfl
  rw [hb, hb, promote_eq hp]
  split
  · cases p <;> exact ⟨rfl, rfl⟩
  · cases p <;> exact ⟨rfl, rfl⟩

/-- Everything a cutover with a bank PENDING can do (R21, R150, R164 to R166). -/
theorem performCutover_cutOver (cause : Option Cause) (cutEnd : CutEnd) {s : State} (h : rolesLaw s) {p : BankId}
    (hp : (s.recOf p).state = .pending) : CutOver s p cause cutEnd (performCutover cause cutEnd s) := by
  rw [performCutover_eq cause cutEnd h hp]
  have hbank := beforeCuts_bank cause cutEnd hp
  have hlink : ∀ k, (beforeCuts cause cutEnd p s).link k = { s.link k with interleave := 0, refresh := 0 } :=
    fun k => PerLink.get_map _ _ _
  have hentry : ∀ k, (beforeCuts cause cutEnd p s).entry k = (s.entry k).atCutover := fun k => PerLink.get_map _ _ _
  have hctl : (beforeCuts cause cutEnd p s).cutover = { s.cutover.toIdle with last := cutRecordOf s p cause cutEnd } := rfl
  have hlacks : s.lacksAtCutover =
      (s.table.entries.toList.filter fun e => decide (e.presence ≠ .absent ∧ e.pending ≠ .ready)).length := by
    simp [State.lacksAtCutover]
  have hrest : beforeCuts cause cutEnd p s =
      { s with
        banks := (beforeCuts cause cutEnd p s).banks
        links := (beforeCuts cause cutEnd p s).links
        table := (beforeCuts cause cutEnd p s).table
        events := (beforeCuts cause cutEnd p s).events
        cutover := (beforeCuts cause cutEnd p s).cutover
        port := (beforeCuts cause cutEnd p s).port
        lookups := (beforeCuts cause cutEnd p s).lookups } := by
    unfold beforeCuts promote
    cases s.inForce <;> rfl
  have hctl' : (beforeCuts cause cutEnd p s).cutover =
      { s.cutover with
        state := .idle
        waitTimer := 0
        graceTimer := 0
        cause := none
        last :=
          { done := true
            seq := (s.recOf p).seq
            formerSeq := s.seqOf s.inForce
            cause := cause
            deferred := decide (s.cutover.state = .deferred)
            cutEnd := some cutEnd
            deferral := if s.cutover.state = .deferred then s.cutover.graceTimer else 0
            waited := s.cutover.waitTimer
            time := if s.clock.valid then some (s.clock.day, s.clock.minute) else none
            lacks :=
              (s.table.entries.toList.filter fun e => decide (e.presence ≠ .absent ∧ e.pending ≠ .ready)).length } } := by
    rw [hctl, cutRecordOf, hlacks]
    rfl
  cases hf : s.inForce with
  | none =>
    have hnf := findBank_none.mp hf
    simp only
    refine ⟨hbank.1, fun f hf' => absurd hf' (hnf f), fun b hb _ => ?_, fun k => hentry k, ⟨rfl, rfl⟩, rfl,
      fun k => ⟨fun ⟨f, hf', _⟩ => absurd hf' (hnf f), fun _ => by rw [hlink]⟩, hctl', rfl, hrest⟩
    rw [eq_other hb, hbank.2, if_neg (hnf _)]
  | some f =>
    have hf' := findBank_some hf
    obtain rfl : f = other p := pendingBank_ne_inForce hp hf'
    simp only
    have hrec : (beforeCuts cause cutEnd p s).bank (other p) =
        { s.bank (other p) with record := { s.recOf (other p) with state := .stale } } := by
      rw [hbank.2, if_pos hf']
    have hrecOf : (beforeCuts cause cutEnd p s).recOf (other p) = { s.recOf (other p) with state := .stale } := by
      rw [State.recOf, hrec]
    have hst : ((beforeCuts cause cutEnd p s).recOf (other p)).state ≠ .draining := by
      rw [hrecOf]
      exact BankState.noConfusion
    have c := cutCyclesOf_cuts hst
    have hat : ∀ k, ((beforeCuts cause cutEnd p s).link k).atBoundaryOf (other p) ↔ (s.link k).atBoundaryOf (other p) :=
      fun k => by rw [hlink]
    have honly : ∀ b, (s.recOf b).state = .inForce → b = other p := fun b hb => pendingBank_ne_inForce hp hb
    refine ⟨?_, fun f hf'' => ?_, fun b hb hb' => ?_, fun k => ?_, ⟨?_, ?_⟩, ?_, fun k => ⟨?_, ?_⟩, ?_, ?_, ?_⟩
    · have := c.otherBank
      rw [other_other] at this
      rw [this, hbank.1]
    · obtain rfl := honly f hf''
      have hcount : (allLinks.filter fun k => decide (((beforeCuts cause cutEnd p s).link k).atBoundaryOf (other p))) =
          allLinks.filter fun k => decide ((s.link k).atBoundaryOf (other p)) :=
        List.filter_congr fun k _ => decide_eq_decide.mpr (hat k)
      rw [c.bank, hcount, hrecOf, hrec]
      rfl
    · exact absurd ((eq_other hb) ▸ hf') hb'
    · rw [State.entry, cutCyclesOf_table]
      exact hentry k
    · rw [cutCyclesOf_table]
      rfl
    · rw [cutCyclesOf_table]
      rfl
    · rw [cutCyclesOf_table]
      rfl
    · rintro ⟨f, hf'', hb⟩
      obtain rfl := honly f hf''
      rw [c.cut k (mem_allLinks k) ((hat k).mpr hb), hlink]
      rfl
    · intro hb
      rw [c.kept k (.inr (fun h => hb _ hf' ((hat k).mp h))), hlink]
    · rw [cutCyclesOf_cutover, hctl']
    · rw [c.events]
      rfl
    · have key : ∀ t : State,
          t = { beforeCuts cause cutEnd p s with banks := t.banks, links := t.links } →
          beforeCuts cause cutEnd p s =
            { s with
              banks := (beforeCuts cause cutEnd p s).banks
              links := (beforeCuts cause cutEnd p s).links
              table := (beforeCuts cause cutEnd p s).table
              events := (beforeCuts cause cutEnd p s).events
              cutover := (beforeCuts cause cutEnd p s).cutover
              port := (beforeCuts cause cutEnd p s).port
              lookups := (beforeCuts cause cutEnd p s).lookups } →
          t = { s with
                banks := t.banks
                links := t.links
                table := t.table
                events := t.events
                cutover := t.cutover
                port := t.port
                lookups := t.lookups } := by
        intro t h1 h2
        generalize beforeCuts cause cutEnd p s = m at h1 h2
        rw [h1, h2]
      exact key _ c.rest hrest

/-- What a trigger does: INHIBIT with a grace defers it, INHIBIT without one gives the cutover the end GRACE, and without
INHIBIT it is performed at once (R160). -/
theorem takeTrigger_cases (cause : Cause) (s : State) :
    (s.cutover.inhibit = true ∧ s.cutover.grace ≠ 0 ∧
      takeTrigger cause s =
        { s with cutover := { s.cutover with state := .deferred, cause := some cause, graceTimer := 0 } }) ∨
    ((s.cutover.inhibit = true → s.cutover.grace = 0) ∧
      takeTrigger cause s =
        performCutover (some cause) (if s.cutover.inhibit = true then .grace else .immediate) s) := by
  unfold takeTrigger
  by_cases hi : s.cutover.inhibit = true <;> by_cases hg : s.cutover.grace = 0 <;> simp [hi, hg]

/-- What a withdrawal does, in one event (R19, R23, R102, R149, R164). -/
theorem withdrawBank_withdrawn {s : State} (h : rolesLaw s) {b : BankId} (hb : (s.recOf b).state = .pending) :
    Withdrawn s b (withdrawBank b s) := by
  let m : State :=
    { s.setRec b { s.recOf b with state := .stale } with
      cutover := s.cutover.toIdle
      table := { s.table with entries := s.table.entries.map fun e => { e with pending := .none }, allReady := false }
      events := { s.events with flags := s.events.flags ||| 0x40#24 } }
  have hnone : (s.setRec b { s.recOf b with state := .stale }).pendingBank = none := by
    refine findBank_none.mpr fun c => ?_
    rw [State.recOf_setRec]
    split
    · simp
    · next hc =>
      intro hx
      have := pendingBank_of h hx
      rw [pendingBank_of h hb] at this
      exact hc (Option.some.inj this).symm
  have key : withdrawBank b s = cutCyclesOf b m := by
    unfold withdrawBank
    simp only
    rw [evalReady_eq]
    have : (mapEntries (fun e => { e with pending := .none })
        { s.setRec b { s.recOf b with state := .stale } with
          cutover := (s.setRec b { s.recOf b with state := .stale }).cutover.toIdle }).pendingBank = none := by
      rw [← hnone]
      exact pendingBank_congr rfl
    rw [show State.allReadyHolds _ = false from by rw [State.allReadyHolds, this]; rfl]
    simp [m, State.raise, Events.raise, Event.bit, Event.number, mapEntries]
  have hm : m.recOf b = { s.recOf b with state := .stale } := State.recOf_setRec_same ..
  have c : CyclesCut b allLinks m (cutCyclesOf b m) := cutCyclesOf_cuts (by rw [hm]; exact BankState.noConfusion)
  have hl : ∀ k, m.link k = s.link k := fun _ => rfl
  rw [key]
  refine ⟨?_, ?_, ?_, fun k => ?_, ⟨?_, ?_⟩, ?_, c.events, fun k => ?_, ?_⟩
  · rw [c.bank, hm]
    have : m.bank b = { s.bank b with record := { s.recOf b with state := .stale } } := by cases b <;> rfl
    rw [this]
    rfl
  · rw [c.otherBank]
    cases b <;> rfl
  · rw [cutCyclesOf_cutover]
    rfl
  · rw [State.entry, cutCyclesOf_table]
    exact PerLink.get_map _ _ _
  · rw [cutCyclesOf_table]
  · rw [cutCyclesOf_table]
  · rw [cutCyclesOf_table]
  · split
    · next hk => exact c.cut k (mem_allLinks k) hk
    · next hk => exact c.kept k (.inr hk)
  · have key : ∀ t : State, t = { m with banks := t.banks, links := t.links } →
        t = { s with banks := t.banks, links := t.links, table := t.table, events := t.events, cutover := t.cutover } := by
      intro t ht
      generalize hm' : m = m' at ht
      rw [ht, ← hm']
      rfl
    exact key _ c.rest

/-- What a re-evaluation does: the flag follows the condition, and a rise is the READY trigger while Cutover Control waits
for it (R146, R158, R160). -/
theorem reevaluate_follows (u : State) : ReadinessFollows u (reevaluate u) := by
  have hrise : u.rises → evalReady u = u.risen := fun h => by
    rw [evalReady_eq, if_pos h, h.1]
    rfl
  have hre : u.rises → reevaluate u = tellReady u.risen := fun h => by
    unfold reevaluate
    rw [if_pos (by simpa [State.readyRises] using h), hrise h]
  have hact : u.risen.activation = u.activation := activation_congr rfl
  refine ⟨fun h => ?_, fun h hw => ?_, fun h hw hi hg => ?_, fun h hw hg hr => ?_⟩
  · unfold reevaluate
    rw [if_neg (by simpa [State.readyRises] using h), evalReady_eq, if_neg h]
  · rw [hre h]
    unfold tellReady
    rw [hact]
    exact if_neg hw
  · rw [hre h]
    unfold tellReady
    rw [hact, if_pos (by exact hw)]
    rcases takeTrigger_cases .ready u.risen with ⟨-, -, he⟩ | ⟨hn, -⟩
    · exact he
    · exact absurd (hn hi) hg
  · have hp : ∃ p, (u.recOf p).state = .pending := by
      refine Classical.byContradiction fun hn => ?_
      have := findBank_none.mpr fun b hb => hn ⟨b, hb⟩
      have h1 := h.1
      rw [State.allReadyHolds, State.pendingBank, this] at h1
      cases h1
    obtain ⟨p, hp⟩ := hp
    have ht : tellReady u.risen = takeTrigger .ready u.risen := by
      unfold tellReady
      rw [hact]
      exact if_pos hw
    refine ⟨p, hp, ?_⟩
    rw [hre h, ht]
    rcases takeTrigger_cases .ready u.risen with ⟨hi, hg', -⟩ | ⟨-, he⟩
    · exact absurd (hg hi) hg'
    · rw [he]
      exact ⟨performCutover_cutOver _ _ (s := u.risen) hr hp, performCutover_port .., performCutover_lookups ..⟩

end Sys2Proof.Machine
end

