-- ==== Sys2Proof/Laws/Due.lean ====
section
/-!
SUPPORT. What a millisecond puts into the queue: the events that are due, each once, in a free order (logs 1 and 2).
-/

namespace Sys2Proof.Machine

theorem placeDue_perm (x : Nat × Instr) (ys : List (Nat × Instr)) : (placeDue x ys).Perm (x :: ys) := by
  induction ys with
  | nil => exact .refl _
  | cons y ys ih =>
    unfold placeDue
    split
    · exact .refl _
    · exact (ih.cons y).trans (.swap x y ys)

/-- The free ranks reorder the events due, and do nothing else. -/
theorem orderDue_perm (free : Nat) (due : List Instr) : (orderDue free due).Perm due := by
  have key : ∀ (ps : List (Instr × Nat)) (acc : List (Nat × Instr)),
      ((ps.foldl (fun acc p => placeDue (Config.dueRank p.2, p.1) acc) acc).map Prod.snd).Perm
        (acc.map Prod.snd ++ ps.map Prod.fst) := by
    intro ps
    induction ps with
    | nil => simp
    | cons p ps ih =>
      intro acc
      refine (ih _).trans ((((placeDue_perm (Config.dueRank p.2, p.1) acc).map Prod.snd).append_right _).trans ?_)
      simpa using List.perm_middle.symm
  simpa [orderDue] using key (due.zipIdx free) []

/-- Which events are due. -/
theorem mem_dueEvents (s t : State) (c : Instr) :
    c ∈ dueEvents s t ↔
      (c = .minuteEvent ∧ s.clock.minuteDue = true) ∨
      (c = .inhibitAssertion ∧ s.cutover.inhibitDue = true ∧ s.cutover.pin = true) ∨
      (c = .inhibitDeassertion ∧ s.cutover.inhibitDue = true ∧ s.cutover.pin = false) ∨
      (∃ k, c = .validatorSilent k ∧ t.silenceDue k = true) ∨ (c = .waitExpired ∧ t.waitOver) ∨
      (c = .graceRunOut ∧ t.graceOver) ∨ (c = .scrubPeriod ∧ t.scrub.periodDue = true) := by
  have one : ∀ (p : Prop) [Decidable p] (i : Instr), c ∈ (if p then [i] else []) ↔ c = i ∧ p := by
    intro p _ i
    split <;> simp_all
  have silent : c ∈ (allLinks.filter t.silenceDue).map Instr.validatorSilent ↔
      ∃ k, c = .validatorSilent k ∧ t.silenceDue k = true := by
    simp only [List.mem_map, List.mem_filter, mem_allLinks, true_and]
    exact ⟨fun ⟨k, hk, e⟩ => ⟨k, e.symm, hk⟩, fun ⟨k, e, hk⟩ => ⟨k, hk, e.symm⟩⟩
  simp only [dueEvents, List.mem_append, one, silent, or_assoc]
  cases s.cutover.pin <;> simp

/-- No event is due twice in one millisecond. -/
theorem dueEvents_nodup (s t : State) : (dueEvents s t).Nodup := by
  have one : ∀ (p : Prop) [Decidable p] (i : Instr), (if p then [i] else []).Nodup := by
    intro p _ i
    split <;> simp
  have silent : ((allLinks.filter t.silenceDue).map Instr.validatorSilent).Nodup :=
    List.Nodup.map (fun _ _ h => Instr.validatorSilent.inj h) ((by decide : allLinks.Nodup).filter _)
  have mem : ∀ (p : Prop) [Decidable p] (i c : Instr), (c ∈ if p then [i] else []) ↔ c = i ∧ p := by
    intro p _ i c
    split <;> simp_all
  have apart : ∀ {l m : List Instr}, l.Nodup → m.Nodup → (∀ c ∈ l, c ∉ m) → (l ++ m).Nodup :=
    fun hl hm h => List.Nodup.append hl hm fun c h1 h2 => h c h1 h2
  unfold dueEvents
  refine apart (apart (apart (apart (apart (one _ _) (one _ _) ?_) silent ?_) (one _ _) ?_) (one _ _) ?_) (one _ _) ?_ <;>
  · intro c h1 h2
    simp only [List.mem_append, mem, List.mem_map, or_assoc] at h1 h2
    first | obtain ⟨k, -, rfl⟩ := h2 | obtain ⟨rfl, -⟩ := h2
    all_goals generalize s.cutover.pin = pin at h1; cases pin <;> simp at h1

/-- What a millisecond puts into an empty queue. -/
theorem tick_pending {s : State} (hp : s.pending = []) (hr : s.inReset = false) (hd : s.port.dispatched = none) :
    (tick s).pending.Perm (dueEvents (copyOn s) (advance (copyOn s))) := by
  have : (advance (copyOn s)).pending = [] := by
    show (copyOn s).pending = []
    rw [(copyOn_goesOn s).rest]
    exact hp
  simp only [tick, hr, hd, this]
  simpa using orderDue_perm _ _

end Sys2Proof.Machine
end

