-- ==== Sys2Proof/Laws/Links.lean ====
section
/-!
SUPPORT. What the operations of the links can do, said once: what has passed on the lines is taken in (R106, R121), and no
answer, take or frame begun touches a receive FIFO (R117, R123, R170).
-/

namespace Sys2Proof.Machine

/-- A change of each link in turn, by its own value, is made at every link named and nowhere else. -/
theorem foldl_links (f : LinkId → Link → Link) (ks : List LinkId) (hks : ks.Nodup) (s : State) :
    (∀ j, (ks.foldl (fun s k => s.setLink k (f k (s.link k))) s).link j = if j ∈ ks then f j (s.link j) else s.link j) ∧
      ks.foldl (fun s k => s.setLink k (f k (s.link k))) s =
        { s with links := (ks.foldl (fun s k => s.setLink k (f k (s.link k))) s).links } := by
  induction ks generalizing s with
  | nil => exact ⟨fun _ => rfl, rfl⟩
  | cons k ks ih =>
    obtain ⟨hk, hks⟩ := List.nodup_cons.mp hks
    obtain ⟨h1, h2⟩ := ih hks (s.setLink k (f k (s.link k)))
    refine ⟨fun j => ?_, ?_⟩
    · rw [List.foldl_cons, h1, State.link_setLink]
      by_cases hj : j = k
      · subst hj; simp [hk]
      · simp [hj]
    · rw [List.foldl_cons]
      exact h2

/-- What has passed on the lines: every link by its own entry, and nothing else (R106, R121). -/
theorem passLines_eq (passed : List (Nat × List Byte)) (s : State) :
    (∀ k, (passLines passed s).link k =
        ((s.link k).drain (passed.getD k.val (0, [])).1).arrive (passed.getD k.val (0, [])).2) ∧
      passLines passed s = { s with links := (passLines passed s).links } := by
  have h := foldl_links (fun k l => (l.drain (passed.getD k.val (0, [])).1).arrive (passed.getD k.val (0, [])).2) allLinks
    (by decide) s
  have he : passLines passed s =
      allLinks.foldl (fun s k => s.setLink k
        (((s.link k).drain (passed.getD k.val (0, [])).1).arrive (passed.getD k.val (0, [])).2)) s := by
    unfold passLines
    congr 1
  rw [he]
  refine ⟨fun k => ?_, h.2⟩
  rw [h.1 k, if_pos (by revert k; decide)]

/-- A transmitter that begins a frame leaves every receive FIFO alone. -/
@[simp] theorem tryBegin_rxFifo (k j : LinkId) (s : State) : ((tryBegin k s).link j).rxFifo = (s.link j).rxFifo := by
  unfold tryBegin
  simp only
  split
  · rw [State.link_setLink]
    split
    · rename_i h
      subst h
      unfold Link.begin
      repeat' split
      all_goals rfl
    · rfl
  · rfl

theorem rxFifo_congr {s t : State} (h : t.links = s.links) (j : LinkId) : (t.link j).rxFifo = (s.link j).rxFifo := by
  simp [State.link, h]

@[simp] theorem finishLookup_rxFifo (v : Service) (x : Verdict) (s : State) (j : LinkId) :
    ((finishLookup v x s).link j).rxFifo = (s.link j).rxFifo := by
  unfold finishLookup
  simp only
  have released : ∀ u : State, (match v.bank with | some b => releaseReader b u | none => u).links = u.links := by
    intro u
    split
    · exact releaseReader_links _ _
    · rfl
  split
  · exact rxFifo_congr (released s) j
  · split
    · unfold deliverLink
      simp only
      rw [tryBegin_rxFifo]
      show ((State.setLink _ _ _).link j).rxFifo = _
      rw [State.link_setLink]
      split
      · rename_i h
        subst h
        exact rxFifo_congr (released s) _
      · exact rxFifo_congr (released s) j
    · exact rxFifo_congr (released s) j

theorem takeNext_rxFifo (n : Nat) (s : State) (j : LinkId) : ((takeNext n s).link j).rxFifo = (s.link j).rxFifo := by
  induction n generalizing s with
  | zero => rfl
  | succ n ih =>
    unfold takeNext
    split
    · rfl
    · split
      · rfl
      · rename_i r q _
        have taken : ((takeQuery r q s).link j).rxFifo = (s.link j).rxFifo := by
          unfold takeQuery
          simp only
          split <;> rfl
        dsimp only
        split
        · rw [ih, finishLookup_rxFifo, taken]
        · exact taken

/-- Takes leave every receive FIFO alone. -/
@[simp] theorem attemptTake_rxFifo (s : State) (j : LinkId) : ((attemptTake s).link j).rxFifo = (s.link j).rxFifo :=
  takeNext_rxFifo _ _ _

/-- So does the judging of a query. -/
@[simp] theorem judgeQuery_rxFifo (k : LinkId) (qk : QueryKind) (q : Query) (s : State) :
    ((judgeQuery k qk q s).link k).rxFifo = (s.link k).rxFifo := by
  unfold judgeQuery
  simp only
  split
  · rw [attemptTake_rxFifo]
    show ((State.setLink _ _ _).link k).rxFifo = _
    simp
  · rw [tryBegin_rxFifo]
    simp

end Sys2Proof.Machine
end

