-- ==== Sys2Proof/Laws/Marks.lean ====
section
/-!
SUPPORT. What the setting of a damage mark and a read that meets an uncorrectable word can do, said once (R22, R23, R182), and
what two reads, one after the other, correct (R181).
-/

namespace Sys2Proof.Machine

/-! ### Marks -/

theorem Marks.get_mark (m : Marks) (r : Region) (o : Nat) : (m.mark r o).get r = some ((m.get r).getD o) := by
  cases r <;> rfl

/-- A withdrawal leaves the bank its marks, and clears no event. -/
theorem withdrawBank_marks (b : BankId) (s : State) :
    ((withdrawBank b s).recOf b).marks = (s.recOf b).marks ∧
      (s.events.has .eccUncorrectable = true → (withdrawBank b s).events.has .eccUncorrectable = true) := by
  unfold withdrawBank
  simp only
  rw [evalReady_eq]
  generalize hx : mapEntries (fun e : Entry => { e with pending := .none })
    { s.setRec b { s.recOf b with state := .stale } with
      cutover := (s.setRec b { s.recOf b with state := .stale }).cutover.toIdle } = x
  have hb : x.banks = (s.setRec b { s.recOf b with state := .stale }).banks := by rw [← hx]; rfl
  have he : x.events = s.events := by rw [← hx]; rfl
  generalize hy : State.raise .pendingWithdrawn _ = y
  have hyr : ∀ c, y.recOf c = (s.setRec b { s.recOf b with state := .stale }).recOf c := fun c => by
    have : y.banks = x.banks := by rw [← hy]; rfl
    simp only [State.recOf, State.bank, this, hb]
  have c := cutCyclesOf_cuts (b := b) (s := y) (by rw [hyr, State.recOf_setRec]; simp)
  constructor
  · show ((cutCyclesOf b y).bank b).record.marks = _
    rw [c.bank]
    simp [hyr]
  · intro h
    have h' : s.events.flags.getLsbD 17 = true := h
    show (cutCyclesOf b y).events.flags.getLsbD 17 = true
    rw [c.events, ← hy]
    simp only [State.raise, Events.raise]
    split <;> simp [he, h', Event.bit, Event.number]

/-- A mark set for another reader than the closing run stands in the bank, and clears no event. -/
theorem setMark_marks (b : BankId) (r : Region) (o : Nat) (s : State) (hc : (s.recOf b).state ≠ .closing) :
    ((setMark b r o s).recOf b).marks = (s.recOf b).marks.mark r o ∧
      (s.events.has .eccUncorrectable = true → (setMark b r o s).events.has .eccUncorrectable = true) := by
  have h1 : ((markRegion b r o s).recOf b).marks = (s.recOf b).marks.mark r o := by simp [markRegion]
  have h2 : ((markRegion b r o s).recOf b).state = (s.recOf b).state := by simp [markRegion]
  have he : (markRegion b r o s).events = s.events := rfl
  unfold setMark
  simp only
  rw [show ∀ x : State, (scrubLeaves b r x).recOf b = x.recOf b from fun _ => rfl,
    show ∀ x : State, (scrubLeaves b r x).events = x.events from fun _ => rfl]
  cases hst : (s.recOf b).state <;> simp only
  case closing => exact absurd hst hc
  case inForce =>
    have hf : (failCopyFrom b (markRegion b r o s)).recOf b = (markRegion b r o s).recOf b ∧
        (s.events.has .eccUncorrectable = true → (failCopyFrom b (markRegion b r o s)).events.has .eccUncorrectable = true) := by
      unfold failCopyFrom
      split
      · refine ⟨by cases b <;> rfl, fun h => ?_⟩
        have h' : s.events.flags.getLsbD 17 = true := h
        show (Events.raise _ _).flags.getLsbD 17 = true
        simp [Events.raise, emptyBank, h']
      · exact ⟨rfl, fun h => by rw [he]; exact h⟩
    have c := cutCyclesOf_cuts (b := b) (s := failCopyFrom b (markRegion b r o s)) (by rw [hf.1, h2, hst]; decide)
    constructor
    · show ((cutCyclesOf b (failCopyFrom b (markRegion b r o s))).bank b).record.marks = _
      rw [c.bank]
      simp [hf.1, h1]
    · intro h
      rw [c.events]
      exact hf.2 h
  case pending =>
    have := withdrawBank_marks b (markRegion b r o s)
    exact ⟨by rw [this.1, h1], fun h => this.2 (by rw [he]; exact h)⟩
  all_goals exact ⟨h1, fun h => by rw [he]; exact h⟩

/-! ### Reads of items -/

/-- The words of items of one region lie in that region. -/
theorem inItems_region {b : BankId} {items : List Item} {region : Region} (hr : ∀ i ∈ items, itemRegion i = region)
    {l : WordLoc} (h : inItems b items l = true) : ∃ o, l = .bank b region o := by
  cases l with
  | buffer o => simp [inItems] at h
  | bank b' r o =>
    simp only [inItems, Bool.and_eq_true, decide_eq_true_eq, List.any_eq_true] at h
    obtain ⟨rfl, i, hi, h1, -⟩ := h
    exact ⟨o, by rw [← h1, hr i hi]⟩

/-- A read of items of one region that meets an uncorrectable word: the region takes the mark at such a word, the event is
raised, and the port and the Lookup Engine are left alone. -/
theorem readItems_stops (reader : Reader) (b : BankId) (items : List Item) (s : State) (region : Region)
    (hr : ∀ i ∈ items, itemRegion i = region) (hc : (s.recOf b).state ≠ .closing)
    (h : ∃ u ∈ s.upsets, inItems b items u.loc = true ∧ fatal u.kind = true) :
    ∃ t u o, readItems reader b items s = (t, false) ∧ t.port = s.port ∧ t.lookups = s.lookups ∧
      t.events.has .eccUncorrectable = true ∧ u ∈ s.upsets ∧ inItems b items u.loc = true ∧ fatal u.kind = true ∧
      u.loc = .bank b region o ∧ (t.recOf b).marks.get region = some (((s.recOf b).marks.get region).getD o) := by
  obtain ⟨u, hu, hi, hk⟩ := h
  obtain ⟨before, v, after, he, hb, hv, hread⟩ := readHits_stops reader (hitsIn b items s.upsets) s
    ⟨u, (mem_hitsIn _ _ _ _).2 ⟨hu, hi⟩, hk⟩
  obtain ⟨hvu, hvi⟩ := (mem_hitsIn _ _ _ _).1 (show v ∈ hitsIn b items s.upsets by rw [he]; simp)
  obtain ⟨o, ho⟩ := inItems_region hr hvi
  have hcorr := readHits_corrects reader before s hb
  have hrec : ∀ c, (reportUncorrectable (.bank b region o) reader (readHits reader before s).1).recOf c = s.recOf c := by
    intro c
    rw [hcorr]
    rfl
  obtain ⟨hm, hev⟩ := setMark_marks b region o
    (reportUncorrectable (.bank b region o) reader (readHits reader before s).1) (by rw [hrec]; exact hc)
  refine ⟨_, v, o, hread, ?_, ?_, ?_, hvu, hvi, hv, ho, ?_⟩
  · rw [uncorrectable_port, hcorr]
    rfl
  · rw [uncorrectable_lookups, hcorr]
    rfl
  · rw [ho]
    refine hev ?_
    simp [Events.has, reportUncorrectable, State.raise, Events.raise, Event.bit, Event.number]
  · rw [ho]
    show ((setMark b region o _).recOf b).marks.get region = _
    rw [hm, Marks.get_mark, hrec]

theorem filter_leftBy (us : List Upset) (v w : WordLoc → Bool) (h : ∀ l, v l = true → w l = false) :
    (us.filter fun u => v u.loc).length + ((us.filterMap (leftBy v)).filter fun u => w u.loc).length =
      (us.filter fun u => v u.loc || w u.loc).length := by
  induction us with
  | nil => rfl
  | cons u us ih =>
    obtain ⟨l, k⟩ := u
    cases hv : v l with
    | true =>
      have hw := h l hv
      cases k <;> simp [leftBy, afterWrite, hasStuck, hv, hw] at ih ⊢ <;> omega
    | false => cases hw : w l <;> simp [leftBy, hv, hw] at ih ⊢ <;> omega

/-- Two reads of different words, one after the other, correct what one read of both corrects. -/
theorem correctedAt_correctedAt (s : State) (v w : WordLoc → Bool) (h : ∀ l, v l = true → w l = false) :
    (s.correctedAt v).correctedAt w = s.correctedAt fun l => v l || w l := by
  have h1 := congrArg State.upsets (refresh_refresh w v s)
  have h2 := filter_leftBy s.upsets v w h
  unfold State.correctedAt
  simp only [refresh_eq] at h1 ⊢
  rw [h1, Events.correctedBy_add, h2]

end Sys2Proof.Machine
end

