-- ==== Sys2Proof/Laws/MarkActs.lean ====
section
/-!
SUPPORT. What a damage mark on a bank the carousel sends does, whole (R8, R19, R23, R102, R185), and that it acts on no link that is in no
cycle; what a read of items corrects before the word it stops at (R181, R182).
-/

namespace Sys2Proof.Machine

/-- Two links are set in either order. -/
theorem PerLink.set_comm {α : Type} (p : PerLink α) {j k : LinkId} (h : j ≠ k) (x y : α) :
    (p.set j x).set k y = (p.set k y).set j x := by
  fin_cases j <;> fin_cases k <;> first | exact absurd rfl h | rfl

theorem State.setLink_comm {j k : LinkId} (h : j ≠ k) (x y : Link) (s : State) :
    (s.setLink j x).setLink k y = (s.setLink k y).setLink j x := by
  simp only [State.setLink, PerLink.set_comm s.links h]

/-- A link that is in no cycle takes no part in cuts. -/
theorem cutCyclesOf_setLink {b : BankId} {k : LinkId} {l : Link} {s : State} (hd : (s.recOf b).state ≠ .draining)
    (h : (s.link k).phase ≠ .inCycle) (h' : l.phase ≠ .inCycle) :
    cutCyclesOf b (s.setLink k l) = (cutCyclesOf b s).setLink k l := by
  unfold cutCyclesOf
  generalize allLinks = ks
  induction ks generalizing s with
  | nil => rfl
  | cons j ks ih =>
    simp only [List.foldl_cons]
    by_cases hj : j = k
    · subst hj
      have e1 : ((s.setLink j l).link j).inCycle = false := by simp [Link.inCycle, h']
      have e2 : (s.link j).inCycle = false := by simp [Link.inCycle, h]
      simp only [e1, e2, Bool.false_and, Bool.false_eq_true, if_false]
      exact ih hd h
    · have e1 : (s.setLink k l).link j = s.link j := by simp [State.link_setLink, hj]
      simp only [e1]
      split
      · next hb =>
        have hb := (atBoundaryOf_iff _ _).mp hb
        rw [takeCut_eq (s := s.setLink k l) hd (by rw [e1]; exact hb), takeCut_eq hd hb, e1]
        rw [State.setLink_comm (Ne.symm hj)]
        refine Eq.trans ?_ (ih ?_ ?_)
        · rfl
        · simpa using hd
        · simpa [State.link_setLink, Ne.symm hj] using h
      · exact ih hd h

theorem evalReady_setLink (k : LinkId) (l : Link) (s : State) : evalReady (s.setLink k l) = (evalReady s).setLink k l := by
  rw [evalReady_eq, evalReady_eq, show (s.setLink k l).allReadyHolds = s.allReadyHolds from rfl]
  rfl

/-- A withdrawal acts on no link that is in no cycle. -/
theorem withdrawBank_setLink {b : BankId} {k : LinkId} {l : Link} {s : State} (h : (s.link k).phase ≠ .inCycle)
    (h' : l.phase ≠ .inCycle) : withdrawBank b (s.setLink k l) = (withdrawBank b s).setLink k l := by
  let stale (x : State) : State :=
    mapEntries (fun e : Entry => { e with pending := .none })
      { x.setRec b { x.recOf b with state := .stale } with cutover := x.cutover.toIdle }
  have key : ∀ x : State, withdrawBank b x = cutCyclesOf b (State.raise .pendingWithdrawn (evalReady (stale x))) := fun _ => rfl
  have hs : stale (s.setLink k l) = (stale s).setLink k l := rfl
  have hd : ((stale s).recOf b).state = .stale := by
    show ((s.setRec b { s.recOf b with state := .stale }).recOf b).state = .stale
    simp
  have hl : (stale s).link k = s.link k := rfl
  rw [key, key, hs, evalReady_setLink]
  clear_value stale
  generalize stale s = x at *
  have hx : (State.raise .pendingWithdrawn (evalReady x)).recOf b = x.recOf b := by
    show (evalReady x).recOf b = _
    rw [State.recOf, State.bank, evalReady_banks]; rfl
  have hxl : (State.raise .pendingWithdrawn (evalReady x)).link k = x.link k := by
    show (evalReady x).link k = _
    rw [State.link, evalReady_links]; rfl
  rw [show State.raise .pendingWithdrawn ((evalReady x).setLink k l) = (State.raise .pendingWithdrawn (evalReady x)).setLink k l from rfl]
  exact cutCyclesOf_setLink (by rw [hx, hd]; decide) (by rw [hxl, hl]; exact h) h'

/-- A mark on a bank the carousel sends acts on no link that is in no cycle. -/
theorem setMark_setLink {b : BankId} {r : Region} {o : Nat} {k : LinkId} {l : Link} {s : State}
    (hb : (s.recOf b).state = .inForce ∨ (s.recOf b).state = .pending)
    (h : (s.link k).phase ≠ .inCycle) (h' : l.phase ≠ .inCycle) :
    setMark b r o (s.setLink k l) = (setMark b r o s).setLink k l := by
  have hs : ((s.setLink k l).recOf b).state = (s.recOf b).state := rfl
  have hsl : ∀ x : State, scrubLeaves b r (x.setLink k l) = (scrubLeaves b r x).setLink k l := fun _ => rfl
  unfold setMark
  dsimp only
  rw [hs]
  rcases hb with hb | hb <;> simp only [hb]
  · have hm : failCopyFrom b (markRegion b r o (s.setLink k l)) = (failCopyFrom b (markRegion b r o s)).setLink k l := by
      unfold failCopyFrom
      have : ((markRegion b r o (s.setLink k l)).recOf (other b)).state = ((markRegion b r o s).recOf (other b)).state := rfl
      rw [this]
      split <;> rfl
    have hf : ((failCopyFrom b (markRegion b r o s)).recOf b).state = .inForce := by
      unfold failCopyFrom
      split
      · show ((emptyBank (other b) (markRegion b r o s)).recOf b).state = _
        have : (markRegion b r o s).recOf b = { s.recOf b with marks := (s.recOf b).marks.mark r o } := State.recOf_setRec_same ..
        have h2 : (emptyBank (other b) (markRegion b r o s)).recOf b = (markRegion b r o s).recOf b := by cases b <;> rfl
        rw [h2, this]; exact hb
      · simp [markRegion, hb]
    have hl : (failCopyFrom b (markRegion b r o s)).link k = s.link k := by
      unfold failCopyFrom; split <;> rfl
    rw [hm, cutCyclesOf_setLink (by rw [hf]; decide) (by rw [hl]; exact h) h']
    exact hsl _
  · have hm : markRegion b r o (s.setLink k l) = (markRegion b r o s).setLink k l := rfl
    have hl : (markRegion b r o s).link k = s.link k := rfl
    rw [hm, withdrawBank_setLink (by rw [hl]; exact h) h']
    exact hsl _

/-- What a mark on the bank in force does (R8, R23, R102, R185). -/
theorem setMark_marksInForce {b : BankId} {r : Region} {o : Nat} {s : State}
    (hb : (s.recOf b).state = .inForce) : InForceMarked (markRegion b r o s) b r (setMark b r o s) := by
  have hm : ((markRegion b r o s).recOf b).state = .inForce := by simp [markRegion, hb]
  have key : setMark b r o s = scrubLeaves b r (cutCyclesOf b (failCopyFrom b (markRegion b r o s))) := by
    unfold setMark
    simp only [hb]
  rw [key]
  generalize markRegion b r o s = m at *
  let f := failCopyFrom b m
  have fb : f.bank b = m.bank b := by
    show (failCopyFrom b m).bank b = _
    unfold failCopyFrom; split
    · cases b <;> rfl
    · rfl
  have flink : ∀ k, f.link k = m.link k := fun k => by
    show (failCopyFrom b m).link k = _
    unfold failCopyFrom; split <;> rfl
  have c : CyclesCut b allLinks f (cutCyclesOf b f) := cutCyclesOf_cuts (by rw [State.recOf, fb]; exact hm ▸ (by decide))
  have fo : (m.recOf (other b)).state = .copying → f.bank (other b) = { m.bank (other b) with record := BankRecord.reset } ∧
      f.events = { m.events with flags := m.events.flags ||| 8#24 } ∧ f.scrub = m.scrub.leftBank (other b) := fun h => by
    show (failCopyFrom b m).bank (other b) = _ ∧ (failCopyFrom b m).events = _ ∧ (failCopyFrom b m).scrub = _
    unfold failCopyFrom
    rw [if_pos h]
    refine ⟨by cases b <;> rfl, by rfl, Scrub.leaveBank_eq _ _⟩
  have fn : (m.recOf (other b)).state ≠ .copying → f = m := fun h => by
    show failCopyFrom b m = _
    unfold failCopyFrom
    rw [if_neg h]
  have frest : f = { m with banks := f.banks, events := f.events, scrub := f.scrub } := by
    show failCopyFrom b m =
      { m with banks := (failCopyFrom b m).banks, events := (failCopyFrom b m).events, scrub := (failCopyFrom b m).scrub }
    unfold failCopyFrom; split <;> rfl
  have hcs : (cutCyclesOf b f).scrub = f.scrub := (congrArg (fun x : State => x.scrub) c.rest : _)
  show InForceMarked m b r (scrubLeaves b r (cutCyclesOf b f))
  generalize cutCyclesOf b f = t at *
  refine ⟨?_, fun h => ⟨?_, ?_⟩, fun h => ⟨?_, ?_⟩, fun k => ?_, ?_, ?_⟩
  · show t.bank b = _
    rw [c.bank, State.recOf, fb]
    simp only [flink]
    rfl
  · show t.bank (other b) = _
    rw [c.otherBank]; exact (fo h).1
  · show t.events = _
    rw [c.events]; exact (fo h).2.1
  · show t.bank (other b) = _
    rw [c.otherBank, fn h]
  · show t.events = _
    rw [c.events, fn h]
  · show t.link k = _
    split
    · next hk => rw [c.cut k (mem_allLinks k) (by rw [flink]; exact hk), flink]; rfl
    · next hk => rw [c.kept k (.inr (by rw [flink]; exact hk)), flink]
  · show t.scrub.leaveRegion b r = _
    rw [Scrub.leaveRegion_eq, hcs]
    split
    · next h => rw [(fo h).2.2]
    · next h => rw [fn h]
  · have hr := c.rest
    have : ∀ (t f : State), t = { f with banks := t.banks, links := t.links } →
        f = { m with banks := f.banks, events := f.events, scrub := f.scrub } →
        scrubLeaves b r t = { m with banks := t.banks, links := t.links, events := t.events, scrub := t.scrub.leaveRegion b r } := by
      intro t f h1 h2
      rw [h1, h2]; rfl
    exact this t f hr frest

/-- What a mark on the PENDING bank does (R19, R23, R185). -/
theorem setMark_withdraws {b : BankId} {r : Region} {o : Nat} {s : State} (hr : rolesLaw s) (hb : (s.recOf b).state = .pending) :
    ∃ t, Withdrawn (markRegion b r o s) b t ∧ setMark b r o s = { t with scrub := t.scrub.leftRegion b r } := by
  refine ⟨withdrawBank b (markRegion b r o s), withdrawBank_withdrawn ?_ (by simp [markRegion, hb]), ?_⟩
  · have : ∀ c, ((markRegion b r o s).recOf c).state = (s.recOf c).state := fun c => by
      simp only [markRegion, State.recOf_setRec]; split <;> simp_all
    simpa only [rolesLaw, this] using hr
  · unfold setMark
    simp only [hb]
    unfold scrubLeaves
    rw [Scrub.leaveRegion_eq]

/-- What a read does at the first error of two bits that it meets. -/
theorem readHits_split (reader : Reader) (before : List Upset) (u : Upset) (after : List Upset) (s : State)
    (hb : ∀ x ∈ before, fatal x.kind = false) (hu : fatal u.kind = true) :
    readHits reader (before ++ u :: after) s = (uncorrectable u.loc reader (readHits reader before s).1, false) := by
  induction before generalizing s with
  | nil => simp [readHits, hu]
  | cons x xs ih => simp [readHits, hb x (by simp), ih _ fun y hy => hb y (by simp [hy])]

/-- A read of items meets the words in error of those items, each once. -/
theorem hitsIn_perm (b : BankId) (items : List Item) (us : List Upset) :
    (hitsIn b items us).Perm (us.filter fun u => inItems b items u.loc) := by
  induction items generalizing us with
  | nil => rw [hitsIn, List.filter_eq_nil_iff.mpr (by simp)]
  | cons i items ih =>
    rw [hitsIn]
    refine ((ih _).append_left _).trans ?_
    induction us with
    | nil => simp
    | cons u us ihu =>
      cases hi : inItems b [i] u.loc <;> cases hr : inItems b items u.loc <;>
        simp only [List.filter_cons, inItems_cons b i items u.loc, hi, hr, Bool.or_self, Bool.or_true, Bool.or_false, Bool.not_true,
          Bool.not_false, if_true, if_false, Bool.false_eq_true, List.cons_append] <;>
        first | exact ihu | exact ihu.cons u | exact List.perm_middle.trans (ihu.cons u)

/-- The words before the first that a read of items cannot read are corrected, and counted. -/
theorem readHits_before (reader : Reader) (b : BankId) (items : List Item) (s : State) (before after : List Upset) (h : errorsLaw s)
    (he : hitsIn b items s.upsets = before ++ after) (hb : ∀ x ∈ before, fatal x.kind = false) :
    (readHits reader before s).1 = s.correctedAt fun loc => before.any fun x => decide (loc = x.loc) := by
  have hwf : s.upsets.Pairwise fun x y => x.loc ≠ y.loc := h.imp fun h e => by rw [e] at h; omega
  have hnd : ((before ++ after).map (·.loc)).Nodup := by
    rw [← he]
    refine (((hitsIn_perm b items s.upsets).map _).nodup_iff).mpr ?_
    rw [List.Nodup, List.pairwise_map]
    exact hwf.filter _
  have hmem : ∀ x ∈ before, x ∈ s.upsets := fun x hx =>
    ((mem_hitsIn b items s.upsets x).1 (by rw [he]; simp [hx])).1
  have hlen : (s.upsets.filter fun u => before.any fun x => decide (u.loc = x.loc)).length = before.length := by
    refine List.Perm.length_eq ((List.perm_ext_iff_of_nodup ?_ ?_).mpr fun u => ?_)
    · exact List.Pairwise.filter _ (hwf.imp fun h e => h (congrArg Upset.loc e))
    · exact List.Nodup.of_map _ (List.nodup_append.mp (by rw [List.map_append] at hnd; exact hnd)).1
    · simp only [List.mem_filter, List.any_eq_true, decide_eq_true_eq]
      constructor
      · rintro ⟨hu, x, hx, e⟩
        rwa [upsets_unique h hu (hmem x hx) e]
      · exact fun hu => ⟨hmem u hu, u, hu, rfl⟩
  rw [readHits_corrects reader before s hb]
  unfold State.correctedAt Events.correctedBy
  rw [hlen]
  split <;> rfl
end Sys2Proof.Machine
end

