-- ==== Sys2Proof/Tests/Slice0.lean ====
section
/-!
SUPPORT. Tests against values that the spec states or that follow from it by hand, the refusals of WellFormed, and for
every statement with hypotheses a concrete state and operands that meet them.
-/

open Sys2Proof Sys2Proof.Machine

namespace Sys2Proof.Tests

/-! ### WellFormed: one ill-formed term for each check -/

theorem test_wf_kind_byte_of_a_message : (Instr.ignoredTransaction [1#8, 0#8]).wf = false := by decide

theorem test_wf_kind_byte_of_a_read : (Instr.ignoredTransaction [2#8]).wf = false := by decide

theorem test_wf_segment_without_payload : (Instr.segment 1#16 1#16 0#16 1#16 []).wf = false := by decide

theorem test_wf_segment_payload_of_241 : (Instr.segment 1#16 1#16 0#16 1#16 (List.replicate 241 0#8)).wf = false := by
  decide +kernel

theorem test_wf_query_arguments : (Instr.query 1#16 0x42#8 2#16 [0#8]).wf = false := by decide

theorem test_wf_refill_of_nine_links : (Instr.refillService (List.replicate 9 (0, []))).wf = false := by
  decide

theorem test_wf_frame_of_eight_extra_bits : (Instr.frameReceived 0 [] 8 false false).wf = false := by decide

theorem test_wf_test_frame_of_eight_extra_bits : (Instr.testFrameReturned 0 [] 8).wf = false := by decide

theorem test_wf_strike_past_the_buffer : (Instr.scrubRead [⟨.buffer 8192, .single⟩]).wf = false := by decide

theorem test_wf_strike_past_the_region : (Instr.scrubRead [⟨.bank .bankA .ranges 65536, .single⟩]).wf = false := by decide

theorem test_wf_copy_failure_offset : (Instr.copyFailure .ranges 65536).wf = false := by decide

theorem test_wf_closing_failure_offset : (Instr.closingRunFailure .ranges 65536 0).wf = false := by decide

/-! ### Check sequences: the published check values of the two CRCs of R17 and R116 over "123456789" -/

theorem test_crc32_of_the_nine_digits :
    crc32 [0x31#8, 0x32#8, 0x33#8, 0x34#8, 0x35#8, 0x36#8, 0x37#8, 0x38#8, 0x39#8] = 0xCBF43926#32 := by decide +kernel

theorem test_crc16_of_the_nine_digits :
    crc16 [0x31#8, 0x32#8, 0x33#8, 0x34#8, 0x35#8, 0x36#8, 0x37#8, 0x38#8, 0x39#8] = 0x29B1#16 := by decide +kernel

/-! ### Messages (R193) -/

/-- OPEN_BUILD EMPTY with tag 0102h, written out: type 10h, tag, body length 1, option 1, CRC-16. -/
theorem test_open_build_message :
    judgeMessage ([0x10#8, 1#8, 2#8, 1#8, 1#8] ++ be16 (crc16 [0x10#8, 1#8, 2#8, 1#8, 1#8])) =
      .good (.openBuild 0x0102#16 1#8) := by decide +kernel

/-- LINK_CONFIG of link 5, divider 4, threshold 0123h. -/
theorem test_link_config_message :
    judgeMessage ([0x28#8, 0#8, 9#8, 4#8, 5#8, 4#8, 1#8, 0x23#8] ++
      be16 (crc16 [0x28#8, 0#8, 9#8, 4#8, 5#8, 4#8, 1#8, 0x23#8])) = .good (.linkConfig 9#16 5#8 4#8 0x0123#16) := by
  decide +kernel

/-- A DEVICE_RESET with a body is BAD_ARG (R198). -/
theorem test_reset_with_a_body :
    judgeMessage (sealMessage 0x52#8 1#16 [0#8]) = .badArg := by decide +kernel

theorem test_five_bytes_are_no_message : judgeMessage [0x52#8, 0#8, 1#8, 0#8, 0#8] = .badCrc := by decide

/-! ### Prices: the six cases of chapter 3 -/

theorem test_price_case_a : expandPrice ⟨8192#16, 5#8, 50#16, 0#16⟩ 245#16 = (125#16, false) := by decide

theorem test_price_case_b : expandPrice ⟨10650#16, 10#8, 0#16, 0#16⟩ 380#16 = (250#16, false) := by decide

theorem test_price_case_c : expandPrice ⟨32767#16, 1#8, 0#16, 0#16⟩ 65535#16 = (65535#16, true) := by decide

theorem test_price_case_d : expandPrice ⟨4096#16, 10#8, 100#16, 80#16⟩ 120#16 = (80#16, true) := by decide

theorem test_price_case_e : expandPrice ⟨2048#16, 5#8, 0#16, 0#16⟩ 3#16 = (1#16, false) := by decide

theorem test_price_case_f : expandPrice ⟨32767#16, 1#8, 500#16, 200#16⟩ 0#16 = (0#16, false) := by decide

/-! ### Ranges: the delta of chapter 2 on shelf 12h -/

/-- A card of shelf 12h. -/
def card (n : Nat) : Card := BitVec.ofNat 56 (0x12 * 2 ^ 48 + n)

/-- Records 0 to 2 of the worked example. -/
def shelf12 : List RangeRec :=
  [⟨card 0x1000, card 0x10FF, .stolen, 2#2, none⟩, ⟨card 0x2000, card 0x27FF, .lost, 1#2, some 900#16⟩,
    ⟨card 0x2800, card 0x2FFF, .fraud, 3#2, none⟩]

/-- Operation 0 splits record 1. -/
theorem test_add_inside_a_record :
    addRange shelf12 ⟨card 0x2400, card 0x25FF, .stolen, 2#2, none⟩ =
      [⟨card 0x1000, card 0x10FF, .stolen, 2#2, none⟩, ⟨card 0x2000, card 0x23FF, .lost, 1#2, some 900#16⟩,
        ⟨card 0x2400, card 0x25FF, .stolen, 2#2, none⟩, ⟨card 0x2600, card 0x27FF, .lost, 1#2, some 900#16⟩,
        ⟨card 0x2800, card 0x2FFF, .fraud, 3#2, none⟩] := by decide +kernel

/-- Operation 1 coalesces into record 0. -/
theorem test_add_touching_a_record :
    (addRange shelf12 ⟨card 0x1100, card 0x11FF, .stolen, 2#2, none⟩).map (fun r => (r.first, r.last)) =
      [(card 0x1000, card 0x11FF), (card 0x2000, card 0x27FF), (card 0x2800, card 0x2FFF)] := by decide +kernel

/-- Operation 2 cuts two records back. -/
theorem test_remove_across_two_records :
    (removeRange shelf12 (card 0x2700) (card 0x2BFF)).map (fun r => (r.first, r.last)) =
      [(card 0x1000, card 0x10FF), (card 0x2000, card 0x26FF), (card 0x2C00, card 0x2FFF)] := by decide +kernel

/-- Of two priority-0 records the one with an expiry day comes first. -/
theorem test_eviction_takes_the_earlier_expiry :
    evictionChoice
      [⟨card 0x5000, card 0x500F, .damaged, 0#2, some 850#16⟩, ⟨card 0x7000, card 0x70FF, .damaged, 0#2, none⟩] =
      some ⟨card 0x5000, card 0x500F, .damaged, 0#2, some 850#16⟩ := by decide +kernel

/-! ### Single operations, from the worked examples and the tables of the rules -/

/-- The waiting queries of the example of R170. -/
def takeOrder : Lookups :=
  { Lookups.reset with
    queues := (Lookups.reset.queues.set 2 [⟨5#16, .productInfo 1#16⟩, ⟨6#16, .productInfo 1#16⟩]).set 6 [⟨40#16, .productInfo 1#16⟩]
    slot := .waiting ⟨900#16, .productInfo 1#16⟩
    pointer := .link 6 }

/-- Tags 40, 900, 5 and 6 are taken in this order, and the pointer then names link 3 (R170). -/
theorem test_take_order :
    let after (u : Lookups) (r : Requester) : Lookups := u.removeOldest r
    let u1 := after takeOrder (.link 6)
    let u2 := after u1 .gateway
    let u3 := after u2 (.link 2)
    (takeOrder.next.map (·.1), u1.next.map (·.1), u2.next.map (·.1), u3.next.map fun x => (x.1, x.2.tag)) =
        (some (.link 6), some .gateway, some (.link 2), some (.link 2, 6#16)) ∧
      (after u3 (.link 2)).pointer = .link 3 := by decide

/-- 65535 is followed by 1, and the seq in force is skipped (R13). -/
theorem test_drawn_seqs : drawSeq 65535#16 0#16 = 1#16 ∧ drawSeq 6#16 7#16 = 8#16 := by decide

/-- Minute 1439 is followed by minute 0 of the next day (R152). -/
theorem test_midnight : Clock.nextMinute ⟨true, 4#16, 1439#16, 59999⟩ = ⟨true, 5#16, 0#16, 0⟩ := by decide

/-- Byte 5 of the body of test frame 2 is (94 + 145 + 91) modulo 256 (R130). -/
theorem test_test_frame_byte : (testFrame 2)[3 + 5]? = some 74#8 := by decide +kernel

/-- Position of a byte lost from the middle, and of a frame that goes on too long (R131). -/
theorem test_first_difference : firstDifference [1#8, 3#8] [1#8, 2#8, 3#8] = 1 ∧ firstDifference [1#8, 2#8] [1#8] = 1 := by
  decide

/-- A masked flag does not assert ALERT, a flag whose mask is set does (R189). -/
theorem test_alert :
    Events.alert { Events.reset with flags := 2#24, masks := 5#24 } = false ∧
      Events.alert { Events.reset with flags := 2#24, masks := 2#24 } = true := by decide

/-- The step takes the front of the queue, and an empty queue passes a millisecond (log 1). -/
theorem test_step_takes_the_front :
    step { State.reset with pending := [.scrubPeriod, .minuteEvent] } =
      exec .scrubPeriod { State.reset with pending := [.minuteEvent] } := rfl

/-- A second error in a word whose bit is stuck makes two bits, and a write leaves the stuck one (R181, R182, log 10). -/
theorem test_stuck_bit_outlives_a_write :
    let struck : State := { State.reset with upsets := strike ⟨.buffer 3, .single⟩ [⟨.buffer 3, .stuck⟩] }
    struck.upsets = [⟨.buffer 3, .stuckDouble⟩] ∧
      (struck.refresh (inBuffer 24 32)).upsets = [⟨.buffer 3, .stuck⟩] := by decide

/-- The reason of a failed CLOSE is MEMORY, 0Fh (R24, R196), and no reason is 0 (R16). -/
theorem test_close_reason :
    (closeResultBytes ⟨.failed, .bankA, 0, 0, 0#16, 0#32⟩)[2]? = some 0x0F#8 ∧
      (closeResultBytes CloseResult.reset)[2]? = some 0#8 := by decide

/-- Test results are coded from 0 in the order PASS, FAIL, NO_ECHO (R131, R193). -/
theorem test_result_codes : TestResult.code .pass = 0#8 ∧ TestResult.code .fail = 1#8 ∧ TestResult.code .noEcho = 2#8 := by
  decide

/-- A link ENABLED that has received the first two bytes of a frame. -/
def receiving : State :=
  State.reset.setLink 4 { State.reset.link 4 with state := .enabled, rxFrame := [0x43#8, 0#8] }

/-- The bytes of the frame being received count as receive FIFO fill (R121, R132), and end in the frame judged. -/
theorem test_frame_being_received :
    (receiving.link 4).rxFill = 2 ∧
      (match exec (.frameReceived 4 [4#8] 0 false false) receiving with
       | .next t => ((t.link 4).rxFill, (t.link 4).counters.discLength) == (0, 1)
       | _ => false) = true := by decide

/-- During its transactions MISO carries FFh, the kind byte included (R192). -/
theorem test_miso_of_an_ignored_transaction :
    (match exec (.ignoredTransaction [7#8, 0#8]) State.reset with
     | .next t => t.port.miso == [0xFF#8, 0xFF#8]
     | _ => false) = true := by decide

/-- A DISCARD_BUILD of the bank that the scrubber is in ends the last part of its pass at once (R185). -/
theorem test_discard_ends_the_pass :
    (match exec (.discardBuild 3#16)
        { State.reset.setRec .bankB { BankRecord.reset with state := .building } with
          scrub := { Scrub.reset with mode := .walking .bankB .tariff 9 } } with
     | .next t => (t.scrub.mode, t.scrub.passes) == (.resting, 1)
     | _ => false) = true := by decide

/-- A region marked by another reader is left at that point (R185). -/
theorem test_marked_region_is_left :
    (setMark .bankB .header 2
      { State.reset.setRec .bankB { BankRecord.reset with state := .building } with
        scrub := { Scrub.reset with mode := .walking .bankB .header 1 } }).scrub.mode = .walking .bankB .tariff 0 := by decide

/-! ### States for the witnesses -/

/-- The bank in this state. -/
def withBank (b : BankId) (t : BankState) (s : State) : State := s.setRec b { s.recOf b with state := t }

/-- Bank A in force with seq 1. -/
def running : State := State.reset.setRec .bankA { BankRecord.reset with state := .inForce, seq := 1#16 }

/-- Bank A in force, bank B in this state with seq 2. -/
def beside (t : BankState) : State := running.setRec .bankB { BankRecord.reset with state := t, seq := 2#16 }

/-- Bank B PENDING with this activation, Cutover Control in this state. -/
def waiting (act : Activation) (c : CutState) : State :=
  { running.setRec .bankB { BankRecord.reset with state := .pending, seq := 2#16, activation := some act } with
    cutover := { Cutover.reset with state := c } }

/-- A link changed. -/
def onLink (k : LinkId) (f : Link → Link) (s : State) : State := s.setLink k (f (s.link k))

/-- Link 0 enabled with this on its line. -/
def sending (line : TxLine) (fifo : List FifoFrame) : State :=
  onLink 0 (fun l => { l with state := .enabled, tx := line, txFifo := fifo }) State.reset

/-- The loader in this state. -/
def loading (x : LoaderState) (s : State) : State := { s with loader := { s.loader with state := x } }

/-- A record of shelf 0 and one of shelf 1. -/
def twoRanges : List RangeRec := [⟨5#56, 9#56, .lost, 1#2, some 3#16⟩, ⟨BitVec.ofNat 56 (2 ^ 48), BitVec.ofNat 56 (2 ^ 48), .lost, 1#2, none⟩]

/-- Card 7 is listed in `twoRanges`. -/
def tableBank (t : BankState) : Bank := ⟨{ BankRecord.reset with state := t, seq := 1#16, tariffPresent := true }, Tariff.empty, RangeRegion.ofRecords twoRanges⟩

/-! ### Witnesses: the queue, the port and the reset -/

theorem witness_EveryCommandCompletes :
    ({ State.reset with inReset := true } : State).inReset = true ∧ Instr.copyComplete ≠ .powerOn ∧
      Instr.copyComplete ≠ .resetNLow ∧ Instr.copyComplete ≠ .resetEnd := by decide

theorem witness_DeviceResetSetsEveryBlock : State.reset.inReset = false ∧ State.reset.portReady := by decide

theorem witness_WriteMessageIsJudged_short_and_wrong :
    State.reset.inReset = false ∧ State.reset.port.rdy = true ∧ ([0x51#8, 0#8, 1#8, 0#8, 0#8] : List Byte).length < 6 ∧
      250 < ([0x51#8, 0#8, 1#8, 251#8, 0#8, 0#8].getD 3 0#8).toNat ∧
      [0#8, 0#8] ≠ be16 (crc16 [0x51#8, 0#8, 1#8, 0#8]) ∧ (0x15#8).toNat ∉ [0x10, 0x11, 0x12, 0x13, 0x14] := by decide +kernel

theorem witness_WriteMessageIsJudged_good : (Instr.status 7#16).wf = true ∧ messageOf (.status 7#16) ≠ none := by decide

theorem witness_WriteMessageIsJudged_argument :
    (0x52#8 : Byte).toNat = 0x52 ∧ ((0x52, 1) : Nat × Nat) ≠ (0x52, 0) ∧ sealMessage 0x52#8 1#16 [0#8] ≠ [] ∧
      ([1#8, 2#8] : List Byte).length = 2 ∧ ((0x41#8 : Byte).toNat, 2) ∉ [(0x41, 7), (0x42, 3), (0x43, 2)] := by
  decide +kernel

theorem witness_MessageDecodesAsEncoded :
    (Instr.query 7#16 0x42#8 8#16 [0#8, 1#8, 1#8]).wf = true ∧ messageOf (.query 7#16 0x42#8 8#16 [0#8, 1#8, 1#8]) ≠ none := by
  decide

theorem witness_MessageTakenInTwoStepsOrOne :
    State.reset.portReady ∧ (Instr.identify 7#16).wf = true ∧ messageOf (.identify 7#16) ≠ none ∧
      (∃ t, exec (.writeMessage false (encodeMessage (.identify 7#16))) State.reset = .next t) ∧
      (let s : State := { State.reset with port := { Port.reset with rdy := false } }
       s.inReset = false ∧ s.port.rdy = false ∧ s.port.dispatched ≠ some (.identify 7#16)) :=
  ⟨by decide, by decide, by decide, ⟨_, rfl⟩, by decide⟩

theorem witness_ReadResponseSendsAndFetches :
    State.reset.inReset = false ∧ State.reset.port.response = .empty ∧ State.reset.port.rdy = true ∧
      (let r : Response := ⟨1#16, .ok, []⟩
       let held : State := { State.reset with port := { Port.reset with response := .held r } }
       let fetched : State := { State.reset with port := { Port.reset with response := .fetched r } }
       let low : State := { State.reset with port := { Port.reset with rdy := false } }
       held.inReset = false ∧ held.port.response = .held r ∧ (responseBytes r).length = 6 ∧
        fetched.port.response = .fetched r ∧ low.port.response = .empty ∧ low.port.rdy = false) := by decide +kernel

theorem witness_ReadingCommandsChangeNothing : State.reset.portReady ∧ 7 < (8#8).toNat ∧ 1 < (2#8).toNat := by decide

theorem witness_IdleStepPassesAMillisecond :
    State.reset.pending = [] ∧ State.reset.inReset = false ∧ State.reset.port.dispatched = none ∧
      ({ State.reset with inReset := true } : State).inReset = true ∧
      (let s : State := { State.reset with port := { Port.reset with rdy := false, dispatched := some (.identify 7#16) } }
       s.pending = [] ∧ s.inReset = false ∧ s.port.dispatched = some (.identify 7#16)) := by decide

/-! ### Witnesses: image banks -/

theorem witness_OpenBuildIsCheckedInOrder :
    (beside .pending).portReady ∧ rolesLaw (beside .pending) ∧ ((beside .pending).recOf .bankB).state = .pending ∧
      rolesLaw State.reset ∧ (∀ b, (State.reset.recOf b).state ≠ .inForce) ∧ 1 < (2#8).toNat ∧
      (let s := (beside .stale).setRec .bankA { BankRecord.reset with state := .inForce, marks := ⟨none, some 3, none⟩ }
       s.portReady ∧ rolesLaw s ∧ (s.recOf .bankA).state = .inForce ∧ (s.recOf .bankA).marks.tariff ≠ none) :=
  ⟨by decide, by decide, by decide, by decide, fun b => by cases b <;> decide, by decide, by decide⟩

theorem witness_BuildsBeginOrDrain :
    (beside .stale).portReady ∧ rolesLaw (beside .stale) ∧ ((beside .stale).recOf .bankA).state = .inForce ∧
      ((beside .stale).recOf .bankB).state = .stale ∧ ((beside .stale).recOf .bankB).readers = 0 ∧
      ((beside .stale).recOf .bankA).marks = ⟨none, none, none⟩ ∧
      (let s := running.setRec .bankB { BankRecord.reset with state := .stale, readers := 1 }
       s.portReady ∧ rolesLaw s ∧ 0 < (s.recOf .bankB).readers) := by decide

theorem witness_BuildsBeginOrDrain_drains :
    (let s := running.setRec .bankB { BankRecord.reset with state := .draining, openOption := some .fromInForce }
     s.inReset = false ∧ rolesLaw s ∧ (s.recOf .bankB).state = .draining ∧ (s.recOf .bankB).readers = 0 ∧
      (s.recOf .bankB).openOption = some .fromInForce ∧ (s.recOf (other .bankB)).state = .inForce) ∧
    (let s := running.setRec .bankB { BankRecord.reset with state := .draining, openOption := some .empty, readers := 1 }
     rolesLaw s ∧ 0 < (s.recOf .bankB).readers ∧ (s.recOf .bankB).openOption = some .empty) := by decide

theorem witness_CloseBuildIsCheckedInOrder :
    (beside .building).portReady ∧ rolesLaw (beside .building) ∧ ((beside .building).recOf .bankB).state = .building ∧
      (beside .building).loader.state = .idle ∧ ((beside .building).recOf .bankB).tariffPresent = false ∧
      (let s := running.setRec .bankB
        { BankRecord.reset with state := .building, tariffPresent := true, blockStatus := .complete }
       s.portReady ∧ rolesLaw s ∧ (s.recOf .bankB).blockStatus = .complete ∧
        ¬((s.recOf .bankB).marks.header ≠ none ∨ (s.recOf .bankB).marks.tariff ≠ none ∨
          (s.recOf .bankB).marks.ranges ≠ none) ∧ ¬(1 < (1#8).toNat ∨ (1#8 = 1#8 ∧ 1439 < (1439#16).toNat)) ∧
        1439 < (1440#16).toNat) := by decide

theorem witness_WithdrawMakesThePendingBankStale :
    (waiting .onReady .waiting).portReady ∧ rolesLaw (waiting .onReady .waiting) ∧
      ((waiting .onReady .waiting).recOf .bankB).state = .pending := by decide

theorem witness_DiscardBuildDropsTheBuild :
    (beside .closing).portReady ∧ rolesLaw (beside .closing) ∧
      ((beside .closing).recOf .bankB).state ∈ [.copying, .building, .closing] ∧ rolesLaw (beside .draining) ∧
      ((beside .draining).recOf .bankB).state = .draining := by decide

theorem witness_CopyCompletesOrFails :
    (beside .copying).inReset = false ∧ rolesLaw (beside .copying) ∧ ((beside .copying).recOf .bankB).state = .copying ∧
      ((beside .copying).recOf .bankA).state = .inForce ∧ (beside .copying).upsets = [] := by decide

/-- A word outside the source's extent, which has no tariff, and one that the copy has read (R8, R185). -/
theorem witness_CopyCompletesOrFails_not_left (o : Nat) :
    let s : State := { beside .copying with copied := ⟨0, 0, 3⟩ }
    rolesLaw s ∧ (s.recOf .bankB).state = .copying ∧ (s.recOf .bankA).state = .inForce ∧
      copyPasses .bankA (allExtentItems (s.bank .bankA)) s.copied none (.bank .bankA .tariff o) = false ∧
      copyPasses .bankA (allExtentItems (s.bank .bankA)) s.copied none (.bank .bankA .ranges 2) = false := by
  refine ⟨by decide, rfl, rfl, ?_, ?_⟩
  · have absent : ((beside .copying).bank .bankA).record.tariffPresent = false := rfl
    show copyPasses .bankA (allExtentItems ((beside .copying).bank .bankA)) ⟨0, 0, 3⟩ none (.bank .bankA .tariff o) = false
    simp [copyPasses, inItems, allExtentItems, extentItems, rangeItems, itemRegion, absent]
  · simp [copyPasses, Copied.get]

/-- The one word in error, that of the source's range count, is left to the copy. -/
theorem witness_CopyCompletesOrFails_word (o : Nat) (h : o ∈ Config.itemWords .rangeCount) (kind : UpsetKind) :
    let s : State := { beside .copying with upsets := [⟨.bank .bankA .ranges o, kind⟩] }
    s.inReset = false ∧ rolesLaw s ∧ (s.recOf .bankB).state = .copying ∧ (s.recOf .bankA).state = .inForce ∧
      (s.upsets.filter fun u => copyPasses .bankA (allExtentItems (s.bank .bankA)) s.copied none u.loc) =
        [⟨.bank .bankA .ranges o, kind⟩] := by
  refine ⟨rfl, by show rolesLaw (beside .copying); decide, rfl, rfl, ?_⟩
  have passed : copyPasses .bankA (allExtentItems ((beside .copying).bank .bankA)) (beside .copying).copied none
      (.bank .bankA .ranges o) = true := by
    have zero : (beside .copying).copied.get .ranges = 0 := rfl
    simp [copyPasses, inItems, allExtentItems, extentItems, rangeItems, itemRegion, h, zero]
  show List.filter (fun u : Upset => copyPasses .bankA (allExtentItems ((beside .copying).bank .bankA)) (beside .copying).copied none
    u.loc) [_] = _
  simp only [List.filter, passed]

theorem witness_CloseRunMakesTheImagePending :
    (let s := running.setRec .bankB { BankRecord.reset with state := .closing, activation := some (.atTime 5#16 0#16) }
     s.inReset = false ∧ rolesLaw s ∧ errorsLaw s ∧ (s.recOf .bankB).state = .closing ∧ s.upsets = [] ∧
       s.clock.valid = false) ∧
    (let s := (running.setRec .bankB { BankRecord.reset with state := .closing, activation := some .onReady }).setEntry 0
      { Entry.reset with presence := .active }
     rolesLaw s ∧ (s.entry 0).presence = .active ∧ (s.entry 0).excluded = false) ∧
    (let s := running.setRec .bankB { BankRecord.reset with state := .closing, activation := some .onReady }
     rolesLaw s ∧ (∀ k, (s.entry k).presence ≠ .active) ∧ s.cutover.inhibit = false) := by decide

/-- Words with a bit in error keep a closing run from nothing. -/
theorem witness_CloseRunMakesTheImagePending_errors (o : Nat) :
    let s : State := { beside .closing with upsets := [⟨.bank .bankB .ranges o, .stuck⟩, ⟨.bank .bankB .ranges (o + 1), .single⟩] }
    s.inReset = false ∧ rolesLaw s ∧ errorsLaw s ∧ (s.recOf .bankB).state = .closing ∧
      s.readable .bankB none (closeActs s.closeDay (s.bank .bankB)) :=
  ⟨rfl, by show rolesLaw (beside .closing); decide, by simp [errorsLaw, upsetsWf, locKey], rfl, fun u hu =>
    errorAfter_single _ _ _ _ _ (by
      simp only [List.mem_cons, List.not_mem_nil, or_false] at hu
      rcases hu with rfl | rfl <;> rfl)⟩

/-- Bank B CLOSING, with one class record, and one word of it unreadable. -/
def failing (day : Option Half) (due : Bool) (r : Region) : State :=
  { running.setBank .bankB
      ⟨{ BankRecord.reset with state := .closing, expansionDue := due },
        { Tariff.empty with classes := [⟨8192#16, 5#8, 0#16, 0#16⟩] }, RangeRegion.ofRecords []⟩ with
    closeDay := day
    upsets := [⟨.bank .bankB r 0, .double⟩] }

theorem witness_ClosingRunFailureReturnsToBuilding (day : Option Half) (due : Bool) (r : Region) :
    (failing day due r).inReset = false ∧ rolesLaw (failing day due r) ∧ errorsLaw (failing day due r) ∧
      ((failing day due r).recOf .bankB).state = .closing :=
  ⟨rfl, by show rolesLaw (failing none true .header); decide, List.pairwise_singleton _ _, rfl⟩

/-- A run that prunes reads the range count first, one that expands without a day the HEADER, and one that does neither the
range count; the word read first, at offset 0, cannot be given. -/
theorem witness_ClosingRunFailureReturnsToBuilding_word (h : Config.itemWords .rangeCount = [0])
    (hd : Config.itemWords .dims = [0]) :
    (∀ d due, ∃ left, closeActs (some d) ((failing (some d) due .ranges).bank .bankB) = [] ++ .read .ranges 0 :: left) ∧
    (∃ left, closeActs none ((failing none true .header).bank .bankB) = [.reach (.expand 0)] ++ .read .header 0 :: left) ∧
    (∃ left, closeActs none ((failing none false .ranges).bank .bankB) =
      [.reach (.expand 0), .reach (.checksum 0)] ++ .read .ranges 0 :: left) ∧
    ∀ day due r made, (∀ a ∈ made, ∃ p, a = CloseAct.reach p) →
      made.count (.read r 0) = 0 ∧ (failing day due r).readable .bankB none made ∧
        ((failing day due r).ranOn .bankB none made).upsetAt (.bank .bankB r 0) = some .double := by
  have table : ∀ (t : RangeRegion) (f : Nat → ClosePoint), ∃ left, tableReads t f = .read .ranges 0 :: left := fun t f => by
    simp [tableReads, tableItems, itemReads, h, putOnce, itemRegion, List.eraseDups_cons]
  refine ⟨fun d due => ?_, ?_, ?_, fun day due r made hm => ?_⟩
  · obtain ⟨left, hl⟩ := table ((failing (some d) due .ranges).bank .bankB).ranges fun n =>
      .prune ((((failing (some d) due .ranges).bank .bankB).ranges.records.take n).filter (expired d)).length
    simp [closeActs, pruneActs, hl]
  · have due : ((failing none true .header).bank .bankB).record.expansionDue = true := rfl
    simp [closeActs, pruneActs, expandActs, itemReads, hd, putOnce, itemRegion, due]
  · have due : ((failing none false .ranges).bank .bankB).record.expansionDue = false := rfl
    have pruned : pruneStep none ((failing none false .ranges).bank .bankB) =
        ⟨(failing none false .ranges).bank .bankB, 0, 0⟩ := rfl
    obtain ⟨left, hl⟩ := table ((failing none false .ranges).bank .bankB).ranges fun n =>
      .checksum (shelvesRead ((failing none false .ranges).bank .bankB).ranges n)
    simp [closeActs, pruneActs, expandActs, checksumActs, hl, due, pruned]
  · have same : ∀ l k, errorAfter .bankB none l made k = some (some k, 0) := by
      induction made with
      | nil => intros; rfl
      | cons a made ih =>
        obtain ⟨p, rfl⟩ := hm a (by simp)
        exact ih fun a ha => hm a (by simp [ha])
    refine ⟨List.count_eq_zero.mpr fun h => ?_, ?_, ?_⟩
    · obtain ⟨p, hp⟩ := hm _ h
      cases hp
    · intro u _
      simp [same]
    · simp [State.ranOn, same, State.upsetAt, failing]

/-- A bank without a tariff, whose run reads no word of that region. -/
theorem witness_ClosingRunFailureReturnsToBuilding_not_read (o : Nat) :
    (closeActs none ⟨{ BankRecord.reset with state := .closing, expansionDue := false }, Tariff.empty, RangeRegion.empty⟩).count
      (.read .tariff o) ≤ 0 := by
  rw [Nat.le_zero, List.count_eq_zero]
  simp [closeActs, pruneActs, expandActs, checksumActs, tableReads, tableItems, itemReads, tariffCrcItems, itemRegion,
    pruneStep, prunePart, Tariff.empty, List.mem_eraseDups]

/-- A bank that drains on its last reader, with each option, and its source damaged or not. -/
theorem witness_ReaderReleased (o : BuildOption) (m : Marks) :
    let s := (running.setRec .bankA { BankRecord.reset with state := .inForce, seq := 1#16, marks := m }).setRec .bankB
      { BankRecord.reset with state := .draining, openOption := some o, readers := 1 }
    rolesLaw s ∧ (s.recOf .bankB).state = .draining ∧ (s.recOf .bankB).readers ≤ 1 ∧ (s.recOf .bankB).openOption = some o ∧
      (s.recOf .bankA).state = .inForce ∧ (s.recOf .bankA).marks = m :=
  ⟨by show rolesLaw (beside .draining); decide, rfl, Nat.le_refl 1, rfl, rfl, rfl⟩

theorem witness_RangeReadAnswersFromTheTable :
    (beside .stale).portReady ∧ 1 < (2#8).toNat ∧ 255 < (256#16).toNat ∧ 16383 < (16384#16).toNat ∧
      ¬(1 < (bankCode .bankB).toNat ∨ 255 < (255#16).toNat ∨ 16383 < (16383#16).toNat) ∧
      ((beside .stale).recOf .bankB).state = .stale ∧ (beside .stale).upsets = [] ∧
      ((beside .closing).recOf .bankB).state = .closing ∧
      (let s := loading (.applying 1#16 .tariff 20 .check) (beside .building)
       s.portReady ∧ (s.recOf .bankB).state = .building ∧ s.loader.state = .applying 1#16 .tariff 20 .check) := by decide

/-- Bank B STALE, with one word of its range table in error. -/
def rangeWord (o : Nat) (kind : UpsetKind) : State := { beside .stale with upsets := [⟨.bank .bankB .ranges o, kind⟩] }

/-- A word that a served read reads, with one bit in error and with two. -/
theorem witness_RangeReadAnswersFromTheTable_errors (o : Nat) (h : o ∈ Config.itemWords (.dirEntry 255)) :
    (rangeWord o .single).portReady ∧ ((rangeWord o .single).recOf .bankB).state = .stale ∧
      (∀ items, ∀ u ∈ (rangeWord o .single).upsets, inItems .bankB items u.loc = true → fatal u.kind = false) ∧
      inItems .bankB [.dirEntry 255] (.bank .bankB .ranges o) = true ∧ fatal .single = false ∧ fatal .double = true := by
  refine ⟨⟨rfl, rfl, rfl⟩, rfl, ?_, by simp [inItems, itemRegion, h], rfl, rfl⟩
  intro items u hu _
  cases List.mem_singleton.mp hu
  rfl

/-- Bank B PENDING with a tariff of one class, and one word of its tariff region in error. -/
def tariffWord (o : Nat) (kind : UpsetKind) : State :=
  { running.setBank .bankB
      ⟨{ BankRecord.reset with state := .pending, tariffPresent := true }, { Tariff.empty with classCount := 1 },
        RangeRegion.empty⟩ with
    upsets := [⟨.bank .bankB .tariff o, kind⟩] }

/-- A class record with a word in error, its dimensions without; class 0 lies within the dimensions, class 1 outside. -/
theorem witness_TariffReadAnswersFromTheTariff_errors (o : Nat) (h : o ∈ Config.itemWords (.classRec 0)) (kind : UpsetKind) :
    (tariffWord o kind).portReady ∧ ((tariffWord o kind).recOf .bankB).tariffPresent = true ∧
      ((tariffWord o kind).bank .bankB).tariff.classCount = 1 ∧ tariffItemOf 1#8 0#8 0#8 0#8 = some (.cls 0) ∧
      (∀ u ∈ (tariffWord o kind).upsets, inItems .bankB [.dims] u.loc = false) ∧
      ∀ u ∈ (tariffWord o kind).upsets, inItems .bankB [.classRec 0] u.loc = true := by
  refine ⟨⟨rfl, rfl, rfl⟩, rfl, rfl, by decide, fun u hu => ?_, fun u hu => ?_⟩ <;> cases List.mem_singleton.mp hu
  · simp [inItems, itemRegion]
  · simp [inItems, itemRegion, h]

theorem witness_TariffReadAnswersFromTheTariff :
    (beside .stale).portReady ∧ tariffItemOf 3#8 7#8 32#8 1#8 = some (.price 7 32 1) ∧
      tariffItemOf 3#8 8#8 32#8 1#8 = none ∧ tariffItemOf 2#8 33#8 1#8 0#8 = none ∧ tariffItemOf 4#8 255#8 0#8 0#8 ≠ none ∧
      ((beside .stale).recOf .bankB).tariffPresent = false ∧
      (let s := running.setRec .bankB { BankRecord.reset with state := .pending, tariffPresent := true, expansionDue := true }
       s.portReady ∧ (s.recOf .bankB).tariffPresent = true ∧ (s.recOf .bankB).expansionDue = true ∧ s.upsets = []) := by decide

/-! ### Witnesses: tables, tariffs and packages -/

theorem witness_DeltaOperationsListTheirSpan :
    canonical twoRanges ∧ (⟨1#56, 7#56, .fraud, 0#2, none⟩ : RangeRec).first ≤ 7#56 ∧ (3#56 : Card) ≤ 3#56 := by decide

theorem witness_TablesStayCanonical :
    canonical twoRanges ∧ (DeltaOp.remove 6#56 6#56).span.1 ≤ (DeltaOp.remove 6#56 6#56).span.2 ∧
      ∀ x ∈ twoRanges, x.last < (BitVec.ofNat 56 (2 ^ 48 + 1)) := by decide

theorem witness_EvictionOrderIsTotal :
    twoRanges ≠ [] ∧ twoRanges.Pairwise (fun x y => x.first ≠ y.first) := by decide

theorem witness_DirectoryLocatesTheShelf : canonical twoRanges ∧ 255 < 256 := by decide

theorem witness_PriceFollowsTheStages :
    245#16 ≠ 0#16 ∧ classRecOk ⟨32767#16, 100#8, 0#16, 0#16⟩ = true ∧ classRecOk ⟨32768#16, 100#8, 0#16, 0#16⟩ = false := by
  decide

theorem witness_ExpansionFillsTheMatrix :
    let t : Tariff := { Tariff.empty with classes := [⟨16384#16, 5#8, 0#16, 0#16⟩], base := [7#16] }
    t.classes[0]? = some ⟨16384#16, 5#8, 0#16, 0#16⟩ ∧ t.base[0]? = some 7#16 ∧ classRecOk ⟨16384#16, 5#8, 0#16, 0#16⟩ = true := by
  decide

/-- A pass of two zones. -/
def aPass : Product :=
  { code := 10#16
    kind := .pass
    cls := 0#8
    validFrom := 1#16
    validTo := some 9#16
    zones := [1#8]
    duration := some 7#16
    window := none
    fixedPrice := some 300#16 }

/-- A tariff of one zone, one class and one product. -/
def aTariff : TariffPackage := ⟨8#32, 1, 1, 1, [⟨16384#16, 5#8, 0#16, 0#16⟩], [100#16], [aPass]⟩

theorem witness_ContentDecodesAsEncoded :
    aPass.zones.length < 256 ∧ (aPass.duration.isSome = true ↔ aPass.kind = .pass) ∧
      (aPass.window.isSome = true ↔ aPass.kind = .transfer) ∧ aTariff.classes.length = aTariff.classCount ∧
      aTariff.base.length = aTariff.zones * aTariff.zones ∧ aTariff.products.length = aTariff.productCount := by decide

/-- The header and body of `aTariff` in a package. -/
def aTariffBuffer : List Byte :=
  List.replicate 8 0#8 ++ (be32 8#32 ++ [1#8, 1#8] ++ n16 1 ++ encodeClass ⟨16384#16, 5#8, 0#16, 0#16⟩ ++ be16 100#16 ++
    encodeProduct aPass)

theorem witness_TariffCheckNamesTheFirstFault :
    parseTariff (aTariffBuffer.drop 8) = some aTariff ∧ checkTariff aTariffBuffer = none ∧
      parseTariff ([] : List Byte) = none ∧ productOk 1 1 { aPass with zones := [2#8] } = false := by decide +kernel

theorem witness_SegmentIsCheckedInOrder :
    State.reset.portReady ∧ rolesLaw State.reset ∧ 274 < (275#16).toNat ∧ ¬((274#16 : Half) = 0#16 ∨ 274 < (274#16).toNat) ∧
      (273#16 : Half) < 274#16 ∧ ((beside .building).recOf .bankB).state = .building ∧ State.reset.loader.state = .idle ∧
      (let s := loading (.receiving ⟨1#16, .tariff, 2#16, 1#16, 20, 40, 0#32, 0#32⟩) (beside .building)
       s.portReady ∧ s.loader.state = .receiving ⟨1#16, .tariff, 2#16, 1#16, 20, 40, 0#32, 0#32⟩ ∧ (2#16 : Half) ≠ 1#16) := by
  decide

theorem witness_SegmentStoresItsPayload :
    let r : Receiving := ⟨1#16, .tariff, 3#16, 1#16, 20, 40, 0#32, 0#32⟩
    let s := loading (.receiving r) (beside .building)
    let after : Receiving := ⟨1#16, .tariff, 3#16, 2#16, 21, 40, 0#32, crc32Feed 0#32 [9#8]⟩
    s.portReady ∧ rolesLaw s ∧ (s.recOf .bankB).state = .building ∧ (1#16 : Half) < 3#16 ∧
      after.bytes = r.bytes + [9#8].length ∧ after.expected = 1#16 + 1#16 ∧ s.loader.state = .receiving r ∧
      after.running = crc32Feed r.running [9#8] := by decide +kernel

theorem witness_SegmentStoresItsPayload_first :
    let payload : List Byte := [1#8, 0#8, 0#8, 16#8, 0#8, 0#8, 0#8, 0#8, 0#8, 0#8, 0#8, 0#8, 0#8, 0#8, 0#8, 0#8]
    (beside .building).portReady ∧ rolesLaw (beside .building) ∧ (beside .building).loader.state = .idle ∧
      packageKindOf 1#8 = some .tariff ∧ PackageKind.tariff.least ≤ 16 ∧ PackageKind.tariff.least ≤ payload.length := by
  decide

theorem witness_CheckPhaseDecides :
    let s := loading (.applying 1#16 .tariff 40 .check) (beside .building)
    s.inReset = false ∧ rolesLaw s ∧ s.loader.state = .applying 1#16 .tariff 40 .check ∧
      (s.recOf .bankB).state = .building ∧ s.upsets = [] := by decide

theorem witness_CheckPhaseDecides_unreadable :
    let s : State := { loading (.applying 1#16 .blockDelta 40 .check) (beside .building) with upsets := [⟨.buffer 2, .double⟩] }
    s.loader.state = .applying 1#16 .blockDelta 40 .check ∧ (s.recOf .bankB).state = .building ∧
      s.upsets = [⟨.buffer 2, .double⟩] ∧ fatal .double = true ∧ PackageKind.blockDelta ≠ .tariff ∧ 2 * 8 < 18 := by decide

/-- A word of the range count is a word the check of a later part reads. -/
theorem witness_CheckPhaseDecides_bank_word (o : Nat) (h : o ∈ Config.itemWords .rangeCount) (t : RangeRegion) :
    inItems .bankB (appendItems t) (.bank .bankB .ranges o) = true := by
  simp [inItems, appendItems, itemRegion, h]

theorem witness_RangePackagesAreChecked :
    let base : List Byte := List.replicate 8 0#8 ++ [0#8, 0#8, 0#8, 1#8, 0#8, 1#8, 0#8, 1#8, 0#8, 0#8]
    let delta : List Byte := List.replicate 8 0#8 ++ [0#8, 0#8, 0#8, 0#8, 0#8, 0#8, 0#8, 1#8, 0#8, 0#8]
    baseHeaderOf base = some (⟨1#32, 1#16, 1#16, 0#16⟩, []) ∧ deltaHeaderOf delta = some (⟨0#32, 1#32, 0#16⟩, []) ∧
      BlockStatus.complete ≠ .none := by decide

/-- Two base entries of which the second does not lie above the first (R33), and the codes that the checks give. -/
theorem witness_RangePackagesAreChecked_entries :
    let entry (lo hi : Card) : List Byte := be56 lo ++ be56 hi ++ [0#8, 0#8, 0#8]
    let base : List Byte :=
      List.replicate 8 0#8 ++ [0#8, 0#8, 0#8, 1#8, 0#8, 1#8, 0#8, 1#8, 0#8, 2#8] ++ entry 5#56 9#56 ++ entry 9#56 12#56
    checkBase Bank.reset base = some (.order, some 1) := by decide +kernel

theorem witness_TariffApplyReplacesTheTariff :
    let s : State :=
      { beside .building with loader := ⟨.applying 1#16 .tariff 40 .apply, (beside .building).loader.result, aTariffBuffer⟩ }
    s.inReset = false ∧ rolesLaw s ∧ s.loader.state = .applying 1#16 .tariff 40 .apply ∧
      (s.recOf .bankB).state = .building ∧ s.upsets = [] ∧ parseTariff (s.loader.buffer.drop 8) = some aTariff := by
  decide +kernel

/-- Word 3 of the buffer is first read with the second record, at byte 23. -/
theorem witness_TariffApplyReplacesTheTariff_unreadable :
    let widths := aTariff.classes.map (fun _ => 7) ++ aTariff.base.map (fun _ => 2) ++
      aTariff.products.map fun q => (encodeProduct q).length
    1 < widths.length ∧ 16 + (widths.take 1).sum ≤ 8 * 3 ∧ 8 * 3 < 16 + (widths.take 2).sum := by decide

/-- A base of one part and no entries, and a delta of no operations. -/
def rangeBuffer : List Byte := List.replicate 8 0#8 ++ [0#8, 0#8, 0#8, 1#8, 0#8, 1#8, 0#8, 1#8, 0#8, 0#8]

theorem witness_RangeApplyChangesTheTable :
    let s : State :=
      { beside .building with loader := ⟨.applying 1#16 .blockBase 18 .apply, (beside .building).loader.result, rangeBuffer⟩ }
    s.inReset = false ∧ rolesLaw s ∧ directoryLaw s ∧ (s.recOf .bankB).state = .building ∧ s.upsets = [] ∧
      baseHeaderOf s.loader.buffer = some (⟨1#32, 1#16, 1#16, 0#16⟩, []) ∧
      deltaHeaderOf s.loader.buffer = some (⟨1#32, 0x00010001#32, 0#16⟩, []) ∧
      (chunks 17 (0#16 : Half).toNat []).map entryOf = ([] : List RangeRec).map some ∧
      (chunks 18 (0#16 : Half).toNat []).map deltaOpOf = ([] : List DeltaOp).map some ∧
      (let t : State := { s with upsets := [⟨.buffer 2, .stuckDouble⟩] }
       t.upsets = [⟨.buffer 2, .stuckDouble⟩] ∧ fatal .stuckDouble = true ∧ 8 * 2 < rangeBuffer.length) :=
  ⟨by decide, by decide, ⟨ofRecords_nil.symm, ofRecords_nil.symm⟩, by decide, by decide, by decide, by decide, rfl, rfl,
    by decide⟩

/-- A word of the range count is a word that every entry and every operation needs. -/
theorem witness_RangeApplyChangesTheTable_bank_word (o : Nat) (h : o ∈ Config.itemWords .rangeCount) (t new : RangeRegion)
    (op : DeltaOp) :
    inItems .bankB (entryItems t new) (.bank .bankB .ranges o) = true ∧
      inItems .bankB (opItems t op) (.bank .bankB .ranges o) = true := by
  simp [inItems, entryItems, opItems, itemRegion, h]

/-! ### Witnesses: carousel and links -/

theorem witness_CarouselCommandsSetStateAndSettings :
    State.reset.portReady ∧ State.reset.carousel.state ≠ .running ∧
      (let s : State := { State.reset with carousel := { Carousel.reset with state := .running } }
       s.portReady ∧ s.carousel.state = .running ∧ ∀ k, (s.link k).phase ≠ .inCycle) := by decide

/-- Link 0 about to start a cycle. -/
def starting (s : State) : State :=
  onLink 0 (fun l => { l with state := .enabled, phase := .gap }) { s with carousel := { Carousel.reset with state := .running } }

theorem witness_CycleStartFixesTheContext :
    let s := starting (waiting .onReady .waiting)
    s.inReset = false ∧ rolesLaw s ∧ s.upsets = [] ∧ (s.link 0).state = .enabled ∧ (s.link 0).phase = .gap ∧
      s.carousel.state = .running ∧ (s.recOf .bankB).state = .pending ∧ (s.recOf .bankA).state = .inForce ∧
      (s.recOf .bankB).marks = ⟨none, none, none⟩ := by decide

/-- A word of the dimensions that a start reads first: of the PENDING bank, whose validator holds nothing, or of the bank in
force with none PENDING. -/
theorem witness_CycleStartFixesTheContext_unreadable (o : Nat) (h : o ∈ Config.itemWords .dims) (b : BankId) :
    let s : State :=
      { starting (match b with | .bankA => running | .bankB => waiting .onReady .waiting) with
        upsets := [⟨.bank b .header o, .double⟩] }
    s.inReset = false ∧ rolesLaw s ∧ errorsLaw s ∧ (s.link 0).state = .enabled ∧ (s.link 0).phase = .gap ∧
      s.carousel.state = .running ∧ (chooseCycle 0 s).content = some b ∧ (chooseCycle 0 s).composition = .full ∧
      hitsIn b (.dims :: (List.range 256).map Item.dirEntry) s.upsets = [] ++ ⟨.bank b .header o, .double⟩ :: [] ∧
      fatal .double = true := by
  refine ⟨by cases b <;> rfl, ?_, List.pairwise_singleton _ _, by cases b <;> rfl, by cases b <;> rfl, by cases b <;> rfl, ?_, ?_,
    ?_, rfl⟩
  · cases b
    · show rolesLaw running; decide
    · show rolesLaw (waiting .onReady .waiting); decide
  · cases b <;> rfl
  · cases b <;> rfl
  · have first : inItems b [.dims] (.bank b .header o) = true := by simp [inItems, itemRegion, h]
    simp [hitsIn, first]

theorem witness_RefillServesOneLink :
    let s := onLink 3 (fun l => { l with state := .enabled, phase := .inCycle, ctx := { l.ctx with todo := [.head] } }) State.reset
    s.inReset = false ∧ (s.link 3).state = .enabled ∧ (s.link 3).phase = .inCycle ∧
      (s.link 3).txFill ≤ (s.link 3).threshold ∧ (s.link 3).ctx.todo ≠ [] ∧ s.upsets = [] ∧
      ((s.link 3).beginFrame none).ctx.wip ≠ none ∧ (s.link 3).ctx.wip = none ∧
      (let t := sending (.carousel .shelf) [⟨.shelf, [1#8, 2#8], false⟩]
       t.inReset = false ∧ (t.link 0).state = .enabled ∧ (t.link 0).tx = .carousel .shelf ∧
        (t.link 0).txFifo = [⟨.shelf, [1#8, 2#8], false⟩]) := by decide

/-- A frame in progress whose next item holds an unreadable word. -/
theorem witness_RefillServesOneLink_unreadable (o : Nat) (h : o ∈ Config.itemWords (.record 0)) :
    let w : Wip := ⟨.shelf, [.item (.record 0), .crc], 0#16, 5, false, false⟩
    let s : State :=
      { onLink 3 (fun l =>
          { l with state := .enabled, phase := .inCycle, ctx := { l.ctx with content := some .bankA, wip := some w } }) running with
        upsets := [⟨.bank .bankA .ranges o, .double⟩] }
    (s.link 3).ctx.wip = some w ∧ (s.link 3).ctx.content = some .bankA ∧ (s.link 3).discard = 0 ∧ (s.link 3).txFill < 1024 ∧
      inItems .bankA [.record 0] (.bank .bankA .ranges o) = true ∧ (s.recOf .bankA).state = .inForce := by
  refine ⟨rfl, rfl, rfl, show (0 : Nat) < 1024 by decide, ?_, rfl⟩
  simp [inItems, itemRegion, h]

theorem witness_LinkConfigAndEnableSetTheLink :
    State.reset.portReady ∧ 7 < (8#8).toNat ∧ (7#8 : Byte) = BitVec.ofNat 8 (7 : LinkId).val ∧
      (State.reset.link 7).state = .disabled ∧ ((sending .gap []).link 0).state = .enabled := by decide

theorem witness_LinkDisableResetsTheLink :
    (sending .gap []).portReady ∧ ((sending .gap []).link 0).state ≠ .testing ∧ ((sending .gap []).link 0).ctx.content = none ∧
      (let s := onLink 0 (fun l => { l with state := .enabled, ctx := { l.ctx with content := some .bankB } })
        (running.setRec .bankB { BankRecord.reset with state := .draining, readers := 2 })
       s.portReady ∧ (s.link 0).ctx.content = some .bankB ∧ (s.recOf .bankB).state = .draining ∧
        1 < (s.recOf .bankB).readers) ∧
      (let s := onLink 0 (fun l => { l with state := .enabled, ctx := { l.ctx with content := some .bankB } })
        (running.setRec .bankB { BankRecord.reset with state := .draining, readers := 1, openOption := some .empty })
       s.portReady ∧ (s.link 0).state ≠ .testing ∧ (s.link 0).ctx.content = some .bankB ∧ (s.recOf .bankB).readers ≤ 1) := by
  decide

/-- All-ready rises when the only member that is not READY leaves, while Cutover Control waits for readiness. -/
theorem witness_ReadinessFollows :
    let u := waiting .onReady .waiting
    u.rises ∧ u.awaitsReady ∧ (u.cutover.inhibit = true → u.cutover.grace = 0) ∧ rolesLaw u ∧
      ¬State.reset.rises := by decide

theorem witness_TransmitBoundaryTakesTheFirst :
    (sending .gap [⟨.shelf, [1#8], true⟩]).inReset = false ∧ ((sending .gap []).link 0).tx = .gap ∧
      ((sending .gap [⟨.shelf, [1#8], true⟩]).link 0).txFifo = [⟨.shelf, [1#8], true⟩] ∧
      ((sending .gap []).link 0).discard = 0 ∧ ((sending .idle []).link 0).tx = .idle ∧
      ((sending .idle []).link 0).state = .enabled := by decide

theorem witness_FrameTransmittedCountsTheFrame :
    let s := sending (.carousel .cycleEnd) [⟨.cycleEnd, [], true⟩]
    s.inReset = false ∧ (s.link 0).state = .enabled ∧ (s.link 0).tx = .carousel .cycleEnd ∧
      (s.link 0).txFifo = [⟨.cycleEnd, [], true⟩] ∧ ((sending (.answer [1#8]) []).link 0).tx = .answer [1#8] ∧
      ((sending (.notice [1#8]) []).link 0).tx = .notice [1#8] := by decide

theorem witness_UnderrunAbortsTheFrame :
    let s := sending (.carousel .shelf) [⟨.shelf, [], false⟩]
    s.inReset = false ∧ (s.link 0).state = .enabled ∧ (s.link 0).tx = .carousel .shelf ∧
      (s.link 0).txFifo = [⟨.shelf, [], false⟩] := by decide

theorem witness_FrameReceivedIsJudged :
    let s := sending .gap []
    s.inReset = false ∧ (s.link 0).state = .enabled ∧ (s.link 0).rxFifo = [] ∧ (s.link 0).slots < 4 ∧
      queryOf 0x43#8 5#16 [0#8, 10#8] = some ⟨5#16, .productInfo 10#16⟩ ∧
      ((linkFrame 0x43#8 [0#8, 5#8, 0#8, 10#8]).drop 3).take 4 = [0#8, 5#8, 0#8, 10#8] ∧
      (linkFrame 0x43#8 [0#8, 5#8, 0#8, 10#8]).length = 9 ∧
      (linkFrame 0x40#8 (List.replicate 19 0#8)).length = 24 ∧ (receiving.link 4).rxFrame = [0x43#8, 0#8] ∧
      s.lookups.service = none ∧ QueryKind.productInfo.code = 0x43#8 ∧
      (let full := onLink 0 (fun l => { l with slots := 4, tx := .idle }) s
       4 ≤ (full.link 0).slots ∧ (full.link 0).tx = .idle) ∧
      (let behind := onLink 0 (fun l => { l with rxFifo := [⟨.report, List.replicate 19 0#8⟩] }) s
       (behind.link 0).rxFifo = [⟨.report, List.replicate 19 0#8⟩]) ∧
      (let head := onLink 0 (fun l => { l with rxFifo := [⟨.query .productInfo, [0#8, 5#8, 0#8, 10#8]⟩] }) s
       (head.link 0).rxFifo = [⟨.query .productInfo, [0#8, 5#8, 0#8, 10#8]⟩]) := by decide +kernel

theorem witness_LoopbackRunReportsItsResult :
    State.reset.portReady ∧ (State.reset.link 2).state = .disabled ∧
      (let r : TestRun := ⟨.internal, 1, 0, true, 4⟩
       let s := onLink 2 (fun l => { l with state := .testing, run := some r }) State.reset
       s.inReset = false ∧ (s.link 2).state = .testing ∧ (s.link 2).run = some r ∧ r.sent = true ∧ r.frame + 1 = r.count) ∧
      (let r : TestRun := ⟨.external, 2, 0, true, 4⟩
       r.mode = .external ∧ r.frame + 1 ≠ r.count ∧ ([] : List Byte)[0]? ≠ (testFrame 0)[0]?) := by
  decide +kernel

/-! ### Witnesses: the Validator Table, Cutover Control, the Lookup Engine, events -/

theorem witness_ValidatorCommandsSetTheTable :
    State.reset.portReady ∧
      Instr.validatorExclude 1#16 (BitVec.ofNat 8 (7 : LinkId).val) = .validatorExclude 1#16 7#8 ∧
      (let s := State.reset.setEntry 3 { Entry.reset with presence := .active, interval := 100 }
       (s.entry 3).presence = .active ∧ max 100 (0#16 : Half).toNat ≤ (s.entry 3).interval) := by decide

theorem witness_ReportsAndSilenceUpdateTheEntry :
    let body := be32 7#32 ++ be16 1#16 ++ be32 0#32 ++ be16 2#16 ++ [1#8] ++ be32 0#32 ++ be16 300#16
    let s := (onLink 0 (fun l => { l with state := .enabled, rxFifo := [⟨.report, body⟩] }) (waiting .onReady .waiting)).setEntry
      0 { Entry.reset with presence := .active, validatorId := some 6#32, interval := 5000 }
    s.inReset = false ∧ s.activation = some .onReady ∧ (s.link 0).rxFifo = [⟨.report, body⟩] ∧
      (s.entry 0).presence = .active ∧ (s.entry 0).validatorId = some 6#32 ∧ (6#32 : Word32) ≠ 7#32 ∧
      s.table.silenceLimit ≤ (s.entry 0).interval := by decide

theorem witness_ClockEventsAndTheAtTrigger :
    let s : State := { waiting (.atTime 5#16 0#16) .waiting with clock := ⟨true, 4#16, 1439#16, 59999⟩ }
    s.portReady ∧ s.inReset = false ∧ rolesLaw s ∧ (s.recOf .bankB).state = .pending ∧
      s.activation = some (.atTime 5#16 0#16) ∧ s.cutover.inhibit = false ∧ 1439 < (1440#16).toNat ∧
      s.clock.valid = true ∧ ¬(s.clock.day = 65535#16 ∧ s.clock.minute = 1439#16) ∧ 59999 ≤ s.clock.ms := by decide

theorem witness_TimersAndInhibitDecideTheCutover :
    (let s : State := { waiting .onReady .waiting with cutover := { Cutover.reset with state := .waiting, waitTimer := 1800000 } }
     s.inReset = false ∧ rolesLaw s ∧ cutoverLaw s ∧ (s.recOf .bankB).state = .pending ∧ s.portReady ∧
      s.cutover.state = .waiting ∧ s.activation = some .onReady ∧ s.cutover.inhibit = false ∧
      s.cutover.waitLimit * 60000 ≤ s.cutover.waitTimer) ∧
    (let s : State := { waiting .onReady .deferred with cutover := { Cutover.reset with state := .deferred, graceTimer := 120000 } }
     rolesLaw s ∧ cutoverLaw s ∧ s.cutover.state = .deferred ∧ (s.recOf .bankB).state = .pending ∧
      s.cutover.grace * 1000 ≤ s.cutover.graceTimer) := by decide

theorem witness_CutoverNowPerformsTheCutover :
    (waiting .onReady .waiting).portReady ∧ rolesLaw (waiting .onReady .waiting) ∧ 1 < (2#8).toNat ∧
      ((waiting .onReady .waiting).recOf .bankB).state = .pending ∧ (waiting .onReady .deferred).cutover.state = .deferred ∧
      State.reset.cutover.state = .idle := by decide

theorem witness_QueryTakesTheSlot :
    running.portReady ∧ queryOf 0x44#8 1#16 [] = none ∧ queryOf 0x43#8 1#16 [0#8, 10#8] = some ⟨1#16, .productInfo 10#16⟩ ∧
      running.lookups.slot = .free ∧ running.lookups.service = none ∧ (∀ k, running.lookups.queues.get k = []) ∧
      running.inForce = some .bankA := by decide

theorem witness_LookupCompleteAnswersAndTakesTheNext :
    let v : Service := ⟨.gateway, ⟨1#16, .productInfo 10#16⟩, some .bankA, none, false⟩
    let s : State := { running with lookups := { Lookups.reset with service := some v, slot := .inService } }
    s.inReset = false ∧ s.lookups.service = some v ∧ v.bank = some .bankA ∧ s.upsets = [] ∧
      (s.recOf .bankA).state ≠ .draining ∧ s.lookups.oldest .gateway = none ∧ (∀ k, s.lookups.oldest (.link k) = none) ∧
      takeOrder.service = none ∧ takeOrder.next.map (·.1) = some (.link 6) ∧
      (let d := running.setRec .bankB { BankRecord.reset with state := .draining, readers := 1, openOption := some .fromInForce }
       let w : Service := { v with bank := some .bankB }
       let t : State := { d with lookups := { Lookups.reset with service := some w, slot := .inService } }
       t.inReset = false ∧ t.lookups.service = some w ∧ (t.recOf .bankB).state = .draining ∧ (t.recOf .bankB).readers ≤ 1 ∧
        t.upsets = []) := by
  decide

/-- A word of the dimensions is the first that a product lookup reads. -/
theorem witness_LookupCompleteAnswersAndTakesTheNext_unreadable (o : Nat) (h : o ∈ Config.itemWords .dims) :
    inItems .bankA [.dims] (.bank .bankA .header o) = true := by simp [inItems, itemRegion, h]

theorem witness_SearchesFindWhatTheirRulesAsk :
    let s := State.reset.setBank .bankA (tableBank .inForce)
    s.upsets = [] ∧ canonical (s.bank .bankA).ranges.records ∧
      (s.bank .bankA).ranges = RangeRegion.ofRecords (s.bank .bankA).ranges.records ∧
      (s.bank .bankA).tariff.products.Pairwise (fun p q => p.code < q.code) ∧
      (s.bank .bankA).tariff.productCount = (s.bank .bankA).tariff.products.length :=
  ⟨rfl, by decide, rfl, by decide, by decide⟩

theorem witness_EventAndScrubCommandsSetTheUnit :
    State.reset.portReady ∧ 2 ^ 19 ≤ (0x80000#24).toNat ∧ (0x7FFFF#24).toNat < 2 ^ 19 ∧ State.reset.scrub.mode = .resting ∧
      State.reset.scrub.timer < (1#8).toNat * 1000 := by decide

theorem witness_ScrubberReadsItsPass :
    State.reset.inReset = false ∧ errorsLaw State.reset ∧ State.reset.scrub.mode = .resting ∧
      (let s : State := { State.reset with scrub := { Scrub.reset with mode := .walking .bankA .header 0 } }
       s.scrub.mode = .walking .bankA .header 0 ∧ (copyOn s).scrubWord = none) ∧
      (let s : State := { State.reset with scrub := { Scrub.reset with timer := 10000 } }
       s.scrub.mode = .resting ∧ s.scrub.period * 1000 ≤ s.scrub.timer) := by decide

/-- Bank B in this state, its header word 0 with two bits in error, and a scrubber about to read that region. -/
def scrubbing (t : BankState) : State :=
  { running.setRec .bankB { BankRecord.reset with state := t, seq := 2#16, tariffPresent := true } with
    scrub := { Scrub.reset with mode := .walking .bankB .header 0 }
    upsets := [⟨.bank .bankB .header 0, .double⟩] }

/-- The next word of the pass is that word when the header has a word 0 and no other, whatever strikes by then. -/
theorem scrubbing_word (h : Config.itemWords .dims = [0]) (t : BankState)
    (ht : t = .pending ∨ t = .closing ∨ t = .stale) (us : List Upset) :
    ({ scrubbing t with upsets := us } : State).scrubWord = some (.bankB, .header, 0) := by
  have words : scrubExtent .bankB .header { scrubbing t with upsets := us } = [0] := by
    show scrubExtent .bankB .header (scrubbing t) = [0]
    rcases ht with rfl | rfl | rfl <;>
    · rw [scrubExtent, if_neg (by decide), if_neg (by decide)]
      show [Item.dims].flatMap Config.itemWords = [0]
      simp [h]
  show scrubNext { scrubbing t with upsets := us } ((.bankB, .header) :: [(.bankB, .tariff), (.bankB, .ranges)]) 0 = _
  rw [scrubNext, words]
  rfl

theorem witness_ScrubberReadsItsPass_word (h : Config.itemWords .dims = [0]) :
    (∀ t, t = .pending ∨ t = .closing ∨ t = .stale →
      copyOn (scrubbing t) = scrubbing t ∧ (scrubbing t).scrubWord = some (.bankB, .header, 0) ∧
        (scrubbing t).upsetAt (.bank .bankB .header 0) = some .double ∧ ((scrubbing t).recOf .bankB).state = t ∧
        rolesLaw (scrubbing t) ∧ errorsLaw (scrubbing t)) ∧
    -- an error that strikes during the pass, in a word that the pass then reads
    (let v : State := { scrubbing .stale with upsets := strike ⟨.bank .bankB .header 0, .single⟩ [] }
     v.scrubWord = some (.bankB, .header, 0) ∧ v.upsetAt (.bank .bankB .header 0) = some .single) :=
  ⟨fun t ht => ⟨by rcases ht with rfl | rfl | rfl <;> rfl, scrubbing_word h t ht _, by rcases ht with rfl | rfl | rfl <;> decide,
    rfl, by rcases ht with rfl | rfl | rfl <;> decide, by rcases ht with rfl | rfl | rfl <;> decide⟩,
    scrubbing_word h .stale (by decide) _, by decide⟩

/-- The same with the bank in force, and with no copy from it. -/
theorem witness_ScrubberReadsItsPass_inForce (h : Config.itemWords .dims = [0]) :
    let s : State :=
      { running.setRec .bankA { BankRecord.reset with state := .inForce, seq := 1#16, tariffPresent := true } with
        scrub := { Scrub.reset with mode := .walking .bankA .header 0 }
        upsets := [⟨.bank .bankA .header 0, .double⟩] }
    s.inReset = false ∧ rolesLaw s ∧ errorsLaw s ∧ copyOn s = s ∧ (s.recOf .bankA).state = .inForce ∧
      s.upsetAt (.bank .bankA .header 0) = some .double ∧ s.scrubWord = some (.bankA, .header, 0) := by
  intro s
  refine ⟨rfl, by decide, by decide, rfl, rfl, by decide, ?_⟩
  have words : scrubExtent .bankA .header s = [0] := by
    rw [scrubExtent, if_neg (by decide), if_neg (by decide)]
    show [Item.dims].flatMap Config.itemWords = [0]
    simp [h]
  show scrubNext s ((.bankA, .header) :: _) 0 = _
  rw [scrubNext, words]
  rfl

/-! ### Witnesses: laws that every step keeps. The reset state meets them all (`ResetMeetsTheLaws`). -/

theorem witness_StepKeepsBankRoles :
    rolesLaw (waiting .onReady .waiting) ∧ sequenceLaw (waiting .onReady .waiting) ∧ cutoverLaw (waiting .onReady .waiting) ∧
      quietLaw (waiting .onReady .waiting) ∧ ∃ t, step (waiting .onReady .waiting) = .next t :=
  ⟨by decide, by decide, by decide, fun b => by cases b <;> decide, ⟨_, rfl⟩⟩

theorem witness_StepKeepsReaderCounts :
    readersLaw State.reset ∧ (∀ k, (State.reset.link k).contextLaw) ∧ quietLaw State.reset ∧ settingsLaw State.reset ∧
      ∃ t, step State.reset = .next t :=
  ⟨by decide, by decide, fun b => by cases b <;> decide, by decide, ⟨_, rfl⟩⟩

theorem witness_StepKeepsTablesAndRanges :
    directoryLaw State.reset ∧ errorsLaw State.reset ∧ clockLaw State.reset ∧ flagsLaw State.reset ∧
      settingsLaw State.reset ∧ fifoLaw State.reset ∧ ∃ t, step State.reset = .next t :=
  ⟨⟨ofRecords_nil.symm, ofRecords_nil.symm⟩, by decide, by decide, by decide, by decide, by decide, ⟨_, rfl⟩⟩

theorem witness_StepKeepsReadiness :
    rolesLaw State.reset ∧ allReadyLaw State.reset ∧ readyLaw State.reset ∧ ∃ t, step State.reset = .next t :=
  ⟨by decide, by decide, fun k h => by revert h; revert k; decide, ⟨_, rfl⟩⟩

/-- A base part with one entry in its apply phase, its checks passed. -/
theorem witness_StepKeepsTablesCanonical :
    let entry : List Byte := be56 5#56 ++ be56 9#56 ++ [0#8, 0#8, 0#8]
    let buffer : List Byte := List.replicate 8 0#8 ++ [0#8, 0#8, 0#8, 1#8, 0#8, 1#8, 0#8, 1#8, 0#8, 1#8] ++ entry
    let s : State :=
      { beside .building with
        loader := ⟨.applying 1#16 .blockBase 35 .apply, PackageResult.reset, buffer⟩
        pending := [.applyPhaseEnd] }
    rolesLaw s ∧ tablesLaw s ∧ checkBase (s.bank .bankB) s.loader.buffer = none ∧ (s.recOf .bankB).state = .building ∧
      (s.recOf .bankA).state ≠ .building ∧ ∃ t, step s = .next t :=
  ⟨by decide, fun b => by cases b <;> decide, by decide +kernel, by decide, by decide, ⟨_, rfl⟩⟩

theorem witness_StepKeepsQueriesAndPort :
    slotsLaw State.reset ∧ turnLaw State.reset ∧ gatewaySlotLaw State.reset ∧ portLaw State.reset ∧
      ∃ t, step State.reset = .next t :=
  ⟨by decide, fun _ r => by cases r <;> first | rfl | (rename_i k; revert k; decide), by decide, by decide, ⟨_, rfl⟩⟩

end Sys2Proof.Tests
end

section
/-!
PROOFS. What the laws of the bank roles and of the reader counts see of a state, and what keeps such a law: a `Lasting`
predicate survives every part from which the commands are built, so that it survives every command (R3, R4, R13, R156).
-/

namespace Sys2Proof.Machine

/-! ### What the laws see -/

/-- What the laws of the roles, the numbers and the readers see of a bank record (R1, R3, R4, R13). -/
structure Standing where
  state : BankState
  seq : Half
  readers : Nat

def BankRecord.standing (r : BankRecord) : Standing := ⟨r.state, r.seq, r.readers⟩

def State.standing (s : State) (b : BankId) : Standing := (s.recOf b).standing

/-- A link stands in its cycle as `Link.contextLaw` says, and its threshold leaves room in the transmit FIFO (R106, R113). -/
def Link.placed (l : Link) : Prop := l.contextLaw ∧ l.threshold ≤ 960

/-- The readers that a bank has by R4: the cycle contexts that name it, and the Lookup Engine while it serves from it. -/
def State.uses (s : State) (b : BankId) : Nat := s.contextsOf b + s.lookupsOf b

theorem standing_congr {s t : State} (h : t.banks = s.banks) : t.standing = s.standing := by
  funext b
  simp only [State.standing, State.recOf, State.bank, h]

theorem standing_setBank (b : BankId) (x : Bank) (s : State) :
    (s.setBank b x).standing = Function.update s.standing b x.record.standing := by
  funext c
  cases b <;> cases c <;> rfl

theorem standing_setRec (b : BankId) (r : BankRecord) (s : State) :
    (s.setRec b r).standing = Function.update s.standing b r.standing := standing_setBank b _ s

/-- A record replaced by one of the same standing. -/
theorem standing_setBank_same {b : BankId} {x : Bank} {s : State} (h : x.record.standing = s.standing b) :
    (s.setBank b x).standing = s.standing := by
  rw [standing_setBank, h, Function.update_eq_self]

theorem standing_setRec_same {b : BankId} {r : BankRecord} {s : State} (h : r.standing = s.standing b) :
    (s.setRec b r).standing = s.standing := standing_setBank_same h

theorem uses_congr {s t : State} (hl : t.links = s.links) (hs : t.lookups.service = s.lookups.service) (b : BankId) :
    t.uses b = s.uses b := by
  simp only [State.uses, State.contextsOf, State.lookupsOf, hl, hs]

/-- The contexts that name a bank after one link has been replaced. -/
theorem contextsOf_setLink (k : LinkId) (l : Link) (s : State) (b : BankId) :
    (s.setLink k l).contextsOf b + (if (s.link k).ctx.content = some b then 1 else 0) =
      s.contextsOf b + (if l.ctx.content = some b then 1 else 0) := by
  obtain ⟨n, hn⟩ : ∃ n : Link → Nat, ∀ x : Link, (if x.ctx.content = some b then 1 else 0) = n x := ⟨_, fun _ => rfl⟩
  have count : ∀ (x : Link) (xs : List Link),
      ((x :: xs).filter fun l => decide (l.ctx.content = some b)).length =
        n x + (xs.filter fun l => decide (l.ctx.content = some b)).length := by
    intro x xs
    rw [← hn]
    by_cases hx : x.ctx.content = some b <;> simp [hx, Nat.add_comm]
  rw [hn, hn]
  unfold State.contextsOf State.setLink State.link
  match k with
  | 0 | 1 | 2 | 3 | 4 | 5 | 6 | 7 =>
    simp only [PerLink.set, PerLink.get, PerLink.toList, count, List.filter_nil, List.length_nil]
    omega

theorem toList_eq_map {α : Type} (p : PerLink α) : p.toList = allLinks.map p.get := rfl

/-- The same contexts name a bank when every link names the bank it named before. -/
theorem contextsOf_congr {s t : State} (h : ∀ k, (t.link k).ctx.content = (s.link k).ctx.content) (b : BankId) :
    t.contextsOf b = s.contextsOf b := by
  have hp : ((fun l : Link => decide (l.ctx.content = some b)) ∘ t.links.get) =
      ((fun l : Link => decide (l.ctx.content = some b)) ∘ s.links.get) :=
    funext fun k => congrArg (fun x => decide (x = some b)) (h k)
  simp only [State.contextsOf, toList_eq_map, List.filter_map, List.length_map, hp]

theorem lookupsOf_eq (s : State) (b : BankId) :
    s.lookupsOf b = if s.lookups.service.bind Service.bank = some b then 1 else 0 := by
  unfold State.lookupsOf
  cases s.lookups.service <;> simp

/-! ### States that the laws see alike -/

/-- Every link stands in its cycle as it should. -/
def State.placed (s : State) : Prop := ∀ k, (s.link k).placed

/-- From `s` to `t` nothing changes that the laws of the roles and of the readers see, but that links keep where they stand
in their cycle. -/
structure Alike (s t : State) : Prop where
  banks : t.standing = s.standing
  control : t.cutover.state = s.cutover.state
  links : s.placed → t.placed ∧ ∀ b, t.uses b = s.uses b

/-- Changes outside the bank records' standing, the links, the lookup in service and the state of Cutover Control. -/
theorem placed_uses_congr {s t : State} (hl : t.links = s.links) (hs : t.lookups.service = s.lookups.service)
    (h : s.placed) : t.placed ∧ ∀ b, t.uses b = s.uses b :=
  ⟨fun k => by simpa only [State.link, hl] using h k, uses_congr hl hs⟩

theorem alike_of {s t : State} (hb : t.standing = s.standing) (hc : t.cutover.state = s.cutover.state)
    (hl : t.links = s.links) (hs : t.lookups.service = s.lookups.service) : Alike s t :=
  ⟨hb, hc, placed_uses_congr hl hs⟩

/-- Links that name the bank they named. -/
theorem alike_of_links {s t : State} (hb : t.standing = s.standing) (hc : t.cutover.state = s.cutover.state)
    (hs : t.lookups.service.bind Service.bank = s.lookups.service.bind Service.bank)
    (hl : ∀ k, (s.link k).placed → (t.link k).ctx.content = (s.link k).ctx.content ∧ (t.link k).placed) : Alike s t :=
  ⟨hb, hc, fun h => ⟨fun k => (hl k (h k)).2, fun b => by
    simp only [State.uses, contextsOf_congr (fun k => (hl k (h k)).1), lookupsOf_eq, hs]⟩⟩

theorem placed_setLink {k : LinkId} {l : Link} {s : State} (hl : (s.link k).placed → l.placed) (h : s.placed) :
    (s.setLink k l).placed := fun j => by
  rw [State.link_setLink]
  split
  · next e => subst e; exact hl (h j)
  · exact h j

theorem alike_setLink {k : LinkId} {l : Link} {s : State}
    (hl : (s.link k).placed → l.ctx.content = (s.link k).ctx.content ∧ l.placed) : Alike s (s.setLink k l) := by
  refine alike_of_links rfl rfl rfl fun j hj => ?_
  rw [State.link_setLink]
  split
  · next h => subst h; exact hl hj
  · exact ⟨rfl, hj⟩

/-! ### What can happen to the banks -/

/-- The moves of a bank through its life cycle, with what Cutover Control does at each (R3, R5 to R8, R10, R14, R15, R19 to
R21, R156, R160): from the standings `σ` and the state `c` of Cutover Control to others. -/
inductive BankMove (σ : BankId → Standing) (c : CutState) : (BankId → Standing) → CutState → Prop
  /-- OPEN_BUILD with readers left. -/
  | drains (b : BankId) (free : ∀ x, (σ x).state.buildSide = false)
      (target : (σ b).state = .inForce → (σ (other b)).state = .inForce) (readers : 0 < (σ b).readers) :
      BankMove σ c (Function.update σ b { σ b with state := .draining }) c
  /-- A build begins, at OPEN_BUILD or at the end of a drain. -/
  | begins (b : BankId) (x : BankState) (built : x = .copying ∨ x = .building)
      (target : ((∀ y, (σ y).state.buildSide = false) ∧ ((σ b).state = .inForce → (σ (other b)).state = .inForce)) ∨
        (σ b).state = .draining)
      (readers : (σ b).readers = 0) :
      BankMove σ c (Function.update σ b ⟨x, 0#16, 0⟩) c
  /-- A build is dropped, or fails. -/
  | empties (b : BankId)
      (from' : ((σ b).state = .draining ∧ (σ b).readers = 0) ∨ (σ b).state = .copying ∨ (σ b).state = .building ∨
        (σ b).state = .closing) :
      BankMove σ c (Function.update σ b ⟨.empty, 0#16, 0⟩) c
  /-- DISCARD_BUILD of a bank that drains. -/
  | undrains (b : BankId) (from' : (σ b).state = .draining) :
      BankMove σ c (Function.update σ b { σ b with state := .stale }) c
  /-- A copy completes, CLOSE_BUILD is taken, or a closing run fails. -/
  | works (b : BankId) (x : BankState) (seq : Half)
      (from' : (σ b).state = .copying ∨ (σ b).state = .building ∨ (σ b).state = .closing)
      (to' : x = .building ∨ x = .closing) :
      BankMove σ c (Function.update σ b ⟨x, seq, (σ b).readers⟩) c
  /-- A closing run completes. -/
  | closes (b : BankId) (seq : Half) (from' : (σ b).state = .closing) (number : seq ≠ 0#16)
      (other : ∀ x, (σ x).state = .inForce → seq ≠ (σ x).seq) :
      BankMove σ c (Function.update σ b ⟨.pending, seq, (σ b).readers⟩) .waiting
  /-- The pending bank is withdrawn. -/
  | withdraws (b : BankId) (from' : (σ b).state = .pending) :
      BankMove σ c (Function.update σ b { σ b with state := .stale }) .idle
  /-- The pending bank comes into force. -/
  | promotes (p : BankId) (from' : (σ p).state = .pending) :
      BankMove σ c
        (Function.update (fun x => if (σ x).state = .inForce then { σ x with state := .stale } else σ x) p
          { σ p with state := .inForce }) .idle
  /-- INHIBIT defers a cutover. -/
  | defers (waits : c = .waiting) : BankMove σ c σ .deferred

/-- A predicate that every part of a command keeps. -/
structure Lasting (P : State → Prop) : Prop where
  alike : ∀ {s t}, P s → Alike s t → P t
  moved : ∀ {s t}, P s → BankMove s.standing s.cutover.state t.standing t.cutover.state →
    (s.placed → t.placed ∧ ∀ b, t.uses b = s.uses b) → P t
  released : ∀ {s t} (b : BankId), P s →
    t.standing = Function.update s.standing b { s.standing b with readers := (s.standing b).readers - 1 } →
    t.cutover.state = s.cutover.state →
    (s.placed → t.placed ∧ ∀ c, t.uses c + (if c = b then 1 else 0) = s.uses c) → P t
  gained : ∀ {s t} (b : BankId), P s → (s.standing b).state = .inForce ∨ (s.standing b).state = .pending →
    t.standing = Function.update s.standing b { s.standing b with readers := (s.standing b).readers + 1 } →
    t.cutover.state = s.cutover.state →
    (s.placed → t.placed ∧ ∀ c, t.uses c = s.uses c + (if c = b then 1 else 0)) → P t
  reset : ∀ {t}, t.standing = (fun _ => ⟨.empty, 0#16, 0⟩) → t.cutover.state = .idle → t.links = PerLink.all Link.reset →
    t.lookups.service = none → P t

end Sys2Proof.Machine
end

section
/-!
PROOFS. A `Lasting` predicate survives the shared operations: drains and releases, cuts, marks, reads, copies, cutovers and
withdrawals, closing runs that fail.
-/

namespace Sys2Proof.Machine

/-! ### Standings after the bank operations -/

theorem standing_beginBuild (b : BankId) (o : BuildOption) (s : State) :
    ∃ x, (x = .copying ∨ x = .building) ∧
      (beginBuild b o s).standing = Function.update s.standing b ⟨x, 0#16, (s.standing b).readers⟩ := by
  cases o with
  | empty => exact ⟨.building, .inr rfl, by funext c; cases b <;> cases c <;> rfl⟩
  | fromInForce => exact ⟨.copying, .inl rfl, by funext c; cases b <;> cases c <;> rfl⟩

theorem standing_emptyBank (b : BankId) (s : State) :
    (emptyBank b s).standing = Function.update s.standing b ⟨.empty, 0#16, 0⟩ := standing_setRec b _ s

theorem readers_closeWorkAt (pt : ClosePoint) (day : Option Half) (f : Option BankRecord) (b : Bank) :
    (closeWorkAt pt day f b).bank.record.readers = b.record.readers := by
  have prune : ∀ n, (prunePart day n b).bank.record.readers = b.record.readers := fun n => by
    unfold prunePart; split <;> rfl
  have expand : (expandStep (pruneStep day b)).bank.record.readers = b.record.readers := by
    unfold expandStep; split <;> exact prune _
  have compare : (compareStep f (checksumStep (expandStep (pruneStep day b)))).bank.record.readers = b.record.readers := by
    unfold compareStep
    dsimp only
    repeat' split
    all_goals exact expand
  cases pt with
  | prune n => exact prune n
  | expand n => unfold closeWorkAt expandPart; dsimp only; split <;> exact prune _
  | checksum n => exact expand
  | checksummed => exact expand
  | compared => exact compare
  | sequenced => exact compare

/-! ### Where a link stands in its cycle -/

/-- A CYCLE_END composed at a frame boundary (R97, R101, R102). -/
theorem placed_ended {l : Link} {body : List Byte} {cut : Bool} {todo : List FrameSpec} (ht : todo = []) (h : l.placed)
    (hp : l.phase = .inCycle) (hw : l.ctx.wip = none)
    (he : (l.txFifo.filter fun f => decide (f.kind = .cycleEnd)).length = 0) :
    Link.placed { l with ctx := { l.ctx with cut := cut, content := none, todo := todo, ending := some body } } := by
  obtain ⟨⟨hoff, -, -, -, -, -⟩, hroom⟩ := h
  exact ⟨⟨hoff, fun h => absurd hp h, by simp [he], fun _ => ⟨hw, he⟩, by simp [hw], fun _ => ⟨rfl, ht⟩⟩, hroom⟩

/-- While a link has a content bank no CYCLE_END of its cycle is on its way. -/
theorem placed_content {l : Link} {b : BankId} (h : l.placed) (hc : l.ctx.content = some b) :
    l.phase = .inCycle ∧ (l.txFifo.filter fun f => decide (f.kind = .cycleEnd)).length = 0 := by
  obtain ⟨⟨-, hout, -, -, -, hlast⟩, -⟩ := h
  refine ⟨Classical.byContradiction fun hp => ?_, Nat.eq_zero_of_not_pos fun hp => ?_⟩
  · rw [(hout hp).1] at hc; cases hc
  · rw [(hlast (.inr (.inl hp))).1] at hc; cases hc

section
variable {P : State → Prop} (hP : Lasting P)
include hP

/-! ### Builds, readers and drains -/

/-- One bank has moved, and no link or lookup with it. -/
theorem Lasting.move_bank {b : BankId} {x : Standing} {c : CutState} {s t : State} (h : P s)
    (hm : BankMove s.standing s.cutover.state (Function.update s.standing b x) c)
    (hb : t.standing = Function.update s.standing b x) (hc : t.cutover.state = c) (hl : t.links = s.links)
    (hs : t.lookups.service = s.lookups.service) : P t := by
  refine hP.moved h ?_ (placed_uses_congr hl hs)
  rwa [hb, hc]

theorem Lasting.begin_build {b : BankId} {o : BuildOption} {s : State}
    (target : ((∀ y, (s.standing y).state.buildSide = false) ∧
        ((s.standing b).state = .inForce → (s.standing (other b)).state = .inForce)) ∨ (s.standing b).state = .draining)
    (readers : (s.standing b).readers = 0) (h : P s) : P (beginBuild b o s) := by
  obtain ⟨x, hx, he⟩ := standing_beginBuild b o s
  exact hP.move_bank h (.begins b x hx target readers) (by rw [he, readers]) (by simp) (by simp) (by simp)

theorem Lasting.empty_bank {b : BankId} {s : State}
    (from' : ((s.standing b).state = .draining ∧ (s.standing b).readers = 0) ∨ (s.standing b).state = .copying ∨
      (s.standing b).state = .building ∨ (s.standing b).state = .closing) (h : P s) : P (emptyBank b s) :=
  hP.move_bank h (.empties b from') (standing_emptyBank b s) rfl rfl rfl

theorem Lasting.raise {e : Event} {s : State} (h : P s) : P (State.raise e s) :=
  hP.alike h (alike_of rfl rfl rfl rfl)

theorem Lasting.drain_done {b : BankId} {s : State} (hd : (s.standing b).state = .draining)
    (hr : (s.standing b).readers = 0) (h : P s) : P (drainDone b s) := by
  unfold drainDone
  repeat' split
  · exact hP.raise (hP.empty_bank (.inl ⟨hd, hr⟩) h)
  all_goals exact hP.begin_build (.inr hd) hr h

/-- A reader that has gone from the contexts or from the Lookup Engine leaves its bank, whose drain may complete (R4, R7). -/
theorem Lasting.release {s t : State} {b : BankId} (h : P s) (hb : t.standing = s.standing)
    (hc : t.cutover.state = s.cutover.state) 
    (hu : s.placed → t.placed ∧ ∀ c, t.uses c + (if c = b then 1 else 0) = s.uses c) : P (releaseReader b t) := by
  have hs : (t.setRec b { t.recOf b with readers := (t.recOf b).readers - 1 }).standing =
      Function.update s.standing b { s.standing b with readers := (s.standing b).readers - 1 } := by
    rw [standing_setRec, ← hb]; rfl
  have h1 : P (t.setRec b { t.recOf b with readers := (t.recOf b).readers - 1 }) := hP.released b h hs hc hu
  unfold releaseReader
  dsimp only
  split
  · next hd => exact hP.drain_done hd.1 hd.2 h1
  · exact h1

/-- A link gives up its content bank (R4, R101, R102). -/
theorem Lasting.give_up {s : State} {k : LinkId} {b : BankId} {l : Link} (hb : (s.link k).ctx.content = some b)
    (hn : l.ctx.content = none) (hl : (s.link k).placed → l.placed) (h : P s) :
    P (releaseReader b (s.setLink k l)) := by
  refine hP.release h rfl rfl fun hp => ⟨placed_setLink hl hp, fun c => ?_⟩
  have := contextsOf_setLink k l s c
  rw [hb, hn] at this
  have hs : (s.setLink k l).lookupsOf c = s.lookupsOf c := rfl
  simp only [State.uses, hs, Option.some.injEq, reduceCtorEq, if_false, eq_comm (a := b)] at this ⊢
  omega

/-! ### Cuts -/

theorem Lasting.take_cut {k : LinkId} {s : State} (hw : (s.link k).ctx.wip = none) (h : P s) : P (takeCut k s) := by
  unfold takeCut
  dsimp only
  split
  · exact h
  · next b hb =>
    refine hP.give_up hb rfl (fun hl => ?_) h
    obtain ⟨hp, he⟩ := placed_content hl hb
    exact placed_ended rfl hl hp hw he

theorem Lasting.cut_cycles {b : BankId} {s : State} (h : P s) : P (cutCyclesOf b s) := by
  unfold cutCyclesOf
  refine foldl_invariant P _ (fun s k hs => ?_) _ _ h
  split
  · next hb => exact hP.take_cut ((atBoundaryOf_iff _ _).mp (by simpa [and_assoc] using hb)).2.2.1 hs
  · exact hs

/-! ### Readiness, cutovers and withdrawals -/

theorem Lasting.eval_ready {s : State} (h : P s) : P (evalReady s) :=
  hP.alike h (alike_of (standing_congr (by simp)) (by simp) (by simp) (by simp))

theorem Lasting.perform_cutover {cause : Option Cause} {cutEnd : CutEnd} {s : State} (h : P s) :
    P (performCutover cause cutEnd s) := by
  unfold performCutover
  split
  · exact h
  · next p hp =>
    have hp' := findBank_some hp
    dsimp only
    set t := State.raise .cutover _ with ht
    have hst : (promote p s).standing =
        Function.update (fun x => if (s.standing x).state = .inForce then { s.standing x with state := .stale } else s.standing x) p
          { s.standing p with state := .inForce } := by
      rw [promote_eq hp']
      by_cases ho : (s.recOf (other p)).state = .inForce
      · rw [if_pos ho]
        funext c
        cases p <;> cases c <;> simp_all [State.standing, BankRecord.standing, other, State.recOf_setRec, Function.update]
      · rw [if_neg ho]
        funext c
        cases p <;> cases c <;> simp_all [State.standing, BankRecord.standing, other, State.recOf_setRec, Function.update]
    have h4 : P t := by
      have hl : ∀ k, t.link k = { s.link k with interleave := 0, refresh := 0 } := fun k => by
        rw [ht]; simp [State.link, mapLinks]
      refine hP.moved h ?_ (fun hs => ⟨fun k => ?_, fun b => ?_⟩)
      · rw [show t.standing = (promote p s).standing from rfl, hst]
        exact .promotes p hp'
      · rw [hl]
        exact hs k
      · have hs : t.lookups.service = s.lookups.service := by simp [ht]
        have hc : ∀ k, (t.link k).ctx.content = (s.link k).ctx.content := fun k => by rw [hl]
        simp only [State.uses, contextsOf_congr hc, lookupsOf_eq, hs]
    split
    · exact hP.cut_cycles (hP.eval_ready h4)
    · exact hP.eval_ready h4

theorem Lasting.take_trigger {cause : Cause} {s : State} (hw : s.cutover.state = .waiting) (h : P s) :
    P (takeTrigger cause s) := by
  unfold takeTrigger
  repeat' split
  · exact hP.perform_cutover h
  · exact hP.moved h (.defers hw) (placed_uses_congr rfl rfl)
  · exact hP.perform_cutover h

theorem Lasting.tell_ready {s : State} (h : P s) : P (tellReady s) := by
  unfold tellReady
  split
  · next hw => exact hP.take_trigger hw.1 h
  · exact h

theorem Lasting.reevaluated {s : State} (h : P s) : P (reevaluate s) := by
  unfold reevaluate
  split
  · exact hP.tell_ready (hP.eval_ready h)
  · exact hP.eval_ready h

theorem Lasting.examine_at {s : State} (h : P s) : P (examineAt s) := by
  unfold examineAt
  split
  · next hw => exact hP.take_trigger hw.1 h
  · exact h

theorem Lasting.withdraw_bank {b : BankId} {s : State} (hb : (s.recOf b).state = .pending) (h : P s) :
    P (withdrawBank b s) := by
  unfold withdrawBank
  refine hP.cut_cycles (hP.raise (hP.eval_ready ?_))
  exact hP.move_bank h (.withdraws b hb) (standing_setRec b { s.recOf b with state := .stale } s) rfl rfl rfl

/-! ### Closing runs that fail -/

theorem Lasting.fail_close {b : BankId} {pt : ClosePoint} {found : WordLoc} {s : State}
    (hb : (s.standing b).state = .closing) (h : P s) : P (failClose b pt found s) := by
  have hst : (failClose b pt found s).standing = Function.update s.standing b ⟨.building, 0#16, (s.standing b).readers⟩ := by
    have hr := readers_closeWorkAt pt s.closeDay (s.inForce.map s.recOf) (s.bank b)
    funext c
    by_cases hc : c = b
    · subst hc
      simp only [failClose, State.standing, BankRecord.standing, State.recOf, Function.update_self, State.raise, State.bank,
        State.refresh, State.setBank, Banks.get_set_same]
      exact congrArg _ hr
    · simp only [failClose, State.standing, BankRecord.standing, State.recOf, Function.update_of_ne hc, State.raise, State.bank,
        State.refresh, State.setBank, Banks.get_set, if_neg hc]
  exact hP.move_bank h (.works b .building 0#16 (.inr (.inr hb)) (.inl rfl)) hst (by simp) (by simp) (by simp)

theorem Lasting.run_acts {b : BankId} {kept : Option WordLoc} {acts : List CloseAct} {pt : ClosePoint} {s : State}
    (h : P s) : P (runActs b kept acts pt s).1 :=
  hP.alike h (alike_of (standing_congr (by simp)) (by simp) (by simp) (by simp))

/-! ### Marks and reads -/

theorem Lasting.set_mark {b : BankId} {r : Region} {o : Nat} {s : State} (h : P s) : P (setMark b r o s) := by
  have hst : (markRegion b r o s).standing = s.standing := standing_setRec_same rfl
  have h1 : P (markRegion b r o s) := hP.alike h (alike_of hst rfl rfl rfl)
  have leave : ∀ {t : State}, P t → P (scrubLeaves b r t) := fun ht => hP.alike ht (alike_of rfl rfl rfl rfl)
  unfold setMark
  dsimp only
  refine leave ?_
  split
  · refine hP.cut_cycles ?_
    unfold failCopyFrom
    split
    · next hc => exact hP.raise (hP.empty_bank (.inr (.inl hc)) h1)
    · exact h1
  · next hb => exact hP.withdraw_bank (by simpa [markRegion] using hb) h1
  · next hb =>
    unfold failCloseAt
    dsimp only
    refine hP.fail_close ?_ (hP.run_acts h1)
    rw [standing_congr (runActs_banks ..), hst]
    exact hb
  all_goals exact h1

theorem Lasting.find_uncorrectable {loc : WordLoc} {reader : Reader} {s : State} (h : P s) :
    P (uncorrectable loc reader s) := by
  have h1 : P (reportUncorrectable loc reader s) := hP.alike h (alike_of rfl rfl rfl rfl)
  unfold uncorrectable
  dsimp only
  split
  · exact hP.set_mark h1
  · exact h1

theorem Lasting.correct {u : Upset} {s : State} (h : P s) : P (correctWord u s) :=
  hP.alike h (alike_of rfl rfl rfl rfl)

theorem Lasting.read_hits {reader : Reader} {us : List Upset} {s : State} (h : P s) : P (readHits reader us s).1 := by
  induction us generalizing s with
  | nil => exact h
  | cons u us ih =>
    unfold readHits
    split
    · exact hP.find_uncorrectable h
    · exact ih (hP.correct h)

theorem Lasting.read_on {reader : Reader} {us : List Upset} {s : State} (h : P s) : P (readOn reader us s).1 := by
  induction us generalizing s with
  | nil => exact h
  | cons u us ih =>
    unfold readOn
    split
    · exact ih (hP.find_uncorrectable h)
    · exact ih (hP.correct h)

theorem Lasting.read_words {reader : Reader} {sel : WordLoc → Bool} {s : State} (h : P s) :
    P (readWords reader sel s).1 := hP.read_hits h

theorem Lasting.read_items {reader : Reader} {b : BankId} {items : List Item} {s : State} (h : P s) :
    P (readItems reader b items s).1 := hP.read_hits h

theorem Lasting.read_new {lo hi : Nat} {s : State} (h : P s) : P (readNewBytes lo hi s).1 := hP.read_hits h

/-- A failure found by the closing run itself (R15, R182). -/
theorem Lasting.fail_own_read {b : BankId} {r : Region} {o : Nat} {pt : ClosePoint} {s : State}
    (hb : (s.standing b).state = .closing) (h : P s) : P (failOwnRead b r o pt s) := by
  have hst : (markRegion b r o (reportUncorrectable (.bank b r o) .close s)).standing = s.standing := standing_setRec_same rfl
  unfold failOwnRead
  refine hP.alike (hP.fail_close (found := .bank b r o) ?_ (hP.alike h (alike_of hst rfl rfl rfl))) (alike_of rfl rfl rfl rfl)
  rw [hst]
  exact hb

/-! ### The copy -/

theorem Lasting.copy_to {t f : BankId} {c : Copied} {s : State} (h : P s) : P (copyTo t f c s).1 := by
  have h1 : P (readHits .copy (copyHits f (allExtentItems (s.bank f)) s.copied (some c) s.upsets) s).1 := hP.read_hits h
  unfold copyTo
  dsimp only
  split
  · exact hP.alike h1 (alike_of rfl rfl rfl rfl)
  · exact h1

theorem Lasting.copy_on {s : State} (h : P s) : P (copyOn s) := by
  unfold copyOn
  split
  · exact hP.alike (hP.copy_to h) (alike_of rfl rfl rfl rfl)
  · exact h

end

end Sys2Proof.Machine
end

section
/-!
PROOFS. A `Lasting` predicate survives every command and every millisecond. The frame that a refill service writes is the one
part that rests on a setting: a link in need has room for at least one byte (R106, R113).
-/

namespace Sys2Proof.Machine

theorem answer_state (code : ResultCode) (body : List Byte) (s : State) : (answer code body s).state = s := rfl

/-! ### Links whose place in the cycle stays -/

/-- The CYCLE_ENDs in a link's transmit FIFO. -/
def Link.ends (l : Link) : Nat := (l.txFifo.filter fun f => decide (f.kind = .cycleEnd)).length

/-- A link keeps where it stands when its frame being written does and no CYCLE_END joins its FIFO. -/
theorem placed_fewer {l m : Link} (h : l.placed) (hs : m.state = l.state) (hp : m.phase = l.phase) (hc : m.ctx.content = l.ctx.content)
    (hd : m.ctx.todo = l.ctx.todo) (hg : m.ctx.ending = l.ctx.ending)
    (hw : ∀ w ∈ m.ctx.wip, ∃ v ∈ l.ctx.wip, v.kind = w.kind ∧ v.written = w.written) (hn : m.ends ≤ l.ends)
    (ht : m.threshold = l.threshold) : m.placed := by
  obtain ⟨⟨hoff, hout, hone, hend, hwip, hlast⟩, hroom⟩ := h
  refine ⟨⟨fun h => ?_, fun h => ?_, hn.trans hone, fun h => ?_, fun w hm h => ?_, fun h => ?_⟩, ht.trans_le hroom⟩
  · exact hp.trans (hoff (hs ▸ h))
  · obtain ⟨h1, h2⟩ := hout (hp ▸ h)
    exact ⟨hc.trans h1, Nat.eq_zero_of_le_zero (hn.trans_eq h2)⟩
  · obtain ⟨h1, h2⟩ := hend (hg ▸ h)
    refine ⟨Option.eq_none_iff_forall_not_mem.mpr fun w hm => ?_, Nat.eq_zero_of_le_zero (hn.trans_eq h2)⟩
    obtain ⟨v, hv, -⟩ := hw w hm
    rw [h1] at hv
    cases hv
  · obtain ⟨v, hv, hk, hr⟩ := hw w hm
    exact Nat.eq_zero_of_le_zero (hn.trans_eq (hwip v hv (by rwa [hk, hr])))
  · rw [hc, hd]
    refine hlast ?_
    rcases h with h | h | ⟨w, hm, hk⟩
    · exact .inl (hg ▸ h)
    · exact .inr (.inl (h.trans_le hn))
    · obtain ⟨v, hv, hk', -⟩ := hw w hm
      exact .inr (.inr ⟨v, hv, hk'.trans hk⟩)

/-- A link outside a cycle may go on to any phase that its state allows. -/
theorem placed_outside {l m : Link} (h : l.placed) (hl : l.phase ≠ .inCycle) (hs : m.state ≠ .enabled → m.phase = .off)
    (hc : m.ctx = l.ctx) (hf : m.txFifo = l.txFifo) (ht : m.threshold = l.threshold) : m.placed := by
  obtain ⟨⟨hoff, hout, hone, hend, hwip, hlast⟩, hroom⟩ := h
  unfold Link.placed Link.contextLaw
  rw [hc, hf, ht]
  exact ⟨⟨hs, fun _ => hout hl, hone, hend, hwip, hlast⟩, hroom⟩

section
variable {P : State → Prop} (hP : Lasting P)
include hP

/-- A change of a link that leaves it where it stands in its cycle. -/
theorem Lasting.set_link {k : LinkId} {l : Link} {s : State} (h : P s) (hs : l.state = (s.link k).state)
    (hp : l.phase = (s.link k).phase) (hc : l.ctx = (s.link k).ctx) (hf : l.txFifo = (s.link k).txFifo)
    (ht : l.threshold = (s.link k).threshold) : P (s.setLink k l) :=
  by
  refine hP.alike h (alike_setLink fun h => ⟨by rw [hc], ?_⟩)
  exact placed_fewer h hs hp (by rw [hc]) (by rw [hc]) (by rw [hc]) (fun w hw => ⟨w, hc ▸ hw, rfl, rfl⟩)
    (by rw [Link.ends, Link.ends, hf]) ht

theorem Lasting.try_begin {k : LinkId} {s : State} (h : P s) : P (tryBegin k s) := by
  unfold tryBegin
  dsimp only
  split
  · have hb : ∀ l : Link, l.begin.state = l.state ∧ l.begin.phase = l.phase ∧ l.begin.ctx = l.ctx ∧ l.begin.txFifo = l.txFifo ∧
        l.begin.threshold = l.threshold := by
      intro l
      unfold Link.begin
      repeat' split
      all_goals exact ⟨rfl, rfl, rfl, rfl, rfl⟩
    obtain ⟨h1, h2, h3, h4, h5⟩ := hb (s.link k)
    exact hP.set_link h h1 h2 h3 h4 h5
  · exact h

theorem Lasting.left_cycle {s : State} (h : P s) : P (leftCycle s) :=
  hP.alike h (alike_of (standing_congr (by simp)) (by simp) (by simp) (by simp))

/-! ### The gateway port and events -/

/-- A gateway command keeps what its owner keeps. -/
theorem Lasting.through_gateway {i : Instr} {own : State → Reply} {s : State} (hown : ∀ s, P s → P (own s).state)
    (h : P s) : P (gateway i own s) := by
  have same : ∀ {t u : State}, P t → u.banks = t.banks → u.cutover = t.cutover → u.links = t.links →
      u.lookups.service = t.lookups.service → P u := fun ht hb hc hl hs => hP.alike ht (alike_of (standing_congr hb) (by rw [hc]) hl hs)
  have reply : ∀ r : Reply, P r.state →
      P (match r.answer with
        | none => r.state
        | some (code, body) => respond code body r.state) := fun r hr => by
    split
    · exact hr
    · exact same hr rfl rfl rfl rfl
  unfold gateway
  split
  · exact h
  · next type tag body _ =>
    split
    · exact h
    · by_cases hd : s.port.dispatched = some i
      · simp only [hd, if_true]
        exact reply _ (hown _ (same h rfl rfl rfl rfl))
      · by_cases hr : s.port.rdy = true
        · simp only [hd, hr, if_true, if_false]
          exact reply _ (hown _ (same h rfl rfl rfl rfl))
        · simp only [hd, hr, if_false]
          exact same h rfl rfl rfl rfl

omit hP in
theorem Lasting.through_event {f : State → State} {s : State} (hf : P s → P (f s)) (h : P s) : P (event f s) := by
  unfold event
  split
  · exact h
  · exact hf h

/-! ### Bank Control (chapter 1) -/

theorem Lasting.open_build {option : Byte} {s : State} (h : P s) : P (openBuild option s).state := by
  have take : ∀ o, s.buildSideTaken = false → P (takeOpenBuild o s).state := fun o hfree => by
    have free : ∀ x, (s.standing x).state.buildSide = false := by
      simp only [State.buildSideTaken, Bool.or_eq_false_iff] at hfree
      intro x
      cases x
      · exact hfree.1
      · exact hfree.2
    have target : (s.standing s.openTarget).state = .inForce → (s.standing (other s.openTarget)).state = .inForce := by
      unfold State.openTarget
      split
      · next f hf =>
        intro _
        rw [other_other]
        exact findBank_some hf
      · next hn => exact fun hx => absurd hx (findBank_none.mp hn _)
    unfold takeOpenBuild
    dsimp only
    split
    · next hr =>
      exact hP.move_bank h (.drains _ free target hr) (standing_setRec s.openTarget _ s) rfl rfl rfl
    · next hr =>
      have hr : (s.standing s.openTarget).readers = 0 := Nat.eq_zero_of_not_pos hr
      split
      · exact hP.begin_build (o := .empty) (.inl ⟨free, target⟩) hr h
      · exact hP.begin_build (o := .fromInForce) (.inl ⟨free, target⟩) hr h
  unfold openBuild
  split
  · exact h
  · split
    · exact h
    · next hb =>
      have hb : s.buildSideTaken = false := by simpa using hb
      split
      · exact take _ hb
      · repeat' split
        · exact h
        · exact h
        · exact take _ hb

theorem Lasting.close_build {mode : Byte} {day minute : Half} {s : State} (h : P s) :
    P (closeBuild mode day minute s).state := by
  unfold closeBuild
  split
  · exact h
  · next b hb =>
    have hb := findBank_some hb
    dsimp only
    split
    · exact h
    split
    · exact h
    split
    · exact h
    split
    · exact h
    · exact hP.move_bank h (.works b .closing (s.recOf b).seq (.inr (.inl hb)) (.inr rfl)) (standing_setRec b _ s) rfl rfl rfl

theorem Lasting.discard_build {s : State} (h : P s) : P (discardBuild s).state := by
  unfold discardBuild
  split
  · next b hb =>
    have hw : (s.recOf b).state = .copying ∨ (s.recOf b).state = .building ∨ (s.recOf b).state = .closing := by
      unfold State.workBank at hb
      repeat' split at hb
      · next hx => cases hb; exact .inl (findBank_some hx)
      · next hx => cases hb; exact .inr (.inl (findBank_some hx))
      · exact .inr (.inr (findBank_some hb))
    exact hP.alike (hP.empty_bank (b := b) (.inr hw) h) (alike_of rfl rfl rfl rfl)
  · split
    · next b hb =>
      exact hP.move_bank h (.undrains b (findBank_some hb)) (standing_setRec b _ s) rfl rfl rfl
    · exact h

theorem Lasting.copy_complete {s : State} (h : P s) : P (copyComplete s) := by
  unfold copyComplete
  split
  · next t f ht hf =>
    have ht := findBank_some ht
    have h1 : P (readHits .copy (copyHits f (allExtentItems (s.bank f)) s.copied none s.upsets) s).1 := hP.read_hits h
    dsimp only
    split
    · next hok =>
      have hs := congrArg Prod.fst (readHits_corrects .copy _ s ((readHits_ok .copy _ s).1 hok))
      generalize (readHits .copy (copyHits f (allExtentItems (s.bank f)) s.copied none s.upsets) s).1 = s1 at hs h1 ⊢
      have ht : (s1.standing t).state = .copying := by rw [hs]; exact ht
      exact hP.move_bank h1 (.works t .building _ (.inl ht) (.inl rfl)) (standing_setBank t _ s1) rfl rfl rfl
    · exact h1
  · exact h

end

end Sys2Proof.Machine
end

section
/-!
PROOFS. A `Lasting` predicate survives the rest of Bank Control: copies and drains that end, and closing runs.
-/

namespace Sys2Proof.Machine

/-- The number drawn is not 0 and not the one in force (R13). -/
theorem drawSeq_fresh (last f : Half) : drawSeq last f ≠ 0#16 ∧ drawSeq last f ≠ f := by
  unfold drawSeq seqAfter
  split <;> split <;> (try split) <;> constructor <;> (try simp_all) <;> bv_omega

/-- The completed run's work leaves the readers (R11). -/
theorem readers_closeWork (s : State) (b : BankId) : (s.closeWork b).bank.record.readers = (s.recOf b).readers :=
  readers_closeWorkAt .compared _ _ _

theorem standing_completeClose (b : BankId) (s : State) :
    (completeClose b s).standing = Function.update s.standing b ⟨.pending, s.drawnSeq, (s.standing b).readers⟩ := by
  have hr := readers_closeWork s b
  unfold completeClose
  generalize s.closeWork b = w at hr ⊢
  exact (standing_setBank b _ s).trans (congrArg _ (congrArg (Standing.mk _ _) hr))

section
variable {P : State → Prop} (hP : Lasting P)
include hP

theorem Lasting.copy_failure {r : Region} {o : Nat} {s : State} (h : P s) : P (copyFailure r o s) := by
  unfold copyFailure
  split
  · dsimp only
    split
    · split
      · exact hP.find_uncorrectable (hP.alike (hP.copy_to h) (alike_of rfl rfl rfl rfl))
      · exact hP.copy_to h
    · exact h
  · exact h

theorem Lasting.drain_complete {s : State} (h : P s) : P (drainComplete s) := by
  unfold drainComplete
  split
  · next b hb =>
    split
    · next hr => exact hP.drain_done (findBank_some hb) hr h
    · exact h
  · exact h

theorem Lasting.withdrawn {s : State} (h : P s) : P (withdraw s).state := by
  unfold withdraw
  split
  · exact h
  · next b hb =>
    rw [answer_state]
    exact hP.withdraw_bank (findBank_some hb) h

/-- A closing run that completes makes its bank PENDING, and Cutover Control enters WAITING (R14, R157). -/
theorem Lasting.closed_pending {b : BankId} {s t : State} (hb : (s.standing b).state = .closing) (h : P s)
    (ht : t.standing = (completeClose b s).standing) (hc : t.cutover.state = .waiting) (hl : t.links = s.links)
    (hs : t.lookups.service = s.lookups.service) : P t := by
  obtain ⟨hz, hn⟩ := drawSeq_fresh s.lastSeq (s.seqOf s.inForce)
  refine hP.move_bank h (.closes b s.drawnSeq hb hz fun x hx => ?_) (ht.trans (standing_completeClose b s)) hc hl hs
  have hf : s.inForce = some x := by
    unfold State.inForce State.findBank
    cases x with
    | bankA => exact if_pos hx
    | bankB =>
      have ha : (s.recOf .bankA).state ≠ .inForce := fun ha => by
        cases b
        · exact absurd (ha.symm.trans hb) (by decide)
        · exact absurd (hx.symm.trans hb) (by decide)
      rw [if_neg ha]
      exact if_pos hx
  rw [hf] at hn
  exact fun he => hn (by unfold State.drawnSeq at he; rw [hf] at he; exact he)

theorem Lasting.complete_close {b : BankId} {s : State} (hb : (s.standing b).state = .closing) (h : P s) :
    P (enterWaiting (evalReady (mapEntries Entry.atClose (completeClose b s)))) := by
  have hw : ∀ c : Cutover, c.state = .waiting →
      P { evalReady (mapEntries Entry.atClose (completeClose b s)) with cutover := c } := fun c hc =>
    hP.closed_pending hb h (standing_congr (by simp)) hc (by simp; rfl) (by simp; rfl)
  unfold enterWaiting
  dsimp only
  split
  · split
    · exact hP.take_trigger rfl (hw _ rfl)
    · exact hw _ rfl
  · exact hP.examine_at (hw _ rfl)

theorem Lasting.close_run_complete {s : State} (h : P s) : P (closeRunComplete s) := by
  unfold closeRunComplete
  split
  · exact h
  · next b hb =>
    have hb : (s.standing b).state = .closing := findBank_some hb
    have h1 : P (runActs b none (closeActs s.closeDay (s.bank b)) (.prune 0) s).1 := hP.run_acts h
    have hb1 : ((runActs b none (closeActs s.closeDay (s.bank b)) (.prune 0) s).1.standing b).state = .closing := by
      rw [standing_congr (runActs_banks ..)]; exact hb
    generalize runActs b none (closeActs s.closeDay (s.bank b)) (.prune 0) s = run at h1 hb1 ⊢
    split
    · exact hP.fail_own_read hb1 h1
    · exact hP.complete_close hb1 h1

theorem Lasting.closing_run_failure {r : Region} {o again : Nat} {s : State} (h : P s) :
    P (closingRunFailure r o again s) := by
  unfold closingRunFailure
  split
  · exact h
  · next b hb =>
    have hb : (s.standing b).state = .closing := findBank_some hb
    split
    · exact h
    · next acts _ =>
      have h1 : P (runActs b none acts (.prune 0) s).1 := hP.run_acts h
      have hb1 : ((runActs b none acts (.prune 0) s).1.standing b).state = .closing := by
        rw [standing_congr (runActs_banks ..)]; exact hb
      generalize runActs b none acts (.prune 0) s = run at h1 hb1 ⊢
      split
      · exact hP.fail_own_read hb1 h1
      · exact hP.fail_own_read hb1 (hP.alike h1 (alike_of rfl rfl rfl rfl))

end

end Sys2Proof.Machine
end

section
/-!
PROOFS. A `Lasting` predicate survives the reads of a bank, the Package Loader, the Validator Table, Cutover Control, the
Event and Error Unit and the scrubber.
-/

namespace Sys2Proof.Machine

section
variable {P : State → Prop} (hP : Lasting P)
include hP

/-! ### RANGE_READ and TARIFF_READ (chapter 2 and 3) -/

theorem Lasting.range_read {bank : Byte} {shelf index : Half} {s : State} (h : P s) :
    P (rangeRead bank shelf index s).state := by
  unfold rangeRead
  split
  · exact h
  · next b _ =>
    split
    · exact h
    · split
      · exact h
      · split
        · exact h
        · split
          · exact h
          · have done : ∀ items body, P (if (readItems .gatewayRead b items s).2 = true then
                answer .ok body (readItems .gatewayRead b items s).1
                else refuse .damaged (readItems .gatewayRead b items s).1).state := fun items body => by
              split <;> exact hP.read_items h
            exact done _ _

theorem Lasting.tariff_read {bank item arg1 arg2 arg3 : Byte} {s : State} (h : P s) :
    P (tariffRead bank item arg1 arg2 arg3 s).state := by
  have serve : ∀ b i, P (serveTariffRead b i s).state := fun b i => by
    have h1 : P (readItems .gatewayRead b [.dims] s).1 := hP.read_items h
    unfold serveTariffRead
    dsimp only
    generalize readItems .gatewayRead b [.dims] s = r at h1 ⊢
    have item : ∀ is code, P (if (readItems .gatewayRead b is r.1).2 = true then
        answer .ok (tariffReadBody b i (readItems .gatewayRead b is r.1).1) (readItems .gatewayRead b is r.1).1
        else refuse code (readItems .gatewayRead b is r.1).1).state := fun is code => by
      split <;> exact hP.read_items h1
    split
    · exact h1
    · split
      · exact h1
      · split
        · split
          · exact h1
          · exact item _ _
        · exact item _ _
  unfold tariffRead
  split
  · split
    · exact h
    · split
      · exact h
      · split
        · exact serve _ _
        · split
          · exact h
          · exact h
  · exact h

/-! ### The Package Loader (chapter 3) -/

theorem Lasting.finish_with {result : PackageResult} {n : Nat} {e : Event} {s : State} (h : P s) :
    P (finishWith result n e s) := by
  have h1 : P (State.raise e { s with loader := ⟨.idle, result, []⟩ }) := hP.alike h (alike_of rfl rfl rfl rfl)
  unfold finishWith
  dsimp only
  split
  · exact hP.raise h1
  · exact h1

theorem Lasting.package_done {id : Half} {kind : PackageKind} {c : Counts} {s : State} (h : P s) :
    P (packageDone id kind c s) := hP.finish_with (hP.alike h (alike_of rfl rfl rfl rfl))

theorem Lasting.package_refused {id : Half} {kind : PackageKind} {code : ResultCode} {index : Option Nat} {c : Counts}
    {s : State} (h : P s) : P (packageRefused id kind code index c s) :=
  hP.finish_with (hP.alike h (alike_of rfl rfl rfl rfl))

theorem Lasting.segment_stored {last : Bool} {r : Receiving} {start : Nat} {payload : List Byte} {s : State} (h : P s) :
    P (segmentStored last r (storePayload start last payload s)).state := by
  have h1 : P (storePayload start last payload s) := hP.alike h (alike_of rfl rfl rfl rfl)
  generalize storePayload start last payload s = t at h1 ⊢
  unfold segmentStored wholePackage abandonPackage
  split
  · split
    · rw [answer_state]; exact hP.package_refused h1
    · exact hP.alike h1 (alike_of rfl rfl rfl rfl)
  · exact hP.alike h1 (alike_of rfl rfl rfl rfl)

theorem Lasting.segment_taken {id index count : Half} {payload : List Byte} {s : State} (h : P s) :
    P (segment id index count payload s).state := by
  unfold segment
  split
  · exact h
  · split
    · unfold startPackage
      split
      · exact h
      · split
        · exact h
        · split
          · exact h
          · exact hP.segment_stored h
    · unfold continuePackage
      split
      · exact h
      · exact h
      · split
        · exact h
        · unfold takeSegment abandonPackage
          split
          · rw [answer_state]; exact hP.package_refused h
          · exact hP.segment_stored h

theorem Lasting.run_check_reads {b : BankId} {rs : List CheckRead} {s : State} (h : P s) : P (runCheckReads b rs s).1 := by
  induction rs generalizing s with
  | nil => exact h
  | cons r rs ih =>
    cases r with
    | bytes lo hi =>
      have h1 : P (readNewBytes lo hi s).1 := hP.read_new h
      unfold runCheckReads
      dsimp only
      split
      · exact ih h1
      · exact h1
    | items is =>
      have h1 : P (readItems .loader b is s).1 := hP.read_items h
      unfold runCheckReads
      dsimp only
      split
      · exact ih h1
      · exact h1

theorem Lasting.check_phase_end {s : State} (h : P s) : P (checkPhaseEnd s) := by
  unfold checkPhaseEnd
  split
  · next b _ _ =>
    dsimp only
    split
    · split
      · exact hP.alike (hP.run_check_reads h) (alike_of rfl rfl rfl rfl)
      · exact hP.package_refused (hP.run_check_reads h)
    · exact hP.package_refused (hP.run_check_reads h)
  · exact h

/-- A bank record with the state, seq and readers it had. -/
theorem Lasting.set_rec {b : BankId} {r : BankRecord} {s : State} (h : P s) (hr : r.standing = s.standing b) :
    P (s.setRec b r) := hP.alike h (alike_of (standing_setRec_same hr) rfl rfl rfl)

theorem Lasting.write_ranges {b : BankId} {t : RangeRegion} {s : State} (h : P s) : P (writeRanges b t s) := by
  refine hP.alike h (alike_of ?_ (by simp) (by simp) (by simp))
  exact standing_setBank_same rfl

theorem Lasting.empty_table {b : BankId} {s : State} (h : P s) : P (emptyTable b s) :=
  hP.alike h (alike_of (standing_setBank_same rfl) rfl rfl rfl)

theorem Lasting.write_tariff {b : BankId} {t : TariffPackage} {n : Nat} {s : State} (h : P s) : P (writeTariff b t n s) :=
  hP.alike h (alike_of (standing_setBank_same rfl) rfl rfl rfl)

theorem Lasting.read_records {ws : List Nat} {lo n : Nat} {s : State} (h : P s) : P (readRecords lo ws n s).1 := by
  induction ws generalizing lo n s with
  | nil => exact h
  | cons w ws ih =>
    have h1 : P (readNewBytes lo (lo + w) s).1 := hP.read_new h
    unfold readRecords
    dsimp only
    split
    · exact ih h1
    · exact h1

theorem Lasting.apply_tariff {b : BankId} {id : Half} {s : State} (h : P s) : P (applyTariff b id s) := by
  unfold applyTariff
  split
  · exact h
  · next t _ =>
    have h1 : P (readBuffer 0 16 s).1 := hP.read_words h
    have h2 : P (readRecords 16 (tariffWidths t) 0 (readBuffer 0 16 s).1).1 := hP.read_records h1
    dsimp only
    split
    · exact hP.package_refused (hP.set_rec h1 rfl)
    · split
      · exact hP.package_done (hP.set_rec (hP.write_tariff h2) rfl)
      · exact hP.package_refused (hP.set_rec (hP.write_tariff h2) rfl)

theorem Lasting.apply_entries {b : BankId} {bss : List (List Byte)} {lo : Nat} {c : Counts} {s : State} (h : P s) :
    P (applyEntries b lo bss c s).state := by
  induction bss generalizing lo c s with
  | nil => exact h
  | cons bs bss ih =>
    have h1 : P (readNewBytes lo (lo + 17) s).1 := hP.read_new h
    unfold applyEntries
    dsimp only
    split
    · exact h1
    · split
      · exact h1
      · split
        · exact hP.read_items h1
        · exact ih (hP.write_ranges (hP.read_items h1))

theorem Lasting.apply_op {b : BankId} {op : DeltaOp} {s : State} (h : P s) : P (applyOp b op s) := by
  have evicted : ∀ (r : BankRecord) (n : Nat), BankRecord.standing { r with evictions := n } = r.standing := fun _ _ => rfl
  unfold applyOp
  exact hP.set_rec (hP.write_ranges h) (evicted _ _)

theorem Lasting.apply_ops {b : BankId} {bss : List (List Byte)} {lo : Nat} {c : Counts} {s : State} (h : P s) :
    P (applyOps b lo bss c s).state := by
  induction bss generalizing lo c s with
  | nil => exact h
  | cons bs bss ih =>
    have h1 : P (readNewBytes lo (lo + 18) s).1 := hP.read_new h
    unfold applyOps
    dsimp only
    split
    · exact h1
    · split
      · exact h1
      · split
        · exact hP.read_items h1
        · exact ih (hP.apply_op (hP.read_items h1))

theorem Lasting.end_range_apply {b : BankId} {id : Half} {kind : PackageKind} {done : BankRecord → BankRecord} {r : ApplyRun}
    (hd : ∀ x, (done x).standing = x.standing) (h : P r.state) : P (endRangeApply b id kind done r) := by
  unfold endRangeApply
  split
  · exact hP.package_done (hP.set_rec h (hd _))
  · exact hP.package_refused (hP.set_rec h rfl)
  · exact hP.package_refused h

theorem Lasting.apply_base {b : BankId} {id : Half} {s : State} (h : P s) : P (applyBase b id s) := by
  unfold applyBase
  split
  · exact h
  · next hd _ _ =>
    have h1 : P (readBuffer 0 18 s).1 := hP.read_words h
    have hr : ∀ x : BankRecord, (x.afterPart hd).standing = x.standing := fun x => by
      unfold BankRecord.afterPart; split <;> rfl
    have he : ∀ t, P t → P (if hd.part = 1#16 then emptyTable b t else t) := fun t ht => by
      split
      · exact hP.empty_table ht
      · exact ht
    refine hP.end_range_apply hr ?_
    split
    · exact hP.apply_entries (he _ h1)
    · exact h1

theorem Lasting.apply_delta {b : BankId} {id : Half} {s : State} (h : P s) : P (applyDelta b id s) := by
  unfold applyDelta
  split
  · exact h
  · have h1 : P (readBuffer 0 18 s).1 := hP.read_words h
    refine hP.end_range_apply (fun _ => rfl) ?_
    split
    · exact hP.apply_ops h1
    · exact h1

theorem Lasting.apply_phase_end {s : State} (h : P s) : P (applyPhaseEnd s) := by
  unfold applyPhaseEnd
  repeat' split
  · exact hP.apply_tariff h
  · exact hP.apply_base h
  · exact hP.apply_delta h
  · exact h

/-! ### The Validator Table (chapter 7) -/

/-- An entry, a raised link event: nothing that a lasting predicate sees. -/
theorem Lasting.set_entry {k : LinkId} {e : Entry} {s : State} (h : P s) : P (s.setEntry k e) :=
  hP.alike h (alike_of rfl rfl rfl rfl)

theorem Lasting.raise_link {f : Event} {k : LinkId} {s : State} (h : P s) : P (State.raiseLink f k s) :=
  hP.alike h (alike_of rfl rfl rfl rfl)

theorem Lasting.evaluate_report {k : LinkId} {r : ReportBody} {s : State} (h : P s) : P (evaluateReport k r s) := by
  have h1 : P (s.setEntry k (entryAfter (s.entry k) r s)) := hP.set_entry h
  unfold evaluateReport
  dsimp only
  refine hP.reevaluated ?_
  repeat' split
  · exact hP.raise_link (hP.raise_link h1)
  · exact hP.raise_link h1
  · exact hP.raise_link h1
  · exact h1

theorem Lasting.silence_test {k : LinkId} {s : State} (h : P s) : P (silenceTest k s) := by
  unfold silenceTest
  dsimp only
  split
  · exact hP.reevaluated (hP.raise_link (hP.set_entry h))
  · exact h

theorem Lasting.validator_silent {k : LinkId} {s : State} (h : P s) : P (validatorSilent k s) := by
  unfold validatorSilent
  split
  · exact hP.silence_test h
  · exact h

theorem Lasting.validator_config {limit : Half} {mismatch : Byte} {s : State} (h : P s) :
    P (validatorConfig limit mismatch s).state := by
  unfold validatorConfig
  dsimp only
  rw [answer_state]
  exact foldl_invariant P _ (fun s k hs => hP.silence_test hs) _ _ (hP.alike h (alike_of rfl rfl rfl rfl))

theorem Lasting.validator_exclude {link : Byte} {s : State} (h : P s) : P (validatorExclude link s).state := by
  unfold validatorExclude
  split
  · exact h
  · rw [answer_state]; exact hP.reevaluated (hP.set_entry h)

theorem Lasting.validator_include {link : Byte} {s : State} (h : P s) : P (validatorInclude link s).state := by
  unfold validatorInclude
  split
  · exact h
  · rw [answer_state]; exact hP.reevaluated (hP.set_entry h)

/-! ### Cutover Control (chapter 8) -/

theorem Lasting.expire_wait {s : State} (hw : s.cutover.state = .waiting) (h : P s) : P (expireWait s) := by
  unfold expireWait
  exact hP.take_trigger hw (hP.raise h)

theorem Lasting.end_deferral {e : CutEnd} {s : State} (h : P s) : P (endDeferral e s) := by
  unfold endDeferral
  exact hP.perform_cutover h

theorem Lasting.time_set {day minute : Half} {s : State} (h : P s) : P (timeSet day minute s).state := by
  unfold timeSet
  split
  · exact h
  · rw [answer_state]; exact hP.examine_at (hP.alike h (alike_of rfl rfl rfl rfl))

theorem Lasting.minute_event {s : State} (h : P s) : P (minuteEvent s) := by
  unfold minuteEvent
  split
  · exact hP.examine_at (hP.alike h (alike_of rfl rfl rfl rfl))
  · exact h

theorem Lasting.cutover_config {w : Byte} {g : Half} {s : State} (h : P s) : P (cutoverConfig w g s).state := by
  unfold cutoverConfig applyLimits
  dsimp only
  rw [answer_state]
  have h1 : P { s with cutover := { s.cutover with waitLimit := clamp 1 240 w.toNat, grace := clamp 0 600 g.toNat } } :=
    hP.alike h (alike_of rfl rfl rfl rfl)
  split
  · next hw => exact hP.expire_wait hw.1 h1
  · split
    · exact hP.end_deferral h1
    · exact h1

theorem Lasting.wait_expired {s : State} (h : P s) : P (waitExpired s) := by
  unfold waitExpired
  split
  · next hw => exact hP.expire_wait hw.1 h
  · exact h

theorem Lasting.grace_run_out {s : State} (h : P s) : P (graceRunOut s) := by
  unfold graceRunOut
  split
  · exact hP.end_deferral h
  · exact h

theorem Lasting.take_inhibit {level : Bool} {s : State} (h : P s) : P (takeInhibit level s) :=
  hP.alike h (alike_of rfl rfl rfl rfl)

theorem Lasting.inhibit_deassertion {s : State} (h : P s) : P (inhibitDeassertion s) := by
  unfold inhibitDeassertion
  split
  · exact hP.end_deferral (hP.take_inhibit h)
  · exact hP.take_inhibit h

theorem Lasting.cutover_now {option : Byte} {s : State} (h : P s) : P (cutoverNow option s).state := by
  have answered : ∀ seq t, P t → P (cutoverAnswer seq t).state := fun seq t ht => by
    unfold cutoverAnswer; split <;> exact ht
  unfold cutoverNow
  split
  · exact h
  · dsimp only
    split
    · exact h
    · next hw =>
      split
      · rw [answer_state]; exact hP.perform_cutover h
      · exact answered _ _ (hP.take_trigger hw h)
    · split
      · rw [answer_state]; exact hP.end_deferral h
      · exact h

/-! ### The scrubber (chapter 10) -/

theorem Lasting.scrub_one {b : BankId} {r : Region} {o : Nat} {s : State} (h : P s) : P (scrubOne b r o s) := by
  have h1 : P { s with scrub := { s.scrub with mode := .walking b r (o + 1) } } := hP.alike h (alike_of rfl rfl rfl rfl)
  unfold scrubOne
  exact hP.alike (hP.read_words h1) (alike_of rfl rfl rfl rfl)

theorem Lasting.end_pass_if_done {s : State} (h : P s) : P (endPassIfDone s) := by
  unfold endPassIfDone
  repeat' split
  · exact hP.alike h (alike_of rfl rfl rfl rfl)
  all_goals exact h

theorem Lasting.scrub_read {us : List Upset} {s : State} (h : P s) : P (scrubRead us s) := by
  have h1 : P (strikeAll us (copyOn s)) := hP.alike (hP.copy_on h) (alike_of rfl rfl rfl rfl)
  unfold scrubRead
  dsimp only
  split
  · split
    · exact hP.scrub_one h1
    · exact hP.end_pass_if_done (hP.scrub_one h1)
  · exact hP.end_pass_if_done h1

theorem Lasting.scrub_period {s : State} (h : P s) : P (scrubPeriod s) := by
  unfold scrubPeriod
  split
  · exact hP.alike h (alike_of rfl rfl rfl rfl)
  · exact h

theorem Lasting.events_clear {named : FlagSet} {s : State} (h : P s) : P (eventsClear named s).state := by
  unfold eventsClear
  split
  · exact h
  · exact hP.alike h (alike_of rfl rfl rfl rfl)

theorem Lasting.event_mask {masks : FlagSet} {s : State} (h : P s) : P (eventMask masks s).state := by
  unfold eventMask
  split
  · exact h
  · exact hP.alike h (alike_of rfl rfl rfl rfl)

/-! ### The millisecond (R142, R152) -/

theorem Lasting.passes_tick {s : State} (h : P s) : P (tick s) := by
  have h1 : P (advance (copyOn s)) := hP.alike (hP.copy_on h) (alike_of rfl rfl rfl rfl)
  unfold tick
  split
  · exact h
  · split
    · exact hP.alike h (alike_of rfl rfl rfl rfl)
    · exact hP.alike h1 (alike_of rfl rfl rfl rfl)

end

end Sys2Proof.Machine
end

section
/-!
PROOFS. What a mark leaves of the links, and a `Lasting` predicate survives the commands of the links, the carousel and the
Lookup Engine.
-/

namespace Sys2Proof.Machine

/-! ### Links that no mark cuts (R102) -/

theorem cutCyclesOf_link {b : BankId} {k : LinkId} {s : State} (h : ¬(s.link k).atBoundaryOf b) :
    (cutCyclesOf b s).link k = s.link k := by
  refine foldl_invariant (fun t : State => t.link k = s.link k) _ (fun t j ht => ?_) _ _ rfl
  split
  · next hc =>
    have hj : j ≠ k := fun hj => h (by
      rw [← ht, ← hj]
      simpa [Link.inCycle, Context.atBoundary, and_assoc] using hc)
    have hl : ∀ u : State, ∀ l, (u.setLink j l).link k = u.link k := fun u l => by
      rw [State.link_setLink, if_neg (fun e => hj e.symm)]
    unfold takeCut
    dsimp only
    split
    · exact ht
    · rw [← ht, State.link, releaseReader_links]
      exact hl _ _
  · exact ht

theorem setMark_link {b : BankId} {r : Region} {o : Nat} {k : LinkId} {s : State} (h : ∀ b, ¬(s.link k).atBoundaryOf b) :
    (setMark b r o s).link k = s.link k := by
  unfold setMark
  dsimp only
  rw [show ∀ x : State, (scrubLeaves b r x).link k = x.link k from fun _ => rfl]
  have hm : (markRegion b r o s).link k = s.link k := rfl
  split
  · have hf : (failCopyFrom b (markRegion b r o s)).link k = s.link k := by simp [State.link]
    rw [cutCyclesOf_link (by rw [hf]; exact h b), hf]
  · unfold withdrawBank
    dsimp only
    generalize ht : State.raise .pendingWithdrawn _ = t
    have hl : t.link k = s.link k := by rw [← ht, State.link, State.raise_links, evalReady_links]; rfl
    rw [cutCyclesOf_link (by rw [hl]; exact h b), hl]
  · simp [State.link]
  all_goals exact hm

theorem uncorrectable_link {loc : WordLoc} {reader : Reader} {k : LinkId} {s : State}
    (h : ∀ b, ¬(s.link k).atBoundaryOf b) : (uncorrectable loc reader s).link k = s.link k := by
  unfold uncorrectable
  dsimp only
  split
  · exact setMark_link h
  · rfl

theorem readHits_link {reader : Reader} {us : List Upset} {k : LinkId} {s : State} (h : ∀ b, ¬(s.link k).atBoundaryOf b) :
    (readHits reader us s).1.link k = s.link k := by
  induction us generalizing s with
  | nil => rfl
  | cons u us ih =>
    unfold readHits
    split
    · exact uncorrectable_link h
    · exact (ih (s := correctWord u s) h).trans rfl

theorem readOn_link {reader : Reader} {us : List Upset} {k : LinkId} {s : State} (h : ∀ b, ¬(s.link k).atBoundaryOf b) :
    (readOn reader us s).1.link k = s.link k := by
  induction us generalizing s with
  | nil => rfl
  | cons u us ih =>
    unfold readOn
    split
    · have hu := uncorrectable_link (loc := u.loc) (reader := reader) h
      exact (ih (s := uncorrectable u.loc reader s) (by rw [hu]; exact h)).trans hu
    · exact (ih (s := correctWord u s) h).trans rfl

/-! ### A drain does not depend on the lookups -/

theorem drainDone_with_lookups (b : BankId) (u : Lookups) (s : State) :
    drainDone b { s with lookups := u } = { drainDone b s with lookups := u } := by
  unfold drainDone
  rw [show State.recOf { s with lookups := u } b = s.recOf b from rfl,
    show State.inForce { s with lookups := u } = s.inForce from rfl]
  split
  · split
    · rw [show ∀ f, State.recOf { s with lookups := u } f = s.recOf f from fun _ => rfl]
      split <;> rfl
    · rfl
  · rfl

theorem releaseReader_with_lookups (b : BankId) (u : Lookups) (s : State) :
    releaseReader b { s with lookups := u } = { releaseReader b s with lookups := u } := by
  have key : ∀ x : State,
      (if (State.recOf { x with lookups := u } b).state = .draining ∧ (State.recOf { x with lookups := u } b).readers = 0
        then drainDone b { x with lookups := u } else { x with lookups := u }) =
      { (if (x.recOf b).state = .draining ∧ (x.recOf b).readers = 0 then drainDone b x else x) with lookups := u } := by
    intro x
    rw [show State.recOf { x with lookups := u } b = x.recOf b from rfl]
    split
    · exact drainDone_with_lookups b u x
    · rfl
  exact key (s.setRec b { s.recOf b with readers := (s.recOf b).readers - 1 })

/-! ### The reads of a lookup (R173 to R176) -/

theorem searchCard_keeps {Q : State → Prop} {b : BankId}
    (hQ : ∀ is s, Q s → Q (readItems .lookup b is s).1) {c : Card} {fuel lo n : Nat} {s : State} (h : Q s) :
    Q (searchCard b c fuel lo n s).1 := by
  induction fuel generalizing lo n s with
  | zero => exact h
  | succ fuel ih =>
    have h1 : Q (readItems .lookup b [.record (middle lo n)] s).1 := hQ _ _ h
    unfold searchCard
    dsimp only
    split
    · exact h
    · split
      · exact h1
      · split
        · exact h1
        · split
          · exact ih h1
          · split
            · exact ih h1
            · exact h1

theorem searchProduct_keeps {Q : State → Prop} {b : BankId}
    (hQ : ∀ is s, Q s → Q (readItems .lookup b is s).1) {c : Half} {fuel lo n : Nat} {s : State} (h : Q s) :
    Q (searchProduct b c fuel lo n s).1 := by
  induction fuel generalizing lo n s with
  | zero => exact h
  | succ fuel ih =>
    have h1 : Q (readItems .lookup b [.product (middle lo n)] s).1 := hQ _ _ h
    unfold searchProduct
    dsimp only
    split
    · exact h
    · split
      · exact h1
      · split
        · exact h1
        · split
          · exact h1
          · split
            · exact ih h1
            · exact ih h1

theorem lookUp_keeps {Q : State → Prop} {b : BankId}
    (hQ : ∀ is s, Q s → Q (readItems .lookup b is s).1) {day : Option Half} {args : QueryArgs} {s : State} (h : Q s) :
    Q (lookUp b day args s).1 := by
  have h1 : ∀ is, Q (readItems .lookup b is s).1 := fun _ => hQ _ _ h
  unfold lookUp
  split
  · unfold lookUpCard
    dsimp only
    split
    · exact h1 _
    · exact searchCard_keeps hQ (h1 _)
  · unfold lookUpFare
    dsimp only
    split
    · exact h1 _
    · split
      · exact h1 _
      · split
        · exact hQ _ _ (h1 _)
        · exact hQ _ _ (h1 _)
  · unfold lookUpProduct
    dsimp only
    split
    · exact h1 _
    · exact searchProduct_keeps hQ (h1 _)

/-! ### A lookup that completes (R172, R177) -/

/-- The lookup in service has left its bank and become absent (R172). -/
def leaveService (v : Service) (s : State) : State :=
  let s1 :=
    match v.bank with
    | some b => releaseReader b s
    | none => s
  { s1 with lookups := { s1.lookups with service := none } }

theorem leaveService_none {v : Service} (h : v.bank = none) (s : State) :
    leaveService v s = { s with lookups := { s.lookups with service := none } } := by
  unfold leaveService
  rw [h]

theorem leaveService_some {v : Service} {b : BankId} (h : v.bank = some b) (s : State) :
    leaveService v s = releaseReader b { s with lookups := { s.lookups with service := none } } := by
  rw [releaseReader_with_lookups, ← releaseReader_lookups b s]
  unfold leaveService
  rw [h]

theorem finishLookup_discarded {v : Service} (h : v.discard = true) (verdict : Verdict) (s : State) :
    finishLookup v verdict s = leaveService v s := if_pos h

theorem finishLookup_link {v : Service} {k : LinkId} (h : v.discard = false) (hr : v.requester = .link k) (verdict : Verdict)
    (s : State) : finishLookup v verdict s = deliverLink k (answerOf s v verdict) (leaveService v s) := by
  unfold finishLookup
  rw [h, hr]
  rfl

theorem finishLookup_gateway {v : Service} (h : v.discard = false) (hr : v.requester = .gateway) (verdict : Verdict)
    (s : State) : finishLookup v verdict s = deliverGateway (answerOf s v verdict) (leaveService v s) := by
  unfold finishLookup
  rw [h, hr]
  rfl

section
variable {P : State → Prop} (hP : Lasting P)
include hP

/-! ### Configuration and tests (chapter 6) -/

theorem Lasting.link_config {link divider : Byte} {threshold : Half} {s : State} (h : P s) :
    P (linkConfig link divider threshold s).state := by
  unfold linkConfig
  split
  · exact h
  · dsimp only
    split
    · exact h
    · refine hP.alike h (alike_setLink fun hl => ⟨rfl, hl.1, ?_⟩)
      exact max_le (by decide) (min_le_left _ _)

theorem Lasting.link_enable {link : Byte} {s : State} (h : P s) : P (linkEnable link s).state := by
  unfold linkEnable
  split
  · exact h
  · next k _ =>
    split
    · exact h
    · exact h
    · next hd =>
      refine hP.alike h (alike_setLink fun hl => ⟨rfl, ?_⟩)
      exact placed_outside hl (by rw [hl.1.1 (by rw [hd]; decide)]; decide) (fun he => absurd rfl he) rfl rfl rfl

theorem Lasting.link_test {link mode count : Byte} {s : State} (h : P s) : P (linkTest link mode count s).state := by
  unfold linkTest
  split
  · next k m _ _ =>
    split
    · exact h
    · dsimp only
      split
      · exact h
      · next hd =>
        refine hP.alike h (alike_setLink fun hl => ⟨rfl, ?_⟩)
        have hd : (s.link k).state ≠ .enabled := fun he => hd (by rw [he]; decide)
        exact placed_outside hl (by rw [hl.1.1 hd]; decide) (fun _ => hl.1.1 hd) rfl rfl rfl
  · exact h

theorem Lasting.test_frame_start {k : LinkId} {s : State} (h : P s) : P (testFrameStart k s) := by
  unfold testFrameStart
  dsimp only
  split
  · exact hP.set_link h rfl rfl rfl rfl rfl
  · exact h

theorem Lasting.end_test {k : LinkId} {result : LastTest} {s : State} (ht : (s.link k).state = .testing) (h : P s) :
    P (endTest k result s) := by
  refine hP.raise_link (hP.alike h (alike_setLink fun hl => ⟨rfl, ?_⟩))
  have hd := hl.1.1 (by rw [ht]; decide)
  exact placed_outside hl (by rw [hd]; decide) (fun _ => hd) rfl rfl rfl

theorem Lasting.test_frame_returned {k : LinkId} {bytes : List Byte} {extra : Nat} {s : State} (h : P s) :
    P (testFrameReturned k bytes extra s) := by
  unfold testFrameReturned
  dsimp only
  split
  · next ht _ =>
    split
    · split
      · split
        · exact hP.end_test ht h
        · exact hP.set_link h rfl rfl rfl rfl rfl
      · exact hP.end_test ht h
    · exact h
  · exact h

theorem Lasting.test_no_echo {k : LinkId} {s : State} (h : P s) : P (testNoEcho k s) := by
  unfold testNoEcho
  dsimp only
  split
  · next ht _ =>
    split
    · exact hP.end_test ht h
    · exact h
  · exact h

/-! ### The link reset (R115, R127) -/

theorem Lasting.link_reset {k : LinkId} {s : State} (h : P s) : P (linkReset k s) := by
  have hb : ∀ b, (State.lookupsOf { s with lookups := s.lookups.dropLink k } b) = s.lookupsOf b := fun b => by
    rw [lookupsOf_eq, lookupsOf_eq]
    unfold Lookups.dropLink
    cases s.lookups.service with
    | none => rfl
    | some v => dsimp only [Option.map_some]; split <;> rfl
  have hpl : ∀ l : Link, l.placed → l.afterReset.placed := fun l hl =>
    ⟨by simp [Link.contextLaw, Link.afterReset, Link.reset, Context.reset], hl.2⟩
  have huse := contextsOf_setLink k (s.link k).afterReset s
  unfold linkReset
  dsimp only
  refine hP.reevaluated (hP.set_entry (hP.left_cycle ?_))
  split
  · next b hb' =>
    refine hP.release h rfl rfl fun hp => ⟨placed_setLink (hpl _) hp, fun c => ?_⟩
    have hc := huse c
    rw [hb', show (s.link k).afterReset.ctx.content = none from rfl] at hc
    have hs := hb c
    simp only [State.uses, Option.some.injEq, reduceCtorEq, if_false, eq_comm (a := b)] at hc hs ⊢
    rw [show State.lookupsOf { s.setLink k (s.link k).afterReset with lookups := s.lookups.dropLink k } c = s.lookupsOf c from hs,
      show State.contextsOf { s.setLink k (s.link k).afterReset with lookups := s.lookups.dropLink k } c =
        (s.setLink k (s.link k).afterReset).contextsOf c from rfl]
    omega
  · next hn =>
    refine hP.alike h ⟨rfl, rfl, fun hp => ⟨placed_setLink (hpl _) hp, fun c => ?_⟩⟩
    have hc := huse c
    rw [hn, show (s.link k).afterReset.ctx.content = none from rfl] at hc
    simp only [reduceCtorEq, if_false, Nat.add_zero] at hc
    exact congrArg₂ (· + ·) hc (hb c)

theorem Lasting.link_disable {link : Byte} {s : State} (h : P s) : P (linkDisable link s).state := by
  unfold linkDisable
  split
  · exact h
  · split
    · exact h
    · rw [answer_state]; exact hP.link_reset h

/-! ### The carousel's states (R89, R90) -/

theorem Lasting.map_links {f : Link → Link} {s : State} (h : P s)
    (hf : ∀ l : Link, l.placed → (f l).ctx.content = l.ctx.content ∧ (f l).placed) : P (mapLinks f s) := by
  refine hP.alike h (alike_of_links rfl rfl rfl fun k hk => ?_)
  rw [show (mapLinks f s).link k = f (s.link k) from PerLink.get_map f s.links k]
  exact hf _ hk

theorem Lasting.carousel_start {s : State} (h : P s) : P (carouselStart s).state := by
  unfold carouselStart
  split
  · exact h
  · refine hP.map_links (hP.alike h (alike_of rfl rfl rfl rfl)) fun l hl => ?_
    unfold Link.enterGap
    split
    · next he => exact ⟨rfl, placed_outside hl (by rw [he.2]; decide) (fun hn => absurd he.1 hn) rfl rfl rfl⟩
    · exact ⟨rfl, hl⟩

theorem Lasting.carousel_stop {s : State} (h : P s) : P (carouselStop s).state := by
  unfold carouselStop
  split
  · rw [answer_state]
    refine hP.left_cycle (hP.map_links (hP.alike h (alike_of rfl rfl rfl rfl)) fun l hl => ?_)
    unfold Link.leaveGap
    split
    · next he => exact ⟨rfl, placed_outside hl (by rw [he]; decide) (fun _ => rfl) rfl rfl rfl⟩
    · exact ⟨rfl, hl⟩
  · exact h

/-! ### Sending (R117 to R120) -/

theorem Lasting.transmit_boundary {k : LinkId} {s : State} (h : P s) : P (transmitBoundary k s) := by
  unfold transmitBoundary
  dsimp only
  split
  · exact hP.try_begin (hP.set_link h rfl rfl rfl rfl rfl)
  · exact h

omit hP in
theorem ends_cons {l : Link} {f : FifoFrame} {rest : List FifoFrame} (hl : l.txFifo = f :: rest) :
    l.ends = (if f.kind = .cycleEnd then 1 else 0) + (rest.filter fun f => decide (f.kind = .cycleEnd)).length := by
  unfold Link.ends
  rw [hl, List.filter_cons]
  by_cases hf : f.kind = .cycleEnd <;> simp [hf, Nat.add_comm]

theorem Lasting.carousel_sent {k : LinkId} {s : State} (he : (s.link k).state = .enabled) (h : P s) :
    P (carouselSent k s) := by
  unfold carouselSent
  dsimp only
  split
  · exact h
  · next f rest hf =>
    have hends := ends_cons hf
    split
    · split
      · next hk =>
        unfold endCycle
        dsimp only
        refine hP.left_cycle ?_
        rw [State.link_setLink, if_pos rfl,
          show ∀ l m, (s.setLink k l).setLink k m = s.setLink k m from fun l m => by simp [State.setLink]]
        refine hP.alike h (alike_setLink fun hl => ⟨rfl, ?_⟩)
        obtain ⟨⟨hoff, hout, hone, hend, hwip, hlast⟩, hroom⟩ := hl
        have hone' : (s.link k).ends ≤ 1 := hone
        rw [if_pos hk] at hends
        have hpos : 0 < (s.link k).ends := by omega
        have hz : (rest.filter fun f => decide (f.kind = .cycleEnd)).length = 0 := by omega
        obtain ⟨hc, hd⟩ := hlast (.inr (.inl hpos))
        exact ⟨⟨fun hn => absurd he hn, fun _ => ⟨hc, hz⟩, hz.trans_le (by decide), fun hg => ⟨(hend hg).1, hz⟩,
          fun _ _ _ => hz, fun _ => ⟨hc, hd⟩⟩, hroom⟩
      · refine hP.alike h (alike_setLink fun hl => ⟨rfl, ?_⟩)
        exact placed_fewer hl rfl rfl rfl rfl rfl (fun w hw => ⟨w, hw, rfl, rfl⟩) (by rw [hends]; exact Nat.le_add_left _ _) rfl
    · exact h

theorem Lasting.frame_transmitted {k : LinkId} {s : State} (h : P s) : P (frameTransmitted k s) := by
  unfold frameTransmitted
  dsimp only
  split
  · next he =>
    split
    · exact hP.set_link h rfl rfl rfl rfl rfl
    · exact hP.set_link h rfl rfl rfl rfl rfl
    · exact hP.carousel_sent he h
    all_goals exact h
  · exact h

theorem Lasting.underrun_met {k : LinkId} {s : State} (h : P s) : P (underrun k s) := by
  unfold underrun
  dsimp only
  split
  · next f rest _ hf =>
    have hends := ends_cons hf
    split
    · refine hP.raise_link (hP.alike h (alike_setLink fun hl => ?_))
      have hab : ∀ c : Context, c.abortWip.content = c.content ∧ c.abortWip.todo = c.todo ∧ c.abortWip.ending = c.ending ∧
          ∀ w ∈ c.abortWip.wip, ∃ v ∈ c.wip, v.kind = w.kind ∧ v.written = w.written := fun c => by
        unfold Context.abortWip
        cases hc : c.wip with
        | none => simp [hc]
        | some v => simp
      obtain ⟨h1, h2, h3, h4⟩ := hab (s.link k).ctx
      exact ⟨h1, placed_fewer hl rfl rfl h1 h2 h3 h4 (by rw [hends]; exact Nat.le_add_left _ _) rfl⟩
    · exact h
  · exact h

/-! ### Lookups (chapter 9) -/

theorem Lasting.deliver_link {k : LinkId} {a : Answer} {s : State} (h : P s) : P (deliverLink k a s) := by
  unfold deliverLink
  exact hP.try_begin (hP.set_entry (hP.set_link h rfl rfl rfl rfl rfl))

theorem Lasting.deliver_gateway {a : Answer} {s : State} (h : P s) : P (deliverGateway a s) :=
  hP.alike h (alike_of rfl rfl rfl rfl)

/-- The lookup in service completes, and leaves the bank that it serves from (R172). -/
theorem Lasting.finish_lookup {v : Service} {verdict : Verdict} {s : State} (hv : s.lookups.service = some v) (h : P s) :
    P (finishLookup v verdict s) := by
  have gone : ∀ t : State, t.links = s.links → t.standing = s.standing → t.cutover.state = s.cutover.state →
      t.lookups.service = none → ∀ b, v.bank = some b →
      P (releaseReader b t) := fun t hl hb hc hs b hvb => by
    refine hP.release h hb hc fun hp => ⟨fun k => by simpa only [State.link, hl] using hp k, fun c => ?_⟩
    have hu : t.contextsOf c = s.contextsOf c := by unfold State.contextsOf; rw [hl]
    simp only [State.uses, lookupsOf_eq, hs, hv, hu, Option.bind_some, Option.bind_none, hvb, Option.some.injEq,
      reduceCtorEq, if_false, eq_comm (a := b)]
    omega
  have h2 : P (leaveService v s) := by
    cases hb : v.bank with
    | none =>
      rw [leaveService_none hb]
      refine hP.alike h ⟨rfl, rfl, fun hp => ⟨hp, fun c => ?_⟩⟩
      simp only [State.uses, lookupsOf_eq, hv, Option.bind_some, Option.bind_none, hb]
      rfl
    | some b =>
      rw [leaveService_some hb]
      exact gone { s with lookups := { s.lookups with service := none } } rfl rfl rfl rfl b hb
  cases hd : v.discard with
  | true => rw [finishLookup_discarded hd]; exact h2
  | false =>
    cases hr : v.requester with
    | link k => rw [finishLookup_link hd hr]; exact hP.deliver_link h2
    | gateway => rw [finishLookup_gateway hd hr]; exact hP.deliver_gateway h2

/-- A query goes into service on the bank in force, which gains a reader (R171). -/
theorem Lasting.take_query {r : Requester} {q : Query} {s : State} (hs : s.lookups.service = none) (h : P s) :
    P (takeQuery r q s) := by
  have hu : ∀ t : State, t.contextsOf = s.contextsOf → t.lookups.service = some (serviceOf r q s) → ∀ c,
      t.uses c = s.uses c + (if s.inForce = some c then 1 else 0) := fun t hl ht c => by
    simp only [State.uses, lookupsOf_eq, hl, ht, hs, Option.bind_some, Option.bind_none, reduceCtorEq, if_false]
    rfl
  unfold takeQuery
  dsimp only
  split
  · next b hb =>
    refine hP.gained b h (.inl (findBank_some hb)) (standing_setRec b _ _) rfl fun hp => ⟨hp, fun c => ?_⟩
    refine Eq.trans (hu _ (by rfl) (by rfl) c) ?_
    rw [hb]
    simp only [Option.some.injEq, eq_comm]
  · next hn =>
    refine hP.alike h ⟨rfl, rfl, fun hp => ⟨hp, fun c => ?_⟩⟩
    refine Eq.trans (hu _ (by rfl) (by rfl) c) ?_
    rw [hn]
    rfl

omit hP in
theorem takeQuery_service (r : Requester) (q : Query) (s : State) :
    (takeQuery r q s).lookups.service = some (serviceOf r q s) := by
  unfold takeQuery
  dsimp only
  split <;> rfl

theorem Lasting.take_next {n : Nat} {s : State} (h : P s) : P (takeNext n s) := by
  induction n generalizing s with
  | zero => exact h
  | succ n ih =>
    unfold takeNext
    split
    · exact h
    · next hs =>
      have hs : s.lookups.service = none := by simpa using hs
      split
      · exact h
      · next r q _ =>
        dsimp only
        split
        · exact ih (hP.finish_lookup (takeQuery_service r q s) (hP.take_query hs h))
        · exact hP.take_query hs h

theorem Lasting.attempt_take {s : State} (h : P s) : P (attemptTake s) := hP.take_next h

theorem Lasting.query_met {kind : Byte} {tag : Half} {args : List Byte} {s : State} (h : P s) :
    P (query kind tag args s).state := by
  unfold query
  split
  · exact h
  · split
    · exact h
    · exact hP.attempt_take (hP.alike h (alike_of rfl rfl rfl rfl))

theorem Lasting.lookup_complete {s : State} (h : P s) : P (lookupComplete s) := by
  unfold lookupComplete
  split
  · exact h
  · next v hv =>
    split
    · exact hP.attempt_take (hP.finish_lookup hv h)
    · next b _ =>
      have h1 : P (lookUp b v.day v.query.args s).1 := lookUp_keeps (fun _ _ => hP.read_items) h
      have hl : (lookUp b v.day v.query.args s).1.lookups = s.lookups :=
        lookUp_keeps (Q := fun t => t.lookups = s.lookups) (fun is t ht => (readItems_lookups .lookup b is t).trans ht) rfl
      exact hP.attempt_take (hP.finish_lookup (hl ▸ hv) h1)

/-! ### Receiving (R121 to R124, R135) -/

theorem Lasting.judge_query {k : LinkId} {kind : QueryKind} {q : Query} {s : State} (h : P s) : P (judgeQuery k kind q s) := by
  have h1 : ∀ l : Link, l.state = (s.link k).state → l.phase = (s.link k).phase → l.ctx = (s.link k).ctx →
      l.txFifo = (s.link k).txFifo → l.threshold = (s.link k).threshold → P (s.setLink k l) :=
    fun l a b c d e => hP.set_link h a b c d e
  unfold judgeQuery
  dsimp only
  split
  · exact hP.attempt_take (hP.alike (h1 { s.link k with slots := (s.link k).slots + 1 } rfl rfl rfl rfl rfl)
      (alike_of rfl rfl rfl rfl))
  · exact hP.try_begin (h1 _ rfl rfl rfl rfl rfl)

theorem Lasting.judge_queries {k : LinkId} {n : Nat} {s : State} (h : P s) : P (judgeQueries k n s) := by
  induction n generalizing s with
  | zero => exact h
  | succ n ih =>
    unfold judgeQueries
    dsimp only
    split
    · exact h
    · next f rest _ =>
      have h1 : P (s.setLink k { s.link k with rxFifo := rest }) := hP.set_link h rfl rfl rfl rfl rfl
      split
      · exact h
      · split
        · exact ih h1
        · exact ih (hP.judge_query h1)

theorem Lasting.frame_received {k : LinkId} {bytes : List Byte} {extra : Nat} {dropped before : Bool} {s : State} (h : P s) :
    P (frameReceived k bytes extra dropped before s) := by
  unfold frameReceived
  dsimp only
  split
  · split
    · exact hP.set_link h rfl rfl rfl rfl rfl
    · exact hP.judge_queries (hP.set_link h rfl rfl rfl rfl rfl)
  · exact h

theorem Lasting.report_taken {k : LinkId} {s : State} (h : P s) : P (report k s) := by
  unfold report
  dsimp only
  split
  · exact h
  · next f rest _ =>
    have h1 : P (s.setLink k { s.link k with rxFifo := rest }) := hP.set_link h rfl rfl rfl rfl rfl
    split
    · exact h
    · split
      · exact hP.judge_queries h1
      · exact hP.judge_queries (hP.evaluate_report h1)

end

end Sys2Proof.Machine
end

section
/-!
PROOFS. A `Lasting` predicate survives the Carousel Engine: a cycle start and a refill service (R99 to R107).
-/

namespace Sys2Proof.Machine

/-! ### What a start chooses (R99 to R101) -/

/-- A content bank is the pending bank or the one in force (R99). -/
theorem chooseCycle_content {k : LinkId} {s : State} {b : BankId} (h : (chooseCycle k s).content = some b) :
    (s.recOf b).state = .inForce ∨ (s.recOf b).state = .pending := by
  have hc : ∀ l, (chooseContent l s).1 = some b → (s.recOf b).state = .inForce ∨ (s.recOf b).state = .pending := by
    intro l hl
    unfold chooseContent at hl
    split at hl
    · next p hp =>
      have hp : s.pendingBank = some b → (s.recOf b).state = .inForce ∨ (s.recOf b).state = .pending := fun h =>
        .inr (findBank_some h)
      split at hl
      · next f hf =>
        split at hl
        · cases hl; exact .inl (findBank_some hf)
        · exact hp (by rw [← hl]; assumption)
      · exact hp (by rw [← hl]; assumption)
    · exact .inl (findBank_some hl)
  unfold chooseCycle at h
  dsimp only at h
  split at h
  · cases h
  · next b' hb' =>
    refine hc (s.link k) ?_
    repeat' split at h
    all_goals first | (cases h; done) | exact hb'.trans h

/-- Reads that meet no unreadable word leave the banks. -/
theorem readItems_banks {reader : Reader} {b : BankId} {is : List Item} {s : State} (h : (readItems reader b is s).2 = true) :
    (readItems reader b is s).1.banks = s.banks := by
  unfold readItems at h ⊢
  rw [readHits_corrects _ _ _ ((readHits_ok _ _ _).1 h)]
  rfl

/-- The bank whose content a settled start takes is the pending bank or the one in force (R101). -/
theorem settleChoice_content {k : LinkId} {n : Nat} {s : State} {b : BankId}
    (h : (settleChoice k n s).2.content = some b) :
    ((settleChoice k n s).1.recOf b).state = .inForce ∨ ((settleChoice k n s).1.recOf b).state = .pending := by
  induction n generalizing s with
  | zero => exact chooseCycle_content h
  | succ n ih =>
    unfold settleChoice at h ⊢
    dsimp only at h ⊢
    split at h
    · next hn => rw [hn] at h; cases h
    · next b' hb' =>
      split at h
      · next hok =>
        rw [if_pos hok]
        have hr : ∀ x, (readItems .carousel b' (startItems (chooseCycle k s).composition) s).1.recOf x = s.recOf x := fun x => by
          simp only [State.recOf, State.bank, readItems_banks hok]
        rw [hr]
        exact chooseCycle_content h
      · next hok =>
        rw [if_neg hok]
        exact ih h

theorem settleChoice_keeps {Q : State → Prop} (hQ : ∀ b is s, Q s → Q (readItems .carousel b is s).1) {k : LinkId} {n : Nat}
    {s : State} (h : Q s) : Q (settleChoice k n s).1 := by
  induction n generalizing s with
  | zero => exact h
  | succ n ih =>
    unfold settleChoice
    dsimp only
    split
    · exact h
    · split
      · exact hQ _ _ _ h
      · exact ih (hQ _ _ _ h)

section
variable {P : State → Prop} (hP : Lasting P)
include hP

/-- The context of a link in its gap is fixed, and its content bank gains a reader (R101). -/
theorem Lasting.fix_cycle {k : LinkId} {c : Choice} {s : State} (he : (s.link k).state = .enabled)
    (hg : (s.link k).phase ≠ .inCycle)
    (hc : ∀ b, c.content = some b → (s.recOf b).state = .inForce ∨ (s.recOf b).state = .pending) (h : P s) :
    P (fixCycle k c s) := by
  have fixed : ∀ l : Link, l.state = (s.link k).state → l.ctx.ending = none → l.ctx.wip = none → l.phase = .inCycle →
      l.txFifo = (s.link k).txFifo → l.threshold = (s.link k).threshold → (s.link k).placed → l.placed := by
    intro l hs hn hw hp hf ht hl
    have hz : (l.txFifo.filter fun f => decide (f.kind = .cycleEnd)).length = 0 := by rw [hf]; exact (hl.1.2.1 hg).2
    refine ⟨⟨fun hx => absurd he (hs ▸ hx), fun hx => absurd hp hx, by rw [hz]; decide, fun hx => absurd hn hx,
      fun w hx => (by rw [hw] at hx; cases hx), fun hx => ?_⟩, by rw [ht]; exact hl.2⟩
    rcases hx with hx | hx | ⟨w, hx, -⟩
    · exact absurd hn hx
    · omega
    · rw [hw] at hx; cases hx
  have hplace : (s.link k).placed →
      Link.placed { s.link k with
        ctx := contextOf k (s.link k).cycleCounter c s, interleave := c.interleave, refresh := c.refresh,
        phase := .inCycle } := fixed _ rfl rfl rfl rfl rfl rfl
  have huse := contextsOf_setLink k { s.link k with
        ctx := contextOf k (s.link k).cycleCounter c s, interleave := c.interleave, refresh := c.refresh,
        phase := .inCycle } s
  have hcont : (contextOf k (s.link k).cycleCounter c s).content = c.content := rfl
  unfold fixCycle
  dsimp only
  split
  · next b hb =>
    refine hP.gained b h (hc b hb) (standing_setRec b _ _) rfl fun hp => ⟨placed_setLink hplace hp, fun x => ?_⟩
    have hx := huse x
    rw [((hp k).1.2.1 hg).1, hcont, hb] at hx
    simp only [reduceCtorEq, if_false, Option.some.injEq, Nat.add_zero, eq_comm (a := b)] at hx
    exact (congrArg (· + s.lookupsOf x) hx).trans (Nat.add_right_comm _ _ _)
  · next hn =>
    refine hP.alike h (alike_setLink fun hl => ⟨?_, hplace hl⟩)
    exact hn.trans (hl.1.2.1 hg).1.symm

theorem Lasting.cycle_start {k : LinkId} {s : State} (h : P s) : P (cycleStart k s) := by
  unfold cycleStart
  dsimp only
  split
  · next hs =>
    obtain ⟨he, hg, -⟩ := hs
    generalize hl1 : ({ (s.link k).takeUp s.carousel.settings with
      cycleCounter := ((s.link k).takeUp s.carousel.settings).cycleCounter + 1#16 } : Link) = l1
    have h1 : P (s.setLink k l1) := by subst hl1; exact hP.set_link h rfl rfl rfl rfl rfl
    have he1 : l1.state = .enabled := by subst hl1; exact he
    have hg1 : l1.phase ≠ .inCycle := by subst hl1; exact fun hx => absurd (hg.symm.trans hx) (by decide)
    have hk : (settleChoice k 3 (s.setLink k l1)).1.link k = l1 := by
      refine settleChoice_keeps (Q := fun t => t.link k = l1) (fun b is t ht => ?_) (by simp)
      exact (readHits_link (fun b hb => absurd hb.1 (by rw [ht]; exact hg1))).trans ht
    exact hP.fix_cycle (by rw [hk]; exact he1) (by rw [hk]; exact hg1) (fun b => settleChoice_content)
      (settleChoice_keeps (fun _ _ _ => hP.read_items) h1)
  · exact h

end

end Sys2Proof.Machine
end

section
/-!
PROOFS. A `Lasting` predicate survives a refill service (R106, R107): where a link stands when its next frame begins, when bytes
of it have been written, and at its boundary.
-/

namespace Sys2Proof.Machine

/-! ### How far a frame comes in one service (R107) -/

/-- One piece goes out, as far as there is room. -/
def Emit.piece (content : Option BankId) (p : Piece) (ps : List Piece) (e : Emit) : Emit :=
  match p, content with
  | .plain bs, _ => e.push bs false ps
  | .covered bs, _ => e.push bs true ps
  | .crc, _ => e.push e.closing false ps
  | .item i, some b => e.item b i ps
  | .item _, none => e.push [] true ps

theorem emitPieces_full {content : Option BankId} {p : Piece} {ps : List Piece} {e : Emit} (hr : e.room = 0) :
    emitPieces content (p :: ps) e = { e with left := p :: ps } := if_pos hr

theorem emitPieces_cons {content : Option BankId} {p : Piece} {ps : List Piece} {e : Emit} (hr : e.room ≠ 0) :
    emitPieces content (p :: ps) e =
      if (e.piece content p ps).left = ps then emitPieces content ps (e.piece content p ps) else e.piece content p ps :=
  if_neg hr

/-- A piece pushes some bytes, in a state that its read may have changed. -/
theorem piece_pushes (content : Option BankId) (p : Piece) (ps : List Piece) (e : Emit) :
    ∃ (bs : List Byte) (covered : Bool) (e' : Emit), e'.out = e.out ∧ e'.room = e.room ∧
      (∀ Q : State → Prop, (∀ b i s, Q s → Q (readOn .carousel (hitsIn b [i] s.upsets) s).1) →
        (∀ s n, Q s → Q { s with free := n }) → Q e.state → Q e'.state) ∧ e.piece content p ps = e'.push bs covered ps := by
  cases p with
  | plain bs => exact ⟨bs, false, e, rfl, rfl, fun _ _ _ h => h, rfl⟩
  | covered bs => exact ⟨bs, true, e, rfl, rfl, fun _ _ _ h => h, rfl⟩
  | crc => exact ⟨e.closing, false, e, rfl, rfl, fun _ _ _ h => h, rfl⟩
  | item i =>
    cases content with
    | none => exact ⟨[], true, e, rfl, rfl, fun _ _ _ h => h, rfl⟩
    | some b =>
      have hq : ∀ Q : State → Prop, (∀ b i s, Q s → Q (readOn .carousel (hitsIn b [i] s.upsets) s).1) → Q e.state →
          Q (readOn .carousel (hitsIn b [i] e.state.upsets) e.state).1 := fun Q hQ h => hQ _ _ _ h
      unfold Emit.piece Emit.item
      dsimp only
      generalize readOn .carousel (hitsIn b [i] e.state.upsets) e.state = r at hq ⊢
      split
      · exact ⟨_, true, { e with state := r.1 }, rfl, rfl, fun Q hQ _ h => hq Q hQ h, rfl⟩
      · exact ⟨_, true, { e with
            state := { r.1 with free := r.1.free + (itemBytes (r.1.bank b) i).length }, unreadable := true }, rfl, rfl,
          fun Q hQ hF h => hF _ _ (hq Q hQ h), rfl⟩

theorem emitPieces_keeps {Q : State → Prop} (hQ : ∀ b i s, Q s → Q (readOn .carousel (hitsIn b [i] s.upsets) s).1)
    (hF : ∀ s n, Q s → Q { s with free := n }) {content : Option BankId} {ps : List Piece} {e : Emit} (h : Q e.state) :
    Q (emitPieces content ps e).state := by
  induction ps generalizing e with
  | nil => exact h
  | cons p ps ih =>
    by_cases hr : e.room = 0
    · rw [emitPieces_full hr]; exact h
    · obtain ⟨bs, covered, e', -, -, hk, he⟩ := piece_pushes content p ps e
      rw [emitPieces_cons hr, he]
      have h1 : Q (e'.push bs covered ps).state := hk Q hQ hF h
      split
      · exact ih h1
      · exact h1

/-- A frame that is not whole after a service has filled the room there was (R107). -/
theorem emitPieces_fills {content : Option BankId} {ps : List Piece} {e : Emit} (h : (emitPieces content ps e).left ≠ []) :
    (emitPieces content ps e).out.length = e.out.length + e.room := by
  induction ps generalizing e with
  | nil => exact absurd rfl h
  | cons p ps ih =>
    by_cases hr : e.room = 0
    · rw [emitPieces_full hr, hr]; rfl
    · obtain ⟨bs, covered, e', ho, hm, -, he⟩ := piece_pushes content p ps e
      have hlen : (e'.push bs covered ps).out.length = e.out.length + min e.room bs.length := by
        simp [Emit.push, ho, hm]
      have hroom : (e'.push bs covered ps).room = e.room - min e.room bs.length := by simp [Emit.push, hm]
      rw [emitPieces_cons hr, he] at h ⊢
      split
      · next hl =>
        rw [if_pos hl] at h
        rw [ih h, hlen, hroom]
        omega
      · next hl =>
        have hlater : bs.drop e.room ≠ [] := fun hn => hl (by simp [Emit.push, hm, hn])
        rw [hlen]
        have := List.drop_eq_nil_iff.not.mp hlater
        omega

/-! ### The link that is served -/

/-- The next frame of a cycle is begun (R92, R107). -/
theorem beginFrame_keeps (bank : Option Bank) (l : Link) :
    (l.beginFrame bank).state = l.state ∧ (l.beginFrame bank).phase = l.phase ∧
      (l.beginFrame bank).ctx.content = l.ctx.content ∧ (l.beginFrame bank).txFifo = l.txFifo ∧
      (l.beginFrame bank).threshold = l.threshold ∧ (l.beginFrame bank).discard = l.discard := by
  unfold Link.beginFrame
  repeat' split
  all_goals exact ⟨rfl, rfl, rfl, rfl, rfl, rfl⟩

theorem wipOf_kind (l : Link) (bank : Option Bank) (spec : FrameSpec) : (wipOf l bank spec).kind ≠ .cycleEnd := by
  unfold wipOf
  split
  · exact fun h => by cases h
  · cases spec <;> exact fun h => by cases h
  · cases spec <;> exact fun h => by cases h

theorem placed_beginFrame {bank : Option Bank} {l : Link} (h : l.placed) : (l.beginFrame bank).placed := by
  obtain ⟨⟨hoff, hout, hone, hend, hwip, hlast⟩, hroom⟩ := h
  unfold Link.beginFrame
  split
  · exact ⟨⟨hoff, hout, hone, hend, hwip, hlast⟩, hroom⟩
  · next hw =>
    split
    · next body hb =>
      have hne : l.ctx.ending ≠ none := by rw [hb]; exact fun h => by cases h
      obtain ⟨-, hz⟩ := hend hne
      exact ⟨⟨hoff, hout, hone, fun hx => absurd rfl hx, fun _ _ _ => hz, fun _ => hlast (.inl hne)⟩, hroom⟩
    · next hn =>
      split
      · next spec rest ht =>
        have hz : l.ends = 0 := Nat.eq_zero_of_not_pos fun hp => by
          have := (hlast (.inr (.inl hp))).2
          rw [ht] at this
          cases this
        refine ⟨⟨hoff, hout, hone, fun hx => absurd hn hx, fun _ _ _ => hz, fun hx => ?_⟩, hroom⟩
        rcases hx with hx | hx | ⟨w, hx, hk⟩
        · exact absurd hn hx
        · exact absurd hz (Nat.pos_iff_ne_zero.mp hx)
        · cases hx
          exact absurd hk (wipOf_kind l bank spec)
      · exact ⟨⟨hoff, hout, hone, hend, hwip, hlast⟩, hroom⟩

/-- What the bytes of a frame leave of its link (R109). -/
theorem storeBytes_keeps (kind : FrameKind) (first whole : Bool) (out : List Byte) (l : Link) :
    (l.storeBytes kind first whole out).state = l.state ∧ (l.storeBytes kind first whole out).phase = l.phase ∧
      (l.storeBytes kind first whole out).ctx = l.ctx ∧ (l.storeBytes kind first whole out).threshold = l.threshold := by
  unfold Link.storeBytes
  repeat' split
  all_goals exact ⟨rfl, rfl, rfl, rfl⟩

/-- Only the first bytes of a CYCLE_END, or bytes of one that has left the FIFO, add a CYCLE_END to it (R106). -/
theorem ends_storeBytes (kind : FrameKind) (first whole : Bool) (out : List Byte) (l : Link) :
    (kind ≠ .cycleEnd → (l.storeBytes kind first whole out).ends ≤ l.ends) ∧
      ((first = true → l.ends = 0) → l.ends ≤ 1 → (l.storeBytes kind first whole out).ends ≤ 1) := by
  have hsplit : ∀ (fs gs : List FifoFrame), ((fs ++ gs).filter fun f => decide (f.kind = .cycleEnd)).length =
      (fs.filter fun f => decide (f.kind = .cycleEnd)).length + (gs.filter fun f => decide (f.kind = .cycleEnd)).length :=
    fun fs gs => by rw [List.filter_append, List.length_append]
  have hone : ∀ f : FifoFrame, ([f].filter fun f => decide (f.kind = .cycleEnd)).length ≤ 1 := fun f =>
    List.length_filter_le _ [f]
  have hnone : ∀ f : FifoFrame, f.kind ≠ .cycleEnd → ([f].filter fun f => decide (f.kind = .cycleEnd)).length = 0 :=
    fun f hf => by simp [hf]
  unfold Link.storeBytes Link.ends
  split
  · exact ⟨fun _ => le_rfl, fun _ h => h⟩
  · split
    · next hf =>
      dsimp only
      rw [hsplit]
      refine ⟨fun hk => by rw [hnone ⟨kind, out, whole⟩ hk]; exact le_rfl, fun hz _ => ?_⟩
      rw [hz hf, Nat.zero_add]
      exact hone _
    · split
      · next f hl =>
        have hd := List.dropLast_append_getLast? f hl
        have hsame : ∀ g : FifoFrame, g.kind = f.kind →
            ((l.txFifo.dropLast ++ [g]).filter fun f => decide (f.kind = .cycleEnd)).length =
            (l.txFifo.filter fun f => decide (f.kind = .cycleEnd)).length := fun g hg => by
          conv_rhs => rw [← hd]
          rw [hsplit, hsplit]
          simp [hg, List.filter_cons]
          split <;> rfl
        dsimp only
        rw [hsame ⟨f.kind, f.bytes ++ out, whole⟩ rfl]
        exact ⟨fun _ => le_rfl, fun _ h => h⟩
      · exact ⟨fun hk => by rw [hnone ⟨kind, out, whole⟩ hk]; exact Nat.zero_le _, fun _ _ => hone _⟩

/-- What a service has written of a frame leaves the content bank, the frames to come and a composed CYCLE_END (R97, R98). -/
theorem wrote_keeps (w : Wip) (e : Emit) (c : Context) :
    (c.wrote w e).content = c.content ∧ (c.wrote w e).todo = c.todo ∧ (c.wrote w e).ending = c.ending ∧
      (e.left = [] → (c.wrote w e).wip = none) ∧
      ∀ v ∈ (c.wrote w e).wip, e.left ≠ [] ∧ v.kind = w.kind ∧ v.written = w.written + e.out.length := by
  unfold Context.wrote
  dsimp only
  split
  · next h => exact ⟨rfl, rfl, rfl, fun _ => rfl, fun v hv => by cases hv⟩
  · next h => exact ⟨rfl, rfl, rfl, fun hn => absurd hn h, fun v hv => by cases hv; exact ⟨h, rfl, rfl⟩⟩

/-- A link in a cycle after bytes of its frame have been written, when a frame that is not whole has got some (R106, R107). -/
theorem placed_served {l m : Link} {w : Wip} {e : Emit} (h : l.placed) (hw : l.ctx.wip = some w) (hp : l.phase = .inCycle)
    (ho : e.left ≠ [] → e.out ≠ [])
    (hm : m = Link.storeBytes w.kind (decide (w.written = 0)) (decide (e.left = [])) e.out { l with ctx := l.ctx.wrote w e }) :
    m.placed ∧ (w.kind ≠ .cycleEnd → m.ends = 0) := by
  obtain ⟨⟨hoff, hout, hone, hend, hwip, hlast⟩, hroom⟩ := h
  obtain ⟨k1, k2, k3, k4⟩ := storeBytes_keeps w.kind (decide (w.written = 0)) (decide (e.left = [])) e.out
    { l with ctx := l.ctx.wrote w e }
  obtain ⟨hfew, hmost⟩ := ends_storeBytes w.kind (decide (w.written = 0)) (decide (e.left = [])) e.out
    { l with ctx := l.ctx.wrote w e }
  obtain ⟨c1, c2, c3, -, c5⟩ := wrote_keeps w e l.ctx
  rw [← hm] at k1 k2 k3 k4 hfew hmost
  have hzero : w.kind ≠ .cycleEnd → m.ends = 0 := fun hk =>
    Nat.eq_zero_of_le_zero ((hfew hk).trans_eq (hwip w hw (.inl hk)))
  have hnoend : l.ctx.ending = none := Classical.byContradiction fun hx => by rw [(hend hx).1] at hw; cases hw
  refine ⟨⟨⟨fun hx => ?_, fun hx => ?_, hmost (fun hf => hwip w hw (.inr (by simpa using hf))) hone, fun hx => ?_,
    fun v hv hx => ?_, fun hx => ?_⟩, k4.trans_le hroom⟩, hzero⟩
  · exact k2.trans (hoff (k1 ▸ hx))
  · exact absurd (k2.trans hp) hx
  · exact absurd (by rw [k3, c3]; exact hnoend) hx
  · rw [k3] at hv
    obtain ⟨hl, hkind, hwr⟩ := c5 v hv
    refine hzero fun hk => ?_
    rcases hx with hx | hx
    · exact hx (hkind.trans hk)
    · have := List.length_pos_iff.mpr (ho hl)
      omega
  · rw [k3, c1, c2]
    by_cases hk : w.kind = .cycleEnd
    · exact hlast (.inr (.inr ⟨w, hw, hk⟩))
    · rcases hx with hx | hx | ⟨v, hv, hx⟩
      · exact absurd (by rw [k3, c3]; exact hnoend) hx
      · exact absurd (hzero hk) (Nat.pos_iff_ne_zero.mp hx)
      · rw [k3] at hv
        exact absurd ((c5 v hv).2.1.symm.trans hx) hk

section
variable {P : State → Prop} (hP : Lasting P)
include hP

theorem Lasting.pass_lines {passed : List (Nat × List Byte)} {s : State} (h : P s) : P (passLines passed s) := by
  have arrives : ∀ (bs : List Byte) (l : Link), (l.arrive bs).state = l.state ∧ (l.arrive bs).phase = l.phase ∧
      (l.arrive bs).ctx = l.ctx ∧ (l.arrive bs).txFifo = l.txFifo ∧ (l.arrive bs).threshold = l.threshold := fun bs l => by
    unfold Link.arrive
    split <;> exact ⟨rfl, rfl, rfl, rfl, rfl⟩
  have drains : ∀ (n : Nat) (l : Link), (l.drain n).state = l.state ∧ (l.drain n).phase = l.phase ∧
      (l.drain n).ctx = l.ctx ∧ (l.drain n).ends = l.ends ∧ (l.drain n).threshold = l.threshold := fun n l => by
    unfold Link.drain
    split
    · next hf =>
      refine ⟨rfl, rfl, rfl, ?_, rfl⟩
      rw [ends_cons hf, ends_cons (f := _) (rest := _) (by rfl)]
    · exact ⟨rfl, rfl, rfl, rfl, rfl⟩
  refine foldl_invariant P _ (fun s k hs => ?_) _ _ h
  generalize passed.getD k.val (0, []) = p
  obtain ⟨a1, a2, a3, a4, a5⟩ := arrives p.2 ((s.link k).drain p.1)
  obtain ⟨d1, d2, d3, d4, d5⟩ := drains p.1 (s.link k)
  refine hP.alike hs (alike_setLink fun hl => ⟨by rw [a3, d3], ?_⟩)
  refine placed_fewer hl (a1.trans d1) (a2.trans d2) (by rw [a3, d3]) (by rw [a3, d3]) (by rw [a3, d3])
    (fun w hw => ⟨w, by rwa [a3, d3] at hw, rfl, rfl⟩) ?_ (a5.trans d5)
  rw [Link.ends, a4]
  exact d4.le

/-- The boundary after a frame that is not the CYCLE_END (R101, R102). -/
theorem Lasting.frame_boundary {k : LinkId} {l : Link} {s : State} (h : P (s.setLink k l)) (h0 : P s)
    (hc : l.ctx.content = (s.link k).ctx.content) (hw : l.ctx.wip = none) (hp : l.phase = .inCycle)
    (hl : (s.link k).placed → l.placed ∧ l.ends = 0) : P (frameBoundary k (s.setLink k l)) := by
  have hlink : (s.setLink k l).link k = l := by simp
  have composed : l.ctx.todo = [] → P (composeEnd k (s.setLink k l)) := fun ht => by
    unfold composeEnd
    dsimp only
    rw [hlink]
    split
    · next hn =>
      rw [show ∀ m, (s.setLink k l).setLink k m = s.setLink k m from fun m => by simp [State.setLink]]
      refine hP.alike h0 (alike_setLink fun hx => ⟨by rw [← hc, hn], ?_⟩)
      obtain ⟨hm, hz⟩ := hl hx
      exact placed_ended ht hm hp hw hz
    · next b hb =>
      refine hP.give_up (by rw [hlink]; exact hb) rfl (fun hx => ?_) h
      rw [hlink] at hx
      obtain ⟨-, hz⟩ := placed_content hx hb
      exact placed_ended ht hx hp hw hz
  unfold frameBoundary
  dsimp only
  rw [hlink]
  split
  · split
    · exact hP.take_cut (by rw [hlink]; exact hw) h
    · split
      · next ht => exact composed ht
      · exact h
  · split
    · next ht => exact composed ht
    · exact h

/-- A service of a link in a cycle that has room for a byte (R107). -/
theorem Lasting.serve_link {k : LinkId} {s : State} (hp : (s.link k).phase = .inCycle)
    (hr : (s.link k).txFill ≤ (s.link k).threshold) (h : P s) : P (serveLink k s) := by
  generalize hl : (s.link k).beginFrame ((s.link k).ctx.content.map s.bank) = l
  obtain ⟨b1, b2, b3, b4, b5, b6⟩ := beginFrame_keeps ((s.link k).ctx.content.map s.bank) (s.link k)
  rw [hl] at b1 b2 b3 b4 b5 b6
  unfold serveLink
  dsimp only
  rw [hl]
  split
  · exact h
  · next w hw =>
    have h1 : P (s.setLink k l) := hP.alike h (alike_setLink fun hx => ⟨b3, hl ▸ placed_beginFrame hx⟩)
    generalize hroom : (if 0 < l.discard then l.discard else Config.txFifoBytes - l.txFill) = room
    generalize he : emitPieces l.ctx.content w.pieces ⟨s.setLink k l, w.pieces, w.crc, [], room, w.unreadable⟩ = e
    have h2 : P e.state := by
      rw [← he]
      exact emitPieces_keeps (fun _ _ _ => hP.read_on) (fun _ _ hx => hP.alike hx (alike_of rfl rfl rfl rfl)) h1
    have hk : e.state.link k = l := by
      rw [← he]
      refine emitPieces_keeps (Q := fun t => t.link k = l) (fun b i t ht => ?_) (fun _ _ hx => hx) (by simp)
      refine (readOn_link fun b hb => ?_).trans ht
      rw [ht] at hb
      exact absurd hb.2.2.1 (by rw [hw]; exact fun hx => by cases hx)
    have hout : l.placed → e.left ≠ [] → e.out ≠ [] := fun hx hn ho => by
      rw [← he] at hn ho
      have hf := emitPieces_fills hn
      rw [ho] at hf
      have ht : l.txFill < Config.txFifoBytes := by
        have hx : l.threshold ≤ 960 := hx.2
        rw [b5] at hx
        rw [Link.txFill, b4]
        exact (hr.trans hx).trans_lt (by decide)
      have : 0 < room := by rw [← hroom]; split <;> omega
      simp only [List.length_nil] at hf
      omega
    rw [hk]
    generalize hm : Link.storeBytes w.kind (decide (w.written = 0)) (decide (e.left = [])) e.out
      { l with ctx := l.ctx.wrote w e } = m
    obtain ⟨-, k2, k3, -⟩ := storeBytes_keeps w.kind (decide (w.written = 0)) (decide (e.left = [])) e.out
      { l with ctx := l.ctx.wrote w e }
    obtain ⟨c1, -, -, c4, -⟩ := wrote_keeps w e l.ctx
    rw [hm] at k2 k3
    have hmc : m.ctx.content = l.ctx.content := by rw [k3, c1]
    have hmp : m.phase = .inCycle := by rw [k2]; exact b2.trans hp
    have served : l.placed → m.placed ∧ (w.kind ≠ .cycleEnd → m.ends = 0) := fun hx =>
      placed_served hx hw (b2.trans hp) (hout hx) hm.symm
    have h3 : P (e.state.setLink k m) :=
      hP.alike h2 (alike_setLink fun hx => ⟨by rw [hmc, hk], (served (hk ▸ hx)).1⟩)
    refine hP.try_begin ?_
    split
    · next hlast =>
      obtain ⟨hleft, hkind⟩ := hlast
      refine hP.frame_boundary h3 h2 (by rw [hmc, hk]) (by rw [k3]; exact c4 hleft) hmp fun hx => ?_
      obtain ⟨s1, s2⟩ := served (hk ▸ hx)
      exact ⟨s1, s2 hkind⟩
    · exact h3

theorem Lasting.refill_service {passed : List (Nat × List Byte)} {s : State} (h : P s) : P (refillService passed s) := by
  have h1 : P (passLines passed s) := hP.pass_lines h
  unfold refillService
  dsimp only
  split
  · exact h1
  · next k hk =>
    have hneed := List.find?_some hk
    simp only [Link.needsRefill, Link.inCycle, Bool.and_eq_true, decide_eq_true_eq] at hneed
    obtain ⟨⟨⟨-, hp⟩, -⟩, hr⟩ := hneed
    exact hP.serve_link hp hr (hP.alike h1 (alike_of rfl rfl rfl rfl))

end

end Sys2Proof.Machine
end

section
/-!
PROOFS. A `Lasting` predicate survives every step; so do the laws of the bank roles (O55) and of the reader counts (O56).
-/

namespace Sys2Proof.Machine

/-! ### Commands that only read -/

theorem bankRead_state (bank selector : Byte) (first : Half) (s : State) : (bankRead bank selector first s).state = s := by
  unfold bankRead
  split
  · rfl
  · split <;> rfl
  · rfl

theorem linkRead_state (link : Byte) (s : State) : (linkRead link s).state = s := by
  unfold linkRead
  split <;> rfl

theorem validatorRead_state (link : Byte) (s : State) : (validatorRead link s).state = s := by
  unfold validatorRead
  split <;> rfl

section
variable {P : State → Prop} (hP : Lasting P)
include hP

/-! ### The port and the resets (chapter 11) -/

theorem Lasting.write_message {low : Bool} {bytes : List Byte} {s : State} (h : P s) : P (writeMessage low bytes s) := by
  unfold writeMessage
  split
  · exact hP.alike h (alike_of rfl rfl rfl rfl)
  · unfold judgeArrival
    dsimp only
    split
    all_goals exact hP.alike h (alike_of rfl rfl rfl rfl)

theorem Lasting.read_response {late : Bool} {clocked : Nat} {s : State} (h : P s) : P (readResponse late clocked s) := by
  have h1 : ∀ t, P t → P { t with port := { t.port with miso := misoBytes (responseToSend late s) clocked } } := fun t ht =>
    hP.alike ht (alike_of rfl rfl rfl rfl)
  unfold readResponse
  dsimp only
  repeat' split
  · exact h1 _ (hP.alike h (alike_of rfl rfl rfl rfl))
  all_goals exact h1 _ h

theorem Lasting.ignored_transaction {bytes : List Byte} {s : State} (h : P s) : P (ignoredTransaction bytes s) := by
  unfold ignoredTransaction
  split
  · exact hP.alike h (alike_of rfl rfl rfl rfl)
  · exact h

theorem Lasting.reset_blocks (s : State) : P (resetBlocks s) :=
  hP.reset (funext fun b => by cases b <;> rfl) rfl rfl rfl

theorem Lasting.enter_reset (s : State) : P (enterReset s) :=
  hP.alike (hP.reset_blocks s) (alike_of rfl rfl rfl rfl)

theorem Lasting.leave_reset {s : State} (h : P s) : P (leaveReset s) := by
  unfold leaveReset
  split
  · exact hP.alike h (alike_of rfl rfl rfl rfl)
  · exact h

/-! ### Every command, every step -/

theorem Lasting.executed {i : Instr} {s t : State} (h : P s) (ht : exec i s = .next t) : P t := by
  have at_port : ∀ {own : State → Reply}, (∀ s, P s → P (own s).state) → exec i s = .next (gateway i own s) → P t :=
    fun hown he => by
      rw [he] at ht
      cases ht
      exact hP.through_gateway hown h
  have in_part : ∀ {f : State → State}, (P s → P (f s)) → exec i s = .next (event f s) → P t := fun hf he => by
    rw [he] at ht
    cases ht
    exact Lasting.through_event hf h
  cases i with
  | powerOn => cases ht; exact hP.enter_reset s
  | resetNLow => cases ht; exact hP.enter_reset s
  | resetEnd => cases ht; exact hP.leave_reset h
  | deviceReset => exact at_port (fun s _ => hP.reset_blocks s) rfl
  | writeMessage => exact in_part hP.write_message rfl
  | readResponse => exact in_part hP.read_response rfl
  | ignoredTransaction => exact in_part hP.ignored_transaction rfl
  | openBuild => exact at_port (fun _ => hP.open_build) rfl
  | closeBuild => exact at_port (fun _ => hP.close_build) rfl
  | withdraw => exact at_port (fun _ => hP.withdrawn) rfl
  | discardBuild => exact at_port (fun _ => hP.discard_build) rfl
  | bankRead => exact at_port (fun _ h => by rw [bankRead_state]; exact h) rfl
  | rangeRead => exact at_port (fun _ => hP.range_read) rfl
  | tariffRead => exact at_port (fun _ => hP.tariff_read) rfl
  | segment => exact at_port (fun _ => hP.segment_taken) rfl
  | carouselConfig => exact at_port (fun _ h => hP.alike h (alike_of rfl rfl rfl rfl)) rfl
  | carouselStart => exact at_port (fun _ => hP.carousel_start) rfl
  | carouselStop => exact at_port (fun _ => hP.carousel_stop) rfl
  | linkConfig => exact at_port (fun _ => hP.link_config) rfl
  | linkEnable => exact at_port (fun _ => hP.link_enable) rfl
  | linkDisable => exact at_port (fun _ => hP.link_disable) rfl
  | linkTest => exact at_port (fun _ => hP.link_test) rfl
  | linkRead => exact at_port (fun _ h => by rw [linkRead_state]; exact h) rfl
  | validatorConfig => exact at_port (fun _ => hP.validator_config) rfl
  | validatorRead => exact at_port (fun _ h => by rw [validatorRead_state]; exact h) rfl
  | validatorExclude => exact at_port (fun _ => hP.validator_exclude) rfl
  | validatorInclude => exact at_port (fun _ => hP.validator_include) rfl
  | timeSet => exact at_port (fun _ => hP.time_set) rfl
  | cutoverConfig => exact at_port (fun _ => hP.cutover_config) rfl
  | cutoverNow => exact at_port (fun _ => hP.cutover_now) rfl
  | query => exact at_port (fun _ => hP.query_met) rfl
  | eventsRead => exact at_port (fun _ h => h) rfl
  | eventsClear => exact at_port (fun _ => hP.events_clear) rfl
  | eventMask => exact at_port (fun _ => hP.event_mask) rfl
  | scrubConfig => exact at_port (fun _ h => hP.alike h (alike_of rfl rfl rfl rfl)) rfl
  | identify => exact at_port (fun _ h => h) rfl
  | status => exact at_port (fun _ h => h) rfl
  | copyComplete => exact in_part hP.copy_complete rfl
  | drainComplete => exact in_part hP.drain_complete rfl
  | closeRunComplete => exact in_part hP.close_run_complete rfl
  | checkPhaseEnd => exact in_part hP.check_phase_end rfl
  | applyPhaseEnd => exact in_part hP.apply_phase_end rfl
  | cycleStart => exact in_part hP.cycle_start rfl
  | refillService => exact in_part hP.refill_service rfl
  | transmitBoundary => exact in_part hP.transmit_boundary rfl
  | frameTransmitted => exact in_part hP.frame_transmitted rfl
  | underrun => exact in_part hP.underrun_met rfl
  | frameReceived => exact in_part hP.frame_received rfl
  | report => exact in_part hP.report_taken rfl
  | validatorSilent => exact in_part hP.validator_silent rfl
  | minuteEvent => exact in_part hP.minute_event rfl
  | waitExpired => exact in_part hP.wait_expired rfl
  | inhibitAssertion => exact in_part hP.take_inhibit rfl
  | inhibitDeassertion => exact in_part hP.inhibit_deassertion rfl
  | graceRunOut => exact in_part hP.grace_run_out rfl
  | lookupComplete => exact in_part hP.lookup_complete rfl
  | scrubPeriod => exact in_part hP.scrub_period rfl
  | scrubRead => exact in_part hP.scrub_read rfl
  | testFrameReturned => exact in_part hP.test_frame_returned rfl
  | testNoEcho => exact in_part hP.test_no_echo rfl
  | testFrameStart => exact in_part hP.test_frame_start rfl
  | copyFailure => exact in_part hP.copy_failure rfl
  | closingRunFailure => exact in_part hP.closing_run_failure rfl

/-- A lasting predicate survives every step. -/
theorem Lasting.stepped {s t : State} (h : P s) (ht : step s = .next t) : P t := by
  unfold step at ht
  split at ht
  · cases ht
    exact hP.passes_tick h
  · next c rest _ =>
    have h1 : P { s with pending := rest } := hP.alike h (alike_of rfl rfl rfl rfl)
    exact hP.executed h1 ht

end

end Sys2Proof.Machine
end

section
/-!
PROOFS. The laws of the bank roles and of the reader counts are `Lasting` (R3, R4, R13, R156), which settles O55 and O56.
-/

namespace Sys2Proof.Machine

/-! ### The roles (R3, R13, R156) -/

/-- R3, R13 and R156 of the standings of the two banks and the state of Cutover Control. -/
structure RolesKept (σ : BankId → Standing) (c : CutState) : Prop where
  force : ∀ b, (σ b).state = .inForce → (σ (other b)).state ≠ .inForce
  build : ∀ b, (σ b).state.buildSide = true → (σ (other b)).state.buildSide = false
  number : ∀ b, (σ b).state.numbered = true → (σ b).seq ≠ 0#16
  differ : ∀ b, (σ b).state = .pending → (σ (other b)).state = .inForce → (σ b).seq ≠ (σ (other b)).seq
  quiet : ∀ b, (σ b).state = .empty ∨ (σ b).state = .copying ∨ (σ b).state = .building ∨ (σ b).state = .closing →
    (σ b).readers = 0
  control : c = .idle ↔ ∀ b, (σ b).state ≠ .pending

theorem pendingBank_none {s : State} : s.pendingBank = none ↔ ∀ b, (s.standing b).state ≠ .pending := findBank_none

theorem rolesKept_iff (s : State) :
    RolesKept s.standing s.cutover.state ↔ rolesLaw s ∧ sequenceLaw s ∧ quietLaw s ∧ cutoverLaw s := by
  constructor
  · intro h
    have hroles : rolesLaw s :=
      ⟨fun ⟨ha, hb⟩ => h.force .bankA ha hb, fun ⟨ha, hb⟩ => absurd ((h.build .bankA ha).symm.trans hb) (by decide)⟩
    refine ⟨hroles, ⟨h.number .bankA, h.number .bankB, fun p hp f hf => ?_⟩, h.quiet, h.control.trans pendingBank_none.symm⟩
    have hp := findBank_some hp
    have hf := findBank_some hf
    have hne : f = other p := (eq_or_other p f).resolve_left fun e => by rw [e, hp] at hf; cases hf
    subst hne
    exact h.differ p hp hf
  · rintro ⟨⟨h1, h2⟩, ⟨h3, h4, h5⟩, h6, h7⟩
    refine ⟨fun b hb hc => ?_, fun b hb => ?_, fun b => ?_, fun b hb hc => ?_, h6, h7.trans pendingBank_none⟩
    · cases b
      · exact h1 ⟨hb, hc⟩
      · exact h1 ⟨hc, hb⟩
    · refine Bool.eq_false_iff.mpr fun hc => ?_
      cases b
      · exact h2 ⟨hb, hc⟩
      · exact h2 ⟨hc, hb⟩
    · cases b
      · exact h3
      · exact h4
    · exact h5 b (pendingBank_of ⟨h1, h2⟩ hb) (other b) (inForce_of ⟨h1, h2⟩ hc)

/-- One bank's standing replaced. -/
theorem RolesKept.update {σ : BankId → Standing} {c c' : CutState} (h : RolesKept σ c) (b : BankId) (x : BankState)
    (seq : Half) (readers : Nat) (force : x = .inForce → (σ (other b)).state ≠ .inForce)
    (build : x.buildSide = true → (σ (other b)).state.buildSide = false)
    (number : x.numbered = true → seq ≠ 0#16)
    (differ : x = .pending → (σ (other b)).state = .inForce → seq ≠ (σ (other b)).seq)
    (differ' : x = .inForce → (σ (other b)).state = .pending → (σ (other b)).seq ≠ seq)
    (quiet : x = .empty ∨ x = .copying ∨ x = .building ∨ x = .closing → readers = 0)
    (control : c' = .idle ↔ x ≠ .pending ∧ (σ (other b)).state ≠ .pending) :
    RolesKept (Function.update σ b ⟨x, seq, readers⟩) c' := by
  have at_b : Function.update σ b ⟨x, seq, readers⟩ b = ⟨x, seq, readers⟩ := Function.update_self b _ σ
  have at_other : Function.update σ b ⟨x, seq, readers⟩ (other b) = σ (other b) := Function.update_of_ne (other_ne b) _ σ
  constructor
  · intro d hd
    rcases eq_or_other b d with rfl | rfl
    · rw [at_b] at hd; rw [at_other]; exact force hd
    · rw [at_other] at hd; rw [other_other, at_b]; exact fun hx => force hx hd
  · intro d hd
    rcases eq_or_other b d with rfl | rfl
    · rw [at_b] at hd; rw [at_other]; exact build hd
    · rw [at_other] at hd
      rw [other_other, at_b]
      exact Bool.eq_false_iff.mpr fun hx => absurd (hd.symm.trans (build hx)) (by decide)
  · intro d hd
    rcases eq_or_other b d with rfl | rfl
    · rw [at_b] at hd ⊢; exact number hd
    · rw [at_other] at hd ⊢; exact h.number _ hd
  · intro d hd he
    rcases eq_or_other b d with rfl | rfl
    · rw [at_b] at hd ⊢; rw [at_other] at he ⊢; exact differ hd he
    · rw [other_other, at_b] at he ⊢; rw [at_other] at hd ⊢; exact differ' he hd
  · intro d hd
    rcases eq_or_other b d with rfl | rfl
    · rw [at_b] at hd ⊢; exact quiet hd
    · rw [at_other] at hd ⊢; exact h.quiet _ hd
  · refine control.trans ⟨fun ⟨h1, h2⟩ d => ?_, fun hn => ⟨fun hx => hn b (by rw [at_b]; exact hx), at_other ▸ hn (other b)⟩⟩
    rcases eq_or_other b d with rfl | rfl
    · rw [at_b]; exact h1
    · rw [at_other]; exact h2

/-- No bank is PENDING beside one on the build side. -/
theorem RolesKept.idle_iff {σ : BankId → Standing} {c : CutState} (h : RolesKept σ c) {b : BankId}
    (hb : (σ b).state ≠ .pending) : c = .idle ↔ (σ (other b)).state ≠ .pending :=
  h.control.trans ⟨fun hn => hn _, fun hn d => by rcases eq_or_other b d with rfl | rfl; exacts [hb, hn]⟩

/-- One bank goes to a state that is neither IN_FORCE nor PENDING, as it was not PENDING before. -/
theorem RolesKept.settle {σ : BankId → Standing} {c : CutState} (h : RolesKept σ c) (b : BankId) (x : BankState)
    (seq : Half) (readers : Nat) (old : (σ b).state ≠ .pending) (force : x ≠ .inForce) (pending : x ≠ .pending)
    (build : x.buildSide = true → (σ (other b)).state.buildSide = false) (number : x.numbered = true → seq ≠ 0#16)
    (quiet : x = .empty ∨ x = .copying ∨ x = .building ∨ x = .closing → readers = 0) :
    RolesKept (Function.update σ b ⟨x, seq, readers⟩) c :=
  h.update b x seq readers (fun hx => absurd hx force) build number (fun hx => absurd hx pending) (fun hx => absurd hx force) quiet
    ((h.idle_iff old).trans ⟨fun hn => ⟨pending, hn⟩, And.right⟩)

/-- The pending bank comes into force, and the one in force goes to STALE (R21). -/
theorem RolesKept.promoted {σ : BankId → Standing} {c : CutState} (h : RolesKept σ c) {p : BankId}
    (hp : (σ p).state = .pending) :
    RolesKept (Function.update (fun x => if (σ x).state = .inForce then { σ x with state := .stale } else σ x) p
      { σ p with state := .inForce }) .idle := by
  have hs : (σ (other p)).state.buildSide = false := h.build p (by rw [hp]; rfl)
  have hn : (σ (other p)).state ≠ .pending := fun hx => by rw [hx] at hs; cases hs
  have split : (fun x => if (σ x).state = .inForce then { σ x with state := BankState.stale } else σ x) =
      Function.update σ (other p) (if (σ (other p)).state = .inForce then { σ (other p) with state := .stale } else σ (other p)) := by
    funext x
    rcases eq_or_other p x with rfl | rfl
    · rw [Function.update_of_ne (ne_other x), if_neg (by rw [hp]; decide)]
    · rw [Function.update_self]
  rw [split]
  have h1 : RolesKept (Function.update σ (other p)
      (if (σ (other p)).state = .inForce then { σ (other p) with state := .stale } else σ (other p))) c := by
    split
    · next hf =>
      exact h.settle (other p) .stale _ _ hn (by decide) (by decide) nofun
        (fun _ => h.number _ (by rw [hf]; rfl)) (fun hx => absurd hx (by decide))
    · rw [Function.update_eq_self]; exact h
  have hother : ((Function.update σ (other p)
      (if (σ (other p)).state = .inForce then { σ (other p) with state := .stale } else σ (other p))) (other p)).state ≠ .inForce ∧
      ((Function.update σ (other p)
      (if (σ (other p)).state = .inForce then { σ (other p) with state := .stale } else σ (other p))) (other p)).state ≠ .pending := by
    rw [Function.update_self]
    split
    · exact ⟨nofun, nofun⟩
    · next hf => exact ⟨hf, hn⟩
  exact h1.update p .inForce _ _ (fun _ => hother.1) nofun (fun _ => h.number p (by rw [hp]; rfl)) nofun (fun _ hx => absurd hx hother.2)
    (fun hx => absurd hx (by decide)) ⟨fun _ => ⟨nofun, hother.2⟩, fun _ => rfl⟩

/-- A move of the life cycle keeps the roles. -/
theorem RolesKept.moved {σ τ : BankId → Standing} {c d : CutState} (h : RolesKept σ c) (m : BankMove σ c τ d) :
    RolesKept τ d := by
  have side : ∀ {b : BankId} {x : BankState}, (σ b).state = x → x.buildSide = true → (σ (other b)).state.buildSide = false :=
    fun hx hs => h.build _ (by rw [hx]; exact hs)
  have not_pending : ∀ {b : BankId}, (σ b).state.buildSide = false → (σ b).state ≠ .pending := fun hs hx => by
    rw [hx] at hs; cases hs
  cases m with
  | drains b free target readers =>
    have hf : (σ b).state ≠ .inForce := fun hx => h.force b hx (target hx)
    refine h.settle b .draining _ _ (not_pending (free b)) (by decide) (by decide) (fun _ => free _) (fun _ => h.number b ?_)
      (fun hx => absurd hx (by decide))
    have hq := h.quiet b
    have hs := free b
    cases hst : (σ b).state with
    | stale => rfl
    | pending => rfl
    | inForce => rfl
    | draining => rfl
    | empty => rw [hq (.inl hst)] at readers; exact absurd readers (Nat.lt_irrefl 0)
    | copying => rw [hst] at hs; cases hs
    | building => rw [hst] at hs; cases hs
    | closing => rw [hst] at hs; cases hs
  | begins b x built target readers =>
    have hp : (σ b).state ≠ .pending := by
      rcases target with ⟨free, -⟩ | hd
      · exact not_pending (free b)
      · rw [hd]; decide
    have hs : (σ (other b)).state.buildSide = false := by
      rcases target with ⟨free, -⟩ | hd
      · exact free _
      · exact side hd rfl
    rcases built with rfl | rfl
    · exact h.settle b .copying _ _ hp (by decide) (by decide) (fun _ => hs) nofun (fun _ => rfl)
    · exact h.settle b .building _ _ hp (by decide) (by decide) (fun _ => hs) nofun (fun _ => rfl)
  | empties b from' =>
    refine h.settle b .empty _ _ ?_ (by decide) (by decide) nofun nofun (fun _ => rfl)
    rcases from' with ⟨hx, -⟩ | hx | hx | hx <;> rw [hx] <;> decide
  | undrains b from' =>
    exact h.settle b .stale _ _ (by rw [from']; decide) (by decide) (by decide) nofun
      (fun _ => h.number b (by rw [from']; rfl)) (fun hx => absurd hx (by decide))
  | works b x seq from' to' =>
    have hp : (σ b).state ≠ .pending := by rcases from' with hx | hx | hx <;> rw [hx] <;> decide
    have hs : (σ (other b)).state.buildSide = false := by rcases from' with hx | hx | hx <;> exact side hx rfl
    have hq : (σ b).readers = 0 := h.quiet b (.inr from')
    rcases to' with rfl | rfl
    · exact h.settle b .building _ _ hp (by decide) (by decide) (fun _ => hs) nofun (fun _ => hq)
    · exact h.settle b .closing _ _ hp (by decide) (by decide) (fun _ => hs) nofun (fun _ => hq)
  | closes b seq from' number differs =>
    exact h.update b .pending _ _ nofun (fun _ => side from' rfl) (fun _ => number) (fun _ => differs _)
      nofun (fun hx => absurd hx (by decide)) ⟨nofun, fun hx => absurd rfl hx.1⟩
  | withdraws b from' =>
    exact h.update b .stale _ _ nofun nofun (fun _ => h.number b (by rw [from']; rfl))
      nofun nofun (fun hx => absurd hx (by decide))
      ⟨fun _ => ⟨nofun, not_pending (side from' rfl)⟩, fun _ => rfl⟩
  | promotes p from' =>
    exact h.promoted from'
  | defers waits =>
    refine ⟨h.force, h.build, h.number, h.differ, h.quiet, ⟨nofun, fun hx => ?_⟩⟩
    have hi := h.control.mpr hx
    rw [waits] at hi
    cases hi

theorem roles_lasting : Lasting fun s => RolesKept s.standing s.cutover.state where
  alike h ha := by rw [ha.banks, ha.control]; exact h
  moved h m _ := h.moved m
  released b h hs hc _ := by
    rw [hs, hc]
    refine h.update b _ _ _ (h.force b) (h.build b) (h.number b) (h.differ b) ?_ ?_ ?_
    · intro hx hy
      have := h.differ (other b) hy (by rw [other_other]; exact hx)
      rwa [other_other] at this
    · intro hx
      rw [h.quiet b hx]
    · exact h.control.trans ⟨fun hn => ⟨hn b, hn (other b)⟩, fun hn d => by
        rcases eq_or_other b d with rfl | rfl; exacts [hn.1, hn.2]⟩
  gained b h hb hs hc _ := by
    rw [hs, hc]
    refine h.update b _ _ _ (h.force b) (h.build b) (h.number b) (h.differ b) ?_ ?_ ?_
    · intro hx hy
      have := h.differ (other b) hy (by rw [other_other]; exact hx)
      rwa [other_other] at this
    · intro hx
      rcases hb with hb | hb <;> rw [hb] at hx <;> exact absurd hx (by decide)
    · exact h.control.trans ⟨fun hn => ⟨hn b, hn (other b)⟩, fun hn d => by
        rcases eq_or_other b d with rfl | rfl; exacts [hn.1, hn.2]⟩
  reset hs hc _ _ := by
    rw [hs, hc]
    exact ⟨nofun, nofun, nofun, nofun, fun _ _ => rfl, ⟨fun _ _ => nofun, fun _ => rfl⟩⟩

/-- Settles O55: the roles, the numbers and the state of Cutover Control are a `Lasting` predicate of the banks' standings. -/
theorem stepKeepsBankRoles : Obligations.StepKeepsBankRoles := by
  intro s t h1 h2 h3 h4 hstep
  exact (rolesKept_iff t).mp (roles_lasting.stepped ((rolesKept_iff s).mpr ⟨h1, h2, h3, h4⟩) hstep)

/-! ### The reader counts (R4) -/

/-- R4, with what it rests on. -/
structure ReadersKept (s : State) : Prop where
  placed : s.placed
  count : ∀ b, (s.standing b).readers = s.uses b
  quiet : ∀ b, (s.standing b).state = .empty ∨ (s.standing b).state = .copying ∨ (s.standing b).state = .building ∨
    (s.standing b).state = .closing → (s.standing b).readers = 0

/-- A move keeps a bank's readers, and leaves none to a bank that is built. -/
theorem BankMove.readers {σ τ : BankId → Standing} {c d : CutState} (m : BankMove σ c τ d)
    (quiet : ∀ b, (σ b).state = .empty ∨ (σ b).state = .copying ∨ (σ b).state = .building ∨ (σ b).state = .closing →
      (σ b).readers = 0) (b : BankId) :
    (τ b).readers = (σ b).readers ∧
      ((τ b).state = .empty ∨ (τ b).state = .copying ∨ (τ b).state = .building ∨ (τ b).state = .closing →
        (τ b).readers = 0) := by
  have one : ∀ (a : BankId) (x : BankState) (seq : Half) (n : Nat), (n = (σ a).readers) →
      (x = .empty ∨ x = .copying ∨ x = .building ∨ x = .closing → n = 0) →
      (Function.update σ a ⟨x, seq, n⟩ b).readers = (σ b).readers ∧
        ((Function.update σ a ⟨x, seq, n⟩ b).state = .empty ∨ (Function.update σ a ⟨x, seq, n⟩ b).state = .copying ∨
          (Function.update σ a ⟨x, seq, n⟩ b).state = .building ∨ (Function.update σ a ⟨x, seq, n⟩ b).state = .closing →
          (Function.update σ a ⟨x, seq, n⟩ b).readers = 0) := by
    intro a x seq n hn hx
    by_cases hb : b = a
    · subst hb
      rw [Function.update_self]
      exact ⟨hn, hx⟩
    · rw [Function.update_of_ne hb]
      exact ⟨rfl, quiet b⟩
  cases m with
  | drains a => exact one a .draining _ _ rfl (fun hx => absurd hx (by decide))
  | begins a x built target readers => exact one a x _ _ readers.symm (fun _ => rfl)
  | empties a from' =>
    refine one a .empty _ _ ?_ (fun _ => rfl)
    rcases from' with ⟨-, hx⟩ | hx
    · exact hx.symm
    · exact (quiet a (.inr hx)).symm
  | undrains a => exact one a .stale _ _ rfl (fun hx => absurd hx (by decide))
  | works a x seq from' => exact one a x _ _ rfl (fun _ => quiet a (.inr from'))
  | closes a => exact one a .pending _ _ rfl (fun hx => absurd hx (by decide))
  | withdraws a => exact one a .stale _ _ rfl (fun hx => absurd hx (by decide))
  | promotes p =>
    by_cases hb : b = p
    · subst hb
      rw [Function.update_self]
      exact ⟨rfl, fun hx => absurd hx (by simp)⟩
    · rw [Function.update_of_ne hb]
      dsimp only
      split
      · exact ⟨rfl, fun hx => absurd hx (by simp)⟩
      · exact ⟨rfl, quiet b⟩
  | defers => exact ⟨rfl, quiet b⟩

theorem readers_lasting : Lasting ReadersKept where
  alike h ha := by
    obtain ⟨hp, hu⟩ := ha.links h.placed
    exact ⟨hp, fun b => by rw [ha.banks, hu]; exact h.count b, by rw [ha.banks]; exact h.quiet⟩
  moved h m hl := by
    obtain ⟨hp, hu⟩ := hl h.placed
    exact ⟨hp, fun b => by rw [(m.readers h.quiet b).1, hu]; exact h.count b, fun b => (m.readers h.quiet b).2⟩
  released b h hs hc hl := by
    obtain ⟨hp, hu⟩ := hl h.placed
    refine ⟨hp, fun d => ?_, fun d hd => ?_⟩
    · have := hu d
      rw [← h.count d] at this
      rw [hs, Function.update_apply]
      split
      · next e => subst e; simp only [if_true] at this; dsimp only; omega
      · next e => rw [if_neg e, Nat.add_zero] at this; exact this.symm
    · rw [hs, Function.update_apply] at hd ⊢
      split at hd
      · next e => subst e; rw [if_pos rfl]; dsimp only at hd ⊢; rw [h.quiet d hd]
      · next e => rw [if_neg e]; exact h.quiet d hd
  gained b h hb hs hc hl := by
    obtain ⟨hp, hu⟩ := hl h.placed
    refine ⟨hp, fun d => ?_, fun d hd => ?_⟩
    · rw [hu d, ← h.count d, hs, Function.update_apply]
      split
      · next e => subst e; rfl
      · rfl
    · rw [hs, Function.update_apply] at hd ⊢
      split at hd
      · next e => subst e; rcases hb with hb | hb <;> rw [hb] at hd <;> exact absurd hd (by decide)
      · next e => rw [if_neg e]; exact h.quiet d hd
  reset {t} hs _ hl hv := by
    have hk : ∀ k, t.link k = Link.reset := fun k => by rw [State.link, hl]; exact PerLink.get_all _ k
    refine ⟨fun k => by rw [hk]; simp [Link.placed, Link.contextLaw, Link.reset, Context.reset], fun b => ?_, fun b _ => by rw [hs]⟩
    rw [hs, State.uses, lookupsOf_eq, hv, State.contextsOf, hl]
    rfl

/-- Settles O56: R4, with the places of the links and the banks without readers, is a `Lasting` predicate. -/
theorem stepKeepsReaderCounts : Obligations.StepKeepsReaderCounts := by
  intro s t ⟨ha, hb⟩ hctx hquiet hset hstep
  obtain ⟨-, -, -, -, -, -, -, -, hlinks⟩ := hset
  have h : ReadersKept s := by
    refine ⟨fun k => ⟨hctx k, ?_⟩, fun b => ?_, hquiet⟩
    · obtain ⟨-, -, -, -, hroom, -⟩ := hlinks k
      exact hroom
    · cases b
      · exact ha
      · exact hb
  obtain ⟨hp, hc, -⟩ := readers_lasting.stepped h hstep
  exact ⟨⟨hc .bankA, hc .bankB⟩, fun k => (hp k).1⟩

end Sys2Proof.Machine
end

section
/-!
PROOFS. A step of an empty queue (R142, R152, R157, R161, R162, R184).
-/

namespace Sys2Proof.Machine

/-- The counters of the entries after a millisecond (R142). -/
theorem advance_entry (s : State) (k : LinkId) :
    (advance s).entry k = (s.entry k).tick (decide ((s.link k).state = .enabled)) := by
  match k with
  | 0 | 1 | 2 | 3 | 4 | 5 | 6 | 7 => rfl

theorem Entry.tick_presence (enabled : Bool) (e : Entry) : (e.tick enabled).presence = e.presence := by
  unfold Entry.tick
  split <;> rfl

/-- The scrubber's timer after a millisecond (R184). -/
theorem Scrub.tick_eq (c : Scrub) :
    c.tick = { c with timer := if c.mode = .off then c.timer else min 4294967295 (c.timer + 1) } := by
  obtain ⟨period, mode, timer, passes⟩ := c
  cases mode <;> rfl

/-- A millisecond that passes: what it leaves, with what has come due (logs 1 and 2). -/
theorem tick_running {s : State} (hr : s.inReset = false) (hd : s.port.dispatched = none) :
    ∃ pending free, tick s = { advance (copyOn s) with pending := pending, free := free } := by
  refine ⟨(advance (copyOn s)).pending ++ orderDue (advance (copyOn s)).free (dueEvents (copyOn s) (advance (copyOn s))),
    (advance (copyOn s)).free + (dueEvents (copyOn s) (advance (copyOn s))).length, ?_⟩
  unfold tick
  rw [hr, hd]
  rfl

/-- Settles O10: the three cases of `tick`; the copy by `copyOn_goesOn`, what comes due by `mem_dueEvents`. -/
theorem idleStepPassesAMillisecond : Obligations.IdleStepPassesAMillisecond := by
  intro s hp
  have hstep : step s = .next (tick s) := by unfold step; rw [hp]
  refine ⟨fun hr => ?_, fun hr i hd => ?_, fun hr hd => ?_⟩
  · rw [hstep, tick, hr]; rfl
  · rw [hstep, tick, hr, hd, hp]; rfl
  · have hv := (copyOn_goesOn s).rest
    have hperm := tick_pending hp hr hd
    obtain ⟨pending, free, ht⟩ := tick_running hr hd
    have hmem : ∀ c, c ∈ (tick s).pending ↔ c ∈ dueEvents (copyOn s) (advance (copyOn s)) := fun c => hperm.mem_iff
    refine ⟨copyOn s, tick s, copyOn_goesOn s, hstep, ?_⟩
    generalize copyOn s = v at hv ht hmem hperm
    have hlink : ∀ k, v.link k = s.link k := fun k => by rw [hv]; rfl
    have hentry : ∀ k, v.entry k = s.entry k := fun k => by rw [hv]; rfl
    have hclock : v.clock = s.clock := by rw [hv]
    have hcut : v.cutover = s.cutover := by rw [hv]
    have hscrub : v.scrub = s.scrub := by rw [hv]
    have hact : s.activation = (advance v).activation := by rw [hv]; rfl
    have hin : ∀ c, c ∈ (tick s).pending ↔ _ := fun c => (hmem c).trans (mem_dueEvents v (advance v) c)
    have hdup : (tick s).pending.Nodup := hperm.nodup_iff.mpr (dueEvents_nodup v (advance v))
    clear hmem hperm
    have hc : (advance v).cutover = s.cutover.tick := congrArg Cutover.tick hcut
    have hsc : (advance v).scrub = s.scrub.tick := congrArg Scrub.tick hscrub
    have hen : ∀ k, (tick s).entry k = (s.entry k).tick (decide ((s.link k).state = .enabled)) := fun k => by
      rw [ht]; exact (advance_entry v k).trans (by rw [hentry, hlink])
    refine ⟨?_, ?_, fun k => ?_, ?_, ?_, hdup, fun c h => ?_, ?_, fun k => ?_, ?_, ?_, ?_, ?_, ?_⟩
    · rw [ht, ← hclock]; rfl
    · rw [ht]; exact hc
    · rw [hen]; unfold Entry.tick satAdd; simp only [decide_eq_true_eq]
    · rw [ht, ← Scrub.tick_eq]; exact hsc
    · rw [ht]; rw [hv]; rfl
    · rcases (hin c).mp h with ⟨h, -⟩ | ⟨h, -⟩ | ⟨h, -⟩ | ⟨k, h, -⟩ | ⟨h, -⟩ | ⟨h, -⟩ | ⟨h, -⟩ <;> simp [h]
    · rw [hin]
      simp [Clock.minuteDue, Clock.atEnd, hclock, and_assoc, ← not_and_or]
    · have hl : (advance v).link k = s.link k := hlink k
      have he : (advance v).entry k = (tick s).entry k := by rw [ht]; rfl
      have hlim : (advance v).table.silenceLimit = s.table.silenceLimit := by rw [hv]; rfl
      have hpres : ((tick s).entry k).presence = (s.entry k).presence := by rw [hen]; exact Entry.tick_presence _ _
      rw [hin]
      simp [State.silenceDue, hl, he, hlim, hpres, and_assoc]
    · have ht' : (tick s).cutover = (advance v).cutover := by rw [ht]
      rw [hin, ht']
      simp [State.waitOver, hc, ← hact, Cutover.tick, Cutover.waitMs]
    · have ht' : (tick s).cutover = (advance v).cutover := by rw [ht]
      rw [hin, ht']
      simp [State.graceOver, hc, Cutover.tick, Cutover.graceMs]
    · have ht' : (tick s).scrub = (advance v).scrub := by rw [ht]
      rw [hin, ht']
      simp [hsc, Scrub.periodDue, Scrub.tick_eq, Scrub.periodMs]
    · rw [hin]
      simp [Cutover.inhibitDue, hcut]
      grind
    · rw [hin]
      simp [Cutover.inhibitDue, hcut]
      grind

end Sys2Proof.Machine
end

section
/-!
PROOFS. Builds that are opened, drained and dropped: OPEN_BUILD, DRAIN_COMPLETE, CLOSE_BUILD, WITHDRAW and DISCARD_BUILD (R4
to R7, R10, R19, R20), and the release of a reader (R4, R7).
-/

namespace Sys2Proof.Machine

/-! ### Gateway commands -/

/-- A gateway command whose owner does the same to every port's state, and leaves the port alone. -/
theorem gateway_does {i : Instr} {type : Byte} {tag : Half} {body : List Byte} {own : State → Reply} {s : State}
    (h : s.portReady) (hm : messageOf i = some (type, tag, body)) (t : State) {code : ResultCode} {out : List Byte}
    (ht : t.port = s.port) (ho : ∀ p, own { s with port := p } = ⟨{ t with port := p }, some (code, out)⟩) :
    gateway i own s = t.answered i tag code out := by
  refine (gateway_answered h hm (ho _) rfl).trans ?_
  rw [← ht]

/-! ### Marks and roles -/

theorem undamaged_iff (r : BankRecord) : r.damaged = false ↔ r.marks = ⟨none, none, none⟩ := by
  cases hm : r.marks
  simp [BankRecord.damaged, hm, and_assoc]

theorem damaged_iff (r : BankRecord) :
    r.damaged = true ↔ r.marks.header ≠ none ∨ r.marks.tariff ≠ none ∨ r.marks.ranges ≠ none := by
  simp [BankRecord.damaged, Option.isSome_iff_ne_none, or_assoc]

/-- The bank in force beside one that is not. -/
theorem inForce_beside {s : State} {b : BankId} (hb : (s.recOf b).state ≠ .inForce)
    (ho : (s.recOf (other b)).state = .inForce) : s.inForce = some (other b) := by
  unfold State.inForce State.findBank
  cases b
  · rw [if_neg hb]; exact if_pos ho
  · exact if_pos ho

theorem buildSideTaken_iff (s : State) :
    s.buildSideTaken = true ↔ ∃ b, (s.recOf b).state ∈ [.draining, .copying, .building, .closing, .pending] := by
  have hx : ∀ x : BankState, x.buildSide = true ↔ x ∈ [.draining, .copying, .building, .closing, .pending] := by
    intro x; cases x <;> decide
  simp only [State.buildSideTaken, Bool.or_eq_true, hx]
  exact ⟨fun h => h.elim (⟨_, ·⟩) (⟨_, ·⟩), fun ⟨b, h⟩ => by cases b; exacts [.inl h, .inr h]⟩

/-! ### How builds begin and drains end (R6, R7) -/

theorem beginBuild_empty (b : BankId) (s : State) : beginBuild b .empty s = s.openedEmpty b := by
  cases b <;> rfl

theorem beginBuild_copy (b : BankId) (s : State) : beginBuild b .fromInForce s = s.openedCopy b := by
  cases b <;> rfl

theorem buildFailed_eq (b : BankId) (s : State) : State.raise .buildFailed (emptyBank b s) = s.openFailed b := by
  unfold emptyBank State.openFailed
  rw [← Scrub.leaveBank_eq]
  rfl

theorem drainDone_empty {b : BankId} {s : State} (h : (s.recOf b).openOption = some .empty) :
    drainDone b s = s.openedEmpty b := by
  unfold drainDone
  rw [h]
  exact beginBuild_empty b s

theorem drainDone_copy {b : BankId} {s : State} (h : (s.recOf b).openOption = some .fromInForce)
    (hb : (s.recOf b).state ≠ .inForce) (ho : (s.recOf (other b)).state = .inForce) :
    drainDone b s =
      if (s.recOf (other b)).marks = ⟨none, none, none⟩ then s.openedCopy b else s.openFailed b := by
  have hf := inForce_beside hb ho
  by_cases hm : (s.recOf (other b)).marks = ⟨none, none, none⟩
  · have hd := (undamaged_iff _).mpr hm
    rw [if_pos hm, ← beginBuild_copy]
    simp [drainDone, h, hf, hd]
  · have hd : (s.recOf (other b)).damaged = true := Bool.not_eq_false _ ▸ fun hd => hm ((undamaged_iff _).mp hd)
    rw [if_neg hm, ← buildFailed_eq]
    simp [drainDone, h, hf, hd]

/-- A drain that completes (R7). -/
theorem drainDone_ends {b : BankId} {s : State} (hb : (s.recOf b).state ≠ .inForce) : DrainEnds s b (drainDone b s) where
  empty h := drainDone_empty h
  copy h ho hm := by rw [drainDone_copy h hb ho, if_pos hm]
  damaged h ho hm := by rw [drainDone_copy h hb ho, if_neg hm]

/-- A reader is released (R4, R7). -/
theorem releaseReader_released (s : State) (b : BankId) : ReaderReleased s b (releaseReader b s) where
  more h := by
    unfold releaseReader
    dsimp only
    rw [State.recOf_setRec, if_pos rfl, if_neg]
    rintro ⟨hd, hr⟩
    have := h hd
    dsimp only at hr
    omega
  last hd hr := by
    have hz : (s.recOf b).readers - 1 = 0 := by omega
    unfold releaseReader
    dsimp only
    rw [hz, State.recOf_setRec, if_pos rfl, if_pos ⟨hd, rfl⟩]
    refine drainDone_ends ?_
    rw [State.recOf_setRec, if_pos rfl]
    dsimp only
    rw [hd]
    decide

/-! ### OPEN_BUILD (R5) -/

theorem openBuild_badArg {option : Byte} (h : 1 < option.toNat) (s : State) : openBuild option s = refuse .badArg s := by
  have hn : buildOptionOf option = none := by
    unfold buildOptionOf
    rw [if_neg (fun e => by rw [e] at h; exact absurd h (by decide)), if_neg (fun e => by rw [e] at h; exact absurd h (by decide))]
  unfold openBuild
  rw [hn]

theorem openBuild_badState {option : Byte} (h : option.toNat ≤ 1) {s : State} (hs : s.buildSideTaken = true) :
    openBuild option s = refuse .badState s := by
  have ho : ∃ o, buildOptionOf option = some o := by
    rcases (show option = 0#8 ∨ option = 1#8 by bv_omega) with rfl | rfl
    · exact ⟨_, rfl⟩
    · exact ⟨_, rfl⟩
  obtain ⟨o, ho⟩ := ho
  unfold openBuild
  rw [ho]
  exact if_pos hs

theorem openBuild_empty {s : State} (hs : s.buildSideTaken = false) : openBuild 1#8 s = takeOpenBuild .empty s := by
  have ho : buildOptionOf 1#8 = some .empty := rfl
  unfold openBuild
  rw [ho]
  simp only [hs, Bool.false_eq_true, if_false]

theorem openBuild_noImage {s : State} (hs : s.buildSideTaken = false) (hn : s.inForce = none) :
    openBuild 0#8 s = refuse .noImage s := by
  have ho : buildOptionOf 0#8 = some .fromInForce := rfl
  unfold openBuild
  rw [ho]
  simp only [hs, Bool.false_eq_true, if_false, hn]

theorem openBuild_copy {s : State} {f : BankId} (hs : s.buildSideTaken = false) (hf : s.inForce = some f) :
    openBuild 0#8 s = if (s.recOf f).damaged then refuse .damaged s else takeOpenBuild .fromInForce s := by
  have ho : buildOptionOf 0#8 = some .fromInForce := rfl
  unfold openBuild
  rw [ho]
  simp only [hs, Bool.false_eq_true, if_false, hf]

/-- Settles O11: the branches of `openBuild`, one by one. -/
theorem openBuildIsCheckedInOrder : Obligations.OpenBuildIsCheckedInOrder := by
  intro s tag option hr hroles
  have unchanged : ∀ code, (∀ p, openBuild option { s with port := p } = refuse code { s with port := p }) →
      exec (.openBuild tag option) s = .next (s.answered (.openBuild tag option) tag code []) := fun code ho =>
    congrArg _ (gateway_unchanged hr rfl (ho _))
  have free : ¬(∃ b, (s.recOf b).state ∈ [.draining, .copying, .building, .closing, .pending]) →
      ∀ p, State.buildSideTaken { s with port := p } = false := fun hb p =>
    Bool.eq_false_iff.mpr fun h => hb ((buildSideTaken_iff s).mp h)
  refine ⟨fun h => unchanged _ fun _ => openBuild_badArg h _,
    fun h hb => unchanged _ fun p => openBuild_badState h ((buildSideTaken_iff { s with port := p }).mpr hb),
    fun h hb hn => unchanged _ fun p => h ▸ openBuild_noImage (free hb p) (findBank_none.mpr hn), fun h hb f hf hd => ?_⟩
  refine unchanged _ fun p => h ▸ ?_
  rw [openBuild_copy (free hb p) (inForce_of hroles hf)]
  exact if_pos ((damaged_iff _).mpr hd)

/-! ### Builds that begin (R5 to R7) -/

theorem takeOpenBuild_drains {o : BuildOption} {s : State} (h : 0 < (s.recOf s.openTarget).readers) :
    takeOpenBuild o s =
      answer .accepted [] (s.setRec s.openTarget { s.recOf s.openTarget with state := .draining, openOption := some o }) := by
  unfold takeOpenBuild
  exact if_pos h

theorem takeOpenBuild_empty {s : State} (h : (s.recOf s.openTarget).readers = 0) :
    takeOpenBuild .empty s = answer .ok [] (s.openedEmpty s.openTarget) := by
  rw [← beginBuild_empty]
  exact if_neg (by omega)

theorem takeOpenBuild_copy {s : State} (h : (s.recOf s.openTarget).readers = 0) :
    takeOpenBuild .fromInForce s = answer .accepted [] (s.openedCopy s.openTarget) := by
  rw [← beginBuild_copy]
  exact if_neg (by omega)

/-- The target of OPEN_BUILD under R3. -/
theorem openTarget_eq {s : State} (h : rolesLaw s) :
    s.openTarget = if (s.recOf .bankA).state = .inForce then .bankB else .bankA := by
  unfold State.openTarget
  split
  · next f hf =>
    have hf := findBank_some hf
    cases f
    · rw [if_pos hf]; rfl
    · rw [if_neg fun ha => h.1 ⟨ha, hf⟩]; rfl
  · next hn => rw [if_neg (findBank_none.mp hn .bankA)]

theorem drainComplete_waits {s : State} {b : BankId} (hb : s.findBank .draining = some b) (hr : 0 < (s.recOf b).readers) :
    drainComplete s = s := by
  unfold drainComplete
  rw [hb]
  exact if_neg (by omega)

theorem drainComplete_ends {s : State} {b : BankId} (hb : s.findBank .draining = some b) (hr : (s.recOf b).readers = 0) :
    drainComplete s = drainDone b s := by
  unfold drainComplete
  rw [hb]
  exact if_pos hr

/-- Settles O12: what `takeOpenBuild` does of its target, and `drainDone` of the bank drained. -/
theorem buildsBeginOrDrain : Obligations.BuildsBeginOrDrain := by
  intro s b hroles
  refine ⟨fun tag hr hstates hb => ?_, fun hr => ⟨fun hn => ?_, fun hd => ?_⟩⟩
  · have free : ∀ p, State.buildSideTaken { s with port := p } = false := fun p => by
      refine Bool.eq_false_iff.mpr fun h => ?_
      obtain ⟨x, hx⟩ := (buildSideTaken_iff { s with port := p }).mp h
      rcases hstates x with h | h | h <;> rw [show State.recOf { s with port := p } x = s.recOf x from rfl, h] at hx <;>
        exact absurd hx (by decide)
    have target : ∀ p, State.openTarget { s with port := p } = b := fun p =>
      (openTarget_eq (s := { s with port := p }) hroles).trans hb.symm
    have copies : (s.recOf (other b)).state = .inForce → (s.recOf (other b)).marks = ⟨none, none, none⟩ →
        ∀ p, openBuild 0#8 { s with port := p } = takeOpenBuild .fromInForce { s with port := p } := fun ho hm p => by
      rw [openBuild_copy (free p) (inForce_of (s := { s with port := p }) hroles ho)]
      exact if_neg (Bool.eq_false_iff.mp ((undamaged_iff _).mpr hm))
    refine ⟨fun hpos => ⟨?_, fun ho hm => ?_⟩, fun hz => ⟨?_, fun ho hm => ?_⟩⟩
    · refine congrArg _ (gateway_does hr rfl (s.setRec b { s.recOf b with state := .draining, openOption := some .empty }) rfl
        fun p => ?_)
      rw [openBuild_empty (free p), takeOpenBuild_drains (by rw [target]; exact hpos), target]
      rfl
    · refine congrArg _ (gateway_does hr rfl
        (s.setRec b { s.recOf b with state := .draining, openOption := some .fromInForce }) rfl fun p => ?_)
      rw [copies ho hm p, takeOpenBuild_drains (by rw [target]; exact hpos), target]
      rfl
    · refine congrArg _ (gateway_does hr rfl (s.openedEmpty b) rfl fun p => ?_)
      rw [openBuild_empty (free p), takeOpenBuild_empty (by rw [target]; exact hz), target]
      rfl
    · refine congrArg _ (gateway_does hr rfl (s.openedCopy b) rfl fun p => ?_)
      rw [copies ho hm p, takeOpenBuild_copy (by rw [target]; exact hz), target]
      rfl
  · rw [show exec .drainComplete s = .next (event drainComplete s) from rfl, event_running hr]
    unfold drainComplete
    rw [findBank_none.mpr hn]
  · have hfind := findBank_of hroles rfl hd
    have hx : exec .drainComplete s = .next (drainComplete s) := congrArg _ (event_running hr)
    have hf : (s.recOf b).state ≠ .inForce := by rw [hd]; decide
    refine ⟨fun hpos => ?_, fun hz ho => ?_, fun hz ho hs => ?_⟩
    · rw [hx, drainComplete_waits hfind hpos]
    · rw [hx, drainComplete_ends hfind hz, drainDone_empty ho]
    · rw [hx, drainComplete_ends hfind hz, drainDone_copy ho hf hs]

end Sys2Proof.Machine
end

section
/-!
PROOFS. CLOSE_BUILD, WITHDRAW and DISCARD_BUILD (R10, R19, R20).
-/

namespace Sys2Proof.Machine

/-! ### CLOSE_BUILD (R10) -/

theorem incomplete_iff (r : BankRecord) :
    (!r.tariffPresent || !r.blockStatus.isComplete) = true ↔ r.tariffPresent = false ∨ r.blockStatus ≠ .complete := by
  cases h : r.blockStatus <;> simp [BlockStatus.isComplete]

/-- The activation that a mode names (R9, log 40). -/
theorem activationOf_wrong {mode : Byte} {day minute : Half} (h : 1 < mode.toNat ∨ (mode = 1#8 ∧ 1439 < minute.toNat)) :
    activationOf mode day minute = none := by
  unfold activationOf
  rcases h with h | ⟨rfl, h⟩
  · rw [if_neg (fun e => by rw [e] at h; exact absurd h (by decide)), if_neg (fun e => by rw [e] at h; exact absurd h (by decide))]
  · rw [if_neg (by decide), if_pos rfl, if_neg (by omega)]

theorem activationOf_right {mode : Byte} {day minute : Half} (h : ¬(1 < mode.toNat ∨ (mode = 1#8 ∧ 1439 < minute.toNat))) :
    activationOf mode day minute = some (if mode = 0#8 then .onReady else .atTime day minute) := by
  obtain ⟨hm, ht⟩ := not_or.mp h
  unfold activationOf
  rcases (show mode = 0#8 ∨ mode = 1#8 by bv_omega) with rfl | rfl
  · rfl
  · rw [if_neg (by decide), if_pos rfl, if_pos (by have := not_and.mp ht rfl; omega), if_neg (by decide)]

section
variable {mode : Byte} {day minute : Half} {s : State} {b : BankId}

theorem closeBuild_noBuild (h : s.findBank .building = none) : closeBuild mode day minute s = refuse .noBuild s := by
  unfold closeBuild
  rw [h]

theorem closeBuild_busy (h : s.findBank .building = some b) (hl : s.loader.state ≠ .idle) :
    closeBuild mode day minute s = refuse .busy s := by
  unfold closeBuild
  rw [h]
  exact if_pos hl

theorem closeBuild_incomplete (h : s.findBank .building = some b) (hl : s.loader.state = .idle)
    (hi : (s.recOf b).tariffPresent = false ∨ (s.recOf b).blockStatus ≠ .complete) :
    closeBuild mode day minute s = refuse .incomplete s := by
  unfold closeBuild
  rw [h]
  exact (if_neg (not_not.mpr hl)).trans (if_pos ((incomplete_iff _).mpr hi))

theorem closeBuild_damaged (h : s.findBank .building = some b) (hl : s.loader.state = .idle)
    (hi : ¬((s.recOf b).tariffPresent = false ∨ (s.recOf b).blockStatus ≠ .complete)) (hd : (s.recOf b).damaged = true) :
    closeBuild mode day minute s = refuse .damaged s := by
  unfold closeBuild
  rw [h]
  exact (if_neg (not_not.mpr hl)).trans ((if_neg (mt (incomplete_iff _).mp hi)).trans (if_pos hd))

/-- A CLOSE_BUILD that has passed the checks before its activation. -/
theorem closeBuild_checked (h : s.findBank .building = some b) (hl : s.loader.state = .idle)
    (hi : ¬((s.recOf b).tariffPresent = false ∨ (s.recOf b).blockStatus ≠ .complete)) (hd : ¬(s.recOf b).damaged = true) :
    (activationOf mode day minute = none → closeBuild mode day minute s = refuse .badArg s) ∧
      ∀ act, activationOf mode day minute = some act → closeBuild mode day minute s =
        answer .accepted []
          { s.setRec b { s.recOf b with activation := some act, state := .closing } with
            closeDay := if s.clock.valid then some s.clock.day else none } := by
  unfold closeBuild
  rw [h]
  dsimp only
  rw [if_neg (not_not.mpr hl), if_neg (mt (incomplete_iff _).mp hi), if_neg hd]
  exact ⟨fun ha => by rw [ha], fun act ha => by rw [ha]⟩

end

/-- Settles O13: the branches of `closeBuild`, one by one. -/
theorem closeBuildIsCheckedInOrder : Obligations.CloseBuildIsCheckedInOrder := by
  intro s tag mode day minute hr hroles
  have unchanged : ∀ code, (∀ p, closeBuild mode day minute { s with port := p } = refuse code { s with port := p }) →
      exec (.closeBuild tag mode day minute) s = .next (s.answered (.closeBuild tag mode day minute) tag code []) :=
    fun code ho => congrArg _ (gateway_unchanged hr rfl (ho _))
  refine ⟨fun hn => unchanged _ fun p => closeBuild_noBuild (findBank_none.mpr hn), fun b hb => ?_⟩
  have hf : ∀ p, State.findBank { s with port := p } .building = some b := fun p =>
    findBank_of (s := { s with port := p }) hroles rfl hb
  refine ⟨fun hl => unchanged _ fun p => closeBuild_busy (hf p) hl,
    fun hl hi => unchanged _ fun p => closeBuild_incomplete (hf p) hl hi,
    fun hl hi hd => unchanged _ fun p => closeBuild_damaged (hf p) hl hi ((damaged_iff _).mpr hd),
    fun hl hi hd hw => unchanged _ fun p => (closeBuild_checked (hf p) hl hi (mt (damaged_iff _).mp hd)).1
      (activationOf_wrong hw),
    fun hl hi hd hw => congrArg _ (gateway_does hr rfl _ ?_ fun p =>
      ((closeBuild_checked (hf p) hl hi (mt (damaged_iff _).mp hd)).2 _ (activationOf_right hw)).trans ?_)⟩
  · rfl
  · rfl

/-! ### WITHDRAW (R19) -/

/-- A withdrawal does not see the port. -/
theorem Withdrawn.at_port {s t : State} {b : BankId} {p : Port} (h : Withdrawn { s with port := p } b t) :
    Withdrawn s b { t with port := s.port } :=
  ⟨h.bank, h.otherBank, h.control, h.entries, h.settings, h.notReady, h.events, h.links,
    congrArg (fun x : State => { x with port := s.port }) h.rest⟩

/-- Settles O14: `withdrawBank` is a withdrawal, and leaves the port. -/
theorem withdrawMakesThePendingBankStale : Obligations.WithdrawMakesThePendingBankStale := by
  intro s tag hr hroles
  refine ⟨fun hn => ?_, fun b hb => ?_⟩
  · refine congrArg _ (gateway_unchanged hr rfl ?_)
    unfold withdraw
    rw [show State.pendingBank (beginMessage _ _ s) = none from findBank_none.mpr hn]
    rfl
  · generalize hm : beginMessage tag (sealMessage 0x12#8 tag []) s = m
    have hms : m = { s with port := m.port } := by rw [← hm]; rfl
    have hw : Withdrawn m b (withdrawBank b m) := withdrawBank_withdrawn (by rw [hms]; exact hroles) (by rw [hms]; exact hb)
    have ho : withdraw m = ⟨withdrawBank b m, some (.ok, [])⟩ := by
      unfold withdraw
      rw [pendingBank_of (b := b) (by rw [hms]; exact hroles) (by rw [hms]; exact hb)]
      rfl
    have hport : (withdrawBank b m).port = m.port := by rw [hw.rest]
    subst hm
    refine ⟨{ withdrawBank b _ with port := s.port }, ?_, Withdrawn.at_port hw⟩
    rw [show exec (.withdraw tag) s = .next (gateway (.withdraw tag) withdraw s) from rfl,
      gateway_answered hr rfl ho hport]

/-! ### DISCARD_BUILD (R20, R82) -/

/-- Beside a bank on the build side there is none in another state of it (R3). -/
theorem findBank_beside {s : State} (h : rolesLaw s) {b : BankId} {x : BankState} (hx : x.buildSide = true)
    (hb : (s.recOf b).state.buildSide = true) (hn : (s.recOf b).state ≠ x) : s.findBank x = none :=
  findBank_none.mpr fun c hc => by
    rcases eq_or_other b c with rfl | rfl
    · exact hn hc
    · rw [← hc] at hx
      cases b
      · exact h.2 ⟨hb, hx⟩
      · exact h.2 ⟨hx, hb⟩

/-- The bank COPYING, BUILDING or CLOSING under R3. -/
theorem workBank_of {s : State} (h : rolesLaw s) {b : BankId} (hb : (s.recOf b).state ∈ [.copying, .building, .closing]) :
    s.workBank = some b := by
  simp only [List.mem_cons, List.not_mem_nil, or_false] at hb
  unfold State.workBank
  rcases hb with hb | hb | hb
  · rw [findBank_of h rfl hb]
  · rw [findBank_beside h (x := .copying) (b := b) rfl (by rw [hb]; rfl) (by rw [hb]; decide),
      findBank_of h rfl hb]
  · rw [findBank_beside h (x := .copying) (b := b) rfl (by rw [hb]; rfl) (by rw [hb]; decide),
      findBank_beside h (x := .building) (b := b) rfl (by rw [hb]; rfl) (by rw [hb]; decide),
      findBank_of h rfl hb]

theorem workBank_none {s : State} (h : ∀ x : BankState, x ∈ [.copying, .building, .closing] → s.findBank x = none) :
    s.workBank = none := by
  unfold State.workBank
  rw [h .copying (by decide), h .building (by decide), h .closing (by decide)]

/-- Settles O15: the bank that is worked on is emptied, one that drains goes back to STALE. -/
theorem discardBuildDropsTheBuild : Obligations.DiscardBuildDropsTheBuild := by
  intro s tag hr hroles
  refine ⟨fun hn => ?_, fun b hb => ?_, fun b hb => ?_⟩
  · refine congrArg _ (gateway_does hr rfl s rfl fun p => ?_)
    have h1 : State.workBank { s with port := p } = none := workBank_none fun x hx =>
      findBank_none.mpr fun b hb => hn b (hb ▸ List.mem_cons_of_mem _ hx)
    have h2 : State.findBank { s with port := p } .draining = none := findBank_none.mpr fun b hx => hn b (by
      rw [show (s.recOf b).state = .draining from hx]; decide)
    unfold discardBuild
    rw [h1, h2]
    rfl
  · refine congrArg _ (gateway_does hr (i := .discardBuild tag) rfl
      { s.setRec b BankRecord.reset with
        loader := ⟨.idle, s.loader.result, []⟩
        scrub := s.scrub.leftBank b
        closeDay := none } rfl fun p => ?_)
    have h1 : State.workBank { s with port := p } = some b := workBank_of (s := { s with port := p }) hroles hb
    unfold discardBuild
    rw [h1, ← Scrub.leaveBank_eq]
    rfl
  · refine congrArg _ (gateway_does hr (i := .discardBuild tag) rfl
      { s.setRec b { s.recOf b with state := .stale, openOption := none } with
        loader := ⟨.idle, s.loader.result, []⟩ } rfl fun p => ?_)
    have h1 : State.workBank { s with port := p } = none := workBank_none fun x hx =>
      findBank_beside (s := { s with port := p }) (b := b) hroles (by revert hx; cases x <;> decide)
        (by rw [show (State.recOf { s with port := p } b).state = .draining from hb]; rfl)
        (by rw [show (State.recOf { s with port := p } b).state = .draining from hb]; revert hx; cases x <;> decide)
    have h2 : State.findBank { s with port := p } .draining = some b := findBank_of (s := { s with port := p }) hroles rfl hb
    unfold discardBuild
    rw [h1, h2]
    rfl

end Sys2Proof.Machine
end

section
/-!
PROOFS. The copy that completes, and the one that meets a word it cannot read (R8, R22, R23, R181, R182).
-/

namespace Sys2Proof.Machine

/-! ### Words found uncorrectable (R22, R182) -/

/-- A word found uncorrectable: its region has been marked, and what the mark does comes then. -/
theorem markRegion_found (b : BankId) (r : Region) (o : Nat) (reader : Reader) (s : State) :
    markRegion b r o (reportUncorrectable (.bank b r o) reader s) = s.found reader b r o := by
  unfold markRegion reportUncorrectable State.found
  cases s.events.capture <;> rfl

theorem uncorrectable_bank (b : BankId) (r : Region) (o : Nat) (reader : Reader) (s : State) :
    uncorrectable (.bank b r o) reader s = setMark b r o (reportUncorrectable (.bank b r o) reader s) := rfl

/-- An uncorrectable word of the bank in force (R8, R23, R102). -/
theorem uncorrectable_inForce {b : BankId} {r : Region} {o : Nat} {reader : Reader} {s : State}
    (h : (s.recOf b).state = .inForce) :
    InForceMarked (s.found reader b r o) b r (uncorrectable (.bank b r o) reader s) := by
  rw [uncorrectable_bank, ← markRegion_found]
  exact setMark_marksInForce (s := reportUncorrectable (.bank b r o) reader s) h

theorem Marks.get_mark_ne (m : Marks) {r r' : Region} (o : Nat) (h : r' ≠ r) : (m.mark r o).get r' = m.get r' := by
  cases r <;> cases r' <;> first | exact absurd rfl h | rfl

/-- What a mark on the bank in force leaves of the marks, and of the target of a copy from it. -/
theorem InForceMarked.copy_failed {b : BankId} {r : Region} {o : Nat} {reader : Reader} {s t : State}
    (h : InForceMarked (s.found reader b r o) b r t) (hc : (s.recOf (other b)).state = .copying) :
    t.bank (other b) = { s.bank (other b) with record := BankRecord.reset } ∧
      (t.recOf b).marks.get r = some (((s.recOf b).marks.get r).getD o) ∧
      ∀ r', r' ≠ r → (t.recOf b).marks.get r' = (s.recOf b).marks.get r' := by
  have hr : ∀ c, (s.found reader b r o).bank c =
      if c = b then { s.bank b with record := { s.recOf b with marks := (s.recOf b).marks.mark r o } } else s.bank c := fun c => by
    unfold State.found State.setRec
    exact State.bank_setBank _ _ _ _
  have ho : (s.found reader b r o).bank (other b) = s.bank (other b) := by rw [hr, if_neg (other_ne b)]
  have hm : (t.recOf b).marks = (s.recOf b).marks.mark r o := by
    rw [State.recOf, h.bank]
    dsimp only
    rw [State.recOf, hr, if_pos rfl]
  refine ⟨?_, by rw [hm, Marks.get_mark], fun r' hne => by rw [hm, Marks.get_mark_ne _ _ hne]⟩
  rw [(h.target (by rw [State.recOf, ho]; exact hc)).1, ho]

/-! ### The copy (R8) -/

/-- The bank COPYING and the one in force are the two banks. -/
theorem other_of_copying {s : State} {t f : BankId} (ht : (s.recOf t).state = .copying) (hf : (s.recOf f).state = .inForce) :
    t = other f := (eq_or_other f t).resolve_left fun e => by rw [e, hf] at ht; cases ht

/-- What the copy's reads do when every word it comes to can be read. -/
theorem readHits_copy {f : BankId} {c : Option Copied} {s : State}
    (h : ∀ u ∈ s.upsets, copyPasses f (allExtentItems (s.bank f)) s.copied c u.loc = true → fatal u.kind = false) :
    readHits .copy (copyHits f (allExtentItems (s.bank f)) s.copied c s.upsets) s =
      (s.correctedAt (copyPasses f (allExtentItems (s.bank f)) s.copied c), true) := by
  rw [readHits_corrects .copy _ s fun u hu => h u ((mem_copyHits _ _ _ _ _ _).1 hu).1 ((mem_copyHits _ _ _ _ _ _).1 hu).2,
    copyHits_length]
  have hr := refresh_congr
    (v := fun l => (copyHits f (allExtentItems (s.bank f)) s.copied c s.upsets).any fun u => decide (l = u.loc))
    (w := copyPasses f (allExtentItems (s.bank f)) s.copied c) s fun u hu => by
      rw [Bool.eq_iff_iff]
      simp only [List.any_eq_true, mem_copyHits, decide_eq_true_eq]
      exact ⟨fun ⟨v, hv, he⟩ => he ▸ hv.2, fun hp => ⟨u, ⟨hu, hp⟩, rfl⟩⟩
  rw [hr]
  unfold State.correctedAt Events.correctedBy
  split <;> rfl

/-- The words of the source read and those of the target written (R180, R181). -/
theorem correctedAt_refresh (t f : BankId) (s : State) :
    (s.correctedAt (copyPasses f (allExtentItems (s.bank f)) s.copied none)).refresh
      (copyPasses t (allExtentItems (s.bank f)) s.copied none) = s.copiedTo t f none := by
  have h := congrArg State.upsets (refresh_refresh
    (copyPasses t (allExtentItems (s.bank f)) s.copied none) (copyPasses f (allExtentItems (s.bank f)) s.copied none) s)
  simp only [refresh_eq] at h
  simp only [refresh_eq, State.correctedAt, State.copiedTo, h, Events.correctedBy]
  split <;> rfl

/-- The one word in error that the copy comes to. -/
theorem copyHits_single {f : BankId} {items : List Item} {c : Copied} {c' : Option Copied} {us : List Upset} {u : Upset}
    (h : (us.filter fun u => copyPasses f items c c' u.loc) = [u]) : copyHits f items c c' us = [u] := by
  have hlen := copyHits_length f items c c' us
  rw [h] at hlen
  obtain ⟨v, hv⟩ := List.length_eq_one_iff.mp hlen
  have hmem : v ∈ us.filter fun u => copyPasses f items c c' u.loc :=
    List.mem_filter.mpr ((mem_copyHits f items c c' us v).mp (by rw [hv]; exact List.mem_singleton_self v))
  rw [h] at hmem
  rw [hv, List.mem_singleton.mp hmem]

theorem copyPasses_iff (f : BankId) (items : List Item) (c : Copied) (b : BankId) (r : Region) (o : Nat) :
    copyPasses f items c none (.bank b r o) = true ↔
      b = f ∧ c.get r ≤ o ∧ ∃ i ∈ items, itemRegion i = r ∧ o ∈ Config.itemWords i := by
  simp only [copyPasses, inItems, Option.all_none, Bool.and_true, Bool.and_eq_true, decide_eq_true_eq, List.any_eq_true]
  exact ⟨fun ⟨⟨h1, h2⟩, h3⟩ => ⟨h1, h3, h2⟩, fun ⟨h1, h2, h3⟩ => ⟨⟨h1, h3⟩, h2⟩⟩

theorem Copied.get_to (c : Copied) (r : Region) (o : Nat) (r' : Region) :
    (c.to r o).get r' = if r' = r then o else c.get r' := by
  cases r <;> cases r' <;> rfl

section
variable {s : State} {t f : BankId}

theorem copyComplete_idle (h : ∀ b, (s.recOf b).state ≠ .copying) : copyComplete s = s := by
  unfold copyComplete
  rw [findBank_none.mpr h]

theorem copyFailure_idle {r : Region} {o : Nat} (h : ∀ b, (s.recOf b).state ≠ .copying) : copyFailure r o s = s := by
  unfold copyFailure
  rw [findBank_none.mpr h]

theorem copyComplete_eq (ht : s.findBank .copying = some t) (hf : s.inForce = some f)
    (h : ∀ u ∈ s.upsets, copyPasses f (allExtentItems (s.bank f)) s.copied none u.loc = true → fatal u.kind = false) :
    copyComplete s =
      State.raise .buildOpened ((s.copiedTo t f none).setBank t
        ⟨(s.recOf t).copiedFrom (s.recOf f), (s.bank f).tariff, (s.bank f).ranges⟩) := by
  unfold copyComplete
  rw [ht, hf]
  dsimp only
  rw [readHits_copy h]
  dsimp only
  rw [if_pos rfl, ← correctedAt_refresh]
  rfl

theorem copyComplete_fails (ht : s.findBank .copying = some t) (hf : s.inForce = some f) {u : Upset}
    (h : (s.upsets.filter fun u => copyPasses f (allExtentItems (s.bank f)) s.copied none u.loc) = [u])
    (hu : fatal u.kind = true) : copyComplete s = uncorrectable u.loc .copy s := by
  unfold copyComplete
  rw [ht, hf]
  dsimp only
  rw [copyHits_single h]
  simp [readHits, hu]

theorem copyFailure_passed (hf : s.inForce = some f) {r : Region} {o : Nat}
    (h : copyPasses f (allExtentItems (s.bank f)) s.copied none (.bank f r o) = false) : copyFailure r o s = s := by
  unfold copyFailure
  rw [hf]
  cases s.findBank .copying with
  | none => rfl
  | some t => dsimp only; rw [h]; rfl

theorem copyFailure_fails (ht : s.findBank .copying = some t) (hf : s.inForce = some f) {r : Region} {o : Nat}
    (h : copyPasses f (allExtentItems (s.bank f)) s.copied none (.bank f r o) = true)
    (hs : ∀ u ∈ s.upsets, copyPasses f (allExtentItems (s.bank f)) s.copied (some (s.copied.to r o)) u.loc = true →
      fatal u.kind = false) :
    copyFailure r o s =
      uncorrectable (.bank f r o) .copy
        { s.copiedTo t f (some (s.copied.to r o)) with
          upsets := strike ⟨.bank f r o, .double⟩ (s.copiedTo t f (some (s.copied.to r o))).upsets } := by
  unfold copyFailure
  rw [ht, hf]
  dsimp only
  rw [h, copyTo_copiedTo t f _ s hs]
  rfl

end

/-- Settles O16: COPY_COMPLETE makes the target BUILDING, and a word the copy cannot read fails it. -/
theorem copyCompletesOrFails : Obligations.CopyCompletesOrFails := by
  unfold Obligations.CopyCompletesOrFails
  intro s target source region offset hrun hroles from' items left
  have hc : exec .copyComplete s = .next (copyComplete s) := congrArg _ (event_running hrun)
  have hfl : exec (.copyFailure region offset) s = .next (copyFailure region offset s) :=
    congrArg _ (event_running hrun)
  refine ⟨fun h => ⟨by rw [hc, copyComplete_idle h], by rw [hfl, copyFailure_idle h]⟩, fun ht hf => ?_⟩
  have hto : target = other source := other_of_copying ht hf
  have ht' : s.findBank .copying = some target := findBank_of hroles rfl ht
  have hf' : s.inForce = some source := inForce_of hroles hf
  refine ⟨copyPasses_iff source items s.copied, fun hall => ?_, fun u r o hone hloc hu => ?_, fun h => ?_,
    fun h => ⟨Copied.get_to _ _ _, fun hs => ?_⟩⟩
  · rw [hc, copyComplete_eq ht' hf' fun u hu hp => hall u (List.mem_filter.mpr ⟨hu, hp⟩)]
    rfl
  · have hm := uncorrectable_inForce (r := r) (o := o) (reader := .copy) hf
    obtain ⟨h1, h2, -⟩ := hm.copy_failed (hto ▸ ht)
    exact ⟨_, by rw [hc, copyComplete_fails ht' hf' hone hu, hloc], hm, hto ▸ h1, h2⟩
  · rw [hfl, copyFailure_passed hf' h]
  · intro v struck
    have hm := uncorrectable_inForce (s := struck) (r := region) (o := offset) (reader := .copy) hf
    obtain ⟨h1, h2, h3⟩ := hm.copy_failed (hto ▸ ht)
    exact ⟨_, by rw [hfl, copyFailure_fails ht' hf' h hs], hm, hto ▸ h1, h2, h3⟩

end Sys2Proof.Machine
end

section
/-!
PROOFS. The gateway's commands that only read (R24, R132, R151, R190, R192, R197), and its reads of a bank (R47, R48, R67, R68).
-/

namespace Sys2Proof.Machine

/-! ### Commands that change nothing -/

/-- A gateway command whose owner answers every port's state with the same, and changes nothing. -/
theorem gateway_reads {i : Instr} {type : Byte} {tag : Half} {body : List Byte} {own : State → Reply} {s : State}
    (h : s.portReady) (hm : messageOf i = some (type, tag, body)) {code : ResultCode} {out : List Byte}
    (ho : ∀ p, own { s with port := p } = answer code out { s with port := p }) :
    gateway i own s = s.answered i tag code out := gateway_does h hm s rfl ho

theorem linkRead_of {link : Byte} {k : LinkId} (h : linkOf link = some k) (s : State) :
    linkRead link s = answer .ok (linkBytes (s.link k)) s := by
  unfold linkRead
  rw [h]

theorem linkRead_refuses {link : Byte} (h : 7 < link.toNat) (s : State) : linkRead link s = refuse .badArg s := by
  unfold linkRead
  rw [linkOf_none h]

theorem validatorRead_of {link : Byte} {k : LinkId} (h : linkOf link = some k) (s : State) :
    validatorRead link s =
      answer .ok
        (entryBytes (s.entry k) ++ [flagByte (s.entry k).member] ++ n16 s.table.silenceLimit ++
          [n8 s.table.mismatchLimit, flagByte s.table.allReady]) s := by
  unfold validatorRead
  rw [h]

theorem validatorRead_refuses {link : Byte} (h : 7 < link.toNat) (s : State) : validatorRead link s = refuse .badArg s := by
  unfold validatorRead
  rw [linkOf_none h]

theorem linkOf_n8 (k : LinkId) : linkOf (n8 k.val) = some k := linkOf_val k

theorem bankOf_none {bank : Byte} (h : 1 < bank.toNat) : bankOf bank = none := by
  unfold bankOf
  rw [if_neg (by rintro rfl; exact absurd h (by decide)), if_neg (by rintro rfl; exact absurd h (by decide))]

theorem selectorOf_none {sel : Byte} (h : 1 < sel.toNat) : selectorOf sel = none := by
  unfold selectorOf
  rw [if_neg (by rintro rfl; exact absurd h (by decide)), if_neg (by rintro rfl; exact absurd h (by decide))]

theorem bankRead_summary (b : BankId) (first : Half) (s : State) :
    bankRead (bankCode b) 0#8 first s = answer .ok (summaryBytes (s.recOf b) s.lastSeq s.closeResult) s := by
  unfold bankRead
  rw [bankOf_code]
  rfl

theorem bankRead_shelves (b : BankId) (first : Half) (s : State) :
    bankRead (bankCode b) 1#8 first s =
      if first.toNat ≤ 255 then answer .ok (shelvesBytes (s.recOf b) first.toNat) s else refuse .badArg s := by
  unfold bankRead
  rw [bankOf_code]
  rw [show selectorOf 1#8 = some true from rfl]
  dsimp only
  by_cases h : first.toNat ≤ 255
  · rw [if_neg (by omega), if_pos h]
  · rw [if_pos (by omega), if_neg h]

theorem bankRead_refuses {bank sel : Byte} (first : Half) (s : State) (h : 1 < bank.toNat ∨ 1 < sel.toNat) :
    bankRead bank sel first s = refuse .badArg s := by
  unfold bankRead
  rcases h with h | h
  · rw [bankOf_none h]
  · rw [selectorOf_none h]
    cases bankOf bank <;> rfl

/-- Settles O9: the reading commands answer their fields and change nothing. -/
theorem readingCommandsChangeNothing : Obligations.ReadingCommandsChangeNothing := by
  unfold Obligations.ReadingCommandsChangeNothing
  intro s tag
  refine ⟨?_, fun hr kind rest => congrArg _ (event_running hr), fun hr => ⟨?_, ?_, ?_, fun k => ⟨?_, ?_⟩, fun k hk => ⟨?_, ?_⟩,
    fun b first => ⟨?_, ?_⟩, fun b sel first h => ?_⟩⟩
  · exact congrArg _ (ite_self _)
  · rw [show exec (.identify tag) s = .next (gateway (.identify tag) identify s) from rfl,
      gateway_reads (own := identify) hr rfl (out := identityBytes) fun p => rfl]
    rfl
  · rw [show exec (.status tag) s = .next (gateway (.status tag) status s) from rfl, gateway_unchanged hr rfl rfl]
    rfl
  · rw [show exec (.eventsRead tag) s = .next (gateway (.eventsRead tag) eventsRead s) from rfl,
      gateway_reads (own := eventsRead) hr rfl (out := eventsBytes s) fun p => rfl]
  · rw [show exec (.linkRead tag (n8 k.val)) s = .next (gateway (.linkRead tag (n8 k.val)) (linkRead (n8 k.val)) s) from rfl,
      gateway_reads hr rfl (out := linkBytes (s.link k)) fun p => linkRead_of (linkOf_n8 k) { s with port := p }]
  · rw [show exec (.validatorRead tag (n8 k.val)) s =
        .next (gateway (.validatorRead tag (n8 k.val)) (validatorRead (n8 k.val)) s) from rfl,
      gateway_reads hr rfl
        (out := entryBytes (s.entry k) ++ [flagByte (s.entry k).member] ++ n16 s.table.silenceLimit ++
          [n8 s.table.mismatchLimit, flagByte s.table.allReady])
        fun p => validatorRead_of (linkOf_n8 k) { s with port := p }]
  · rw [show exec (.linkRead tag k) s = .next (gateway (.linkRead tag k) (linkRead k) s) from rfl,
      gateway_reads hr rfl fun p => linkRead_refuses hk _]
  · rw [show exec (.validatorRead tag k) s = .next (gateway (.validatorRead tag k) (validatorRead k) s) from rfl,
      gateway_reads hr rfl fun p => validatorRead_refuses hk _]
  · rw [show exec (.bankRead tag (bankCode b) 0#8 first) s =
        .next (gateway (.bankRead tag (bankCode b) 0#8 first) (bankRead (bankCode b) 0#8 first) s) from rfl,
      gateway_reads hr rfl (out := summaryBytes (s.recOf b) s.lastSeq s.closeResult) fun p =>
        bankRead_summary b first { s with port := p }]
  · rw [show exec (.bankRead tag (bankCode b) 1#8 first) s =
      .next (gateway (.bankRead tag (bankCode b) 1#8 first) (bankRead (bankCode b) 1#8 first) s) from rfl]
    by_cases hf : first.toNat ≤ 255
    · rw [if_pos hf, gateway_reads hr rfl (out := shelvesBytes (s.recOf b) first.toNat) fun p =>
        (bankRead_shelves b first { s with port := p }).trans (if_pos hf)]
    · rw [if_neg hf, gateway_reads hr rfl fun p => (bankRead_shelves b first _).trans (if_neg hf)]
  · rw [show exec (.bankRead tag b sel first) s = .next (gateway (.bankRead tag b sel first) (bankRead b sel first) s) from rfl,
      gateway_reads hr rfl fun p => bankRead_refuses first _ h]

end Sys2Proof.Machine
end

section
/-!
PROOFS. The gateway's reads of a bank: RANGE_READ and TARIFF_READ (R47, R48, R67, R68).
-/

namespace Sys2Proof.Machine

theorem applying_iff (s : State) : s.applying = true ↔ ∃ id kind total phase, s.loader.state = .applying id kind total phase := by
  unfold State.applying
  cases s.loader.state <;> simp

theorem writtenBy_iff (t : BankState) : t.writtenBy = true ↔ t = .copying ∨ t = .closing := by
  simp [BankState.writtenBy]

/-- A gateway command that reads items of a bank meets an uncorrectable word among them, and answers DAMAGED (R22, R182). -/
theorem gateway_damaged {i : Instr} {type : Byte} {tag : Half} {body : List Byte} {own : State → Reply} {s : State}
    (h : s.portReady) (hm : messageOf i = some (type, tag, body)) (v : State) {b : BankId} {items : List Item} {region : Region}
    (hr : ∀ i ∈ items, itemRegion i = region) (hc : (v.recOf b).state ≠ .closing)
    (hu : ∃ u ∈ v.upsets, inItems b items u.loc = true ∧ fatal u.kind = true)
    (ho : ∀ p t, readItems .gatewayRead b items { v with port := p } = (t, false) →
      own { s with port := p } = refuse .damaged t) :
    ∃ t u o, gateway i own s = t ∧ t.port.response = .held ⟨tag, .damaged, []⟩ ∧ t.events.has .eccUncorrectable = true ∧
      u ∈ v.upsets ∧ inItems b items u.loc = true ∧ fatal u.kind = true ∧ u.loc = .bank b region o ∧
      (t.recOf b).marks.get region = some (((v.recOf b).marks.get region).getD o) := by
  obtain ⟨t, u, o, hread, hport, -, hev, hmem, hin, hfat, hloc, hmark⟩ :=
    readItems_stops .gatewayRead b items
      { v with port := (beginMessage tag (sealMessage type tag body) s).port } region hr hc hu
  exact ⟨_, u, o, gateway_answered h hm (ho _ t hread) hport, rfl, hev, hmem, hin, hfat, hloc, hmark⟩

/-! ### RANGE_READ (R47, R48) -/

/-- The words that a served RANGE_READ comes to. -/
def rangeReadItems (t : RangeRegion) (shelf index : Half) : List Item :=
  Item.dirEntry shelf.toNat ::
    (if index.toNat < (t.directory.getD shelf.toNat ⟨0, 0⟩).count then
      [Item.record ((t.directory.getD shelf.toNat ⟨0, 0⟩).first + index.toNat)] else [])

theorem rangeReadItems_region (t : RangeRegion) (shelf index : Half) :
    ∀ i ∈ rangeReadItems t shelf index, itemRegion i = .ranges := by
  unfold rangeReadItems
  split <;> simp [itemRegion]

theorem serveRangeRead_eq (b : BankId) (shelf index : Half) (s : State) :
    serveRangeRead b shelf index s =
      let t := (s.bank b).ranges
      let d := t.directory.getD shelf.toNat ⟨0, 0⟩
      let r := readItems .gatewayRead b (rangeReadItems t shelf index) s
      if r.2 then
        answer .ok
          (rangeReadBody b shelf index d.count (r.1.recOf b).marks.ranges.isSome
            (if index.toNat < d.count then t.records[d.first + index.toNat]? else none)) r.1
      else refuse .damaged r.1 := by
  unfold serveRangeRead rangeReadItems
  simp only [decide_eq_true_eq]

theorem serveRangeRead_ok {b : BankId} {shelf index : Half} {s : State}
    (h : ∀ u ∈ s.upsets, inItems b (rangeReadItems (s.bank b).ranges shelf index) u.loc = true → fatal u.kind = false) :
    let d := (s.bank b).ranges.directory.getD shelf.toNat ⟨0, 0⟩
    serveRangeRead b shelf index s =
      answer .ok
        (rangeReadBody b shelf index d.count (s.recOf b).marks.ranges.isSome
          (if index.toNat < d.count then (s.bank b).ranges.records[d.first + index.toNat]? else none))
        (s.correctedAt (inItems b (rangeReadItems (s.bank b).ranges shelf index))) := by
  intro d
  rw [serveRangeRead_eq]
  dsimp only
  rw [readItems_corrects .gatewayRead b _ s h]
  rfl

theorem serveRangeRead_damaged {b : BankId} {shelf index : Half} {s t : State}
    (h : readItems .gatewayRead b (rangeReadItems (s.bank b).ranges shelf index) s = (t, false)) :
    serveRangeRead b shelf index s = refuse .damaged t := by
  rw [serveRangeRead_eq]
  dsimp only
  rw [h]
  rfl

section
variable {bank : Byte} {shelf index : Half} {b : BankId} {s : State}

theorem rangeRead_badArg (h : 1 < bank.toNat ∨ 255 < shelf.toNat ∨ 16383 < index.toNat) :
    rangeRead bank shelf index s = refuse .badArg s := by
  unfold rangeRead
  split
  · rfl
  · next b hb =>
    rcases h with h | h
    · rw [bankOf_none h] at hb; cases hb
    · rw [if_pos h]

variable (h : ¬(1 < (bankCode b).toNat ∨ 255 < shelf.toNat ∨ 16383 < index.toNat))
include h

/-- A RANGE_READ with arguments in range is answered by the bank's state. -/
theorem rangeRead_of : rangeRead (bankCode b) shelf index s =
    if (s.recOf b).state = .empty then
      answer .ok (rangeReadBody b shelf index 0 (s.recOf b).marks.ranges.isSome none) s
    else if (s.recOf b).state.writtenBy then refuse .badState s
    else if (s.recOf b).state = .building ∧ s.applying then refuse .busy s
    else serveRangeRead b shelf index s := by
  unfold rangeRead
  rw [bankOf_code]
  exact if_neg fun hx => h (.inr hx)

theorem rangeRead_written (hs : (s.recOf b).state = .copying ∨ (s.recOf b).state = .closing) :
    rangeRead (bankCode b) shelf index s = refuse .badState s := by
  rw [rangeRead_of h, if_neg (by rcases hs with hs | hs <;> simp [hs]), if_pos ((writtenBy_iff _).mpr hs)]

theorem rangeRead_busy (hb : (s.recOf b).state = .building) (ha : s.applying = true) :
    rangeRead (bankCode b) shelf index s = refuse .busy s := by
  rw [rangeRead_of h, if_neg (by simp [hb]), if_neg (by simp [hb, writtenBy_iff]), if_pos ⟨hb, ha⟩]

theorem rangeRead_served (he : (s.recOf b).state ≠ .empty) (hc : (s.recOf b).state ≠ .copying) (hl : (s.recOf b).state ≠ .closing)
    (ha : ¬((s.recOf b).state = .building ∧ s.applying = true)) :
    rangeRead (bankCode b) shelf index s = serveRangeRead b shelf index s := by
  rw [rangeRead_of h, if_neg he, if_neg (by simp [writtenBy_iff, hc, hl]), if_neg ha]

end

/-- Settles O19: RANGE_READ answers from the table of the bank, or is refused by the bank's state. -/
theorem rangeReadAnswersFromTheTable : Obligations.RangeReadAnswersFromTheTable := by
  unfold Obligations.RangeReadAnswersFromTheTable
  intro s tag bank shelf index hr i outOfRange
  have hx : exec i s = .next (gateway i (rangeRead bank shelf index) s) := rfl
  rw [hx]
  refine ⟨fun h => ?_, ?_⟩
  · rw [gateway_reads hr rfl fun p => rangeRead_badArg h]
  rintro b rfl hin marked d place applying served items
  refine ⟨fun h => ?_, fun h => ?_, fun h ha => ?_, fun hs h => ?_, correctedAt_sound, fun hs hu => ?_⟩
  · rw [gateway_reads hr rfl (out := rangeReadBody b shelf index 0 marked none) fun p =>
      (rangeRead_of hin (s := { s with port := p })).trans (if_pos h)]
  · rw [gateway_reads hr rfl fun p => rangeRead_written hin h]
  · rw [gateway_reads hr rfl fun p => rangeRead_busy hin h ((applying_iff s).mpr ha)]
  all_goals
    obtain ⟨he, hc, hl, ha⟩ := hs
    have served : ∀ p, rangeRead (bankCode b) shelf index { s with port := p } = serveRangeRead b shelf index { s with port := p } :=
      fun p => rangeRead_served hin he hc hl fun hx => ha ⟨hx.1, (applying_iff s).mp hx.2⟩
  · exact congrArg _ (gateway_does hr rfl _ rfl fun p => (served p).trans (serveRangeRead_ok (s := { s with port := p }) h))
  · obtain ⟨u, hmem, hi, hk⟩ := hu
    obtain ⟨t, u, o, ht, hrest⟩ := gateway_damaged (i := i) (own := rangeRead (bankCode b) shelf index) hr rfl s
      (rangeReadItems_region (s.bank b).ranges shelf index) hl
      ⟨u, hmem, hi, hk⟩ fun p t hread => (served p).trans (serveRangeRead_damaged hread)
    exact ⟨t, u, o, congrArg _ ht, hrest⟩

end Sys2Proof.Machine
end

section
/-!
PROOFS. TARIFF_READ (R67, R68).
-/

namespace Sys2Proof.Machine

/-! ### Words read one after the other -/

/-- The words in error that a read does not select stay as they are. -/
theorem mem_correctedAt {s : State} {read : WordLoc → Bool} {u : Upset} (h : read u.loc = false) :
    u ∈ (s.correctedAt read).upsets ↔ u ∈ s.upsets := by
  have he : (s.correctedAt read).upsets = s.upsets.filterMap (leftBy read) := rfl
  rw [he, List.mem_filterMap]
  constructor
  · rintro ⟨v, hv, hl⟩
    unfold leftBy at hl
    split at hl
    · next hr =>
      unfold afterWrite at hl
      split at hl
      all_goals cases hl
      rw [hr] at h
      cases h
    · cases hl
      exact hv
  · exact fun hu => ⟨u, hu, if_neg (by rw [h]; exact Bool.false_ne_true)⟩

/-- Words of different regions are different words. -/
theorem inItems_disjoint {b : BankId} {items others : List Item} {r r' : Region} (h : ∀ i ∈ items, itemRegion i = r)
    (h' : ∀ i ∈ others, itemRegion i = r') (hne : r ≠ r') {l : WordLoc} (hl : inItems b items l = true) :
    inItems b others l = false := by
  obtain ⟨o, rfl⟩ := inItems_region h hl
  refine Bool.eq_false_iff.mpr fun hx => ?_
  obtain ⟨o', ho⟩ := inItems_region h' hx
  cases ho
  exact hne rfl

/-! ### The items and their bytes (R50, R67) -/

theorem tariffItemOf_none {item a1 a2 a3 : Byte}
    (h : 4 < item.toNat ∨ ((item = 1#8 ∨ item = 3#8) ∧ 7 < a1.toNat) ∨
      (item = 2#8 ∧ ¬(1 ≤ a1.toNat ∧ a1.toNat ≤ 32 ∧ 1 ≤ a2.toNat ∧ a2.toNat ≤ 32)) ∨
      (item = 3#8 ∧ ¬(1 ≤ a2.toNat ∧ a2.toNat ≤ 32 ∧ 1 ≤ a3.toNat ∧ a3.toNat ≤ 32))) :
    tariffItemOf item a1 a2 a3 = none := by
  unfold tariffItemOf
  rcases h with h | ⟨rfl | rfl, h⟩ | ⟨rfl, h⟩ | ⟨rfl, h⟩
  · have hne : ∀ n : Nat, n ≤ 4 → item ≠ BitVec.ofNat 8 n := by
      rintro n hn rfl
      rw [BitVec.toNat_ofNat] at h
      omega
    rw [if_neg (hne 0 (by decide)), if_neg (hne 1 (by decide)), if_neg (hne 2 (by decide)), if_neg (hne 3 (by decide)),
      if_neg (hne 4 (by decide))]
  all_goals simp
  all_goals omega

/-- The item is a price, which an expansion that is due has yet to write (R66, R67). -/
def TariffItem.priced : TariffItem → Bool
  | .price _ _ _ => true
  | _ => false

theorem tariffItemOf_priced {item a1 a2 a3 : Byte} {x : TariffItem} (h : tariffItemOf item a1 a2 a3 = some x) :
    x.priced = true ↔ item = 3#8 := by
  unfold tariffItemOf at h
  by_cases h3 : item = 3#8
  · subst h3
    simp at h
    simp [← h.2, TariffItem.priced]
  · simp only [h3, iff_false]
    dsimp only at h
    rw [if_neg h3] at h
    split at h
    · cases h; exact Bool.false_ne_true
    · split at h
      · split at h <;> cases h; exact Bool.false_ne_true
      · split at h
        · split at h <;> cases h; exact Bool.false_ne_true
        · split at h <;> cases h; exact Bool.false_ne_true

theorem tariffPlace_region (t : Tariff) (x : TariffItem) : ∀ i ∈ (tariffPlace t x).toList, itemRegion i = .tariff := by
  unfold tariffPlace
  cases x
  case product p => dsimp only; split <;> simp [itemRegion]
  all_goals simp [itemRegion]

theorem dims_region : ∀ i ∈ [Item.dims], itemRegion i = .header := by simp [itemRegion]

/-! ### A served read -/

theorem serveTariffRead_eq (b : BankId) (x : TariffItem) (s : State) :
    serveTariffRead b x s =
      let h := readItems .gatewayRead b [.dims] s
      let r := readItems .gatewayRead b (tariffPlace (h.1.bank b).tariff x).toList h.1
      if h.2 = false then refuse .damaged h.1
      else if withinDims (h.1.bank b).tariff x = false then refuse .badArg h.1
      else if x.priced = true ∧ (h.1.recOf b).expansionDue = true then refuse .badState h.1
      else if r.2 = true then answer .ok (tariffReadBody b x r.1) r.1
      else refuse .damaged r.1 := by
  unfold serveTariffRead
  cases x
  all_goals simp only [TariffItem.priced, Bool.not_eq_true', true_and, false_and, if_false, Bool.false_eq_true]

theorem serveTariffRead_header {b : BankId} {x : TariffItem} {s t : State}
    (h : readItems .gatewayRead b [.dims] s = (t, false)) : serveTariffRead b x s = refuse .damaged t := by
  rw [serveTariffRead_eq]
  dsimp only
  rw [h]
  exact if_pos rfl

section
variable {b : BankId} {x : TariffItem} {s : State}
  (h : ∀ u ∈ s.upsets, inItems b [.dims] u.loc = true → fatal u.kind = false)
include h

/-- The HEADER words could be given: the arguments are held against the dimensions, and the record is read. -/
theorem serveTariffRead_dims :
    serveTariffRead b x s =
      let v := s.correctedAt (inItems b [.dims])
      let r := readItems .gatewayRead b (tariffPlace (s.bank b).tariff x).toList v
      if withinDims (s.bank b).tariff x = false then refuse .badArg v
      else if x.priced = true ∧ (s.recOf b).expansionDue = true then refuse .badState v
      else if r.2 = true then answer .ok (tariffReadBody b x r.1) r.1
      else refuse .damaged r.1 := by
  rw [serveTariffRead_eq]
  dsimp only
  rw [readItems_corrects .gatewayRead b _ s h]
  rfl

variable (hin : withinDims (s.bank b).tariff x = true) (hp : ¬(x.priced = true ∧ (s.recOf b).expansionDue = true))
include hin hp

theorem serveTariffRead_ok
    (hr : ∀ u ∈ s.upsets, inItems b (tariffPlace (s.bank b).tariff x).toList u.loc = true → fatal u.kind = false) :
    serveTariffRead b x s =
      answer .ok (tariffReadBody b x s) (s.correctedAt (inItems b (.dims :: (tariffPlace (s.bank b).tariff x).toList))) := by
  have apart : ∀ l, inItems b [.dims] l = true → inItems b (tariffPlace (s.bank b).tariff x).toList l = false :=
    fun l => inItems_disjoint dims_region (tariffPlace_region _ _) (by decide)
  have hv : ∀ u ∈ (s.correctedAt (inItems b [.dims])).upsets,
      inItems b (tariffPlace (s.bank b).tariff x).toList u.loc = true → fatal u.kind = false := fun u hu hi =>
    hr u ((mem_correctedAt (inItems_disjoint (tariffPlace_region _ _) dims_region (by decide) hi)).mp hu) hi
  rw [serveTariffRead_dims h]
  dsimp only
  rw [if_neg (by simp [hin]), if_neg hp, readItems_corrects .gatewayRead b _ _ hv, correctedAt_correctedAt _ _ _ apart,
    show (fun l => inItems b [.dims] l || inItems b (tariffPlace (s.bank b).tariff x).toList l) =
      inItems b (.dims :: (tariffPlace (s.bank b).tariff x).toList) from funext fun l => (inItems_cons b _ _ l).symm]
  rfl

theorem serveTariffRead_record {t : State}
    (hr : readItems .gatewayRead b (tariffPlace (s.bank b).tariff x).toList (s.correctedAt (inItems b [.dims])) = (t, false)) :
    serveTariffRead b x s = refuse .damaged t := by
  rw [serveTariffRead_dims h]
  dsimp only
  rw [if_neg (by simp [hin]), if_neg hp, hr]
  rfl

end

/-! ### TARIFF_READ -/

theorem tariffRead_badArg {bank item a1 a2 a3 : Byte} {s : State}
    (h : bankOf bank = none ∨ tariffItemOf item a1 a2 a3 = none) : tariffRead bank item a1 a2 a3 s = refuse .badArg s := by
  unfold tariffRead
  rcases h with h | h
  · rw [h]
  · rw [h]
    cases bankOf bank <;> rfl

section
variable {item a1 a2 a3 : Byte} {b : BankId} {x : TariffItem} {s : State} (hx : tariffItemOf item a1 a2 a3 = some x)
include hx

/-- A TARIFF_READ whose bytes name a bank and an item is answered by the bank's state. -/
theorem tariffRead_of : tariffRead (bankCode b) item a1 a2 a3 s =
    if (s.recOf b).state.writtenBy then refuse .badState s
    else if (s.recOf b).state = .building ∧ s.applying then refuse .busy s
    else if (s.recOf b).tariffPresent then serveTariffRead b x s
    else if x = .dimensions then answer .ok (tariffReadBody b x s) s
    else refuse .incomplete s := by
  unfold tariffRead
  rw [bankOf_code, hx]

theorem tariffRead_written (hs : (s.recOf b).state = .copying ∨ (s.recOf b).state = .closing) :
    tariffRead (bankCode b) item a1 a2 a3 s = refuse .badState s := by
  rw [tariffRead_of hx, if_pos ((writtenBy_iff _).mpr hs)]

theorem tariffRead_busy (hb : (s.recOf b).state = .building) (ha : s.applying = true) :
    tariffRead (bankCode b) item a1 a2 a3 s = refuse .busy s := by
  rw [tariffRead_of hx, if_neg (by simp [hb, writtenBy_iff]), if_pos ⟨hb, ha⟩]

variable (hc : (s.recOf b).state ≠ .copying) (hl : (s.recOf b).state ≠ .closing)
  (ha : ¬((s.recOf b).state = .building ∧ s.applying = true))
include hc hl ha

theorem tariffRead_absent (ht : (s.recOf b).tariffPresent = false) :
    tariffRead (bankCode b) item a1 a2 a3 s =
      if x = .dimensions then answer .ok (tariffReadBody b x s) s else refuse .incomplete s := by
  rw [tariffRead_of hx, if_neg (by simp [writtenBy_iff, hc, hl]), if_neg ha, if_neg (by simp [ht])]

theorem tariffRead_served (ht : (s.recOf b).tariffPresent = true) :
    tariffRead (bankCode b) item a1 a2 a3 s = serveTariffRead b x s := by
  rw [tariffRead_of hx, if_neg (by simp [writtenBy_iff, hc, hl]), if_neg ha, if_pos ht]

end

/-- Settles O20: TARIFF_READ answers from the tariff of the bank, or is refused by the bank's state. -/
theorem tariffReadAnswersFromTheTariff : Obligations.TariffReadAnswersFromTheTariff := by
  unfold Obligations.TariffReadAnswersFromTheTariff
  intro s tag bank item a1 a2 a3 hr i
  have hexec : exec i s = .next (gateway i (tariffRead bank item a1 a2 a3) s) := rfl
  rw [hexec]
  refine ⟨fun h => ?_, ?_⟩
  · rw [gateway_reads hr rfl fun p => tariffRead_badArg (h.imp bankOf_none tariffItemOf_none)]
  rintro b x rfl hx r t applying readable
  refine ⟨fun h => ?_, fun h ha => ?_, fun hread hn => ?_, fun hread hpres => ?_⟩
  · rw [gateway_reads hr rfl fun p => tariffRead_written hx h]
  · rw [gateway_reads hr rfl fun p => tariffRead_busy hx h ((applying_iff s).mpr ha)]
  all_goals
    obtain ⟨hc, hl, ha⟩ := hread
    have ha' : ∀ p, ¬((State.recOf { s with port := p } b).state = .building ∧ State.applying { s with port := p } = true) :=
      fun p hx => ha ⟨hx.1, (applying_iff s).mp hx.2⟩
  · split
    · next he =>
      rw [gateway_reads hr rfl (out := tariffReadBody b x s) fun p =>
        (tariffRead_absent (s := { s with port := p }) hx hc hl (ha' p) hn).trans (if_pos he)]
    · next he => rw [gateway_reads hr rfl fun p => (tariffRead_absent (s := { s with port := p }) hx hc hl (ha' p) hn).trans (if_neg he)]
  intro outside record sound read damaged
  have served := fun p => tariffRead_served (s := { s with port := p }) hx hc hl (ha' p) hpres
  have hout : outside ↔ withinDims t x = false := by
    cases x <;> simp [outside, withinDims]
    all_goals omega
  have hrec : record = (tariffPlace t x).toList := by
    cases x <;> simp only [record, tariffPlace, Option.toList_some, Option.toList_none]
    split <;> rfl
  have hprice : ¬(item ≠ 3#8 ∨ r.expansionDue = false) ↔ x.priced = true ∧ r.expansionDue = true := by
    rw [tariffItemOf_priced hx]
    simp
  clear_value outside record
  subst hrec
  rw [hout]
  refine ⟨fun _ => correctedAt_sound, fun hbad => ?_, fun hdims => ⟨fun h => ?_, fun h => ⟨fun h3 hdue => ?_, fun hnp => ⟨fun hs => ?_,
    fun hbad => ?_⟩⟩⟩⟩
  · obtain ⟨t, u, o, ht, hrest⟩ := gateway_damaged (i := i) (own := tariffRead (bankCode b) item a1 a2 a3) hr rfl s dims_region hl
      (by simpa [sound] using hbad) fun p t hread => (served p).trans (serveTariffRead_header hread)
    exact ⟨t, u, o, congrArg _ ht, hrest⟩
  · exact congrArg _ (gateway_does hr rfl (read [.dims]) rfl fun p =>
      (served p).trans ((serveTariffRead_dims (s := { s with port := p }) hdims).trans (if_pos h)))
  all_goals have hin : withinDims t x = true := by simpa using h
  · exact congrArg _ (gateway_does hr rfl (read [.dims]) rfl fun p =>
      (served p).trans ((serveTariffRead_dims (s := { s with port := p }) hdims).trans
        ((if_neg h).trans (if_pos ⟨(tariffItemOf_priced hx).mpr h3, hdue⟩))))
  all_goals have hp := fun hx => hprice.mpr hx hnp
  · exact congrArg _ (gateway_does hr rfl (read (.dims :: (tariffPlace t x).toList)) rfl fun p =>
      (served p).trans (serveTariffRead_ok (s := { s with port := p }) hdims hin hp hs))
  · have hfree : ∀ u : Upset, inItems b (tariffPlace t x).toList u.loc = true → inItems b [.dims] u.loc = false := fun u =>
      inItems_disjoint (tariffPlace_region _ _) dims_region (by decide)
    have hu : ∃ u ∈ (read [.dims]).upsets, inItems b (tariffPlace t x).toList u.loc = true ∧ fatal u.kind = true := by
      simp only [sound, not_forall] at hbad
      obtain ⟨u, hmem, hi, hk⟩ := hbad
      exact ⟨u, (mem_correctedAt (hfree u hi)).mpr hmem, hi, by simpa using hk⟩
    obtain ⟨t', u, o, ht, hresp, hev, hmem, hi, hrest⟩ :=
      gateway_damaged (i := i) (own := tariffRead (bankCode b) item a1 a2 a3) hr rfl (read [.dims]) (tariffPlace_region t x) hl
        hu fun p t' hread => (served p).trans (serveTariffRead_record (s := { s with port := p }) hdims hin hp hread)
    exact ⟨t', u, o, congrArg _ ht, hresp, hev, (mem_correctedAt (hfree u hi)).mp hmem, hi, hrest⟩

end Sys2Proof.Machine
end

section
/-!
PROOFS. The state after a device reset: its values, and the laws it meets (R1, R2, R198).
-/

namespace Sys2Proof.Machine

/-! ### The values -/

theorem reset_bank (b : BankId) : State.reset.bank b = Bank.reset := by cases b <;> rfl

theorem reset_recOf (b : BankId) : State.reset.recOf b = BankRecord.reset := congrArg Bank.record (reset_bank b)

theorem reset_link (k : LinkId) : State.reset.link k = Link.reset := PerLink.get_all _ _

theorem reset_entry (k : LinkId) : State.reset.entry k = Entry.reset := PerLink.get_all _ _

theorem reset_queue (k : LinkId) : State.reset.lookups.queues.get k = [] := PerLink.get_all _ _

theorem reset_pendingBank : State.reset.pendingBank = none := rfl

/-! ### The laws -/

theorem reset_sequenceLaw : sequenceLaw State.reset :=
  ⟨nofun, nofun, by simp [reset_pendingBank]⟩

theorem reset_quietLaw : quietLaw State.reset := fun b _ => by rw [reset_recOf]; rfl

theorem reset_tablesLaw : tablesLaw State.reset := fun b => by
  rw [reset_bank]
  exact ⟨⟨nofun, .nil, .nil⟩, Nat.zero_le _⟩

theorem reset_packageLaw : packageLaw State.reset := ⟨fun h => absurd rfl h, nofun⟩

theorem reset_readyLaw : readyLaw State.reset := fun k h => by
  rw [reset_entry] at h
  cases h

theorem reset_readersLaw : readersLaw State.reset := ⟨rfl, rfl⟩

theorem reset_contextLaw : Link.reset.contextLaw := by
  refine ⟨fun _ => rfl, fun _ => ⟨rfl, rfl⟩, Nat.zero_le _, fun _ => ⟨rfl, rfl⟩, nofun, fun _ => ⟨rfl, rfl⟩⟩

theorem reset_slotsLaw : slotsLaw State.reset := fun k => by
  rw [State.held, reset_link, reset_queue]
  exact ⟨rfl, by decide, fun _ => rfl, nofun⟩

theorem reset_turnLaw : turnLaw State.reset := fun _ r => by
  cases r with
  | gateway => rfl
  | link k => exact (congrArg List.head? (reset_queue k) :)

theorem reset_gatewaySlotLaw : gatewaySlotLaw State.reset := ⟨⟨nofun, nofun⟩, nofun⟩

theorem reset_linkSettings :
    Link.reset.settings.inRange ∧ 1 ≤ Link.reset.divider ∧ Link.reset.divider ≤ 8 ∧ 64 ≤ Link.reset.threshold ∧
      Link.reset.threshold ≤ 960 ∧ Link.reset.interleave ≤ Link.reset.settings.interleave ∧
      Link.reset.refresh < Link.reset.settings.refresh := by decide

theorem reset_settingsLaw : settingsLaw State.reset := by
  refine ⟨by decide, by decide, by decide, by decide, by decide, by decide, by decide, by decide, fun k => ?_⟩
  rw [reset_link]
  exact reset_linkSettings

theorem reset_fifoLaw : fifoLaw State.reset := fun k => by
  rw [reset_link]
  exact ⟨by decide, by decide⟩

/-- Settles O3: the state after a device reset has the reset values of the rules and meets every law. -/
theorem resetMeetsTheLaws : Obligations.ResetMeetsTheLaws := by
  unfold Obligations.ResetMeetsTheLaws
  refine ⟨⟨by decide, reset_sequenceLaw, reset_quietLaw, ⟨ofRecords_nil.symm, ofRecords_nil.symm⟩, reset_tablesLaw,
    reset_packageLaw, by decide, by decide, by decide, reset_readyLaw, reset_readersLaw, fun k => ?_, reset_slotsLaw,
    reset_turnLaw, nofun, reset_gatewaySlotLaw, by decide, by decide, reset_settingsLaw, reset_fifoLaw⟩,
    fun b => ?_, rfl, rfl, rfl, rfl, rfl, rfl, rfl, fun k => ?_, rfl, rfl, rfl, rfl, rfl, rfl, rfl, rfl, rfl, rfl, rfl, rfl, rfl,
    rfl, rfl, rfl, rfl⟩
  · rw [reset_link]
    exact reset_contextLaw
  · rw [reset_recOf]
    exact ⟨rfl, rfl, rfl⟩
  · rw [reset_link, reset_entry]
    exact ⟨rfl, rfl, rfl, rfl, rfl, rfl⟩

end Sys2Proof.Machine
end

section
/-!
PROOFS. LINK_DISABLE and the link reset it performs (R115, R127, R128, R134).
-/

namespace Sys2Proof.Machine

/-! ### What a release does not see, and what it leaves -/

theorem drainDone_aside (b : BankId) (ls : PerLink Link) (u : Lookups) (p : Port) (s : State) :
    drainDone b { s with links := ls, lookups := u, port := p } = { drainDone b s with links := ls, lookups := u, port := p } := by
  unfold drainDone
  rw [show State.recOf { s with links := ls, lookups := u, port := p } b = s.recOf b from rfl,
    show State.inForce { s with links := ls, lookups := u, port := p } = s.inForce from rfl]
  split
  · split
    · rw [show ∀ f, State.recOf { s with links := ls, lookups := u, port := p } f = s.recOf f from fun _ => rfl]
      split <;> rfl
    · rfl
  · rfl

/-- The release of a reader sees neither the links, nor the lookups, nor the port. -/
theorem releaseReader_aside (b : BankId) (ls : PerLink Link) (u : Lookups) (p : Port) (s : State) :
    releaseReader b { s with links := ls, lookups := u, port := p } =
      { releaseReader b s with links := ls, lookups := u, port := p } := by
  have key : ∀ x : State,
      (if (State.recOf { x with links := ls, lookups := u, port := p } b).state = .draining ∧
            (State.recOf { x with links := ls, lookups := u, port := p } b).readers = 0
        then drainDone b { x with links := ls, lookups := u, port := p }
        else { x with links := ls, lookups := u, port := p }) =
      { (if (x.recOf b).state = .draining ∧ (x.recOf b).readers = 0 then drainDone b x else x) with
        links := ls, lookups := u, port := p } := by
    intro x
    rw [show State.recOf { x with links := ls, lookups := u, port := p } b = x.recOf b from rfl]
    split
    · exact drainDone_aside b ls u p x
    · rfl
  exact key (s.setRec b { s.recOf b with readers := (s.recOf b).readers - 1 })

theorem beginBuild_isPending (b : BankId) (o : BuildOption) {s : State} (h : (s.recOf b).state ≠ .pending) (c : BankId) :
    ((beginBuild b o s).recOf c).state = .pending ↔ (s.recOf c).state = .pending := by
  obtain ⟨x, hx, hs⟩ := standing_beginBuild b o s
  have hc := congrArg Standing.state (congrFun hs c)
  rw [Function.update_apply] at hc
  rw [show ((beginBuild b o s).recOf c).state = ((beginBuild b o s).standing c).state from rfl, hc]
  split
  · next he =>
    subst he
    rcases hx with rfl | rfl <;> simp [h]
  · rfl

theorem drainDone_isPending {b : BankId} {s : State} (h : (s.recOf b).state ≠ .pending) (c : BankId) :
    ((drainDone b s).recOf c).state = .pending ↔ (s.recOf c).state = .pending := by
  unfold drainDone
  split
  · split
    · split
      · rw [show ∀ x : State, (State.raise .buildFailed x).recOf c = x.recOf c from fun _ => rfl,
          show (emptyBank b s).recOf c = (s.setRec b BankRecord.reset).recOf c from rfl, State.recOf_setRec]
        split
        · next he => subst he; exact ⟨nofun, fun hx => absurd hx h⟩
        · rfl
      · exact beginBuild_isPending b _ h c
    · exact beginBuild_isPending b _ h c
  · exact beginBuild_isPending b _ h c

/-- A release takes no bank to PENDING, and none from it. -/
theorem releaseReader_isPending (b : BankId) (s : State) (c : BankId) :
    ((releaseReader b s).recOf c).state = .pending ↔ (s.recOf c).state = .pending := by
  have h1 : ∀ r : BankRecord, r.state = (s.recOf b).state →
      (((s.setRec b r).recOf c).state = .pending ↔ (s.recOf c).state = .pending) := fun r hr => by
    rw [State.recOf_setRec]
    split
    · next he => rw [he, hr]
    · rfl
  unfold releaseReader
  dsimp only
  split
  · next h => exact (drainDone_isPending (by rw [h.1]; decide) c).trans (h1 _ rfl)
  · exact h1 _ rfl

theorem pendingBank_isSome (s : State) :
    s.pendingBank.isSome = true ↔ (s.recOf .bankA).state = .pending ∨ (s.recOf .bankB).state = .pending := by
  unfold State.pendingBank State.findBank
  by_cases ha : (s.recOf .bankA).state = .pending
  · simp [ha]
  · by_cases hb : (s.recOf .bankB).state = .pending <;> simp [ha, hb]

/-! ### The link reset (R127) -/

/-- The state with the link of the bank in `content` left: its reader, if it had one, is released. -/
def State.readerLeft (content : Option BankId) (s : State) : State :=
  match content with
  | some b => releaseReader b s
  | none => s

section
variable (content : Option BankId) (s : State)

theorem readerLeft_aside (ls : PerLink Link) (u : Lookups) (p : Port) :
    State.readerLeft content { s with links := ls, lookups := u, port := p } =
      { s.readerLeft content with links := ls, lookups := u, port := p } := by
  cases content with
  | none => rfl
  | some b => exact releaseReader_aside b ls u p s

theorem readerLeft_keeps :
    (s.readerLeft content).links = s.links ∧ (s.readerLeft content).lookups = s.lookups ∧
      (s.readerLeft content).carousel = s.carousel ∧ (s.readerLeft content).table = s.table ∧
      (s.readerLeft content).port = s.port := by
  cases content with
  | none => exact ⟨rfl, rfl, rfl, rfl, rfl⟩
  | some b =>
    exact ⟨releaseReader_links b s, releaseReader_lookups b s, releaseReader_carousel b s, releaseReader_table b s,
      releaseReader_port b s⟩

theorem readerLeft_isPending (c : BankId) :
    ((s.readerLeft content).recOf c).state = .pending ↔ (s.recOf c).state = .pending := by
  cases content with
  | none => exact Iff.rfl
  | some b => exact releaseReader_isPending b s c

end

theorem anyInCycle_setLink (k : LinkId) (l : Link) (s : State) (hl : l.phase ≠ .inCycle) :
    (s.setLink k l).anyInCycle = false ↔ ∀ j, j ≠ k → (s.link j).phase ≠ .inCycle := by
  have h1 : (s.setLink k l).anyInCycle = false ↔ ∀ j, ((s.setLink k l).link j).phase ≠ .inCycle := by
    simp only [State.anyInCycle, List.any_eq_false, PerLink.mem_toList, Link.inCycle, decide_eq_true_eq, forall_exists_index,
      forall_apply_eq_imp_iff]
    rfl
  rw [h1]
  constructor
  · intro h j hj
    have := h j
    rwa [State.link_setLink, if_neg hj] at this
  · intro h j
    rw [State.link_setLink]
    split
    · exact hl
    · next hj => exact h j hj

/-- The last link to leave a cycle stops a STOPPING carousel (R90): no link but `k` is in one. -/
abbrev State.stopsAt (s : State) (k : LinkId) : Prop :=
  s.carousel.state = .stopping ∧ ∀ j, j ≠ k → (s.link j).phase ≠ .inCycle

/-- Link `k` reset, but for readiness: the reader of its cycle released, a STOPPING carousel stopped by the last link to leave
its cycle, the entry fresh (R90, R127, R128, R134). -/
def State.linkCleared (k : LinkId) (s : State) : State :=
  let r := s.readerLeft (s.link k).ctx.content
  { (r.setLink k (s.link k).afterReset).setEntry k (freshEntry s (s.entry k).excluded) with
    lookups := s.lookups.dropLink k
    carousel := { s.carousel with state := if s.stopsAt k then .stopped else s.carousel.state }
    events := { r.events with flags := r.events.flags ||| (if s.stopsAt k then 0x40000#24 else 0#24) } }

theorem leftCycle_eq {s : State} {c : Prop} [Decidable c] (hc : (s.carousel.state = .stopping ∧ s.anyInCycle = false) ↔ c) :
    leftCycle s =
      { s with
        carousel := { s.carousel with state := if c then .stopped else s.carousel.state }
        events := { s.events with flags := s.events.flags ||| (if c then 0x40000#24 else 0#24) } } := by
  unfold leftCycle
  by_cases h : c
  · have hs := hc.mpr h
    rw [if_pos ⟨hs.1, by rw [hs.2]; rfl⟩, if_pos h, if_pos h]
    rfl
  · rw [if_neg fun hx => h (hc.mp ⟨hx.1, by simpa using hx.2⟩), if_neg h, if_neg h, BitVec.or_zero]

theorem freshEntry_congr {s t : State} (h : ∀ c, (t.recOf c).state = .pending ↔ (s.recOf c).state = .pending) (x : Bool) :
    freshEntry t x = freshEntry s x := by
  have hp : t.pendingBank.isSome = s.pendingBank.isSome := by
    rw [Bool.eq_iff_iff, pendingBank_isSome, pendingBank_isSome, h, h]
  unfold freshEntry
  rw [hp]

theorem linkReset_eq (k : LinkId) (s : State) : linkReset k s = reevaluate (s.linkCleared k) := by
  obtain ⟨hl, hu, hc, ht, hp⟩ := readerLeft_keeps (s.link k).ctx.content s
  have hpend := readerLeft_isPending (s.link k).ctx.content s
  have hs2 := readerLeft_aside (s.link k).ctx.content s (s.links.set k (s.link k).afterReset) (s.lookups.dropLink k) s.port
  have hreset : linkReset k s =
      let s3 := leftCycle
        (State.readerLeft (s.link k).ctx.content
          { s with links := s.links.set k (s.link k).afterReset, lookups := s.lookups.dropLink k })
      reevaluate (s3.setEntry k (freshEntry s3 (s3.entry k).excluded)) := rfl
  have hany : State.anyInCycle { s with links := s.links.set k (s.link k).afterReset } = false ↔
      ∀ j, j ≠ k → (s.link j).phase ≠ .inCycle := anyInCycle_setLink k _ s nofun
  have hfresh : ∀ z : State, z.table = s.table → (∀ b, (z.recOf b).state = .pending ↔ (s.recOf b).state = .pending) →
      freshEntry z (z.entry k).excluded = freshEntry s (s.entry k).excluded := fun z hz hr => by
    rw [freshEntry_congr hr, State.entry, hz]
    rfl
  rw [hreset, hs2]
  unfold State.linkCleared
  dsimp only
  generalize s.readerLeft (s.link k).ctx.content = r at *
  rw [leftCycle_eq (c := s.stopsAt k) (by dsimp only; rw [hc]; exact and_congr_right fun _ => hany), hfresh]
  · dsimp only
    unfold State.setEntry State.setLink
    dsimp only
    rw [hc, hl, hp]
  · exact ht
  · exact hpend

/-! ### LINK_DISABLE (R115) -/

/-- A cutover does not see the port. -/
theorem CutOver.at_port {s t : State} {b : BankId} {c : Option Cause} {e : CutEnd} {p : Port}
    (h : CutOver { s with port := p } b c e t) : CutOver s b c e { t with port := s.port } :=
  ⟨h.newBank, h.formerBank, h.otherBank, h.entries, h.settings, h.notReady, h.links, h.control, h.events,
    congrArg (fun x : State => { x with port := s.port }) h.rest⟩

/-- The evaluation of readiness does not see the port. -/
theorem ReadinessFollows.at_port {u t : State} {p : Port} (h : ReadinessFollows { u with port := p } t) :
    ReadinessFollows u { t with port := u.port } where
  noRise hr := congrArg (fun x : State => { x with port := u.port }) (h.noRise hr)
  rise hr ha := congrArg (fun x : State => { x with port := u.port }) (h.rise hr ha)
  deferred hr ha hi hg := congrArg (fun x : State => { x with port := u.port }) (h.deferred hr ha hi hg)
  cutover hr ha hi hroles := by
    obtain ⟨b, hb, hcut, -, hlook⟩ := h.cutover hr ha hi hroles
    exact ⟨b, hb, CutOver.at_port hcut, rfl, hlook⟩

theorem linkDisable_refuses {link : Byte} (h : 7 < link.toNat) (s : State) : linkDisable link s = refuse .badArg s := by
  unfold linkDisable
  rw [linkOf_none h]

theorem linkDisable_of (k : LinkId) (s : State) :
    linkDisable (BitVec.ofNat 8 k.val) s =
      if (s.link k).state = .testing then refuse .badState s else answer .ok [] (linkReset k s) := by
  unfold linkDisable
  rw [linkOf_val]

theorem linkCleared_port (k : LinkId) (p : Port) (s : State) :
    State.linkCleared k { s with port := p } = { s.linkCleared k with port := p } := by
  have hr : State.readerLeft (s.link k).ctx.content { s with port := p } =
      { s.readerLeft (s.link k).ctx.content with port := p } := by
    obtain ⟨hl, hu, -⟩ := readerLeft_keeps (s.link k).ctx.content s
    have := readerLeft_aside (s.link k).ctx.content s s.links s.lookups p
    refine this.trans ?_
    dsimp only
    rw [← hl, ← hu]
  unfold State.linkCleared
  rw [show State.link { s with port := p } k = s.link k from rfl, hr]
  rfl

/-- Settles O39: LINK_DISABLE performs the link reset, and readiness is evaluated. -/
theorem linkDisableResetsTheLink : Obligations.LinkDisableResetsTheLink := by
  unfold Obligations.LinkDisableResetsTheLink
  intro s tag link hr i
  have hexec : exec i s = .next (gateway i (linkDisable link) s) := rfl
  rw [hexec]
  refine ⟨fun h => by rw [gateway_reads hr rfl fun p => linkDisable_refuses h _], ?_⟩
  rintro k rfl l cleared entry stops u
  refine ⟨fun ht => ?_, fun ht => ?_⟩
  · rw [gateway_reads hr rfl fun p => (linkDisable_of k _).trans (if_pos ht)]
  · generalize hm : beginMessage tag (sealMessage 0x2A#8 tag [BitVec.ofNat 8 k.val]) s = m
    have hms : m = { s with port := m.port } := by rw [← hm]; rfl
    have ho : linkDisable (BitVec.ofNat 8 k.val) m = ⟨linkReset k m, some (.ok, [])⟩ :=
      (linkDisable_of k m).trans (if_neg (by rw [hms]; exact ht))
    have hf : ReadinessFollows { s.linkCleared k with port := m.port } (linkReset k m) := by
      rw [linkReset_eq, ← linkCleared_port, ← hms]
      exact reevaluate_follows _
    have hport : (s.linkCleared k).port = s.port := (readerLeft_keeps (s.link k).ctx.content s).2.2.2.2
    have hentry : freshEntry s (s.entry k).excluded = entry := by
      unfold freshEntry
      simp only [pendingBank_isSome]
      rfl
    have hfollow := ReadinessFollows.at_port hf
    rw [hport] at hfollow
    refine ⟨s.readerLeft l.ctx.content, { linkReset k m with port := s.port }, fun hc => ?_, fun b hb => ?_, ?_, ?_⟩
    · rw [hc]
      rfl
    · rw [hb]
      exact releaseReader_released s b
    · subst hm
      rw [gateway_answered hr rfl ho (linkReset_port _ _)]
    · have hu : u (s.readerLeft l.ctx.content) = s.linkCleared k := by
        unfold State.linkCleared
        rw [hentry]
        rfl
      rw [hu]
      exact hfollow

end Sys2Proof.Machine
end

section
/-!
PROOFS. The takes of the Lookup Engine, and the lookup that completes (R125, R151, R170 to R172, R176, R177, R179).
-/

namespace Sys2Proof.Machine

/-! ### Whose turn it is (R170) -/

/-- How far a requester stands behind the pointer, round again. -/
def Requester.turn (p r : Requester) : Nat := (r.place + 9 - p.place) % 9

theorem requestersFrom_turns (p : Requester) : (requestersFrom p).Pairwise fun x y => p.turn x < p.turn y := by
  cases p with
  | gateway => decide
  | link k => revert k; decide

theorem mem_requestersFrom (p r : Requester) : r ∈ requestersFrom p := by
  cases p with
  | gateway => cases r with
    | gateway => decide
    | link j => revert j; decide
  | link k => cases r with
    | gateway => revert k; decide
    | link j => revert k j; decide

/-- The first member of an ascending list that has a value is the least one that has. -/
theorem findSome_ascending {α β : Type} {f : α → Nat} {g : α → Option β} {l : List α} (h : l.Pairwise fun x y => f x < f y)
    (r : α) (q : β) :
    (l.findSome? fun r => (g r).map fun q => (r, q)) = some (r, q) ↔
      r ∈ l ∧ g r = some q ∧ ∀ x ∈ l, g x ≠ none → f r ≤ f x := by
  induction l with
  | nil => simp
  | cons a l ih =>
    obtain ⟨ha, hl⟩ := List.pairwise_cons.mp h
    rw [List.findSome?_cons]
    cases hga : g a with
    | none =>
      simp only [Option.map_none, ih hl, List.mem_cons, forall_eq_or_imp, hga]
      constructor
      · exact fun ⟨hr, hq, hx⟩ => ⟨.inr hr, hq, fun h => absurd rfl h, hx⟩
      · rintro ⟨rfl | hr, hq, -, hx⟩
        · rw [hga] at hq; cases hq
        · exact ⟨hr, hq, hx⟩
    | some q' =>
      simp only [Option.map_some, Option.some.injEq, Prod.mk.injEq, List.mem_cons, forall_eq_or_imp, hga]
      constructor
      · rintro ⟨rfl, rfl⟩
        exact ⟨.inl rfl, hga, fun _ => le_refl _, fun x hx _ => le_of_lt (ha x hx)⟩
      · rintro ⟨rfl | hr, hq, hle, -⟩
        · rw [hga] at hq
          exact ⟨rfl, Option.some.inj hq⟩
        · have h1 := ha r hr
          have h2 := hle nofun
          omega

theorem next_iff (u : Lookups) (r : Requester) (q : Query) :
    u.next = some (r, q) ↔ u.oldest r = some q ∧ ∀ x, u.oldest x ≠ none → u.pointer.turn r ≤ u.pointer.turn x := by
  unfold Lookups.next
  rw [findSome_ascending (requestersFrom_turns u.pointer)]
  simp only [mem_requestersFrom, true_and, forall_const]

theorem next_none_iff (u : Lookups) : u.next = none ↔ ∀ r, u.oldest r = none := by
  simp [Lookups.next, List.findSome?_eq_none_iff, mem_requestersFrom]

/-- A query taken is one waiting less. -/
theorem waiting_removeOldest {u : Lookups} {r : Requester} {q : Query} (h : u.oldest r = some q) :
    u.waiting = (u.removeOldest r).waiting + 1 := by
  cases r with
  | gateway =>
    unfold Lookups.oldest at h
    unfold Lookups.waiting Lookups.removeOldest
    cases hs : u.slot <;> rw [hs] at h
    case waiting => rfl
    all_goals cases h
  | link k =>
    have hlen : (u.queues.get k).length = (u.queues.get k).tail.length + 1 := by
      have h : (u.queues.get k).head? = some q := h
      cases hq : u.queues.get k with
      | nil => rw [hq] at h; cases h
      | cons x xs => rfl
    have hsum : (u.queues.toList.map List.length).sum =
        ((u.queues.set k (u.queues.get k).tail).toList.map List.length).sum + 1 := by
      revert hlen
      generalize (u.queues.get k).tail = xs
      match k with
      | 0 | 1 | 2 | 3 | 4 | 5 | 6 | 7 =>
        simp only [PerLink.set, PerLink.get, PerLink.toList, List.map_cons, List.map_nil, List.sum_cons, List.sum_nil]
        intro hlen
        omega
    unfold Lookups.waiting Lookups.removeOldest
    dsimp only
    omega

/-! ### Delivery (R125, R169, R177) -/

/-- An answer is delivered to its requester (R177). -/
def delivered (r : Requester) (a : Answer) (s : State) : State :=
  match r with
  | .link k => deliverLink k a s
  | .gateway => deliverGateway a s

theorem finishLookup_delivers {v : Service} (h : v.discard = false) (verdict : Verdict) (s : State) :
    finishLookup v verdict s = delivered v.requester (answerOf s v verdict) (leaveService v s) := by
  cases hr : v.requester with
  | link k => exact finishLookup_link h hr verdict s
  | gateway => exact finishLookup_gateway h hr verdict s

theorem deliverLink_keeps (k : LinkId) (a : Answer) (s : State) :
    (deliverLink k a s).lookups = s.lookups ∧ (deliverLink k a s).banks = s.banks ∧ (deliverLink k a s).events = s.events ∧
      (deliverLink k a s).port = s.port := by
  unfold deliverLink
  simp

theorem delivered_keeps (r : Requester) (a : Answer) (s : State) :
    (delivered r a s).lookups.queues = s.lookups.queues ∧ (delivered r a s).lookups.service = s.lookups.service ∧
      (delivered r a s).banks = s.banks ∧ (delivered r a s).events = s.events := by
  cases r with
  | link k =>
    obtain ⟨h1, h2, h3, -⟩ := deliverLink_keeps k a s
    exact ⟨congrArg Lookups.queues h1, congrArg Lookups.service h1, h2, h3⟩
  | gateway => exact ⟨rfl, rfl, rfl, rfl⟩

/-! ### The take (R170, R171) -/

/-- The state when a query taken has been answered UNKNOWN at once (R171). -/
def answeredAtTake (r : Requester) (q : Query) (seq : Half) (c : UnknownCause) (u : State) : State :=
  delivered r ⟨q.tag, q.args.kind, .unknown c, seq, if u.clock.valid then some u.clock.day else none⟩
    { u with lookups := u.lookups.removeOldest r }

theorem removeOldest_service (r : Requester) (u : Lookups) : (u.removeOldest r).service = u.service := by
  cases r <;> rfl

theorem waiting_answeredAtTake {r : Requester} {q : Query} {u : State} (h : u.lookups.oldest r = some q) (seq : Half)
    (c : UnknownCause) : u.lookups.waiting = (answeredAtTake r q seq c u).lookups.waiting + 1 := by
  rw [waiting_removeOldest h]
  unfold answeredAtTake
  cases r with
  | link k => unfold delivered; rw [(deliverLink_keeps k _ _).1]
  | gateway => rfl

theorem service_none_eta {w : Lookups} (h : w.service = none) : { w with service := none } = w := by
  cases w
  cases h
  rfl

/-- A reader gained and released again leaves a bank as it was, unless it is DRAINING (R4). -/
theorem releaseReader_addReader {f : BankId} {s : State} (h : (s.recOf f).state ≠ .draining) :
    releaseReader f (addReader f s) = s := by
  have hst : ((addReader f s).recOf f).state = (s.recOf f).state := by
    unfold addReader
    rw [State.recOf_setRec, if_pos rfl]
  rw [releaseReader_eq (by rw [hst]; exact h)]
  cases f <;> rfl

section
variable {u : State} {r : Requester} {q : Query} (hs : u.lookups.service = none)
include hs

theorem takeQuery_noImage (hf : u.inForce = none) (verdict : Verdict) :
    finishLookup (serviceOf r q u) verdict (takeQuery r q u) =
      delivered r ⟨q.tag, q.args.kind, verdict, 0#16, if u.clock.valid then some u.clock.day else none⟩
        { u with lookups := u.lookups.removeOldest r } := by
  have hr := service_none_eta ((removeOldest_service r u.lookups).trans hs)
  rw [finishLookup_delivers rfl, leaveService_none hf]
  unfold takeQuery answerOf
  rw [hf]
  dsimp only [serviceOf]
  rw [hf, hr]
  rfl

theorem takeQuery_marked {f : BankId} (hf : u.inForce = some f) (verdict : Verdict) :
    finishLookup (serviceOf r q u) verdict (takeQuery r q u) =
      delivered r ⟨q.tag, q.args.kind, verdict, (u.recOf f).seq, if u.clock.valid then some u.clock.day else none⟩
        { u with lookups := u.lookups.removeOldest r } := by
  have hr := service_none_eta ((removeOldest_service r u.lookups).trans hs)
  have hst : (u.recOf f).state = .inForce := findBank_some hf
  have ht : takeQuery r q u =
      addReader f { u with lookups := { u.lookups.removeOldest r with service := some (serviceOf r q u) } } := by
    unfold takeQuery
    rw [hf]
  have hans : answerOf (takeQuery r q u) (serviceOf r q u) verdict =
      ⟨q.tag, q.args.kind, verdict, (u.recOf f).seq, if u.clock.valid then some u.clock.day else none⟩ := by
    unfold answerOf
    rw [show (serviceOf r q u).bank = some f from hf, ht]
    cases f <;> rfl
  rw [finishLookup_delivers rfl, leaveService_some hf, hans, ht]
  show delivered r _ (releaseReader f (addReader f { u with lookups := { u.lookups.removeOldest r with service := none } })) = _
  rw [hr, releaseReader_addReader (by show (u.recOf f).state ≠ _; rw [hst]; decide)]

variable (hn : u.lookups.next = some (r, q))
include hn

theorem takeNext_takes (n : Nat) :
    takeNext (n + 1) u =
      (verdictAtTake (serviceOf r q u) (takeQuery r q u)).elim (takeQuery r q u)
        fun verdict => takeNext n (finishLookup (serviceOf r q u) verdict (takeQuery r q u)) := by
  rw [takeNext, if_neg (by simp [hs]), hn]
  dsimp only
  cases verdictAtTake (serviceOf r q u) (takeQuery r q u) <;> rfl

/-- A take whose lookup completes at once: the next take is attempted (R170, R171). -/
theorem attemptTake_answered {c : UnknownCause} {seq : Half}
    (hv : verdictAtTake (serviceOf r q u) (takeQuery r q u) = some (.unknown c))
    (hf : finishLookup (serviceOf r q u) (.unknown c) (takeQuery r q u) = answeredAtTake r q seq c u) :
    attemptTake u = attemptTake (answeredAtTake r q seq c u) := by
  unfold attemptTake
  rw [waiting_answeredAtTake ((next_iff _ _ _).mp hn).1 seq c, takeNext_takes hs hn, hv, Option.elim_some, hf]

theorem attemptTake_noImage (hf : u.inForce = none) : attemptTake u = attemptTake (answeredAtTake r q 0#16 .noImage u) := by
  refine attemptTake_answered hs hn ?_ (takeQuery_noImage hs hf _)
  unfold verdictAtTake
  rw [show (serviceOf r q u).bank = none from hf]

end

theorem verdictAtTake_eq {u : State} {r : Requester} {q : Query} {f : BankId} (hf : u.inForce = some f) :
    verdictAtTake (serviceOf r q u) (takeQuery r q u) =
      if q.args.kind.needsMarked (u.recOf f).marks then some (.unknown .damaged) else none := by
  have hm : ((takeQuery r q u).recOf f).marks = (u.recOf f).marks := by
    unfold takeQuery addReader
    rw [hf]
    dsimp only
    rw [State.recOf_setRec, if_pos rfl]
    rfl
  unfold verdictAtTake
  rw [show (serviceOf r q u).bank = some f from hf]
  dsimp only
  rw [hm]
  rfl

/-- The state when a query taken stays in service on the bank in force (R171). -/
def inService (r : Requester) (q : Query) (f : BankId) (u : State) : State :=
  { u.setRec f { u.recOf f with readers := (u.recOf f).readers + 1 } with
    lookups := { u.lookups.removeOldest r with
      service := some ⟨r, q, some f, if u.clock.valid then some u.clock.day else none, false⟩ } }

section
variable {u : State} {r : Requester} {q : Query} {f : BankId} (hs : u.lookups.service = none)
  (hn : u.lookups.next = some (r, q)) (hf : u.inForce = some f)
include hs hn hf

theorem attemptTake_marked (hm : q.args.kind.needsMarked (u.recOf f).marks = true) :
    attemptTake u = attemptTake (answeredAtTake r q (u.recOf f).seq .damaged u) :=
  attemptTake_answered hs hn (by rw [verdictAtTake_eq hf, if_pos hm]) (takeQuery_marked hs hf _)

theorem attemptTake_taken (hm : q.args.kind.needsMarked (u.recOf f).marks = false) : attemptTake u = inService r q f u := by
  unfold attemptTake
  rw [waiting_removeOldest ((next_iff _ _ _).mp hn).1, takeNext_takes hs hn, verdictAtTake_eq hf, hm]
  rw [if_neg Bool.false_ne_true, Option.elim_none]
  unfold takeQuery serviceOf addReader
  rw [hf]
  rfl

end

theorem attemptTake_idle {u : State} (h : u.lookups.service ≠ none ∨ ∀ r, u.lookups.oldest r = none) : attemptTake u = u := by
  unfold attemptTake
  cases u.lookups.waiting with
  | zero => rfl
  | succ n =>
    unfold takeNext
    rcases h with h | h
    · rw [if_pos (Option.isSome_iff_ne_none.mpr h)]
    · rw [(next_none_iff _).mpr h]
      exact ite_self _

/-- The takes, one after the other: none is attempted, one is answered at once and the next attempted, or one stays in
service. -/
theorem takes_induction {motive : State → Prop}
    (idle : ∀ u, u.lookups.service ≠ none ∨ (∀ r, u.lookups.oldest r = none) → motive u)
    (answered : ∀ u r q seq c, attemptTake u = attemptTake (answeredAtTake r q seq c u) → u.lookups.oldest r = some q →
      motive (answeredAtTake r q seq c u) → motive u)
    (taken : ∀ u r q f, attemptTake u = inService r q f u → u.lookups.oldest r = some q → motive u) (u : State) :
    motive u := by
  generalize hw : u.lookups.waiting = n
  induction n using Nat.strongRecOn generalizing u with
  | ind n ih =>
    by_cases hs : u.lookups.service = none
    · cases hn : u.lookups.next with
      | none => exact idle u (.inr ((next_none_iff _).mp hn))
      | some p =>
        obtain ⟨r, q⟩ := p
        have ho := ((next_iff _ _ _).mp hn).1
        have step : ∀ seq c, motive (answeredAtTake r q seq c u) := fun seq c =>
          ih _ (by have := waiting_answeredAtTake ho seq c (u := u); omega) _ rfl
        cases hf : u.inForce with
        | none => exact answered u r q _ _ (attemptTake_noImage hs hn hf) ho (step _ _)
        | some f =>
          cases hm : q.args.kind.needsMarked (u.recOf f).marks with
          | true => exact answered u r q _ _ (attemptTake_marked hs hn hf hm) ho (step _ _)
          | false => exact taken u r q f (attemptTake_taken hs hn hf hm) ho
    · exact idle u (.inl hs)

/-- What an answer at a take, and a lookup going into service, keep is kept by the takes attempted. -/
theorem attemptTake_keeps {Q : State → Prop}
    (hanswer : ∀ u r q seq c, u.lookups.oldest r = some q → Q u → Q (answeredAtTake r q seq c u))
    (htake : ∀ u r q f, u.lookups.oldest r = some q → Q u → Q (inService r q f u)) {u : State} (h : Q u) :
    Q (attemptTake u) := by
  revert h
  induction u using takes_induction with
  | idle u hi => rw [attemptTake_idle hi]; exact id
  | answered u r q seq c he ho ih => rw [he]; exact fun h => ih (hanswer u r q seq c ho h)
  | taken u r q f he ho => rw [he]; exact fun h => htake u r q f ho h

/-- When the takes end with no lookup in service, no query waits (R170). -/
theorem attemptTake_exhausts (u : State) : (attemptTake u).lookups.service = none → ∀ r, (attemptTake u).lookups.oldest r = none := by
  induction u using takes_induction with
  | idle u hi => rw [attemptTake_idle hi]; exact fun hs => hi.resolve_left (absurd hs)
  | answered u r q seq c he ho ih => rw [he]; exact ih
  | taken u r q f he ho => rw [he]; exact nofun

end Sys2Proof.Machine
end

section
/-!
PROOFS. LOOKUP_COMPLETE (R125, R151, R172, R177, R179).
-/

namespace Sys2Proof.Machine

theorem needsMarked_eq (q : Query) (m : Marks) :
    q.args.kind.needsMarked m = if q.args.kind = .cardCheck then m.ranges.isSome else m.header.isSome || m.tariff.isSome := by
  cases q.args.kind <;> rfl

/-- On words without errors a lookup changes nothing. -/
theorem lookUp_clean {b : BankId} {day : Option Half} {args : QueryArgs} {s : State} (h : s.upsets = []) :
    (lookUp b day args s).1 = s :=
  lookUp_keeps (Q := fun x => x = s) (fun is x hx => by rw [hx, readItems_clean .lookup b is s h]) rfl

theorem recOf_congr {s t : State} (h : t.banks = s.banks) (b : BankId) : t.recOf b = s.recOf b := by
  unfold State.recOf State.bank
  rw [h]

/-! ### The completion (R172) -/

section
variable {s : State} {v : Service}

theorem lookupComplete_idle (h : s.lookups.service = none) : lookupComplete s = s := by
  unfold lookupComplete
  rw [h]

theorem lookupComplete_of {b : BankId} (h : s.lookups.service = some v) (hb : v.bank = some b) :
    lookupComplete s =
      attemptTake (finishLookup v
        (verdictAtEnd b v.query.args.kind (lookUp b v.day v.query.args s).1 (lookUp b v.day v.query.args s).2)
        (lookUp b v.day v.query.args s).1) := by
  unfold lookupComplete
  rw [h]
  dsimp only
  rw [hb]

/-- Every completion ends in the takes attempted. -/
theorem lookupComplete_takes (h : s.lookups.service ≠ none) : ∃ u, lookupComplete s = attemptTake u := by
  unfold lookupComplete
  split
  · next hs => exact absurd hs h
  · split
    · exact ⟨_, rfl⟩
    · exact ⟨_, rfl⟩

theorem answerOf_eq {b : BankId} (hb : v.bank = some b) (verdict : Verdict) (s : State) :
    answerOf s v verdict = ⟨v.query.tag, v.query.args.kind, verdict, (s.recOf b).seq, v.day⟩ := by
  unfold answerOf
  rw [hb]
  rfl

theorem lookupComplete_clean {b : BankId} (h : s.lookups.service = some v) (hb : v.bank = some b) (hu : s.upsets = []) :
    let verdict := if v.query.args.kind.needsMarked (s.recOf b).marks then .unknown .damaged
      else (lookUp b v.day v.query.args s).2.getD (.unknown .damaged)
    let freed : State := { releaseReader b s with lookups := { s.lookups with service := none } }
    lookupComplete s =
      attemptTake (if v.discard then freed
        else delivered v.requester ⟨v.query.tag, v.query.args.kind, verdict, (s.recOf b).seq, v.day⟩ freed) := by
  intro verdict freed
  have hfreed : leaveService v s = freed := by
    unfold leaveService
    rw [hb]
    exact congrArg (fun w : Lookups => { releaseReader b s with lookups := { w with service := none } }) (releaseReader_lookups b s)
  rw [lookupComplete_of h hb, lookUp_clean hu]
  congr 1
  cases hd : v.discard with
  | true => rw [if_pos rfl, finishLookup_discarded hd, hfreed]
  | false =>
    rw [if_neg Bool.false_ne_true, finishLookup_delivers hd, hfreed, answerOf_eq hb]
    rfl

end

/-! ### A first word that cannot be read (R172, R182) -/

/-- The item that a lookup reads first (R173, R175, R176). -/
def firstItem : QueryArgs → Item
  | .cardCheck c => .dirEntry (shelfOf c)
  | .fareQuote _ _ _ => .dims
  | .productInfo _ => .dims

theorem readItems_single {reader : Reader} {b : BankId} {items : List Item} {s : State} {u : Upset} (h : s.upsets = [u])
    (hi : inItems b items u.loc = true) (hu : fatal u.kind = true) :
    readItems reader b items s = (uncorrectable u.loc reader s, false) := by
  have hlen := hitsIn_length b items [u]
  rw [List.filter_cons_of_pos (by simpa using hi), List.filter_nil] at hlen
  obtain ⟨x, hx⟩ := List.length_eq_one_iff.mp hlen
  have hxu : x = u := by
    have : x ∈ hitsIn b items [u] := by rw [hx]; exact List.mem_singleton_self x
    exact List.mem_singleton.mp ((mem_hitsIn _ _ _ _).mp this).1
  unfold readItems
  rw [h, hx, hxu]
  simp [readHits, hu]

theorem lookUp_unreadable {b : BankId} {day : Option Half} {args : QueryArgs} {s : State} {u : Upset} (h : s.upsets = [u])
    (hi : inItems b [firstItem args] u.loc = true) (hu : fatal u.kind = true) :
    lookUp b day args s = (uncorrectable u.loc .lookup s, none) := by
  cases args with
  | cardCheck c =>
    show lookUpCard b day c s = _
    unfold lookUpCard
    rw [readItems_single (items := [.dirEntry (shelfOf c)]) h hi hu]
    rfl
  | fareQuote c o d =>
    show lookUpFare b c o d s = _
    unfold lookUpFare
    rw [readItems_single (items := [.dims]) h hi hu]
    rfl
  | productInfo c =>
    show lookUpProduct b day c s = _
    unfold lookUpProduct
    rw [readItems_single (items := [.dims]) h hi hu]
    rfl

/-- A word of a STALE bank found uncorrectable (R23). -/
theorem uncorrectable_stale {b : BankId} {r : Region} {o : Nat} {reader : Reader} {s : State} (h : (s.recOf b).state = .stale) :
    uncorrectable (.bank b r o) reader s = scrubLeaves b r (s.found reader b r o) := by
  rw [uncorrectable_bank, ← markRegion_found]
  unfold setMark
  rw [show (reportUncorrectable (.bank b r o) reader s).recOf b = s.recOf b from rfl, h]

theorem found_recOf (reader : Reader) (b : BankId) (r : Region) (o : Nat) (s : State) :
    (s.found reader b r o).recOf b = { s.recOf b with marks := (s.recOf b).marks.mark r o } := by
  cases b <;> rfl

/-- What a word of a bank in force, or STALE, found uncorrectable leaves of the bank and of the links. -/
theorem uncorrectable_leaves {b : BankId} {r : Region} {o : Nat} {reader : Reader} {s : State}
    (h : (s.recOf b).state = .inForce ∨ (s.recOf b).state = .stale) :
    let t := uncorrectable (.bank b r o) reader s
    (t.recOf b).marks = (s.recOf b).marks.mark r o ∧ (t.recOf b).state = (s.recOf b).state ∧
      (t.recOf b).seq = (s.recOf b).seq ∧ t.events.has .eccUncorrectable = true ∧
      ∀ k, (t.link k).answers = (s.link k).answers ∧ (t.link k).tx = (s.link k).tx := by
  have hev : (reportUncorrectable (.bank b r o) reader s).events.has .eccUncorrectable = true := by
    show (reportUncorrectable (.bank b r o) reader s).events.flags.getLsbD 17 = true
    simp [reportUncorrectable, State.raise, Events.raise, Event.bit, Event.number]
  have hm := setMark_marks b r o (reportUncorrectable (.bank b r o) reader s) (by
    show (s.recOf b).state ≠ _
    rcases h with h | h <;> rw [h] <;> decide)
  have hfound := found_recOf reader b r o s
  rcases h with h | h
  · have hf := uncorrectable_inForce (r := r) (o := o) (reader := reader) h
    have hrec : ∀ {α : Type} (f : BankRecord → α), (∀ x n, f { x with readers := n } = f x) →
        f ((uncorrectable (.bank b r o) reader s).recOf b) = f ((s.found reader b r o).recOf b) := fun f hx =>
      (congrArg (fun y : Bank => f y.record) hf.bank).trans (hx _ _)
    refine ⟨hm.1, (hrec BankRecord.state fun _ _ => rfl).trans (by rw [hfound]),
      (hrec BankRecord.seq fun _ _ => rfl).trans (by rw [hfound]), hm.2 hev, fun k => ?_⟩
    rw [hf.links k]
    split <;> exact ⟨rfl, rfl⟩
  · refine ⟨hm.1, ?_, ?_, hm.2 hev, fun k => ?_⟩
    · rw [uncorrectable_stale h]; exact (congrArg BankRecord.state hfound :)
    · rw [uncorrectable_stale h]; exact (congrArg BankRecord.seq hfound :)
    · rw [uncorrectable_stale h]; exact ⟨rfl, rfl⟩

/-! ### What the takes leave (R125, R169) -/

theorem tryBegin_link_ne {j k : LinkId} (h : k ≠ j) (s : State) : (tryBegin j s).link k = s.link k := by
  unfold tryBegin
  dsimp only
  split
  · rw [State.link_setLink, if_neg h]
  · rfl

theorem tryBegin_busy {k : LinkId} {s : State} (h : (s.link k).tx ≠ .idle) : tryBegin k s = s := if_neg fun hx => h hx.2

/-- An answer for a link whose transmitter is busy waits behind those of the link; another link's does not touch it. -/
theorem deliverLink_link {j k : LinkId} {a : Answer} {s : State} (h : (s.link k).tx ≠ .idle) :
    ((deliverLink j a s).link k).tx = (s.link k).tx ∧
      ((deliverLink j a s).link k).answers = (s.link k).answers ++ if j = k then [a] else [] := by
  unfold deliverLink
  dsimp only
  by_cases hj : k = j
  · subst hj
    rw [tryBegin_busy (by rw [State.setEntry_link, State.link_setLink, if_pos rfl]; exact h), if_pos rfl, State.setEntry_link,
      State.link_setLink, if_pos rfl]
    exact ⟨rfl, rfl⟩
  · rw [tryBegin_link_ne hj, State.setEntry_link, State.link_setLink, if_neg hj, if_neg (Ne.symm hj)]
    exact ⟨rfl, by simp⟩

theorem inService_marks (r : Requester) (q : Query) (f b : BankId) (u : State) :
    ((inService r q f u).recOf b).marks = (u.recOf b).marks := by
  show ((u.setRec f { u.recOf f with readers := (u.recOf f).readers + 1 }).recOf b).marks = _
  rw [State.recOf_setRec]
  split
  · next h => rw [h]
  · rfl

theorem attemptTake_marks (u : State) (b : BankId) :
    ((attemptTake u).recOf b).marks = (u.recOf b).marks ∧ (attemptTake u).events = u.events := by
  refine attemptTake_keeps (Q := fun x => (x.recOf b).marks = (u.recOf b).marks ∧ x.events = u.events) ?_ ?_ ⟨rfl, rfl⟩
  · rintro x r q seq c - ⟨hm, he⟩
    obtain ⟨-, -, hbanks, hev⟩ := delivered_keeps r
      ⟨q.tag, q.args.kind, .unknown c, seq, if x.clock.valid then some x.clock.day else none⟩
      { x with lookups := x.lookups.removeOldest r }
    exact ⟨(congrArg BankRecord.marks (recOf_congr hbanks b)).trans hm, hev.trans he⟩
  · rintro x r q f - ⟨hm, he⟩
    exact ⟨(inService_marks r q f b x).trans hm, he⟩

/-- With an answer in the gateway's slot the takes are those of the links. -/
theorem attemptTake_gateway {u : State} (h : u.lookups.slot = .answered) : (attemptTake u).port = u.port := by
  have slot : ∀ (x : State) r q, x.lookups.slot = .answered → x.lookups.oldest r = some q → ∃ k, r = .link k := by
    rintro x (k | -) q hx ho
    · exact ⟨k, rfl⟩
    · unfold Lookups.oldest at ho
      rw [hx] at ho
      cases ho
  refine (attemptTake_keeps (Q := fun x => x.port = u.port ∧ x.lookups.slot = .answered) ?_ ?_ ⟨rfl, h⟩).1
  · rintro x r q seq c ho ⟨hp, hx⟩
    obtain ⟨k, rfl⟩ := slot x r q hx ho
    obtain ⟨hl, -, -, hport⟩ := deliverLink_keeps k
      ⟨q.tag, q.args.kind, .unknown c, seq, if x.clock.valid then some x.clock.day else none⟩
      { x with lookups := x.lookups.removeOldest (.link k) }
    exact ⟨hport.trans hp, (congrArg Lookups.slot hl).trans hx⟩
  · rintro x r q f ho ⟨hp, hx⟩
    obtain ⟨k, rfl⟩ := slot x r q hx ho
    exact ⟨hp, hx⟩

/-- While a link's transmitter is busy the takes add to its answers, behind those it has. -/
theorem attemptTake_answers {u : State} {k : LinkId} (h : (u.link k).tx ≠ .idle) :
    ∃ more, ((attemptTake u).link k).answers = (u.link k).answers ++ more := by
  refine (attemptTake_keeps (Q := fun x => (x.link k).tx ≠ .idle ∧ ∃ more, (x.link k).answers = (u.link k).answers ++ more) ?_ ?_
    ⟨h, [], by simp⟩).2
  · rintro x (j | -) q seq c - ⟨ht, more, hm⟩
    · obtain ⟨h1, h2⟩ := deliverLink_link (j := j)
        (a := ⟨q.tag, q.args.kind, .unknown c, seq, if x.clock.valid then some x.clock.day else none⟩)
        (s := { x with lookups := x.lookups.removeOldest (.link j) }) ht
      exact ⟨by rw [show ((answeredAtTake (.link j) q seq c x).link k).tx = _ from h1]; exact ht, more ++ _,
        h2.trans (by rw [← List.append_assoc, ← hm]; rfl)⟩
    · exact ⟨ht, more, hm⟩
  · rintro x r q f - ⟨ht, more, hm⟩
    exact ⟨ht, more, hm⟩

/-- A lookup whose first word cannot be read marks the word's region and answers UNKNOWN, cause DAMAGED (R172, R182). -/
theorem lookupComplete_unreadable {s : State} {v : Service} {b : BankId} {u : Upset} {region : Region} {o : Nat}
    (hv : s.lookups.service = some v) (hb : v.bank = some b) (hd : v.discard = false) (hs : s.upsets = [u])
    (hloc : u.loc = .bank b region o) (hu : fatal u.kind = true) (hi : inItems b [firstItem v.query.args] u.loc = true)
    (hst : (s.recOf b).state = .inForce ∨ (s.recOf b).state = .stale) :
    let a : Answer := ⟨v.query.tag, v.query.args.kind, .unknown .damaged, (s.recOf b).seq, v.day⟩
    let t := lookupComplete s
    (t.recOf b).marks.get region = some (((s.recOf b).marks.get region).getD o) ∧ t.events.has .eccUncorrectable = true ∧
      (v.requester = .gateway → t.port.response = .held ⟨s.port.awaiting.getD 0#16, .ok, answerBody a⟩) ∧
      ∀ k, v.requester = .link k → (s.link k).tx ≠ .idle →
        ∃ more, (t.link k).answers = (s.link k).answers ++ [a] ++ more := by
  intro a t
  obtain ⟨hmarks, hstate, hseq, hev, hlinks⟩ := uncorrectable_leaves (r := region) (o := o) (reader := .lookup) hst
  have hport := uncorrectable_port (.bank b region o) .lookup s
  have hcomplete : t = attemptTake (delivered v.requester a (leaveService v (uncorrectable (.bank b region o) .lookup s))) := by
    show lookupComplete s = _
    rw [lookupComplete_of hv hb, lookUp_unreadable hs hi hu, hloc]
    dsimp only [verdictAtEnd, Option.getD_none]
    rw [ite_self, finishLookup_delivers hd, answerOf_eq hb, hseq]
  rw [hcomplete]
  clear_value t
  generalize uncorrectable (.bank b region o) .lookup s = s1 at *
  have hleave : leaveService v s1 =
      State.setRec b { s1.recOf b with readers := (s1.recOf b).readers - 1 }
        { s1 with lookups := { s1.lookups with service := none } } := by
    have hdr : (s1.recOf b).state ≠ .draining := by
      rw [hstate]
      rcases hst with h | h <;> rw [h] <;> decide
    exact (leaveService_some hb s1).trans (releaseReader_eq hdr)
  obtain ⟨-, -, hbanks, hevents⟩ := delivered_keeps v.requester a (leaveService v s1)
  obtain ⟨htm, hte⟩ := attemptTake_marks (delivered v.requester a (leaveService v s1)) b
  refine ⟨?_, ?_, fun hr => ?_, fun k hr hidle => ?_⟩
  · rw [htm, recOf_congr hbanks, hleave, State.recOf_setRec, if_pos rfl, hmarks, Marks.get_mark]
  · rw [hte, hevents, hleave]
    exact hev
  · rw [hr, show delivered .gateway a = deliverGateway a from rfl, attemptTake_gateway rfl, hleave]
    show ResponseBuffer.held ⟨s1.port.awaiting.getD 0#16, .ok, answerBody a⟩ = _
    rw [hport]
  · obtain ⟨hans, htx⟩ := hlinks k
    rw [hr, show delivered (.link k) a = deliverLink k a from rfl, hleave]
    generalize hs2 : State.setRec b _ _ = s2
    have h2 : s2.link k = s1.link k := by rw [← hs2]; rfl
    obtain ⟨h3, h4⟩ := deliverLink_link (j := k) (k := k) (a := a) (s := s2) (by rw [h2, htx]; exact hidle)
    obtain ⟨more, hmore⟩ := attemptTake_answers (u := deliverLink k a s2) (k := k) (by rw [h3, h2, htx]; exact hidle)
    exact ⟨more, by rw [hmore, h4, if_pos rfl, h2, hans]⟩

/-- Settles O51: LOOKUP_COMPLETE delivers the answer, releases the reader, ends a drain, and takes the next queries in turn. -/
theorem lookupCompleteAnswersAndTakesTheNext : Obligations.LookupCompleteAnswersAndTakesTheNext := by
  unfold Obligations.LookupCompleteAnswersAndTakesTheNext
  intro damagedFor deliveredTo
  have hdel : deliveredTo = delivered := by
    funext r a u
    cases r <;> rfl
  have hdam : ∀ (q : Query) (m : Marks), damagedFor q m = q.args.kind.needsMarked m := fun q m => (needsMarked_eq q m).symm
  have hexec : ∀ s : State, s.inReset = false → exec .lookupComplete s = .next (lookupComplete s) := fun s hr =>
    congrArg _ (event_running hr)
  clear_value deliveredTo
  subst hdel
  refine ⟨fun s hr hs => by rw [hexec s hr, lookupComplete_idle hs], fun s v b hr hv hb => ⟨fun hu => ?_, ?_⟩,
    fun u r q => next_iff u r q, fun u h => attemptTake_idle h, fun u r q hs hn => ?_, fun s t hr hs ht => ?_⟩
  · simp only [hdam]
    exact ⟨releaseReader b s, releaseReader_released s b, by rw [hexec s hr, lookupComplete_clean hv hb hu]⟩
  · intro u region o hs hloc hu hi hst hd
    exact ⟨_, hexec s hr, lookupComplete_unreadable hv hb hd hs hloc hu hi hst⟩
  · intro day taken unknown
    have htaken : taken = u.lookups.removeOldest r := by cases r <;> rfl
    have hunknown : ∀ seq c, unknown seq c = answeredAtTake r q seq c u := fun seq c => by
      show delivered r _ { u with lookups := taken } = _
      rw [htaken]
      rfl
    simp only [hunknown, hdam]
    refine ⟨fun hf => attemptTake_noImage hs hn hf, fun f hf => ⟨fun hm => attemptTake_marked hs hn hf hm, fun hm => ?_⟩⟩
    rw [attemptTake_taken hs hn hf hm, htaken]
    rfl
  · obtain ⟨u, hu⟩ := lookupComplete_takes hs
    rw [hexec s hr, hu] at ht
    cases ht
    exact attemptTake_exhausts u

end Sys2Proof.Machine
end

section
/-!
PROOFS. The choice of a cycle start, and the words that it reads (R99 to R101).
-/

namespace Sys2Proof.Machine

/-! ### The choice (R99, R100) -/

section
variable {k : LinkId} {s : State}

theorem chooseCycle_interleave : (chooseCycle k s).interleave = (chooseContent (s.link k) s).2 := by
  unfold chooseCycle
  dsimp only
  repeat' split
  all_goals rfl

/-- A content bank that carries a damage mark is none (R99). -/
theorem chooseCycle_content_eq :
    (chooseCycle k s).content = (chooseContent (s.link k) s).1.filter fun b => !(s.recOf b).damaged := by
  unfold chooseCycle
  dsimp only
  cases (chooseContent (s.link k) s).1 with
  | none => rfl
  | some b =>
    dsimp only
    cases hd : (s.recOf b).damaged with
    | true => simp [Option.filter, hd]
    | false =>
      rw [if_neg Bool.false_ne_true]
      repeat' split
      all_goals simp [Option.filter, hd]

theorem chooseCycle_noContent (h : (chooseCycle k s).content = none) :
    (chooseCycle k s).composition = .hold ∧ (chooseCycle k s).refresh = (s.link k).refresh := by
  unfold chooseCycle at h ⊢
  dsimp only at h ⊢
  split
  · exact ⟨rfl, rfl⟩
  · next b hb =>
    rw [hb] at h
    dsimp only at h
    split at h
    · next hd => rw [if_pos hd]; exact ⟨rfl, rfl⟩
    · split at h
      · split at h <;> cases h
      · split at h <;> cases h

/-- The composition with the refresh count that follows, when there is a content bank (R100). -/
theorem chooseCycle_composition {b : BankId} (h : (chooseCycle k s).content = some b) :
    ((chooseCycle k s).composition, (chooseCycle k s).refresh) =
      if satisfied (s.entry k) b s then
        if (s.link k).refresh + 1 = (s.link k).settings.refresh then (.full, 0) else (.hold, (s.link k).refresh + 1)
      else if changedEligible (s.entry k) b s then (.changed, (s.link k).refresh)
      else (.full, (s.link k).refresh) := by
  rw [chooseCycle_content_eq] at h
  obtain ⟨hc, hd⟩ := Option.filter_eq_some_iff.mp h
  unfold chooseCycle
  dsimp only
  rw [hc]
  dsimp only
  rw [if_neg (by simpa using hd)]
  repeat' split
  all_goals rfl

theorem chooseContent_both {p f : BankId} {l : Link} (hp : s.pendingBank = some p) (hf : s.inForce = some f) :
    chooseContent l s =
      if 0 < l.settings.interleave ∧ l.interleave = l.settings.interleave ∧ (s.recOf f).damaged = false then (some f, 0)
      else (some p, min (l.interleave + 1) l.settings.interleave) := by
  unfold chooseContent
  rw [hp, hf]
  simp only [Bool.not_eq_true']

theorem chooseContent_pending {p : BankId} {l : Link} (hp : s.pendingBank = some p) (hf : s.inForce = none) :
    chooseContent l s = (some p, min (l.interleave + 1) l.settings.interleave) := by
  unfold chooseContent
  rw [hp, hf]

theorem chooseContent_noPending {l : Link} (hp : s.pendingBank = none) : chooseContent l s = (s.inForce, l.interleave) := by
  unfold chooseContent
  rw [hp]

end

theorem filter_undamaged (s : State) (b : BankId) :
    ((some b).filter fun b => !(s.recOf b).damaged) = if (s.recOf b).marks = ⟨none, none, none⟩ then some b else none := by
  by_cases h : (s.recOf b).marks = ⟨none, none, none⟩
  · rw [if_pos h]
    simp [Option.filter, (undamaged_iff _).mpr h]
  · rw [if_neg h]
    have hd : (s.recOf b).damaged = true := by
      rw [← Bool.not_eq_false]
      exact fun hx => h ((undamaged_iff _).mp hx)
    simp [Option.filter, hd]

theorem pendingBank_iff {s : State} (hr : rolesLaw s) (b : BankId) : s.pendingBank = some b ↔ (s.recOf b).state = .pending :=
  ⟨findBank_some, pendingBank_of hr⟩

theorem inForce_iff {s : State} (hr : rolesLaw s) (b : BankId) : s.inForce = some b ↔ (s.recOf b).state = .inForce :=
  ⟨findBank_some, inForce_of hr⟩

theorem satisfied_iff {s : State} (hr : rolesLaw s) (e : Entry) (b : BankId) :
    satisfied e b s = true ↔
      (e.pending = .ready ∧ (s.recOf b).state = .pending) ∨ (e.holding = .holds ∧ (s.recOf b).state = .inForce) := by
  unfold satisfied
  simp only [Bool.or_eq_true, Bool.and_eq_true, decide_eq_true_eq, pendingBank_iff hr, inForce_iff hr]

theorem changedEligible_iff {s : State} (hr : rolesLaw s) (e : Entry) (b : BankId) :
    changedEligible e b s = true ↔
      (s.recOf b).state = .pending ∧ e.holding = .holds ∧
        ∃ f, (s.recOf f).state = .inForce ∧ (s.recOf b).comparedSeq = (s.recOf f).seq := by
  unfold changedEligible
  simp only [Bool.and_eq_true, decide_eq_true_eq, Option.any_eq_true, pendingBank_iff hr, inForce_iff hr, and_assoc]

/-- The link when a cycle start has taken up the settings and advanced the counter (R88, R91). -/
def Link.starting (settings : Settings) (l : Link) : Link :=
  { l.takeUp settings with cycleCounter := l.cycleCounter + 1#16 }

/-- The choice of a start is that of R99 and R100. -/
theorem chooseCycle_chosen {s : State} (hr : rolesLaw s) (k : LinkId) :
    CycleChosen s k (chooseCycle k (s.setLink k ((s.link k).starting s.carousel.settings))) := by
  generalize hl : (s.link k).starting s.carousel.settings = l
  have hset : l.settings = s.carousel.settings := by rw [← hl]; rfl
  have hint : l.interleave = min (s.link k).interleave s.carousel.settings.interleave := by rw [← hl]; rfl
  have href : l.refresh = min (s.link k).refresh (s.carousel.settings.refresh - 1) := by rw [← hl]; rfl
  have hinter := chooseCycle_interleave (k := k) (s := s.setLink k l)
  have hcontent := chooseCycle_content_eq (k := k) (s := s.setLink k l)
  have hnone := chooseCycle_noContent (k := k) (s := s.setLink k l)
  have hcomp := fun b => chooseCycle_composition (k := k) (s := s.setLink k l) (b := b)
  rw [State.link_setLink_same] at hinter hcontent hnone
  simp only [State.link_setLink_same] at hcomp
  generalize chooseCycle k (s.setLink k l) = c at *
  have hpend : ∀ p, (s.recOf p).state = .pending → (s.setLink k l).pendingBank = some p := fun p => pendingBank_of hr
  have hforce : ∀ f, (s.recOf f).state = .inForce → (s.setLink k l).inForce = some f := fun f => inForce_of hr
  constructor
  case both =>
    intro p f hp hf most
    rw [chooseContent_both (hpend p hp) (hforce f hf), hset, hint] at hinter hcontent
    have hd : ((s.setLink k l).recOf f).damaged = false ↔ (s.recOf f).marks = ⟨none, none, none⟩ := undamaged_iff _
    simp only [hd] at hinter hcontent
    split
    · next h =>
      rw [if_pos h] at hinter hcontent
      exact ⟨hcontent.trans ((filter_undamaged s f).trans (if_pos h.2.2)), hinter⟩
    · next h =>
      rw [if_neg h] at hinter hcontent
      exact ⟨hcontent.trans (filter_undamaged s p), hinter⟩
  case pendingOnly =>
    intro p hp hf most
    rw [chooseContent_pending (hpend p hp) (findBank_none.mpr hf), hset, hint] at hinter hcontent
    exact ⟨hcontent.trans (filter_undamaged s p), hinter⟩
  case inForceOnly =>
    intro f hf hp
    rw [chooseContent_noPending (s := s.setLink k l) (findBank_none.mpr hp), hforce f hf, hint] at hinter hcontent
    exact ⟨hcontent.trans (filter_undamaged s f), hinter⟩
  case neither =>
    intro h
    rw [chooseContent_noPending (s := s.setLink k l) (findBank_none.mpr fun b => (h b).2),
      show (s.setLink k l).inForce = none from findBank_none.mpr fun b => (h b).1, hint] at hinter hcontent
    exact ⟨hcontent, hinter⟩
  case noContent =>
    intro h
    rw [href] at hnone
    exact hnone h
  case content =>
    intro b hb e refresh satisfied' eligible
    have hc := hcomp b hb
    have hs : satisfied ((s.setLink k l).entry k) b (s.setLink k l) = true ↔ satisfied' := satisfied_iff hr _ b
    have he : changedEligible ((s.setLink k l).entry k) b (s.setLink k l) = true ↔ eligible := changedEligible_iff hr _ b
    rw [hset, href] at hc
    refine ⟨fun h1 h2 => ?_, fun h1 h2 => ?_, fun h1 h2 => ?_, fun h1 h2 => ?_⟩
    · rw [if_pos (hs.mpr h1), if_pos h2] at hc
      exact Prod.mk.inj hc
    · rw [if_pos (hs.mpr h1), if_neg h2] at hc
      exact Prod.mk.inj hc
    · rw [if_neg (mt hs.mp h1), if_pos (he.mpr h2)] at hc
      exact Prod.mk.inj hc
    · rw [if_neg (mt hs.mp h1), if_neg (mt he.mp h2)] at hc
      exact Prod.mk.inj hc

/-! ### A start made again (R101) -/

/-- The carousel can send the bank: it is PENDING or in force and carries no mark (R99). -/
def State.sendable (s : State) (b : BankId) : Bool :=
  decide ((s.recOf b).state = .inForce ∨ (s.recOf b).state = .pending) && !(s.recOf b).damaged

/-- The number of banks that the carousel can send. -/
def State.sendables (s : State) : Nat := (if s.sendable .bankA then 1 else 0) + (if s.sendable .bankB then 1 else 0)

theorem chooseCycle_sendable {k : LinkId} {s : State} {b : BankId} (h : (chooseCycle k s).content = some b) :
    s.sendable b = true := by
  have hd := h
  rw [chooseCycle_content_eq] at hd
  simp only [State.sendable, Bool.and_eq_true, decide_eq_true_eq]
  exact ⟨chooseCycle_content h, (Option.filter_eq_some_iff.mp hd).2⟩

theorem sendables_other (s : State) (b : BankId) :
    s.sendables = (if s.sendable b then 1 else 0) + (if s.sendable (other b) then 1 else 0) := by
  cases b
  · rfl
  · exact Nat.add_comm _ _

/-- What a mark on a bank that the carousel sends does to the roles of the banks (R19, R22, R23). -/
theorem marked_roles {b : BankId} {r : Region} {o : Nat} {reader : Reader} {s : State} (hr : rolesLaw s)
    (hb : (s.recOf b).state = .inForce ∨ (s.recOf b).state = .pending) :
    let t := uncorrectable (.bank b r o) reader s
    t.sendable b = false ∧
      (t.recOf b).state ∈ [(s.recOf b).state, .stale] ∧
      (t.recOf (other b) = s.recOf (other b) ∨ t.recOf (other b) = BankRecord.reset) := by
  have hne := other_ne b
  have hfound : ∀ c, (s.found reader b r o).recOf c =
      if c = b then { s.recOf b with marks := (s.recOf b).marks.mark r o } else s.recOf c := fun c => by
    unfold State.found
    exact State.recOf_setRec _ _ _ _
  have hdam : ∀ x : BankRecord, x.damaged = false → x.marks.get r = none := fun x hx => by
    rw [(undamaged_iff x).mp hx]
    cases r <;> rfl
  rcases hb with hb | hb
  · have h := uncorrectable_inForce (r := r) (o := o) (reader := reader) hb
    have hrec : (uncorrectable (.bank b r o) reader s).recOf b = _ := congrArg Bank.record h.bank
    have hmarks : ((uncorrectable (.bank b r o) reader s).recOf b).marks = (s.recOf b).marks.mark r o := by
      rw [hrec]
      dsimp only
      rw [hfound, if_pos rfl]
    have hstate : ((uncorrectable (.bank b r o) reader s).recOf b).state = (s.recOf b).state := by
      rw [hrec]
      dsimp only
      rw [hfound, if_pos rfl]
    refine ⟨?_, by rw [hstate]; exact List.mem_cons_self, ?_⟩
    · refine Bool.eq_false_iff.mpr fun hx => ?_
      simp only [State.sendable, Bool.and_eq_true, Bool.not_eq_true'] at hx
      have := hdam _ hx.2
      rw [hmarks, Marks.get_mark] at this
      cases this
    · by_cases hc : ((s.found reader b r o).recOf (other b)).state = .copying
      · exact .inr (congrArg Bank.record (h.target hc).1)
      · refine .inl ((congrArg Bank.record (h.noTarget hc).1).trans ?_)
        exact (hfound (other b)).trans (if_neg hne)
  · obtain ⟨t, hw, ht⟩ := setMark_withdraws (r := r) (o := o) (s := reportUncorrectable (.bank b r o) reader s) hr hb
    rw [markRegion_found] at hw
    have hu : uncorrectable (.bank b r o) reader s = { t with scrub := t.scrub.leftRegion b r } := ht
    have hstale : ((uncorrectable (.bank b r o) reader s).recOf b).state = .stale := by
      rw [hu]
      exact congrArg (fun x : Bank => x.record.state) hw.bank
    refine ⟨?_, by rw [hstale]; exact List.mem_cons_of_mem _ List.mem_cons_self, .inl ?_⟩
    · simp [State.sendable, hstale]
    · rw [hu]
      exact (congrArg Bank.record hw.otherBank).trans ((hfound (other b)).trans (if_neg hne))

theorem marked_rolesLaw {b : BankId} {r : Region} {o : Nat} {reader : Reader} {s : State} (hr : rolesLaw s)
    (hb : (s.recOf b).state = .inForce ∨ (s.recOf b).state = .pending) :
    rolesLaw (uncorrectable (.bank b r o) reader s) ∧
      (uncorrectable (.bank b r o) reader s).sendables ≤ if s.sendable (other b) then 1 else 0 := by
  obtain ⟨h1, h2, h3⟩ := marked_roles (r := r) (o := o) (reader := reader) hr hb
  generalize uncorrectable (.bank b r o) reader s = t at *
  have hstate : ∀ c, (t.recOf c).state = (s.recOf c).state ∨ (t.recOf c).state = .stale ∨ (t.recOf c).state = .empty := fun c => by
    rcases eq_or_other b c with rfl | rfl
    · simp only [List.mem_cons, List.not_mem_nil, or_false] at h2
      exact h2.imp id .inl
    · rcases h3 with h3 | h3
      · exact .inl (congrArg BankRecord.state h3)
      · exact .inr (.inr (congrArg BankRecord.state h3))
  have keep : ∀ c x, (t.recOf c).state = x → x ≠ .stale → x ≠ .empty → (s.recOf c).state = x := fun c x hx h1 h2 => by
    rcases hstate c with h | h | h
    · exact h.symm.trans hx
    · exact absurd (hx.symm.trans h) h1
    · exact absurd (hx.symm.trans h) h2
  have build : ∀ c, (t.recOf c).state.buildSide = true → (s.recOf c).state.buildSide = true := fun c hc => by
    rw [keep c _ rfl (by rintro h; rw [h] at hc; cases hc) (by rintro h; rw [h] at hc; cases hc)]
    exact hc
  refine ⟨⟨fun h => hr.1 ⟨keep _ _ h.1 (by decide) (by decide), keep _ _ h.2 (by decide) (by decide)⟩,
    fun h => hr.2 ⟨build _ h.1, build _ h.2⟩⟩, ?_⟩
  rw [sendables_other t b, h1, if_neg Bool.false_ne_true, Nat.zero_add]
  rcases h3 with h3 | h3
  · rw [show t.sendable (other b) = s.sendable (other b) by unfold State.sendable; rw [h3]]
  · rw [show t.sendable (other b) = false by unfold State.sendable; rw [h3]; rfl]
    exact Nat.zero_le _

/-- A read that comes to a word it cannot give ends with that word found uncorrectable, behind words corrected. -/
theorem readItems_fails {reader : Reader} {b : BankId} {items : List Item} {s : State}
    (h : (readItems reader b items s).2 = false) :
    ∃ r o v, v.banks = s.banks ∧ (readItems reader b items s).1 = uncorrectable (.bank b r o) reader v := by
  have hbad : ∃ u ∈ hitsIn b items s.upsets, fatal u.kind = true := by
    by_contra hx
    have hok := (readHits_ok reader (hitsIn b items s.upsets) s).mpr fun u hu => by
      simpa using fun hk => hx ⟨u, hu, hk⟩
    exact absurd (hok.symm.trans h) (by decide)
  obtain ⟨before, u, after, he, hb, hu, hread⟩ := readHits_stops reader _ s hbad
  have hmem := ((mem_hitsIn b items s.upsets u).mp (by rw [he]; simp)).2
  obtain ⟨r, o, hloc⟩ : ∃ r o, u.loc = .bank b r o := by
    cases hl : u.loc with
    | buffer o => rw [hl] at hmem; cases hmem
    | bank b' r o =>
      rw [hl] at hmem
      simp only [inItems, Bool.and_eq_true, decide_eq_true_eq] at hmem
      exact ⟨r, o, by rw [hmem.1]⟩
  refine ⟨r, o, (readHits reader before s).1, ?_, ?_⟩
  · rw [readHits_corrects reader before s hb]
    rfl
  · unfold readItems
    rw [hread, hloc]

/-- With no more banks to send than choices left, one choice more changes nothing (R101). -/
theorem settleChoice_settled (k : LinkId) (n : Nat) (s : State) (hr : rolesLaw s) (h : s.sendables ≤ n) :
    settleChoice k (n + 1) s = settleChoice k n s := by
  induction n generalizing s with
  | zero =>
    rw [settleChoice, settleChoice]
    dsimp only
    split
    · rfl
    · next b hb =>
      have := chooseCycle_sendable hb
      rw [sendables_other s b, this] at h
      simp at h
  | succ n ih =>
    rw [settleChoice, settleChoice]
    dsimp only
    split
    · rfl
    · next b hb =>
      cases hok : (readItems .carousel b (startItems (chooseCycle k s).composition) s).2 with
      | true => rfl
      | false =>
        rw [if_neg Bool.false_ne_true, if_neg Bool.false_ne_true]
        obtain ⟨r, o, v, hv, he⟩ := readItems_fails hok
        have hsend := chooseCycle_sendable hb
        have hrec : ∀ c, v.recOf c = s.recOf c := recOf_congr hv
        have hroles : rolesLaw v := by simpa only [rolesLaw, hrec] using hr
        obtain ⟨h1, h2⟩ := marked_rolesLaw (b := b) (r := r) (o := o) (reader := .carousel) hroles
          (by rw [hrec]; exact chooseCycle_content hb)
        rw [he]
        refine ih _ h1 (h2.trans ?_)
        have hs : v.sendable (other b) = s.sendable (other b) := by unfold State.sendable; rw [hrec]
        rw [sendables_other s b, hsend] at h
        rw [hs]
        simp only [if_true] at h
        omega

end Sys2Proof.Machine
end

section
/-!
PROOFS. A cycle start fixes the link's context (R88, R91 to R93, R98 to R101).
-/

namespace Sys2Proof.Machine

/-! ### The frames of a cycle (R92) -/

theorem startItems_eq (c : Composition) :
    startItems c = if c = .hold then [] else .dims :: (List.range 256).map Item.dirEntry := by
  cases c <;> rfl

theorem includedShelves_hold (x : Bank) : includedShelves x .hold = [] := by
  simp [includedShelves]

theorem includedShelves_eq {x : Bank} {c : Composition} (h : c ≠ .hold) :
    includedShelves x c =
      (List.range 256).filter fun i =>
        decide (0 < (x.ranges.directory.getD i ⟨0, 0⟩).count) && (decide (c = .full) || x.record.shelfChanged.getD i false) := by
  cases c with
  | full => rfl
  | changed => rfl
  | hold => exact absurd rfl h

theorem tariffIncluded_eq {x : Bank} {c : Composition} (h : c ≠ .hold) :
    tariffIncluded x c = (decide (c = .full) || x.record.tariffChanged) := by
  cases c with
  | full => rfl
  | changed => rfl
  | hold => exact absurd rfl h

theorem cycleFrames_hold (content : Option BankId) (s : State) : cycleFrames content .hold s = [.head] := by
  cases content with
  | none => rfl
  | some b => simp [cycleFrames, includedShelves_hold, tariffIncluded]

theorem cycleFrames_of {b : BankId} {c : Composition} (h : c ≠ .hold) (s : State) :
    cycleFrames (some b) c s =
      .head :: .directory 0 :: .directory 1 ::
        ((if tariffIncluded (s.bank b) c then tariffFrames (s.bank b).tariff else []) ++
          (includedShelves (s.bank b) c).flatMap fun i =>
            (List.range (partsOf 68 ((s.bank b).ranges.directory.getD i ⟨0, 0⟩).count)).map (FrameSpec.shelf i)) := by
  cases c with
  | full => rfl
  | changed => rfl
  | hold => exact absurd rfl h

/-! ### The context (R93, R98, R101) -/

/-- A context depends on the banks and on nothing else of the state. -/
theorem contextOf_congr {k : LinkId} {number : Half} {c : Choice} {s t : State} (h : t.banks = s.banks) :
    contextOf k number c t = contextOf k number c s := by
  cases s
  cases t
  cases h
  rfl

theorem headBody_none {k : LinkId} {c : Context} {s : State} (h : c.content = none) :
    headBody k c s =
      [n8 k.val] ++ be16 c.number ++ [c.composition.code] ++ be16 c.inForceSeq ++ be16 c.pendingSeq ++ be16 c.contentSeq ++
        List.replicate 12 0#8 ++ activationBytes c.activation ++ n16 c.shelvesIncluded ++ n16 c.following ++
          [headFlags c.tariffIncluded s] := by
  unfold headBody
  rw [h, show List.replicate 12 0#8 = be32 0#32 ++ be32 0#32 ++ be32 0#32 by decide]
  simp only [List.append_assoc]
  rfl

theorem headBody_some {k : LinkId} {c : Context} {s : State} {b : BankId} (h : c.content = some b) :
    headBody k c s =
      [n8 k.val] ++ be16 c.number ++ [c.composition.code] ++ be16 c.inForceSeq ++ be16 c.pendingSeq ++ be16 c.contentSeq ++
        (be32 (s.recOf b).imageCrc ++ be32 (s.recOf b).tariffVersion ++ be32 (s.recOf b).blockVersion) ++
          activationBytes c.activation ++ n16 c.shelvesIncluded ++ n16 c.following ++ [headFlags c.tariffIncluded s] := by
  unfold headBody
  rw [h]
  simp only [List.append_assoc]
  rfl

theorem headFlags_eq (tariff : Bool) (s : State) :
    headFlags tariff s =
      (if tariff then 1#8 else 0#8) ||| (if s.inForce = none ∧ s.pendingBank = none then 2#8 else 0#8) |||
        (if s.inForce.any fun f => (s.recOf f).damaged then 4#8 else 0#8) := by
  unfold headFlags
  simp only [Bool.and_eq_true, Option.isNone_iff_eq_none]

/-- How a CYCLE_HEAD announces the cycle (R93). -/
theorem contextOf_head (k : LinkId) (number : Half) (c : Choice) (s : State) :
    let x := contextOf k number c s
    x.head =
      [n8 k.val] ++ be16 number ++ [c.composition.code] ++ be16 (s.seqOf s.inForce) ++ be16 (s.seqOf s.pendingBank) ++
        be16 (s.seqOf c.content) ++
        (c.content.elim (List.replicate 12 0#8) fun b =>
          be32 (s.recOf b).imageCrc ++ be32 (s.recOf b).tariffVersion ++ be32 (s.recOf b).blockVersion) ++
        activationBytes s.activation ++ n16 x.shelvesIncluded ++ n16 x.following ++ [headFlags x.tariffIncluded s] := by
  intro x
  have hx : x.head = headBody k x s := rfl
  have hseq : x.contentSeq = s.seqOf c.content := rfl
  rw [hx, ← hseq]
  cases h : c.content with
  | none =>
    rw [headBody_none (c := x) h]
    rfl
  | some b =>
    rw [headBody_some (c := x) h]
    rfl

/-! ### The start (R88, R91, R101) -/

/-- The link starts a cycle at this event (R91). -/
abbrev State.starts (s : State) (k : LinkId) : Prop :=
  (s.link k).state = .enabled ∧ (s.link k).phase = .gap ∧ s.carousel.state = .running

theorem fixCycle_eq {k : LinkId} {c : Choice} {l : Link} {s t : State} (hl : t.link k = l) (hb : t.banks = s.banks) :
    fixCycle k c t =
      State.setLink k
        { l with ctx := contextOf k l.cycleCounter c s, interleave := c.interleave, refresh := c.refresh, phase := .inCycle }
        (c.content.elim t fun b => addReader b t) := by
  unfold fixCycle
  dsimp only
  rw [hl, contextOf_congr hb]
  cases c.content <;> rfl

section
variable {s : State} {k : LinkId}

theorem cycleStart_idle (h : ¬s.starts k) : cycleStart k s = s := if_neg h

theorem cycleStart_of (h : s.starts k) :
    cycleStart k s =
      fixCycle k (settleChoice k 3 (s.setLink k ((s.link k).starting s.carousel.settings))).2
        (settleChoice k 3 (s.setLink k ((s.link k).starting s.carousel.settings))).1 := if_pos h

/-- Every word that the start reads can be given (R101). -/
theorem settleChoice_reads {n : Nat} (h : ∀ b, (chooseCycle k s).content = some b → ∀ u ∈ s.upsets,
      inItems b (startItems (chooseCycle k s).composition) u.loc = true → fatal u.kind = false) :
    settleChoice k (n + 1) s =
      ((chooseCycle k s).content.elim s fun b => s.correctedAt (inItems b (startItems (chooseCycle k s).composition)),
        chooseCycle k s) := by
  rw [settleChoice]
  dsimp only
  cases hc : (chooseCycle k s).content with
  | none => rfl
  | some b =>
    dsimp only
    rw [readItems_corrects .carousel b _ s (h b hc)]
    rfl

end

/-- Settles O36: a cycle start fixes the link's cycle context, and is made again when a word it reads cannot be given. -/
theorem cycleStartFixesTheContext : Obligations.CycleStartFixesTheContext := by
  unfold Obligations.CycleStartFixesTheContext
  intro s k hrun hroles l starts
  have hexec : ∀ t : State, t.inReset = false → exec (.cycleStart k) t = .next (cycleStart k t) := fun t ht =>
    congrArg _ (event_running ht)
  refine ⟨fun h => by rw [hexec s hrun, cycleStart_idle h], fun h => ?_⟩
  generalize hl1 : l.starting s.carousel.settings = l1
  generalize hc : chooseCycle k (s.setLink k l1) = c
  refine ⟨c, by rw [← hc, ← hl1]; exact chooseCycle_chosen hroles k, ?_⟩
  intro number reads
  have hreads : reads = startItems c.composition := (startItems_eq _).symm
  clear_value reads
  subst hreads
  have hk : cycleStart k s = fixCycle k (settleChoice k 3 (s.setLink k l1)).2 (settleChoice k 3 (s.setLink k l1)).1 := by
    rw [cycleStart_of h, ← hl1]
  refine ⟨fun hsound => ?_, fun b hb => ?_⟩
  · intro full count withTariff tariff shelves sent tariffIncl shelvesIncluded frames head read
    have hsettle := settleChoice_reads (k := k) (s := s.setLink k l1) (n := 2) (by rw [hc]; exact hsound)
    rw [hc] at hsettle
    rw [hexec s hrun, hk, hsettle]
    have hnone : c.content = none → c.composition = .hold := fun hn => by
      rw [← hc] at hn ⊢
      exact (chooseCycle_noContent hn).1
    have htariff : (c.content.any fun b => tariffIncluded (s.bank b) c.composition) = tariffIncl := by
      by_cases hh : c.composition = .hold
      · rw [show tariffIncl = false from by simp only [tariffIncl, sent, if_pos hh]; rfl, hh]
        cases c.content <;> rfl
      · simp only [tariffIncl, sent, if_neg hh, tariffIncluded_eq hh]
        cases c.content <;> rfl
    have hshelves : (c.content.elim 0 fun b => (includedShelves (s.bank b) c.composition).length) = shelvesIncluded := by
      by_cases hh : c.composition = .hold
      · rw [show shelvesIncluded = 0 from by simp only [shelvesIncluded, sent, if_pos hh]; rfl, hh]
        cases c.content
        · rfl
        · rw [Option.elim_some, includedShelves_hold]; rfl
      · simp only [shelvesIncluded, sent, if_neg hh, includedShelves_eq hh]
        cases c.content <;> rfl
    have hframes : cycleFrames c.content c.composition s = frames := by
      by_cases hh : c.composition = .hold
      · rw [show frames = [.head] from by simp only [frames, sent, if_pos hh], hh, cycleFrames_hold]
      · cases hcc : c.content with
        | none => exact absurd (hnone hcc) hh
        | some b =>
          rw [cycleFrames_of hh, tariffIncluded_eq hh, includedShelves_eq hh]
          simp only [frames, sent, if_neg hh, hcc]
          rfl
    have hctx : contextOf k number c s =
        { number := number
          content := c.content
          contentSeq := s.seqOf c.content
          composition := c.composition
          inForceSeq := s.seqOf s.inForce
          pendingSeq := s.seqOf s.pendingBank
          activation := s.activation
          tariffIncluded := tariffIncl
          shelvesIncluded := shelvesIncluded
          following := frames.length
          frameIndex := 0
          sent := 0
          aborted := 0
          cut := false
          head := head
          todo := frames
          wip := none
          ending := none } := by
      have hhead := contextOf_head k number c s
      have hsh : (contextOf k number c s).shelvesIncluded = shelvesIncluded := by
        rw [← hshelves]
        unfold contextOf
        cases c.content <;> rfl
      have hfo : (contextOf k number c s).following = frames.length := congrArg List.length hframes
      have hti : (contextOf k number c s).tariffIncluded = tariffIncl := htariff
      have hto : (contextOf k number c s).todo = frames := hframes
      dsimp only at hhead
      rw [hsh, hfo, hti, headFlags_eq] at hhead
      have hh : (contextOf k number c s).head = head := by
        rw [hhead]
        cases hcc : c.content <;> simp only [head, hcc] <;> rfl
      rw [← hh, ← hsh, ← hfo, ← hti, ← hto]
      rfl
    have hnumber : l1.cycleCounter = number := by rw [← hl1]; rfl
    have hfix : ∀ x : State, x.link k = l1 → x.banks = s.banks → fixCycle k c x = _ := fun x hx hb => fixCycle_eq hx hb
    rw [hnumber, hctx] at hfix
    have hread : ∀ x : State, x = (c.content.elim (s.setLink k l1) fun b =>
        (s.setLink k l1).correctedAt (inItems b (startItems c.composition))) →
        x.link k = l1 ∧ x.banks = s.banks ∧
          ∀ y, State.setLink k y (c.content.elim x fun b => addReader b x) = State.setLink k y read := by
      rintro x rfl
      cases hcc : c.content with
      | none =>
        refine ⟨State.link_setLink_same k l1 s, rfl, fun y => ?_⟩
        simp only [Option.elim_none, read, hcc]
        exact State.setLink_setLink k y l1 s
      | some b =>
        refine ⟨State.link_setLink_same k l1 s, rfl, fun y => ?_⟩
        simp only [Option.elim_some, read, hcc]
        exact State.setLink_setLink k y l1 (addReader b (s.correctedAt (inItems b (startItems c.composition))))
    clear_value head frames read
    dsimp only
    obtain ⟨hx, hb, hy⟩ := hread _ rfl
    rw [hfix _ hx hb, hy, ← hl1]
    rfl
  · intro hits
    refine ⟨fun u => mem_hitsIn b _ s.upsets u, fun before u after he hbefore hu herr => ?_⟩
    have hmem := (mem_hitsIn b (startItems c.composition) s.upsets u).mp (by rw [show hitsIn _ _ _ = hits from rfl, he]; simp)
    obtain ⟨r, o, hloc⟩ : ∃ r o, u.loc = .bank b r o := by
      cases hl : u.loc with
      | buffer o => rw [hl] at hmem; cases hmem.2
      | bank b' r o =>
        rw [hl] at hmem
        simp only [inItems, Bool.and_eq_true, decide_eq_true_eq] at hmem
        exact ⟨r, o, by rw [hmem.2.1]⟩
    have hread : ∀ w : State, errorsLaw w → w.upsets = s.upsets →
        (readHits .carousel before w).1 = w.correctedAt fun loc => before.any fun x => decide (loc = x.loc) :=
      fun w hw hus => readHits_before .carousel b (startItems c.composition) w before (u :: after) hw (by rw [hus]; exact he) hbefore
    have hstate : (s.recOf b).state = .inForce ∨ (s.recOf b).state = .pending :=
      chooseCycle_content (s := s.setLink k l1) (by rw [hc]; exact hb)
    have hgap : l.phase ≠ .inCycle := by rw [h.2.1]; decide
    have hgap1 : l1.phase ≠ .inCycle := by rw [← hl1]; exact hgap
    generalize hw : (s.correctedAt fun loc => before.any fun x => decide (loc = x.loc)) = w
    have hrec : w.recOf = s.recOf := by rw [← hw]; rfl
    have hwroles : rolesLaw w := by simpa only [rolesLaw, hrec] using hroles
    have hwlink : w.link k = l := by rw [← hw]; rfl
    refine ⟨r, o, uncorrectable (.bank b r o) .carousel w, hloc, ?_, ?_⟩
    · rcases hstate with hf | hp
      · exact .inl ⟨hf, uncorrectable_inForce (by rw [hrec]; exact hf)⟩
      · obtain ⟨t, ht, he⟩ := setMark_withdraws (r := r) (o := o) (s := reportUncorrectable (.bank b r o) .carousel w) hwroles
          (by show (w.recOf b).state = _; rw [hrec]; exact hp)
        rw [markRegion_found] at ht
        exact .inr ⟨hp, t, ht, he⟩
    · have hfail : readItems .carousel b (startItems c.composition) (s.setLink k l1) =
          ((uncorrectable (.bank b r o) .carousel w).setLink k l1, false) := by
        unfold readItems
        rw [show hitsIn b (startItems c.composition) (s.setLink k l1).upsets = before ++ u :: after from he,
          readHits_split _ before u after _ hbefore hu, hread (s.setLink k l1) herr rfl, hloc,
          show ((s.setLink k l1).correctedAt fun loc => before.any fun x => decide (loc = x.loc)) = w.setLink k l1 by
            rw [← hw]; rfl]
        exact congrArg (·, false)
          (setMark_setLink (s := reportUncorrectable (.bank b r o) .carousel w) (by rw [← hrec] at hstate; exact hstate)
            (by rw [← hwlink] at hgap; exact hgap) hgap1)
      have hagain : settleChoice k 3 (s.setLink k l1) = settleChoice k 2 ((uncorrectable (.bank b r o) .carousel w).setLink k l1) := by
        rw [settleChoice]
        dsimp only
        rw [hc, hb]
        dsimp only
        rw [hfail]
        rfl
      obtain ⟨hvroles, hvsend⟩ := marked_rolesLaw (r := r) (o := o) (reader := .carousel) hwroles (by rw [hrec]; exact hstate)
      have hvlink : (uncorrectable (.bank b r o) .carousel w).link k = l :=
        (uncorrectable_link fun c hx => hgap (by rw [← hwlink]; exact hx.1)).trans hwlink
      have hvcar : (uncorrectable (.bank b r o) .carousel w).carousel = s.carousel := by
        rw [uncorrectable_carousel, ← hw]
        rfl
      have hvrun : (uncorrectable (.bank b r o) .carousel w).inReset = false := by
        rw [uncorrectable_inReset, ← hw]
        exact hrun
      generalize uncorrectable (.bank b r o) .carousel w = v at *
      have hsettled := settleChoice_settled k 2 (v.setLink k l1) hvroles (by
        show v.sendables ≤ 2
        split at hvsend <;> omega)
      rw [hexec s hrun, hexec v hvrun, hk, hagain,
        cycleStart_of (s := v) (by unfold State.starts; rw [hvlink, hvcar]; exact h), hvlink, hvcar, hl1, hsettled]

end Sys2Proof.Machine
end

section
/-!
PROOFS. The scrubber's pass: its next word, the errors that strike, and where a pass ends (R180 to R182, R184 to R186).
-/

namespace Sys2Proof.Machine

/-! ### The next word of a pass (R185) -/

/-- A pass that stands in the first region of a list, at an offset, has yet to read the word. -/
def stillReads (s : State) (b : BankId) (r : Region) (o : Nat) : List (BankId × Region) → Nat → Prop
  | [], _ => False
  | p :: rest, lo => (p = (b, r) ∧ lo ≤ o ∧ o ∈ scrubExtent b r s) ∨ stillReads s b r o rest 0

section
variable {s : State} {b : BankId} {r : Region} {o : Nat}

theorem stillReads_mem {l : List (BankId × Region)} {lo : Nat} (h : stillReads s b r o l lo) : (b, r) ∈ l := by
  induction l generalizing lo with
  | nil => exact h.elim
  | cons p l ih =>
    rcases h with ⟨rfl, -⟩ | h
    · exact List.mem_cons_self
    · exact List.mem_cons_of_mem _ (ih h)

theorem stillReads_start (l : List (BankId × Region)) : stillReads s b r o l 0 ↔ (b, r) ∈ l ∧ o ∈ scrubExtent b r s := by
  induction l with
  | nil => simp [stillReads]
  | cons p l ih =>
    rw [stillReads, ih, List.mem_cons]
    constructor
    · rintro (⟨rfl, -, h⟩ | ⟨h1, h2⟩)
      · exact ⟨.inl rfl, h⟩
      · exact ⟨.inr h1, h2⟩
    · rintro ⟨rfl | h1, h2⟩
      · exact .inl ⟨rfl, Nat.zero_le _, h2⟩
      · exact .inr ⟨h1, h2⟩

/-- The next word of a pass through regions in their order is the first that it has yet to read. -/
theorem scrubNext_iff {l : List (BankId × Region)} (hl : l.Pairwise fun p q => passPlace p.1 p.2 < passPlace q.1 q.2) (lo : Nat) :
    scrubNext s l lo = some (b, r, o) ↔
      stillReads s b r o l lo ∧ ∀ b' r' o', stillReads s b' r' o' l lo → passOrder b r o b' r' o' := by
  induction l generalizing lo with
  | nil => simp [scrubNext, stillReads]
  | cons p l ih =>
    obtain ⟨b1, r1⟩ := p
    obtain ⟨hp, hl⟩ := List.pairwise_cons.mp hl
    have here : ∀ b' r' o', stillReads s b' r' o' ((b1, r1) :: l) lo ↔
        ((b1, r1) = (b', r') ∧ o' ∈ (scrubExtent b1 r1 s).filter fun o => decide (lo ≤ o)) ∨ stillReads s b' r' o' l 0 := by
      intro b' r' o'
      rw [stillReads]
      refine or_congr_left (and_congr_right fun h => ?_)
      cases h
      rw [List.mem_filter, decide_eq_true_eq, and_comm]
    simp only [here]
    unfold scrubNext
    cases hm : ((scrubExtent b1 r1 s).filter fun o => decide (lo ≤ o)).min? with
    | none =>
      rw [List.min?_eq_none_iff] at hm
      simp only [hm, List.not_mem_nil, and_false, false_or]
      exact ih hl 0
    | some m =>
      obtain ⟨hmem, hmin⟩ := List.min?_eq_some_iff.mp hm
      simp only [Option.some.injEq, Prod.mk.injEq]
      constructor
      · rintro ⟨rfl, rfl, rfl⟩
        refine ⟨.inl ⟨⟨rfl, rfl⟩, hmem⟩, fun b' r' o' h => ?_⟩
        rcases h with ⟨⟨rfl, rfl⟩, ho⟩ | h
        · exact .inr ⟨rfl, hmin o' ho⟩
        · exact .inl (hp _ (stillReads_mem h))
      · rintro ⟨⟨⟨rfl, rfl⟩, ho⟩ | h, hfirst⟩
        · rcases hfirst b1 r1 m (.inl ⟨⟨rfl, rfl⟩, hmem⟩) with h | ⟨-, h⟩
          · exact absurd h (Nat.lt_irrefl _)
          · exact ⟨rfl, rfl, Nat.le_antisymm (hmin o ho) h⟩
        · have h1 := hp _ (stillReads_mem h)
          rcases hfirst b1 r1 m (.inl ⟨⟨rfl, rfl⟩, hmem⟩) with h | ⟨h, -⟩
          · exact absurd h1 (Nat.lt_asymm h)
          · exact absurd h1 (by rw [h]; exact Nat.lt_irrefl _)

theorem regionsFrom_ascending (b : BankId) (r : Region) :
    (regionsFrom b r).Pairwise fun p q => passPlace p.1 p.2 < passPlace q.1 q.2 := by
  cases b <;> cases r <;> decide

theorem regionsFrom_eq (b : BankId) (r : Region) : regionsFrom b r = (b, r) :: (regionsFrom b r).tail := by
  cases b <;> cases r <;> rfl

theorem mem_regionsAfter (b₀ b : BankId) (r₀ r : Region) :
    (b, r) ∈ (regionsFrom b₀ r₀).tail ↔ passPlace b₀ r₀ < passPlace b r := by
  cases b₀ <;> cases r₀ <;> cases b <;> cases r <;> decide

theorem passPlace_inj {b b' : BankId} {r r' : Region} (h : passPlace b r = passPlace b' r') : b = b' ∧ r = r' := by
  cases b <;> cases r <;> cases b' <;> cases r' <;> first | exact ⟨rfl, rfl⟩ | exact absurd h (by decide)

theorem stillReads_regionsFrom (b₀ : BankId) (r₀ : Region) (o₀ : Nat) :
    stillReads s b r o (regionsFrom b₀ r₀) o₀ ↔ s.passReads b r o ∧ passOrder b₀ r₀ o₀ b r o := by
  rw [regionsFrom_eq, stillReads, stillReads_start, mem_regionsAfter, mem_scrubExtent]
  constructor
  · rintro (⟨h, hle, hr⟩ | ⟨h, hr⟩)
    · cases h
      exact ⟨hr, .inr ⟨rfl, hle⟩⟩
    · exact ⟨hr, .inl h⟩
  · rintro ⟨hr, h | ⟨h, hle⟩⟩
    · exact .inr ⟨h, hr⟩
    · obtain ⟨rfl, rfl⟩ := passPlace_inj h
      exact .inl ⟨rfl, hle, hr⟩

end

/-- The next word of a pass is the first it reads at or after its position (R185). -/
theorem scrubWord_iff (u : State) (b : BankId) (r : Region) (o : Nat) :
    u.scrubWord = some (b, r, o) ↔
      ∃ b₀ r₀ o₀, u.scrub.mode = .walking b₀ r₀ o₀ ∧ u.passReads b r o ∧ passOrder b₀ r₀ o₀ b r o ∧
        ∀ b' r' o', u.passReads b' r' o' → passOrder b₀ r₀ o₀ b' r' o' → passOrder b r o b' r' o' := by
  unfold State.scrubWord
  cases u.scrub.mode with
  | off => simp
  | resting => simp
  | walking b₀ r₀ o₀ =>
    dsimp only
    rw [scrubNext_iff (regionsFrom_ascending b₀ r₀)]
    simp only [stillReads_regionsFrom, ScrubMode.walking.injEq]
    constructor
    · rintro ⟨⟨h1, h2⟩, h3⟩
      exact ⟨_, _, _, ⟨rfl, rfl, rfl⟩, h1, h2, fun b' r' o' h h' => h3 b' r' o' ⟨h, h'⟩⟩
    · rintro ⟨_, _, _, ⟨rfl, rfl, rfl⟩, h1, h2, h3⟩
      exact ⟨⟨h1, h2⟩, fun b' r' o' h => h3 b' r' o' h.1 h.2⟩

/-! ### Errors that strike (R180 to R182) -/

/-- The error that a list holds at a location. -/
def kindAt (l : WordLoc) (us : List Upset) : Option UpsetKind := (us.find? fun x => decide (x.loc = l)).map (·.kind)

theorem kindAt_cons (l : WordLoc) (x : Upset) (us : List Upset) :
    kindAt l (x :: us) = if x.loc = l then some x.kind else kindAt l us := by
  unfold kindAt
  rw [List.find?_cons]
  by_cases h : x.loc = l <;> simp [h]

theorem kindAt_none {l : WordLoc} {us : List Upset} (h : ∀ x ∈ us, locKey l < locKey x.loc) : kindAt l us = none := by
  unfold kindAt
  rw [List.find?_eq_none.mpr fun x hx => by
    rw [decide_eq_true_eq]
    exact fun he => Nat.lt_irrefl _ (he ▸ h x hx)]
  rfl

theorem joined_eq (x y : UpsetKind) :
    joined x y = if x = .stuck ∨ x = .stuckDouble ∨ y = .stuck ∨ y = .stuckDouble then .stuckDouble else .double := by
  cases x <;> cases y <;> rfl

theorem kindAt_strike (u : Upset) {us : List Upset} (h : upsetsWf us) (l : WordLoc) :
    kindAt l (strike u us) =
      if l = u.loc then some ((kindAt l us).elim u.kind fun k => joined k u.kind) else kindAt l us := by
  induction us with
  | nil =>
    rw [strike, kindAt_cons]
    by_cases hl : l = u.loc
    · simp [hl, kindAt]
    · rw [if_neg (Ne.symm hl), if_neg hl]
  | cons v vs ih =>
    obtain ⟨hv, hvs⟩ := List.pairwise_cons.mp h
    unfold strike
    split
    · next hlt =>
      rw [kindAt_cons]
      by_cases hl : l = u.loc
      · rw [if_pos hl.symm, if_pos hl, kindAt_none, Option.elim_none]
        intro x hx
        rw [hl]
        rcases List.mem_cons.mp hx with rfl | hx
        · exact hlt
        · exact Nat.lt_trans hlt (hv x hx)
      · rw [if_neg (Ne.symm hl), if_neg hl]
    · next hlt =>
      split
      · next heq =>
        have hloc : u.loc = v.loc := locKey_injective heq
        rw [kindAt_cons, kindAt_cons]
        by_cases hl : l = u.loc
        · rw [if_pos (by rw [hl, hloc]), if_pos hl, if_pos (by rw [hl, hloc])]
          rfl
        · rw [if_neg (fun e => hl (by rw [hloc]; exact e.symm)), if_neg hl, if_neg (fun e => hl (by rw [hloc]; exact e.symm))]
      · next hne =>
        rw [kindAt_cons, kindAt_cons, ih hvs]
        by_cases hl : l = u.loc
        · have : v.loc ≠ l := fun e => hne (by rw [e, hl])
          rw [if_neg this, if_neg this]
        · simp only [if_neg hl]

/-- The words in error keep their canonical list when errors strike. -/
theorem strikes_wf (strikes : List Upset) {us : List Upset} (h : upsetsWf us) :
    upsetsWf (strikes.foldl (fun us u => strike u us) us) := by
  induction strikes generalizing us with
  | nil => exact h
  | cons u strikes ih => exact ih (strike_wf u us h)

theorem copyOn_wf {s c : State} (h : CopyGoesOn s c) (hs : upsetsWf s.upsets) : upsetsWf c.upsets := by
  by_cases hc : ∃ t f, (s.recOf t).state = .copying ∧ (s.recOf f).state = .inForce
  · obtain ⟨t, f, ht, hf⟩ := hc
    obtain ⟨p, -, -, rfl⟩ := h.goes t f ht hf
    unfold State.copiedTo
    dsimp only
    exact refresh_wf _ s hs
  · rw [h.idle fun t f ht hf => hc ⟨t, f, ht, hf⟩]
    exact hs

end Sys2Proof.Machine
end

section
/-!
PROOFS. The closing run that another reader's error fails, and SCRUB_READ (R15, R181, R182, R184 to R186).
-/

namespace Sys2Proof.Machine

/-! ### A closing run that fails (R15, R16) -/

theorem failClose_eq (b : BankId) (pt : ClosePoint) (found : WordLoc) (s : State) :
    failClose b pt found s = s.closeFailed b pt found :=
  rfl

theorem failPoint_allowed (free : Nat) (p : ClosePoint) : pointAllows p (failPoint free p) := by
  cases p with
  | prune n => exact ⟨_, Nat.min_le_left _ _, rfl⟩
  | expand n => rfl
  | checksum n =>
    show pointAllows _ (if n < 256 then .checksum (min n (Config.closeCount free)) else .checksum n)
    split
    · next h => exact ⟨_, Nat.min_le_left _ _, rfl, fun hn => absurd h (Nat.not_lt.mpr hn)⟩
    · exact ⟨n, Nat.le_refl _, rfl, fun _ => rfl⟩
  | checksummed =>
    unfold failPoint pointAllows
    dsimp only
    split <;> simp
  | compared => rfl
  | sequenced => rfl

/-- A mark is no matter to the acts of a closing run. -/
theorem closeActs_marks (day : Option Half) (x : Bank) (m : Marks) :
    closeActs day { x with record := { x.record with marks := m } } = closeActs day x := by
  cases day <;> rfl

/-- Another reader's error fails the run behind some of its acts (R15). -/
theorem failCloseAt_fails {b : BankId} {found : WordLoc} {s : State} (hs : errorsLaw s) :
    ∃ made more p, closeActs s.closeDay (s.bank b) = made ++ more ∧ s.readable b (some found) made ∧
      pointAllows (pointAfter made) p ∧ failCloseAt b found s = (s.ranOn b (some found) made).closeFailed b p found := by
  obtain ⟨made, left, he, hr, -, hrun⟩ :=
    runActs_ranOn b (some found) ((closeActs s.closeDay (s.bank b)).take (Config.closeSteps s.free)) (.prune 0) s hs
  refine ⟨made, left ++ (closeActs s.closeDay (s.bank b)).drop (Config.closeSteps s.free), _, ?_, hr,
    failPoint_allowed s.free (pointAfter made), ?_⟩
  · rw [← List.append_assoc, ← he, List.take_append_drop]
  · unfold failCloseAt
    dsimp only
    rw [hrun]
    rfl

/-! ### The end of a pass (R184 to R186) -/

/-- A pass with no word left ends, but for one that has just begun (R185, R186). -/
def State.passJudged (t : State) : State :=
  if t.scrub.midPass = true ∧ t.scrubWord = none then { t with scrub := t.scrub.ended } else t

theorem midPass_walking {c : Scrub} {b : BankId} {r : Region} {o : Nat} (h : c.mode = .walking b r o) :
    c.midPass = true ↔ c.mode ≠ .walking .bankA .header 0 := by
  unfold Scrub.midPass
  rw [h]
  cases b <;> cases r <;> simp

theorem passJudged_eq (t : State) :
    (if t.scrub.mode = .walking .bankA .header 0 then t else endPassIfDone t) = t.passJudged := by
  unfold State.passJudged endPassIfDone
  cases hm : t.scrub.mode with
  | off => simp [Scrub.midPass, hm]
  | resting => simp [Scrub.midPass, hm]
  | walking b r o =>
    rw [← hm]
    simp only [midPass_walking hm, Option.isNone_iff_eq_none, Scrub.endPass_eq]
    by_cases h : t.scrub.mode = .walking .bankA .header 0
    · rw [if_pos h, if_neg fun hx => hx.1 h]
    · rw [if_neg h]
      simp only [ne_eq, h, not_false_eq_true, true_and]
      rw [hm]

theorem endPassIfDone_walking {t : State} (h : ∃ b r o, t.scrub.mode = .walking b r o) (hw : t.scrubWord = none) :
    endPassIfDone t = { t with scrub := t.scrub.ended } := by
  obtain ⟨b, r, o, h⟩ := h
  unfold endPassIfDone
  rw [h]
  dsimp only
  rw [hw, Scrub.endPass_eq]
  rfl

/-! ### SCRUB_READ (R186) -/

section
variable {v : State} {b : BankId} {r : Region} {o : Nat}

/-- The scrubber behind the word that it reads (R185). -/
def State.onward (b : BankId) (r : Region) (o : Nat) (v : State) : State :=
  { v with scrub := { v.scrub with mode := .walking b r (o + 1) } }

/-- The words in error at one location are one, or none. -/
theorem filter_at {us : List Upset} (h : upsetsWf us) {l : WordLoc} {k : UpsetKind} (hu : ⟨l, k⟩ ∈ us) :
    (us.filter fun u => decide (u.loc = l)) = [⟨l, k⟩] := by
  have hmem : ∀ u, u ∈ us.filter (fun u => decide (u.loc = l)) ↔ u = ⟨l, k⟩ := fun u => by
    rw [List.mem_filter, decide_eq_true_eq]
    exact ⟨fun ⟨hm, hl⟩ => upsets_unique h hm hu hl, fun he => by rw [he]; exact ⟨hu, rfl⟩⟩
  have hnd : (us.filter fun u => decide (u.loc = l)).Nodup := by
    refine List.Pairwise.filter _ (h.imp fun hxy he => ?_)
    rw [he] at hxy
    exact Nat.lt_irrefl _ hxy
  exact List.perm_singleton.mp ((List.perm_ext_iff_of_nodup hnd (List.nodup_singleton _)).mpr fun u => by
    rw [hmem, List.mem_singleton])

theorem scrubOne_sound (h : v.upsetAt (.bank b r o) = none) :
    scrubOne b r o v = { v.onward b r o with free := v.free + 1 } := by
  have hread : readWords .scrub (fun l => decide (l = .bank b r o)) (v.onward b r o) = (v.onward b r o, true) :=
    readWords_sound .scrub _ _ fun u hu => decide_eq_false (upsetAt_none h u hu)
  exact congrArg (fun x : State × Bool => ({ x.1 with free := x.1.free + 1 } : State)) hread

section
variable (hv : errorsLaw v) {k : UpsetKind} (h : v.upsetAt (.bank b r o) = some k)
include hv h

theorem scrubOne_reads :
    scrubOne b r o v =
      let t := (readHits .scrub [⟨.bank b r o, k⟩] (v.onward b r o)).1
      { t with free := t.free + 1 } := by
  have hread : readWords .scrub (fun l => decide (l = .bank b r o)) (v.onward b r o) =
      readHits .scrub [⟨.bank b r o, k⟩] (v.onward b r o) :=
    congrArg (fun us => readHits .scrub us (v.onward b r o)) (filter_at hv (upsetAt_some h))
  exact congrArg (fun x : State × Bool => ({ x.1 with free := x.1.free + 1 } : State)) hread

theorem scrubOne_fails (hk : fatal k = true) :
    scrubOne b r o v =
      let t := uncorrectable (.bank b r o) .scrub (v.onward b r o)
      { t with free := t.free + 1 } := by
  rw [scrubOne_reads hv h]
  unfold readHits
  rw [if_pos hk]

/-- A one-bit error is corrected: of a stuck bit the error stays (R181). -/
theorem scrubOne_corrects (hk : k = .single ∨ k = .stuck) :
    scrubOne b r o v =
      { v.onward b r o with
        upsets := if k = .stuck then v.upsets else v.upsets.filter fun u => decide (u.loc ≠ .bank b r o)
        events :=
          { v.events with
            flags := v.events.flags ||| 0x10000#24
            corrected := min 4294967295 (v.events.corrected + 1) }
        free := v.free + 1 } := by
  have hu : v.upsets.filterMap (leftBy fun l => decide (l = .bank b r o)) =
      if k = .stuck then v.upsets else v.upsets.filter fun u => decide (u.loc ≠ .bank b r o) := by
    have hat : ∀ u ∈ v.upsets, u.loc = .bank b r o → u = ⟨.bank b r o, k⟩ := fun u hu hl =>
      upsets_unique hv hu (upsetAt_some h) hl
    generalize v.upsets = us at hat
    have hstuck : ∀ u ∈ us, leftBy (fun l => decide (l = .bank b r o)) u =
        if u.loc = .bank b r o then (if k = .stuck then some u else none) else some u := fun u hu => by
      by_cases hl : u.loc = .bank b r o
      · rw [hat u hu hl]
        rcases hk with rfl | rfl <;> simp [leftBy, afterWrite, hasStuck]
      · simp [leftBy, hl]
    rw [List.filterMap_congr hstuck]
    split
    · simp
    · rw [← List.filterMap_eq_filter]
      refine List.filterMap_congr fun u _ => ?_
      by_cases hl : u.loc = .bank b r o <;> simp [Option.guard, hl]
  rw [scrubOne_reads hv h]
  unfold readHits
  rw [if_neg (by rcases hk with rfl | rfl <;> exact Bool.false_ne_true)]
  unfold readHits
  rw [← hu]
  rfl

end
end

theorem scrubRead_done {strikes : List Upset} {s : State} (h : (strikeAll strikes (copyOn s)).scrubWord = none) :
    scrubRead strikes s = endPassIfDone (strikeAll strikes (copyOn s)) := by
  unfold scrubRead
  dsimp only
  rw [h]

theorem scrubRead_word {strikes : List Upset} {s : State} {b : BankId} {r : Region} {o : Nat}
    (h : (strikeAll strikes (copyOn s)).scrubWord = some (b, r, o)) :
    scrubRead strikes s = (scrubOne b r o (strikeAll strikes (copyOn s))).passJudged := by
  rw [← passJudged_eq]
  unfold scrubRead
  dsimp only
  rw [h]

/-- A word found uncorrectable in a bank whose state a mark does not act on (R23). -/
theorem uncorrectable_plain {b : BankId} {r : Region} {o : Nat} {reader : Reader} {s : State}
    (h : (s.recOf b).state = .building ∨ (s.recOf b).state = .stale ∨ (s.recOf b).state = .draining ∨
      (s.recOf b).state = .copying) :
    uncorrectable (.bank b r o) reader s =
      { s.found reader b r o with scrub := (s.found reader b r o).scrub.leftRegion b r } := by
  rw [uncorrectable_bank, ← markRegion_found, ← Scrub.leaveRegion_eq]
  unfold setMark
  rw [show (reportUncorrectable (.bank b r o) reader s).recOf b = s.recOf b from rfl]
  rcases h with h | h | h | h <;> rw [h] <;> rfl

/-- A word of the PENDING bank found uncorrectable (R19, R23). -/
theorem uncorrectable_withdraws {b : BankId} {r : Region} {o : Nat} {reader : Reader} {s : State} (hr : rolesLaw s)
    (h : (s.recOf b).state = .pending) :
    ∃ t, Withdrawn (s.found reader b r o) b t ∧
      uncorrectable (.bank b r o) reader s = { t with scrub := t.scrub.leftRegion b r } := by
  rw [← markRegion_found]
  exact setMark_withdraws (s := reportUncorrectable (.bank b r o) reader s) hr h

/-- A word of the CLOSING bank found uncorrectable by another reader (R15, R23). -/
theorem uncorrectable_closing {b : BankId} {r : Region} {o : Nat} {reader : Reader} {s : State} (hs : errorsLaw s)
    (h : (s.recOf b).state = .closing) :
    ∃ made more p, closeActs s.closeDay (s.bank b) = made ++ more ∧
      (s.found reader b r o).readable b (some (.bank b r o)) made ∧ pointAllows (pointAfter made) p ∧
      uncorrectable (.bank b r o) reader s =
        { ((s.found reader b r o).ranOn b (some (.bank b r o)) made).closeFailed b p (.bank b r o) with
          scrub := (s.found reader b r o).scrub.leftRegion b r } := by
  obtain ⟨made, more, p, hacts, hread, hp, hfail⟩ :=
    failCloseAt_fails (b := b) (found := .bank b r o) (s := s.found reader b r o) hs
  have hbank : (s.found reader b r o).bank b =
      { s.bank b with record := { (s.bank b).record with marks := (s.recOf b).marks.mark r o } } := by
    unfold State.found State.setRec
    exact (State.bank_setBank _ _ _ _).trans (if_pos rfl)
  rw [hbank, closeActs_marks] at hacts
  refine ⟨made, more, p, hacts, hread, hp, ?_⟩
  have hset : uncorrectable (.bank b r o) reader s = scrubLeaves b r (failCloseAt b (.bank b r o) (s.found reader b r o)) := by
    rw [uncorrectable_bank, ← markRegion_found]
    unfold setMark
    rw [show (reportUncorrectable (.bank b r o) reader s).recOf b = s.recOf b from rfl, h]
  rw [hset, hfail]
  unfold scrubLeaves
  rw [Scrub.leaveRegion_eq]
  rfl

/-- Settles O54: the scrubber reads its pass, corrects, marks and ends. -/
theorem scrubberReadsItsPass : Obligations.ScrubberReadsItsPass := by
  unfold Obligations.ScrubberReadsItsPass
  refine ⟨scrubWord_iff, fun s hrun herr => ?_⟩
  intro ends due
  have hends : ends = fun t => State.passJudged { t with free := t.free + 1 } := rfl
  have hperiod : exec .scrubPeriod s = .next (scrubPeriod s) := congrArg _ (event_running hrun)
  have hdue : s.scrub.periodDue = true ↔ due := by
    unfold Scrub.periodDue
    rw [Bool.and_eq_true, decide_eq_true_eq, decide_eq_true_eq]
    exact Iff.rfl
  clear_value ends
  subst hends
  refine ⟨fun h => ?_, fun h => ?_, fun u us hwf => ?_,
    copyOn s, copyOn_goesOn s, fun strikes => ?_⟩
  · rw [hperiod]
    exact congrArg _ (if_neg (mt hdue.mp h))
  · rw [hperiod]
    exact congrArg _ (if_pos (hdue.mpr h))
  · intro kindAt'
    refine ⟨strike_wf u us hwf, fun loc => ?_⟩
    have hk : kindAt' = kindAt := rfl
    rw [hk, kindAt_strike u hwf]
    refine if_congr Iff.rfl ?_ rfl
    cases kindAt loc us with
    | none => rfl
    | some k =>
      rw [Option.elim_some, joined_eq]
      dsimp only
      split <;> rfl
  have hc := copyOn_goesOn s
  intro v read
  have hread : read = .next (scrubRead strikes s) := congrArg _ (event_running hrun)
  have hv : v = strikeAll strikes (copyOn s) := rfl
  have hwf : errorsLaw v := strikes_wf strikes (copyOn_wf hc herr)
  have hscrub : v.scrub = s.scrub := by rw [show v.scrub = (copyOn s).scrub from rfl, hc.rest]
  have hrest : v.recOf = s.recOf ∧ v.bank = s.bank ∧ v.closeDay = s.closeDay := by
    have hb : v.banks = s.banks := by rw [show v.banks = (copyOn s).banks from rfl, hc.rest]
    have hd : v.closeDay = s.closeDay := by rw [show v.closeDay = (copyOn s).closeDay from rfl, hc.rest]
    refine ⟨funext fun b => recOf_congr hb b, funext fun b => ?_, hd⟩
    unfold State.bank
    rw [hb]
  obtain ⟨hrec, hbank, hday⟩ := hrest
  clear_value read
  subst hread
  refine ⟨fun h => ?_, fun h hw => ?_, fun b r o hw => ?_⟩
  · have hw : v.scrubWord = none := by
      unfold State.scrubWord
      rw [hscrub]
      rcases h with h | h <;> rw [h]
    rw [scrubRead_done (hv ▸ hw), ← hv]
    unfold endPassIfDone
    rw [hscrub]
    rcases h with h | h <;> rw [h]
  · rw [scrubRead_done (hv ▸ hw), ← hv, endPassIfDone_walking (by rw [hscrub]; exact h) hw, hscrub]
  rw [scrubRead_word (hv ▸ hw), ← hv]
  clear_value v
  intro loc onward marked left fails
  have hmarked : marked = (v.onward b r o).found .scrub b r o := rfl
  refine ⟨fun h => ?_, fun kind h hk => ?_, fun h => ?_⟩
  · rw [scrubOne_sound h]
    rfl
  · rw [scrubOne_corrects hwf h hk]
    rfl
  · obtain ⟨k, hk, hfatal⟩ : ∃ k, v.upsetAt loc = some k ∧ fatal k = true := by
      rcases h with h | h
      · exact ⟨_, h, rfl⟩
      · exact ⟨_, h, rfl⟩
    rw [scrubOne_fails hwf hk hfatal]
    have hroles : rolesLaw s → rolesLaw (v.onward b r o) := fun hr => by
      have : (v.onward b r o).recOf = s.recOf := hrec
      simpa only [rolesLaw, this] using hr
    have hstate : ((v.onward b r o).recOf b).state = (s.recOf b).state := congrArg (fun f => (f b).state) hrec
    refine ⟨?_, ?_, fun hb => ?_, fun hb hr => ?_, fun hb hr => ?_, fun hb => ?_⟩
    · rw [hmarked, found_recOf]
      dsimp only
      rw [Marks.get_mark, show (v.onward b r o).recOf b = s.recOf b from congrFun hrec b]
    · show (marked.scrub.leftRegion b r) = _
      unfold Scrub.leftRegion
      rw [show marked.scrub.mode = .walking b r (o + 1) from rfl]
      exact if_pos ⟨rfl, rfl⟩
    · rw [uncorrectable_plain (by rw [hstate]; exact hb)]
      rfl
    · obtain ⟨t, ht, he⟩ := uncorrectable_withdraws (r := r) (o := o) (reader := .scrub) (hroles hr) (hstate.trans hb)
      exact ⟨t, ht, by rw [he]⟩
    · exact ⟨_, uncorrectable_inForce (hstate.trans hb), rfl⟩
    · obtain ⟨made, more, p, hacts, hrd, hp, he⟩ :=
        uncorrectable_closing (b := b) (r := r) (o := o) (reader := .scrub) (s := v.onward b r o) hwf (hstate.trans hb)
      refine ⟨made, more, p, ?_, hrd, hp, by rw [he]; rfl⟩
      rw [← hacts, ← hday, show (v.onward b r o).bank b = s.bank b from congrFun hbank b]
      rfl

end Sys2Proof.Machine
end

section
/-!
PROOFS. The order in which a closing run reads and writes (R11, R45, R60, R66).
-/

namespace Sys2Proof.Machine

/-! ### Acts and what has been made before them -/

/-- Every act of the list stands as `P` says to the acts made before it. -/
def EachAct (P : List CloseAct → CloseAct → Prop) (acts : List CloseAct) : Prop :=
  ∀ made a left, acts = made ++ a :: left → P made a

theorem EachAct.of_mem {P : List CloseAct → CloseAct → Prop} {acts : List CloseAct} (h : ∀ a ∈ acts, ∀ made, P made a) :
    EachAct P acts := by
  rintro made a left rfl
  exact h a (by simp) made

theorem EachAct.append {P : List CloseAct → CloseAct → Prop} {xs ys : List CloseAct} (hx : EachAct P xs)
    (hy : EachAct (fun made => P (xs ++ made)) ys) : EachAct P (xs ++ ys) := by
  intro made a left h
  rcases List.append_eq_append_iff.mp h with ⟨m, hm, hl⟩ | ⟨m, hm, hl⟩
  · rw [hm]
    exact hy m a left hl
  · cases m with
    | nil =>
      rw [List.append_nil] at hm
      rw [← hm, ← List.append_nil xs]
      exact hy [] a left hl.symm
    | cons c m =>
      obtain ⟨rfl, -⟩ := List.cons.inj hl
      exact hx made _ m hm

theorem EachAct.flatMap {α : Type} {f : α → List CloseAct} {P : List CloseAct → CloseAct → Prop} {l : List α}
    (h : ∀ x ∈ l, ∀ made, EachAct (fun m => P (made ++ m)) (f x)) : EachAct P (l.flatMap f) := by
  induction l generalizing P with
  | nil => exact fun made a left h => by simp at h
  | cons x l ih =>
    rw [List.flatMap_cons]
    refine .append (by simpa using h x (by simp) []) (ih fun y hy made => ?_)
    simpa [List.append_assoc] using h y (by simp [hy]) (f x ++ made)

/-! ### Points (log 15) -/

theorem pointFrom_append (p : ClosePoint) (xs ys : List CloseAct) : pointFrom p (xs ++ ys) = pointFrom (pointFrom p xs) ys := by
  induction xs generalizing p with
  | nil => rfl
  | cons a xs ih => cases a <;> exact ih _

theorem pointFrom_of_reach {Q : ClosePoint → Prop} {p : ClosePoint} {acts : List CloseAct} (hp : Q p)
    (h : ∀ q, .reach q ∈ acts → Q q) : Q (pointFrom p acts) := by
  induction acts generalizing p with
  | nil => exact hp
  | cons a acts ih =>
    have htail := fun q hq => h q (List.mem_cons_of_mem a hq)
    cases a with
    | reach q => exact ih (h q (by simp)) htail
    | read r o => exact ih hp htail
    | write items => exact ih hp htail

/-- Acts that reach points of one kind only, from such a point on: each stands at a point of that kind. -/
theorem EachAct.of_points {Q : ClosePoint → Prop} {P : ClosePoint → CloseAct → Prop} {p : ClosePoint} {acts : List CloseAct}
    (hp : Q p) (hreach : ∀ q, .reach q ∈ acts → Q q) (h : ∀ a ∈ acts, ∀ q, Q q → P q a) :
    EachAct (fun made a => P (pointFrom p made) a) acts := by
  rintro made a left rfl
  exact h a (by simp) _ (pointFrom_of_reach hp fun q hq => hreach q (by simp [hq]))

/-! ### The acts of the steps -/

theorem mem_putOnce {n m : Nat} {l : List Nat} : m ∈ putOnce n l ↔ m = n ∨ m ∈ l := by
  induction l with
  | nil => simp [putOnce]
  | cons x l ih =>
    unfold putOnce
    split
    · simp
    · split
      · next h => simp [h]
      · simp only [List.mem_cons, ih]
        exact or_left_comm

theorem mem_itemReads {i : Item} {a : CloseAct} :
    a ∈ itemReads i ↔ ∃ o, o ∈ Config.itemWords i ∧ a = .read (itemRegion i) o := by
  have h : ∀ (l : List Nat) (o : Nat), o ∈ l.foldr putOnce [] ↔ o ∈ l := fun l o => by
    induction l with
    | nil => rfl
    | cons x l ih => rw [List.foldr_cons, mem_putOnce, ih, List.mem_cons]
  unfold itemReads
  simp only [List.mem_map, h]
  exact exists_congr fun o => and_congr_right fun _ => eq_comm

theorem mem_tableReads {t : RangeRegion} {f : Nat → ClosePoint} {a : CloseAct} (h : a ∈ tableReads t f) :
    (∃ o, a = .read .ranges o) ∨ ∃ n, a = .reach (f n) := by
  have hread : ∀ i, itemRegion i = .ranges → a ∈ itemReads i → ∃ o, a = .read .ranges o := fun i hi ha => by
    obtain ⟨o, -, rfl⟩ := mem_itemReads.mp ha
    exact ⟨o, by rw [hi]⟩
  rw [tableReads, List.mem_eraseDups, List.mem_append, List.mem_cons] at h
  rcases h with h | h | h
  · obtain ⟨i, hi, ha⟩ := List.mem_flatMap.mp h
    refine .inl (hread i ?_ ha)
    rw [tableItems, List.mem_cons, List.mem_map] at hi
    rcases hi with rfl | ⟨n, -, rfl⟩ <;> rfl
  · exact .inr ⟨_, h⟩
  · obtain ⟨i, -, ha⟩ := List.mem_flatMap.mp h
    rcases List.mem_append.mp ha with ha | ha
    · exact .inl (hread _ rfl ha)
    · exact .inr ⟨_, List.mem_singleton.mp ha⟩

/-- The acts of step 1 before the next point: reads of the table, and ranges gone, if there is a day (R45). -/
theorem pruneActs_eq (day : Option Half) (b : Bank) :
    ∃ reads written, pruneActs day b = reads ++ .reach (.expand 0) :: written ∧
      (∀ a ∈ reads, day ≠ none ∧ ((∃ o, a = .read .ranges o) ∨ ∃ n, a = .reach (.prune n))) ∧
      ∀ a ∈ written, ∃ old new, a = .write (rangeItemsWritten old new) := by
  cases day with
  | none => exact ⟨[], [], rfl, nofun, nofun⟩
  | some d =>
    refine ⟨_, _, rfl, fun a ha => ⟨nofun, ?_⟩, fun a ha => ⟨_, _, List.mem_singleton.mp ha⟩⟩
    rcases mem_tableReads ha with h | ⟨n, h⟩
    · exact .inl h
    · exact .inr ⟨_, h⟩

/-- The acts of step 2 for one journey of a class (R60). -/
def journeyActs (journeys c j : Nat) : List CloseAct :=
  itemReads (.base j) ++ [.reach (.expand (c * journeys + j + 1)), .write [.price (c * journeys + j)]]

/-- The acts of step 2 for one class (R60). -/
def classActs (journeys c : Nat) : List CloseAct :=
  itemReads (.classRec c) ++ (List.range journeys).flatMap (journeyActs journeys c)

theorem expandActs_eq (b : Bank) :
    expandActs b =
      if b.record.expansionDue then
        itemReads .dims ++ (List.range b.tariff.classes.length).flatMap (classActs b.tariff.base.length)
      else [] := rfl

theorem mem_classActs {journeys c : Nat} {a : CloseAct} (h : a ∈ classActs journeys c) :
    (∃ o, a = .read .tariff o) ∨ (∃ n, a = .reach (.expand n)) ∨ ∃ n, a = .write [.price n] := by
  have hread : ∀ i, itemRegion i = .tariff → a ∈ itemReads i → ∃ o, a = .read .tariff o := fun i hi ha => by
    obtain ⟨o, -, rfl⟩ := mem_itemReads.mp ha
    exact ⟨o, by rw [hi]⟩
  rcases List.mem_append.mp h with h | h
  · exact .inl (hread _ rfl h)
  · obtain ⟨j, -, ha⟩ := List.mem_flatMap.mp h
    rcases List.mem_append.mp ha with ha | ha
    · exact .inl (hread _ rfl ha)
    · rcases List.mem_cons.mp ha with rfl | ha
      · exact .inr (.inl ⟨_, rfl⟩)
      · exact .inr (.inr ⟨_, List.mem_singleton.mp ha⟩)

/-- What step 2 does, when expansion is due: it reads outside the table, prices, and comes to its own points (R60). -/
theorem mem_expandActs {b : Bank} {a : CloseAct} (h : a ∈ expandActs b) :
    b.record.expansionDue = true ∧
      ((∃ r o, a = .read r o ∧ r ≠ .ranges) ∨ (∃ n, a = .reach (.expand n)) ∨ ∃ n, a = .write [.price n]) := by
  rw [expandActs_eq] at h
  split at h
  next hd =>
    refine ⟨hd, ?_⟩
    rcases List.mem_append.mp h with h | h
    · obtain ⟨o, -, rfl⟩ := mem_itemReads.mp h
      exact .inl ⟨.header, o, rfl, nofun⟩
    · obtain ⟨c, -, ha⟩ := List.mem_flatMap.mp h
      rcases mem_classActs ha with ⟨o, rfl⟩ | ha
      · exact .inl ⟨.tariff, o, rfl, nofun⟩
      · exact .inr ha
  next => exact absurd h List.not_mem_nil

/-- The reads for the tariff CRC: the HEADER's words, then words of the tariff, each once (R66). -/
theorem tariffReads_eq (b : Bank) :
    ∃ reads : List CloseAct, ((tariffCrcItems b).flatMap itemReads).eraseDups = (itemReads .dims).eraseDups ++ reads ∧
      ∀ a ∈ reads, ∃ r o, a = .read r o := by
  refine ⟨_, by rw [tariffCrcItems, List.flatMap_cons, List.eraseDups_append], fun a ha => ?_⟩
  have hm := (List.mem_filter.mp (List.mem_eraseDups.mp ha)).1
  obtain ⟨i, -, hi⟩ := List.mem_flatMap.mp hm
  obtain ⟨o, -, rfl⟩ := mem_itemReads.mp hi
  exact ⟨_, o, rfl⟩

/-! ### The order of the run (R11) -/

/-- Where a closing run may read a word of a region (R45, R60, R66). -/
def readsThere (day : Option Half) (due : Bool) (p : ClosePoint) (a : CloseAct) : Prop :=
  ∀ r o, a = .read r o →
    match p with
    | .prune _ => r = .ranges ∧ day ≠ none
    | .expand _ => r ≠ .ranges ∧ due = true
    | .checksum n => r = .ranges ∨ n = 256
    | .checksummed => False
    | .compared => False
    | .sequenced => False

theorem pruneActs_reads (day : Option Half) (due : Bool) (b : Bank) :
    EachAct (fun made a => readsThere day due (pointAfter made) a) (pruneActs day b) := by
  obtain ⟨reads, written, he, hr, hw⟩ := pruneActs_eq day b
  rw [he]
  refine .append ?_ (.of_mem fun a ha made => ?_)
  · refine .of_points (Q := fun p => ∃ n, p = .prune n) ⟨0, rfl⟩ (fun q hq => ?_) ?_
    · obtain ⟨-, ⟨o, ho⟩ | ⟨n, hn⟩⟩ := hr _ hq
      · cases ho
      · exact ⟨n, by injection hn⟩
    · rintro a ha _ ⟨n, rfl⟩ r o rfl
      obtain ⟨hd, ⟨o', ho⟩ | ⟨m, hm⟩⟩ := hr _ ha
      · exact ⟨by injection ho, hd⟩
      · cases hm
  · rintro r o rfl
    rcases List.mem_cons.mp ha with ha | ha
    · cases ha
    · obtain ⟨old, new, h⟩ := hw _ ha
      cases h

theorem pruneActs_point (day : Option Half) (b : Bank) : pointAfter (pruneActs day b) = .expand 0 := by
  obtain ⟨reads, written, he, -, hw⟩ := pruneActs_eq day b
  rw [he, pointAfter, pointFrom_append]
  refine pointFrom_of_reach (Q := fun p => p = .expand 0) (acts := written) rfl fun q hq => ?_
  obtain ⟨old, new, h⟩ := hw _ hq
  cases h

theorem expandActs_reads (day : Option Half) (b : Bank) :
    EachAct (fun made a => readsThere day b.record.expansionDue (pointFrom (.expand 0) made) a) (expandActs b) := by
  refine .of_points (Q := fun p => ∃ n, p = .expand n) ⟨0, rfl⟩ (fun q hq => ?_) ?_
  · obtain ⟨-, ⟨r, o, h, -⟩ | ⟨n, h⟩ | ⟨n, h⟩⟩ := mem_expandActs hq
    · cases h
    · exact ⟨n, by injection h⟩
    · cases h
  · rintro a ha _ ⟨n, rfl⟩ r o rfl
    obtain ⟨hd, ⟨r', o', h, hr⟩ | ⟨m, h⟩ | ⟨m, h⟩⟩ := mem_expandActs ha
    · injection h with hrr
      exact ⟨hrr ▸ hr, hd⟩
    · cases h
    · cases h

theorem checksumActs_reads (day : Option Half) (due : Bool) (b : Bank) :
    EachAct (fun made a => readsThere day due (pointFrom (.checksum 0) made) a) (checksumActs b) := by
  obtain ⟨reads, he, hr⟩ := tariffReads_eq b
  unfold checksumActs
  refine .append ?_ ?_
  · refine .of_points (Q := fun p => ∃ n, p = .checksum n) ⟨0, rfl⟩ (fun q hq => ?_) ?_
    · rcases mem_tableReads hq with ⟨o, h⟩ | ⟨n, h⟩
      · cases h
      · exact ⟨_, by injection h⟩
    · rintro a ha _ ⟨n, rfl⟩ r o rfl
      rcases mem_tableReads ha with ⟨o', h⟩ | ⟨m, h⟩
      · exact .inl (by injection h)
      · cases h
  · have htariff : ∀ q, CloseAct.reach q ∉ ((tariffCrcItems b).flatMap itemReads).eraseDups := fun q hq => by
      obtain ⟨i, -, hi⟩ := List.mem_flatMap.mp (List.mem_eraseDups.mp hq)
      obtain ⟨o, -, h⟩ := mem_itemReads.mp hi
      cases h
    refine .append (xs := [CloseAct.reach (.checksum 256)]) (.of_mem fun a ha made r o h => ?_) ?_
    · rw [List.mem_singleton.mp ha] at h
      cases h
    · simp only [pointFrom_append]
      refine .of_points (Q := fun p => p = .checksum 256) rfl (fun q hq => absurd hq (htariff q)) ?_
      rintro a ha _ rfl r o rfl
      exact .inr rfl

/-- A word is read in the step that needs it (R11, R45, R60, R66). -/
theorem closeActs_reads (day : Option Half) (b : Bank) :
    EachAct (fun made a => readsThere day b.record.expansionDue (pointAfter made) a) (closeActs day b) := by
  have hpoint : ∀ made, pointAfter (pruneActs day b ++ made) = pointFrom (.expand 0) made := fun made => by
    rw [pointAfter, pointFrom_append]
    exact congrArg (pointFrom · made) (pruneActs_point day b)
  have hreach : ∀ (p q : ClosePoint), readsThere day b.record.expansionDue p (.reach q) := fun p q r o h => by cases h
  unfold closeActs
  rw [List.append_assoc, List.append_assoc]
  refine .append (pruneActs_reads day _ b) ?_
  simp only [hpoint]
  refine .append (expandActs_reads day b) ?_
  simp only [pointFrom_append]
  refine .append (xs := [CloseAct.reach (.checksum 0)]) (.of_mem fun a ha made => List.mem_singleton.mp ha ▸ hreach _ _) ?_
  simp only [pointFrom_append]
  exact .append (checksumActs_reads day _ _) (.of_mem fun a ha made => List.mem_singleton.mp ha ▸ hreach _ _)

/-- Every word of an item is read. -/
def hasRead (made : List CloseAct) (i : Item) : Prop := ∀ o, o ∈ Config.itemWords i → .read (itemRegion i) o ∈ made

theorem hasRead_of_subset {made : List CloseAct} {i : Item} (h : itemReads i ⊆ made) : hasRead made i :=
  fun o ho => h (mem_itemReads.mpr ⟨o, ho, rfl⟩)

/-- No word of the tariff is read before the whole HEADER (R60, R66). -/
theorem closeActs_header_first (day : Option Half) (b : Bank) :
    EachAct (fun made a => ∀ o, a = .read .tariff o → hasRead made .dims) (closeActs day b) := by
  obtain ⟨pre, post, he, hno, hdims⟩ : ∃ pre post, closeActs day b = pre ++ post ∧
      (∀ o, .read .tariff o ∉ pre) ∧ itemReads .dims ⊆ pre := by
    have hprune : ∀ o, .read .tariff o ∉ pruneActs day b := fun o h => by
      obtain ⟨reads, written, he, hr, hw⟩ := pruneActs_eq day b
      rw [he, List.mem_append, List.mem_cons] at h
      rcases h with h | h | h
      · obtain ⟨-, ⟨o', ho⟩ | ⟨n, hn⟩⟩ := hr _ h
        · injection ho with hreg
          cases hreg
        · cases hn
      · cases h
      · obtain ⟨old, new, hn⟩ := hw _ h
        cases hn
    have hheader : ∀ o, .read .tariff o ∉ itemReads .dims := fun o h => by
      obtain ⟨o', -, hn⟩ := mem_itemReads.mp h
      injection hn with hreg
      cases hreg
    have htable : ∀ t f o, .read .tariff o ∉ tableReads t f := fun t f o h => by
      rcases mem_tableReads h with ⟨o', hn⟩ | ⟨n, hn⟩
      · injection hn with hreg
        cases hreg
      · cases hn
    cases hd : b.record.expansionDue with
    | true =>
      obtain ⟨rest, hrest⟩ : ∃ rest, expandActs b = itemReads .dims ++ rest := ⟨_, by rw [expandActs_eq, if_pos hd]⟩
      refine ⟨pruneActs day b ++ itemReads .dims,
        rest ++ .reach (.checksum 0) :: checksumActs (pruneStep day b).bank ++ [.reach .checksummed], ?_, fun o h => ?_,
        fun a ha => by simp [ha]⟩
      · unfold closeActs
        rw [hrest]
        simp only [List.append_assoc, List.cons_append]
      · exact (List.mem_append.mp h).elim (hprune o) (hheader o)
    | false =>
      obtain ⟨reads, hreads, -⟩ := tariffReads_eq (pruneStep day b).bank
      obtain ⟨points, hsums⟩ : ∃ points, checksumActs (pruneStep day b).bank =
          tableReads (pruneStep day b).bank.ranges points ++
            .reach (.checksum 256) :: ((itemReads .dims).eraseDups ++ reads) := ⟨_, by rw [checksumActs, hreads]⟩
      refine ⟨pruneActs day b ++ (.reach (.checksum 0) :: tableReads (pruneStep day b).bank.ranges points ++
        .reach (.checksum 256) :: (itemReads .dims).eraseDups), reads ++ [.reach .checksummed], ?_, fun o h => ?_,
        fun a ha => by simp [ha]⟩
      · unfold closeActs
        rw [expandActs_eq, if_neg (by simp [hd]), hsums]
        simp only [List.append_assoc, List.cons_append, List.append_nil]
      · simp only [List.mem_append, List.mem_cons, List.mem_eraseDups, reduceCtorEq, false_or] at h
        rcases h with h | h | h
        · exact hprune o h
        · exact htable _ _ o h
        · exact hheader o h
  rw [he]
  refine .append (.of_mem fun a ha made o h => absurd (h ▸ ha) (hno o)) (.of_mem fun a ha made o h => ?_)
  exact hasRead_of_subset fun x hx => List.mem_append_left _ (hdims hx)

/-- The price written is of the class and journey whose words have been read (R60). -/
def pricedFrom (journeys : Nat) (made : List CloseAct) (a : CloseAct) : Prop :=
  ∀ c j, j < journeys → a = .write [.price (c * journeys + j)] → hasRead made (.classRec c) ∧ hasRead made (.base j)

theorem pricedFrom_of_ne {journeys : Nat} {made : List CloseAct} {a : CloseAct} (h : ∀ n, a ≠ .write [.price n]) :
    pricedFrom journeys made a := fun _ _ _ ha => absurd ha (h _)

theorem itemReads_ne_write {i : Item} {a : CloseAct} (h : a ∈ itemReads i) (items : List Item) : a ≠ .write items := by
  obtain ⟨o, -, rfl⟩ := mem_itemReads.mp h
  nofun

theorem price_place {journeys c c' j j' : Nat} (hj : j < journeys) (hj' : j' < journeys)
    (h : c * journeys + j = c' * journeys + j') : c = c' ∧ j = j' := by
  have hpos : 0 < journeys := Nat.zero_lt_of_lt hj
  have hc : c = c' := by
    have := congrArg (· / journeys) h
    simpa [Nat.add_comm _ j, Nat.add_comm _ j', Nat.add_mul_div_right, hpos, Nat.div_eq_of_lt hj, Nat.div_eq_of_lt hj'] using this
  subst hc
  exact ⟨rfl, Nat.add_left_cancel h⟩

theorem classActs_prices {journeys c : Nat} (before : List CloseAct) :
    EachAct (fun made => pricedFrom journeys (before ++ made)) (classActs journeys c) := by
  refine .append (.of_mem fun a ha made => pricedFrom_of_ne fun n => itemReads_ne_write ha _)
    (.flatMap fun j hj past => .append (.of_mem fun a ha made => pricedFrom_of_ne fun n => itemReads_ne_write ha _)
      (.of_mem fun a ha made c' j' hj' h => ?_))
  rcases List.mem_cons.mp ha with rfl | ha
  · cases h
  · rw [List.mem_singleton.mp ha] at h
    injection h with h
    obtain ⟨rfl, rfl⟩ := price_place (List.mem_range.mp hj) hj' (Item.price.inj (List.cons.inj h).1)
    exact ⟨hasRead_of_subset fun x hx => by simp [hx], hasRead_of_subset fun x hx => by simp [hx]⟩

theorem rangeItemsWritten_ne_price (old new : RangeRegion) (n : Nat) : rangeItemsWritten old new ≠ [.price n] := by
  intro h
  have hm : Item.price n ∈ rangeItemsWritten old new := by rw [h]; exact List.mem_singleton_self _
  simp only [rangeItemsWritten, entriesMoved, List.mem_append, List.mem_map, reduceCtorEq, and_false, exists_false, or_false] at hm
  split at hm
  · cases hm
  · cases List.mem_singleton.mp hm

theorem checksumActs_ne_write {b : Bank} {a : CloseAct} (h : a ∈ checksumActs b) (items : List Item) : a ≠ .write items := by
  rw [checksumActs, List.mem_append, List.mem_cons, List.mem_eraseDups] at h
  rcases h with h | rfl | h
  · rcases mem_tableReads h with ⟨o, rfl⟩ | ⟨n, rfl⟩ <;> nofun
  · nofun
  · obtain ⟨i, -, hi⟩ := List.mem_flatMap.mp h
    exact itemReads_ne_write hi items

/-- A price is written when its class record and its base fare have been read (R60). -/
theorem closeActs_prices (day : Option Half) (b : Bank) :
    EachAct (pricedFrom b.tariff.base.length) (closeActs day b) := by
  unfold closeActs
  rw [List.append_assoc, List.append_assoc]
  refine .append (.of_mem fun a ha made => pricedFrom_of_ne fun n => ?_) (.append ?_ (.of_mem fun a ha made =>
    pricedFrom_of_ne fun n => ?_))
  · obtain ⟨reads, written, he, hr, hw⟩ := pruneActs_eq day b
    rw [he, List.mem_append, List.mem_cons] at ha
    rcases ha with h | rfl | h
    · obtain ⟨-, ⟨o, rfl⟩ | ⟨m, rfl⟩⟩ := hr _ h <;> nofun
    · nofun
    · obtain ⟨old, new, rfl⟩ := hw _ h
      exact fun h => rangeItemsWritten_ne_price old new n (CloseAct.write.inj h)
  · rw [expandActs_eq]
    split
    · refine .append (.of_mem fun a ha made => pricedFrom_of_ne fun n => itemReads_ne_write ha _) (.flatMap fun c _ past => ?_)
      simpa only [List.append_assoc] using classActs_prices (pruneActs day b ++ (itemReads .dims ++ past))
    · exact .of_mem nofun
  · rw [List.mem_append, List.mem_cons, List.mem_singleton] at ha
    rcases ha with (rfl | h) | rfl
    · nofun
    · exact checksumActs_ne_write h _
    · nofun

end Sys2Proof.Machine
end

section
/-!
PROOFS. A closing run that comes to a word it cannot read (R11, R12, R15, R16, R45, R60, R66).
-/

namespace Sys2Proof.Machine

/-! ### The failure (R15, R182) -/

theorem failOwnRead_eq (b : BankId) (r : Region) (o : Nat) (p : ClosePoint) (v : State) :
    failOwnRead b r o p v =
      { (v.found .close b r o).closeFailed b (failPoint v.free p) (.bank b r o) with
        scrub := v.scrub.leftRegion b r
        free := v.free + 1 } := by
  unfold failOwnRead scrubLeaves
  dsimp only
  rw [markRegion_found, failClose_eq, Scrub.leaveRegion_eq]
  rfl

theorem unreadable_fatal {v : State} {l : WordLoc} (h : v.upsetAt l = some .double ∨ v.upsetAt l = some .stuckDouble) :
    ∃ k, v.upsetAt l = some k ∧ fatal k = true := by
  rcases h with h | h
  · exact ⟨_, h, rfl⟩
  · exact ⟨_, h, rfl⟩

/-- A run that comes, with every word given before, to a word that cannot be given. -/
theorem runActs_blocked {s : State} {b : BankId} {made left : List CloseAct} {r : Region} {o : Nat} (hs : errorsLaw s)
    (hr : s.readable b none made)
    (h : (s.ranOn b none made).upsetAt (.bank b r o) = some .double ∨
      (s.ranOn b none made).upsetAt (.bank b r o) = some .stuckDouble) :
    runActs b none (made ++ .read r o :: left) (.prune 0) s = (s.ranOn b none made, pointAfter made, .read r o :: left) := by
  obtain ⟨k, hk, hf⟩ := unreadable_fatal h
  rw [runActs_readable b none made _ _ s hs hr]
  unfold runActs
  rw [hk]
  exact if_pos hf

theorem runActs_whole {s : State} {b : BankId} {made : List CloseAct} (hs : errorsLaw s) (hr : s.readable b none made) :
    runActs b none made (.prune 0) s = (s.ranOn b none made, pointAfter made, []) := by
  have h := runActs_readable b none made [] (.prune 0) s hs hr
  rwa [List.append_nil] at h

/-! ### What has been done at a point (R11, R12, R45, R60) -/

theorem pruneStep_eq (day : Option Half) (b : Bank) :
    (pruneStep day b).bank.tariff = b.tariff ∧
      (pruneStep day b).bank.record = { b.record with pruned := (pruneStep day b).bank.record.pruned } := by
  cases day <;> exact ⟨rfl, rfl⟩

/-- What step 2 leaves of the record. -/
theorem expandStep_eq (w : CloseWork) :
    (expandStep w).bank.record =
      { w.bank.record with expansionDue := false, capped := (expandStep w).bank.record.capped } := by
  unfold expandStep
  cases hd : w.bank.record.expansionDue with
  | true => rfl
  | false =>
    simp only [Bool.false_eq_true, if_false]
    rw [← hd]

/-- The record behind steps 1 and 2. -/
theorem expanded_eq (day : Option Half) (b : Bank) :
    (expandStep (pruneStep day b)).bank.record =
      { b.record with
        pruned := (pruneStep day b).bank.record.pruned
        expansionDue := false
        capped := (expandStep (pruneStep day b)).bank.record.capped } := by
  rw [expandStep_eq, (pruneStep_eq day b).2]

/-- A run in step 1: ranges are gone, and nothing else is written (R45). -/
theorem prunePart_keeps (day : Option Half) (n : Nat) (b : Bank) :
    (prunePart day n b).bank.tariff = b.tariff ∧
      (∀ d, day = some d → (prunePart day n b).bank.ranges = RangeRegion.ofRecords (pruneFirst d n b.ranges.records)) ∧
      (prunePart day n b).bank.record = { b.record with pruned := (prunePart day n b).bank.record.pruned } := by
  cases day with
  | none => exact ⟨rfl, nofun, rfl⟩
  | some d => exact ⟨rfl, fun d' h => by cases h; rfl, rfl⟩

/-- A run in step 2: the prices computed so far are written (R60). -/
theorem expandPart_due {n : Nat} {day : Option Half} {b : Bank} (h : b.record.expansionDue = true) :
    let prices := (expandAll b.tariff).take n
    let w := expandPart n (pruneStep day b)
    w.bank.tariff = { b.tariff with prices := prices.map (·.1) ++ b.tariff.prices.drop n } ∧
      w.capped = cappedCount prices ∧ w.bank.record = (pruneStep day b).bank.record := by
  obtain ⟨ht, hr⟩ := pruneStep_eq day b
  intro prices w
  have hw : w = { pruneStep day b with
      bank := { (pruneStep day b).bank with
        tariff := { (pruneStep day b).bank.tariff with
          prices := ((expandAll (pruneStep day b).bank.tariff).take n).map (·.1) ++
            (pruneStep day b).bank.tariff.prices.drop n } }
      capped := cappedCount ((expandAll (pruneStep day b).bank.tariff).take n) } :=
    if_pos (by rw [hr]; exact h)
  rw [hw, ht]
  exact ⟨rfl, rfl, rfl⟩

theorem checksumPart_record (n : Nat) (w : CloseWork) :
    (checksumPart n w).bank.record =
      { w.bank.record with
        shelfCrcs := ((List.range 256).map (shelfCrc w.bank.ranges.records)).take n ++ w.bank.record.shelfCrcs.drop n } := by
  rw [← List.map_take]
  rfl

theorem checksumStep_record (w : CloseWork) :
    (checksumStep w).bank.record =
      { w.bank.record with
        shelfCrcs := (List.range 256).map (shelfCrc w.bank.ranges.records)
        tariffCrc := tariffCrc w.bank.tariff
        imageCrc := imageCrc w.bank.record.tariffVersion w.bank.record.blockVersion (tariffCrc w.bank.tariff)
          ((List.range 256).map (shelfCrc w.bank.ranges.records)) } := rfl

/-- The comparison with an undamaged bank in force (R12). -/
theorem compareStep_undamaged {r : BankRecord} (w : CloseWork) (h : r.marks = ⟨none, none, none⟩) :
    compareStep (some r) w =
      { w with
        bank := { w.bank with
          record := { w.bank.record with
            tariffChanged := decide (w.bank.record.tariffCrc ≠ r.tariffCrc)
            shelfChanged := (List.range 256).map fun i => decide (w.bank.record.shelfCrcs[i]? ≠ r.shelfCrcs[i]?)
            comparedSeq := r.seq } } } := by
  unfold compareStep
  dsimp only
  rw [(undamaged_iff r).mpr h]
  rfl

/-- With no undamaged bank in force everything counts as changed (R12). -/
theorem compareStep_none {f : Option BankRecord} (w : CloseWork) (h : ∀ r, f = some r → r.marks ≠ ⟨none, none, none⟩) :
    compareStep f w =
      { w with
        bank := { w.bank with
          record := { w.bank.record with
            tariffChanged := true, shelfChanged := List.replicate 256 true, comparedSeq := 0#16 } } } := by
  unfold compareStep
  cases f with
  | none => rfl
  | some r =>
    dsimp only
    rw [if_pos (Bool.of_not_eq_false fun hd => h r rfl ((undamaged_iff r).mp hd))]

/-- What the comparison writes. -/
theorem compareStep_writes (f : Option BankRecord) (w : CloseWork) :
    ∃ tariff shelves seq, compareStep f w =
      { w with
        bank := { w.bank with
          record := { w.bank.record with tariffChanged := tariff, shelfChanged := shelves, comparedSeq := seq } } } := by
  by_cases h : ∀ r, f = some r → r.marks ≠ ⟨none, none, none⟩
  · exact ⟨_, _, _, compareStep_none w h⟩
  · push Not at h
    obtain ⟨r, rfl, hr⟩ := h
    exact ⟨_, _, _, compareStep_undamaged w hr⟩

/-- The CRCs of the image are those of what the bank holds (R11, R18, R66). -/
def Checksummed (old : BankRecord) (w : CloseWork) : Prop :=
  let shelves := (List.range 256).map (shelfCrc w.bank.ranges.records)
  w.bank.record.expansionDue = false ∧ w.bank.record.tariffCrc = tariffCrc w.bank.tariff ∧ w.bank.record.shelfCrcs = shelves ∧
    w.bank.record.imageCrc = imageCrc old.tariffVersion old.blockVersion (tariffCrc w.bank.tariff) shelves

theorem Checksummed.compared {old : BankRecord} {w : CloseWork} (h : Checksummed old w) (f : Option BankRecord) :
    Checksummed old (compareStep f w) := by
  obtain ⟨_, _, _, he⟩ := compareStep_writes f w
  rw [he]
  exact h

/-- The comparison holds the CRCs of the record against those of an undamaged bank in force (R12). -/
def ComparedWith (f : Option BankRecord) (new : BankRecord) : Prop :=
  ((∀ r, f = some r → r.marks ≠ ⟨none, none, none⟩) →
    new.tariffChanged = true ∧ new.shelfChanged = List.replicate 256 true ∧ new.comparedSeq = 0#16) ∧
  ∀ r, f = some r → r.marks = ⟨none, none, none⟩ →
    new.tariffChanged = decide (new.tariffCrc ≠ r.tariffCrc) ∧
      new.shelfChanged = ((List.range 256).map fun i => decide (new.shelfCrcs[i]? ≠ r.shelfCrcs[i]?)) ∧
      new.comparedSeq = r.seq

theorem compareStep_compared (f : Option BankRecord) (w : CloseWork) : ComparedWith f (compareStep f w).bank.record := by
  refine ⟨fun h => ?_, fun r hf h => ?_⟩
  · rw [compareStep_none w h]
    exact ⟨rfl, rfl, rfl⟩
  · rw [hf, compareStep_undamaged w h]
    exact ⟨rfl, rfl, rfl⟩

/-- Settles O18: the run makes its acts in order, and fails at the first word that cannot be given. -/
theorem closingRunFailureReturnsToBuilding : Obligations.ClosingRunFailureReturnsToBuilding := by
  unfold Obligations.ClosingRunFailureReturnsToBuilding
  intro s b region offset again reached hrun hroles hs hclosing acts marked failed unreadable
  have hb : s.findBank .closing = some b := findBank_of hroles rfl hclosing
  have hfails : ∀ made r o v, v.scrub = s.scrub → v.free = s.free →
      failed made r o v (failOwnRead b r o (pointAfter made) v) := fun made r o v hscrub hfree =>
    ⟨_, failPoint_allowed v.free _, by rw [failOwnRead_eq, hscrub, hfree]⟩
  have hcomplete : exec .closeRunComplete s = .next (closeRunComplete s) := congrArg _ (event_running hrun)
  have hfailure : exec (.closingRunFailure region offset again) s = .next (closingRunFailure region offset again s) :=
    congrArg _ (event_running hrun)
  have hfound : marked = s.found .close b region offset := rfl
  have hacts : acts = closeActs s.closeDay (s.bank b) := rfl
  refine ⟨fun made r o left he hr => ?_, fun h => ?_, fun made left he hcount => ⟨fun hr => ?_, fun first r o rest hm hr => ?_⟩,
    ?_, fun made a left he => ?_, ?_⟩
  · intro v hun
    refine ⟨_, ?_, hfails made r o v rfl rfl⟩
    rw [hcomplete]
    unfold closeRunComplete
    rw [hb]
    dsimp only
    rw [← hacts, he, runActs_blocked hs hr hun]
  · rw [hfailure]
    unfold closingRunFailure
    rw [hb]
    dsimp only
    rw [← hacts, actsBefore_none h]
  · intro v struck
    refine ⟨_, ?_, hfails made region offset struck rfl rfl⟩
    rw [hfailure]
    unfold closingRunFailure
    rw [hb]
    dsimp only
    rw [← hacts, he, actsBefore_of_eq hcount]
    dsimp only
    rw [runActs_whole hs hr]
  · intro v hun
    refine ⟨_, ?_, hfails first r o v rfl rfl⟩
    rw [hfailure]
    unfold closingRunFailure
    rw [hb]
    dsimp only
    rw [← hacts, he, actsBefore_of_eq hcount]
    dsimp only
    rw [hm, runActs_blocked hs hr hun]
  · rw [hfound, found_recOf]
    exact Marks.get_mark _ _ _
  · exact ⟨closeActs_reads _ _ made a left he, closeActs_header_first _ _ made a left he, closeActs_prices _ _ made a left he⟩
  intro w old new shelves checksummed notCompared notSummed compared
  have hbank : marked.bank b = { s.bank b with record := { old with marks := (s.recOf b).marks.mark region offset } } := by
    rw [hfound]
    unfold State.found State.setRec
    exact (State.bank_setBank _ _ _ _).trans (if_pos rfl)
  have hx : (marked.bank b).record = { old with marks := (s.recOf b).marks.mark region offset } := by rw [hbank]
  have htariff : (marked.bank b).tariff = (s.bank b).tariff := by rw [hbank]
  have hranges : (marked.bank b).ranges = (s.bank b).ranges := by rw [hbank]
  clear_value old marked
  have hw : w = closeWorkAt reached s.closeDay (s.inForce.map s.recOf) (marked.bank b) := rfl
  generalize marked.bank b = x at hx htariff hranges hw
  clear_value w
  subst hw
  rw [← htariff, ← hranges]
  refine ⟨fun n h => ?_, fun n h hdue => ?_, fun n h => ?_, fun h => ?_, fun h => ?_⟩
  · subst h
    obtain ⟨ht, hd, hr⟩ := prunePart_keeps s.closeDay n x
    rw [hx] at hr
    change new = _ at hr
    clear_value new
    subst hr
    exact ⟨ht, hd, rfl, rfl, ⟨rfl, rfl⟩, rfl, rfl, rfl⟩
  · subst h
    have hdue' : x.record.expansionDue = true := by rw [hx]; exact hdue
    obtain ⟨ht, hc, hr⟩ := expandPart_due (n := n) (day := s.closeDay) hdue'
    rw [(pruneStep_eq s.closeDay x).2, hx] at hr
    change new = _ at hr
    clear_value new
    subst hr
    exact ⟨ht, hc, hdue, rfl, ⟨rfl, rfl⟩, rfl, rfl, rfl⟩
  · subst h
    have hr := checksumPart_record n (expandStep (pruneStep s.closeDay x))
    rw [expanded_eq, hx] at hr
    change new = _ at hr
    clear_value new
    subst hr
    exact ⟨rfl, rfl, ⟨rfl, rfl⟩, rfl, rfl, rfl⟩
  · subst h
    have hr : new = _ := checksumStep_record (expandStep (pruneStep s.closeDay x))
    rw [expanded_eq, hx] at hr
    clear_value new
    subst hr
    exact ⟨⟨rfl, rfl, rfl, rfl⟩, rfl, rfl, rfl⟩
  · have hsum : Checksummed old (checksumStep (expandStep (pruneStep s.closeDay x))) := by
      unfold Checksummed
      rw [checksumStep_record, expanded_eq, hx]
      exact ⟨rfl, rfl, rfl, rfl⟩
    obtain ⟨hnone, hsome⟩ := compareStep_compared (s.inForce.map s.recOf) (checksumStep (expandStep (pruneStep s.closeDay x)))
    have hsum := hsum.compared (s.inForce.map s.recOf)
    have hcompared : closeWorkAt reached s.closeDay (s.inForce.map s.recOf) x =
        compareStep (s.inForce.map s.recOf) (checksumStep (expandStep (pruneStep s.closeDay x))) := by
      rcases h with rfl | rfl <;> rfl
    rw [← hcompared] at hnone hsome hsum
    refine ⟨hsum, fun hf => hnone fun r hr => ?_, fun f hf hm => hsome _ (congrArg (Option.map s.recOf) hf) hm⟩
    obtain ⟨f, hf', rfl⟩ := Option.map_eq_some_iff.mp hr
    exact hf f hf'

end Sys2Proof.Machine
end

section
/-!
PROOFS. A closing run that completes makes the image PENDING (R11 to R14, R16, R18, R148, R157).
-/

namespace Sys2Proof.Machine

/-! ### The image a completed run leaves (R11, R12) -/

/-- The ranges that a prune on the day leaves (R45). -/
def keptRanges (day : Option Half) (rs : List RangeRec) : List RangeRec :=
  match day with
  | none => rs
  | some d => rs.filter fun r => !(r.expiry.any fun e => decide (e < d))

theorem pruneStep_whole (day : Option Half) (x : Bank) :
    pruneStep day x =
      ⟨⟨{ x.record with
            pruned :=
              if day = none then x.record.pruned
              else min 65535 (x.record.pruned + (x.ranges.records.length - (keptRanges day x.ranges.records).length)) },
          x.tariff, if day = none then x.ranges else RangeRegion.ofRecords (keptRanges day x.ranges.records)⟩,
        x.ranges.records.length - (keptRanges day x.ranges.records).length, 0⟩ := by
  cases day with
  | none =>
    rw [if_pos rfl, if_pos rfl]
    show pruneStep none x = ⟨_, x.ranges.records.length - x.ranges.records.length, 0⟩
    rw [Nat.sub_self]
    rfl
  | some d =>
    rw [if_neg nofun, if_neg nofun]
    unfold pruneStep prunePart
    dsimp only
    rw [pruneFirst_all d _ _ (Nat.le_refl _)]
    rfl

theorem pruneStep_records (day : Option Half) (x : Bank) :
    (pruneStep day x).bank.ranges.records = keptRanges day x.ranges.records := by
  rw [pruneStep_whole]
  cases day <;> rfl

theorem expandStep_whole (w : CloseWork) :
    expandStep w =
      { w with
        bank := { w.bank with
          record := { w.bank.record with
            expansionDue := false
            capped :=
              if w.bank.record.expansionDue then cappedCount (expandAll w.bank.tariff) else w.bank.record.capped }
          tariff :=
            if w.bank.record.expansionDue then
              { w.bank.tariff with prices := (expandAll w.bank.tariff).map (·.1) }
            else w.bank.tariff }
        capped := if w.bank.record.expansionDue then cappedCount (expandAll w.bank.tariff) else w.capped } := by
  unfold expandStep
  cases hd : w.bank.record.expansionDue with
  | true => rfl
  | false =>
    simp only [Bool.false_eq_true, if_false]
    rw [← hd]

/-! ### Readiness and the trigger (R146, R157 to R159) -/

/-- At a CLOSE completion every member of the readiness set is LOADING (R146, R148). -/
theorem allReadyHolds_atClose {s : State} {b : BankId} (hp : s.pendingBank = some b) :
    (mapEntries Entry.atClose s).allReadyHolds = true ↔
      ¬∃ k, (s.entry k).presence = .active ∧ (s.entry k).excluded = false := by
  have hpend : (mapEntries Entry.atClose s).pendingBank = some b := hp
  unfold State.allReadyHolds
  rw [hpend, Option.isSome_some, Bool.true_and, List.all_eq_true]
  constructor
  · rintro h ⟨k, hact, hexc⟩
    have := h _ ((PerLink.mem_toList _ _).mpr ⟨k, PerLink.get_map _ _ _⟩)
    have hact' : (s.table.entries.get k).presence = .active := hact
    have hexc' : (s.table.entries.get k).excluded = false := hexc
    simp [Entry.member, Entry.atClose, hact', hexc'] at this
  · intro h e he
    obtain ⟨k, rfl⟩ := (PerLink.mem_toList _ _).mp he
    have hk : ¬((s.entry k).presence = .active ∧ (s.entry k).excluded = false) := fun hk => h ⟨k, hk⟩
    rw [show (mapEntries Entry.atClose s).table.entries.get k = (s.entry k).atClose from PerLink.get_map _ _ _]
    by_cases hact : (s.entry k).presence = .active
    · have hexc : (s.entry k).excluded = true := Bool.of_not_eq_false fun hx => hk ⟨hact, hx⟩
      simp [Entry.member, Entry.atClose, hexc]
    · simp [Entry.member, Entry.atClose, hact]

/-- `s` as Cutover Control enters WAITING (R157). -/
def State.waitingNow (s : State) : State :=
  { s with cutover := { s.cutover with state := .waiting, waitTimer := 0, graceTimer := 0, cause := none } }

/-- The trigger that holds as WAITING is entered (R157 to R159). -/
def State.triggerNow (s : State) : Option Cause :=
  match s.activation with
  | some .onReady => if s.table.allReady = true then some .ready else none
  | some (.atTime d m) =>
    if s.clock.valid = true ∧ (d < s.clock.day ∨ (d = s.clock.day ∧ m ≤ s.clock.minute)) then some .atTime else none
  | none => none

theorem notEarlier_iff (day minute d m : Half) :
    notEarlier day minute d m = true ↔ d < day ∨ (d = day ∧ m ≤ minute) := by
  unfold notEarlier
  rw [Bool.or_eq_true, Bool.and_eq_true, decide_eq_true_eq, decide_eq_true_eq, decide_eq_true_eq, eq_comm (a := day)]

theorem enterWaiting_eq (s : State) :
    enterWaiting s = s.waitingNow.triggerNow.elim s.waitingNow fun cause => takeTrigger cause s.waitingNow := by
  have hw : s.waitingNow.cutover.state = .waiting := rfl
  unfold enterWaiting
  change (if s.waitingNow.activation = some .onReady then
      if s.waitingNow.table.allReady then takeTrigger .ready s.waitingNow else s.waitingNow
    else examineAt s.waitingNow) = _
  unfold State.triggerNow
  unfold examineAt State.atHolds
  generalize s.waitingNow = t at hw ⊢
  rw [hw]
  cases t.activation with
  | none => rfl
  | some a =>
    cases a with
    | onReady =>
      rw [if_pos rfl]
      dsimp only
      split <;> rfl
    | atTime d m =>
      rw [if_neg nofun]
      have hcome : (t.clock.valid && notEarlier t.clock.day t.clock.minute d m) = true ↔
          t.clock.valid = true ∧ (d < t.clock.day ∨ (d = t.clock.day ∧ m ≤ t.clock.minute)) := by
        rw [Bool.and_eq_true, notEarlier_iff]
      dsimp only
      by_cases h : t.clock.valid = true ∧ (d < t.clock.day ∨ (d = t.clock.day ∧ m ≤ t.clock.minute))
      · rw [if_pos ⟨rfl, hcome.mpr h⟩, if_pos h]
        rfl
      · rw [if_neg (fun hx => h (hcome.mp hx.2)), if_neg h]
        rfl

end Sys2Proof.Machine
end

section
/-!
PROOFS. CLOSE_RUN_COMPLETE when every word can be read (R11 to R14, R16, R18, R157 to R160).
-/

namespace Sys2Proof.Machine

/-- The work of the first three steps (R11, R18, R45, R60, R66). -/
theorem summed_whole (day : Option Half) (x : Bank) (kept : List RangeRec) (tariff : Tariff) (capped : Nat)
    (hkept : kept = keptRanges day x.ranges.records)
    (htariff : tariff =
      if x.record.expansionDue then { x.tariff with prices := (expandAll x.tariff).map (·.1) } else x.tariff)
    (hcapped : capped = if x.record.expansionDue then cappedCount (expandAll x.tariff) else 0) :
    checksumStep (expandStep (pruneStep day x)) =
      ⟨⟨{ x.record with
            expansionDue := false
            pruned :=
              if day = none then x.record.pruned
              else min 65535 (x.record.pruned + (x.ranges.records.length - kept.length))
            capped := if x.record.expansionDue then capped else x.record.capped
            shelfCrcs := (List.range 256).map (shelfCrc kept)
            tariffCrc := tariffCrc tariff
            imageCrc :=
              imageCrc x.record.tariffVersion x.record.blockVersion (tariffCrc tariff)
                ((List.range 256).map (shelfCrc kept)) },
          tariff, if day = none then x.ranges else RangeRegion.ofRecords kept⟩,
        x.ranges.records.length - kept.length, capped⟩ := by
  have hcount : (if x.record.expansionDue then cappedCount (expandAll x.tariff) else x.record.capped) =
      if x.record.expansionDue then capped else x.record.capped := by
    rw [hcapped]
    split <;> rfl
  subst hkept htariff
  have hrecords := pruneStep_records day x
  unfold checksumStep
  rw [expandStep_whole]
  dsimp only
  rw [hrecords, pruneStep_whole, ← hcount, hcapped]

/-- A bank that leaves CLOSING for PENDING keeps the roles of R3. -/
theorem rolesLaw_pending {s : State} {b : BankId} {x : Bank} (h : rolesLaw s) (hb : (s.recOf b).state = .closing)
    (hx : x.record.state = .pending) : rolesLaw (s.setBank b x) := by
  have hrec : ∀ c, ((s.setBank b x).recOf c).state = if c = b then .pending else (s.recOf c).state := fun c => by
    rw [State.recOf_setBank]
    split
    · exact hx
    · rfl
  unfold rolesLaw at h ⊢
  rw [hrec, hrec]
  cases b <;> simp_all [BankState.buildSide]

theorem seqOf_inForce {s : State} {b : BankId} (hb : (s.recOf b).state ≠ .inForce) :
    s.seqOf s.inForce = if (s.recOf (other b)).state = .inForce then (s.recOf (other b)).seq else 0#16 := by
  by_cases ho : (s.recOf (other b)).state = .inForce
  · rw [inForce_beside hb ho, if_pos ho]
    rfl
  · have hnone : s.inForce = none := findBank_none.mpr fun c => by
      by_cases hc : c = b
      · rw [hc]; exact hb
      · rw [eq_other hc]; exact ho
    rw [hnone, if_neg ho]
    rfl

/-- Settles O17: the run makes the image, and WAITING is entered with the trigger that holds. -/
theorem closeRunMakesTheImagePending : Obligations.CloseRunMakesTheImagePending := by
  unfold Obligations.CloseRunMakesTheImagePending
  intro s b hrun hroles hs hclosing hread v old f kept removed due capped tariff crcs source undamaged seq image closed member
    waiting trigger
  have hb : s.findBank .closing = some b := findBank_of hroles rfl hclosing
  have hnot : (s.recOf b).state ≠ .inForce := by rw [hclosing]; nofun
  have hseq : s.drawnSeq = seq := congrArg (drawSeq s.lastSeq) (seqOf_inForce hnot)
  obtain ⟨hfresh, hother⟩ := drawSeq_fresh s.lastSeq (if source then f.seq else 0#16)
  have hkept : kept = keptRanges s.closeDay old.ranges.records := rfl
  have hsum := summed_whole s.closeDay old kept tariff capped hkept rfl rfl
  have hwork : s.closeWork b =
      ⟨{ closed with record := { closed.record with state := old.record.state, seq := old.record.seq } }, removed, capped⟩ := by
    unfold State.closeWork
    rw [show s.bank b = old from rfl, hsum]
    by_cases hu : undamaged
    · rw [inForce_beside hnot hu.1, Option.map_some, compareStep_undamaged _ hu.2]
      simp only [closed, if_pos hu]
      rfl
    · have hnone : ∀ r, s.inForce.map s.recOf = some r → r.marks ≠ ⟨none, none, none⟩ := fun r hr hm => by
        obtain ⟨c, hc, rfl⟩ := Option.map_eq_some_iff.mp hr
        have hc := (inForce_iff hroles c).mp hc
        obtain rfl : c = other b := eq_other fun he => hnot (he ▸ hc)
        exact hu ⟨hc, hm⟩
      rw [compareStep_none _ hnone]
      simp only [closed, if_neg hu]
      rfl
  have hcomplete : completeClose b v =
      { v.setBank b closed with
        lastSeq := seq
        closeDay := none
        closeResult := ⟨.done, b, removed, capped, seq, image⟩
        events := { v.events with flags := v.events.flags ||| 0x10#24 } } := by
    unfold completeClose
    rw [show v.closeWork b = s.closeWork b from rfl, hwork, show v.drawnSeq = s.drawnSeq from rfl, hseq]
    rfl
  have hafter : rolesLaw (s.setBank b closed) := rolesLaw_pending hroles hclosing rfl
  have hstands : ((s.setBank b closed).recOf b) = closed.record := (State.recOf_setBank _ _ _ _).trans (if_pos rfl)
  have hpending : (s.setBank b closed).pendingBank = some b :=
    pendingBank_of hafter ((congrArg BankRecord.state hstands).trans rfl)
  have hbanks : (completeClose b v).banks = (s.setBank b closed).banks := by rw [hcomplete]; rfl
  have hready : (mapEntries Entry.atClose (completeClose b v)).allReadyHolds = decide ¬member := by
    have hentry : (completeClose b v).entry = s.entry := by rw [hcomplete]; rfl
    have := allReadyHolds_atClose (s := completeClose b v) ((pendingBank_congr hbanks).trans hpending)
    rw [hentry] at this
    exact Bool.eq_iff_iff.mpr (this.trans decide_eq_true_iff.symm)
  have hwaiting : (evalReady (mapEntries Entry.atClose (completeClose b v))).waitingNow = waiting := by
    rw [evalReady_eq, hready, hcomplete]
    by_cases h : ¬member ∧ s.table.allReady = false
    · rw [if_pos ⟨decide_eq_true h.1, h.2⟩]
      simp only [waiting, if_pos h]
      rfl
    · rw [if_neg fun hx => h ⟨of_decide_eq_true hx.1, hx.2⟩]
      simp only [waiting, if_neg h, BitVec.or_zero]
      rfl
  have hexec : exec .closeRunComplete s = .next (enterWaiting (evalReady (mapEntries Entry.atClose (completeClose b v)))) := by
    refine congrArg _ ((event_running hrun).trans ?_)
    unfold closeRunComplete
    rw [hb]
    dsimp only
    rw [runActs_whole hs hread]
  have htrigger : waiting.triggerNow = trigger := by
    have hact : waiting.activation = old.record.activation := by
      unfold State.activation
      rw [show waiting.pendingBank = some b from hpending, Option.bind_some,
        show waiting.recOf b = closed.record from hstands]
    unfold State.triggerNow
    rw [hact, show waiting.table.allReady = decide ¬member from rfl, show waiting.clock = s.clock from rfl]
    simp only [trigger]
    cases old.record.activation with
    | none => rfl
    | some a =>
      cases a with
      | atTime d m => rfl
      | onReady =>
        by_cases hm : member
        · exact (if_neg (by simpa using hm)).trans (if_pos hm).symm
        · exact (if_pos (by simpa using hm)).trans (if_neg hm).symm
  rw [enterWaiting_eq, hwaiting, htrigger] at hexec
  refine ⟨hfresh, fun hsource => ?_, fun h => ?_, fun cause h => ⟨fun hi hg => ?_, fun hg => ?_⟩⟩
  · exact fun he => hother (he.trans (if_pos hsource).symm)
  · rw [hexec, h]
    rfl
  · rw [hexec, h]
    refine congrArg _ ?_
    rcases takeTrigger_cases cause waiting with ⟨-, -, he⟩ | ⟨hnow, -⟩
    · exact he
    · exact absurd (hnow hi) hg
  · refine ⟨takeTrigger cause waiting, by rw [hexec, h]; rfl, ?_, takeTrigger_port _ _, takeTrigger_lookups _ _⟩
    rcases takeTrigger_cases cause waiting with ⟨hi, hlate, -⟩ | ⟨-, he⟩
    · exact absurd (hg hi) hlate
    · rw [he]
      exact performCutover_cutOver (s := waiting) _ _ hafter (congrArg BankRecord.state hstands)

end Sys2Proof.Machine
end

section
/-!
PROOFS. The bytes that a refill service writes of a frame, when no word is in error (R94 to R97, R105, R107).
-/

namespace Sys2Proof.Machine

/-! ### What a piece stands for -/

/-- The bytes that a piece of a frame stands for. -/
def Piece.bytes (bank : Option Bank) (crc : Half) (unreadable : Bool) : Piece → List Byte
  | .plain bs => bs
  | .covered bs => bs
  | .item i => (bank.map fun b => itemBytes b i).getD []
  | .crc => be16 (if unreadable then ~~~crc else crc)

/-- The CRC of the frame covers the piece (R116). -/
def Piece.isCovered : Piece → Bool
  | .plain _ => false
  | .covered _ => true
  | .item _ => true
  | .crc => false

theorem frameRest_cons (bank : Option Bank) (crc : Half) (unreadable : Bool) (p : Piece) (ps : List Piece) :
    frameRest bank crc unreadable (p :: ps) =
      p.bytes bank crc unreadable ++
        frameRest bank (if p.isCovered then crc16Feed crc (p.bytes bank crc unreadable) else crc) unreadable ps := by
  cases p <;> rfl

/-- A frame ends in its CRC, or in the last byte of it. -/
def endsInCrc (ps : List Piece) : Prop := ∀ p, ps.getLast? = some p → p = .crc ∨ ∃ c, p = .plain [c]

theorem endsInCrc_tail {p : Piece} {ps : List Piece} (h : endsInCrc (p :: ps)) : endsInCrc ps := by
  intro q hq
  refine h q ?_
  cases ps with
  | nil => cases hq
  | cons p' ps => rw [List.getLast?_cons_cons]; exact hq

/-- Something is left to be written of a frame with a piece left. -/
theorem frameRest_pos (bank : Option Bank) (crc : Half) (unreadable : Bool) {ps : List Piece} (hne : ps ≠ [])
    (h : endsInCrc ps) : 0 < (frameRest bank crc unreadable ps).length := by
  induction ps generalizing crc with
  | nil => exact absurd rfl hne
  | cons p ps ih =>
    rw [frameRest_cons, List.length_append]
    cases ps with
    | nil =>
      obtain rfl | ⟨c, rfl⟩ := h p rfl
      · exact Nat.lt_add_right _ (by simp [Piece.bytes, be16])
      · exact Nat.lt_add_right _ Nat.one_pos
    | cons p' ps => exact Nat.lt_add_left _ (ih _ (List.cons_ne_nil _ _) (endsInCrc_tail h))

/-! ### A piece goes out (R107) -/

theorem crc16Feed_append (c : Half) (xs ys : List Byte) : crc16Feed c (xs ++ ys) = crc16Feed (crc16Feed c xs) ys :=
  List.foldl_append ..

/-- A piece whose bytes all find room. -/
theorem push_whole {e : Emit} {bs : List Byte} (covered : Bool) (ps : List Piece) (h : bs.length ≤ e.room) :
    e.push bs covered ps =
      { e with
        left := ps
        crc := if covered then crc16Feed e.crc bs else e.crc
        out := e.out ++ bs
        room := e.room - bs.length } := by
  unfold Emit.push
  dsimp only
  rw [List.drop_of_length_le h, if_pos rfl, List.take_of_length_le h]

/-- A piece that finds room for some of its bytes only. -/
theorem push_part {e : Emit} {bs : List Byte} (covered : Bool) (ps : List Piece) (h : e.room < bs.length) :
    e.push bs covered ps =
      { e with
        left := (if covered then .covered (bs.drop e.room) else .plain (bs.drop e.room)) :: ps
        crc := if covered then crc16Feed e.crc (bs.take e.room) else e.crc
        out := e.out ++ bs.take e.room
        room := 0 } := by
  have hlater : bs.drop e.room ≠ [] := fun hn => absurd (List.drop_eq_nil_iff.mp hn) (by omega)
  unfold Emit.push
  dsimp only
  rw [if_neg hlater, List.length_take, Nat.min_eq_left h.le, Nat.sub_self]

/-- With no word in error a piece pushes the bytes it stands for. -/
theorem piece_bytes {content : Option BankId} {e : Emit} (hu : e.state.upsets = []) (p : Piece) (ps : List Piece) :
    e.piece content p ps = e.push (p.bytes (content.map e.state.bank) e.crc e.unreadable) p.isCovered ps := by
  cases p with
  | plain bs => rfl
  | covered bs => rfl
  | crc => rfl
  | item i =>
    cases content with
    | none => rfl
    | some b =>
      have hread : readOn .carousel (hitsIn b [i] e.state.upsets) e.state = (e.state, []) := by rw [hu]; rfl
      unfold Emit.piece Emit.item
      dsimp only
      rw [hread]
      rfl

/-- What a service writes of the pieces of a frame when no word is in error (R107). -/
theorem emitPieces_writes {content : Option BankId} {ps : List Piece} {e : Emit} (hu : e.state.upsets = [])
    (h : endsInCrc ps) :
    let rest := frameRest (content.map e.state.bank) e.crc e.unreadable ps
    let e' := emitPieces content ps e
    e'.state = e.state ∧ e'.unreadable = e.unreadable ∧ e'.out = e.out ++ rest.take e.room ∧
      (rest.length ≤ e.room → e'.left = []) ∧
      (e.room < rest.length →
        e'.left ≠ [] ∧ frameRest (content.map e.state.bank) e'.crc e.unreadable e'.left = rest.drop e.room) := by
  induction ps generalizing e with
  | nil =>
    intro rest e'
    have hrest : rest = [] := rfl
    have he : e' = { e with left := [] } := rfl
    rw [hrest, he, List.take_nil, List.append_nil, List.length_nil]
    exact ⟨rfl, rfl, rfl, fun _ => rfl, fun hlt => absurd hlt (Nat.not_lt_zero e.room)⟩
  | cons p ps ih =>
    intro rest e'
    have hpos : 0 < rest.length := frameRest_pos _ _ _ (List.cons_ne_nil _ _) h
    by_cases hr : e.room = 0
    · have he : e' = { e with left := p :: ps } := emitPieces_full hr
      rw [he, hr, List.take_zero, List.append_nil, List.drop_zero]
      exact ⟨rfl, rfl, rfl, fun hle => absurd hle (by omega), fun _ => ⟨List.cons_ne_nil _ _, rfl⟩⟩
    · generalize hbs : p.bytes (content.map e.state.bank) e.crc e.unreadable = bs
      have hrest : rest = bs ++ frameRest (content.map e.state.bank)
          (if p.isCovered then crc16Feed e.crc bs else e.crc) e.unreadable ps := by
        rw [← hbs]
        exact frameRest_cons ..
      have he : e' = if (e.push bs p.isCovered ps).left = ps then emitPieces content ps (e.push bs p.isCovered ps)
          else e.push bs p.isCovered ps := by
        rw [← hbs, ← piece_bytes hu]
        exact emitPieces_cons hr
      rw [hrest, he]
      rcases Nat.lt_or_ge e.room bs.length with hlt | hle
      · rw [push_part _ _ hlt, if_neg (List.cons_ne_self _ _)]
        refine ⟨rfl, rfl, by rw [List.take_append_of_le_length hlt.le], fun hx => ?_, fun _ => ⟨List.cons_ne_nil _ _, ?_⟩⟩
        · rw [List.length_append] at hx
          omega
        · rw [List.drop_append_of_le_length hlt.le]
          dsimp only
          cases p.isCovered with
          | false => rfl
          | true =>
            simp only [if_true, frameRest]
            rw [← crc16Feed_append, List.take_append_drop]
      · obtain ⟨h1, h2, h3, h4, h5⟩ := ih (e := e.push bs p.isCovered ps) (by rw [push_whole _ _ hle]; exact hu)
          (endsInCrc_tail h)
        rw [push_whole _ _ hle] at h1 h2 h3 h4 h5 ⊢
        rw [if_pos rfl]
        dsimp only at h1 h2 h3 h4 h5 ⊢
        rw [List.length_append, List.take_append, List.drop_append, List.take_of_length_le hle, List.drop_of_length_le hle]
        refine ⟨h1, h2, by rw [h3, List.append_assoc], fun hx => h4 (by omega), fun hx => h5 (by omega)⟩

end Sys2Proof.Machine
end

section
/-!
PROOFS. What has passed on the lines, the link that a refill service serves, and its service when no word is in error (R106, R107,
R121).
-/

namespace Sys2Proof.Machine

/-! ### What has passed on the lines (R106, R121) -/

theorem drain_other {n : Nat} {l : Link} (h : (∀ kind, l.tx ≠ .carousel kind) ∨ l.txFifo = []) : l.drain n = l := by
  unfold Link.drain
  split
  · next kind f rest htx hf =>
    rcases h with h | h
    · exact absurd htx (h kind)
    · rw [h] at hf
      cases hf
  · rfl

theorem drain_sending {n : Nat} {l : Link} {kind : FrameKind} {f : FifoFrame} {rest : List FifoFrame}
    (h : l.tx = .carousel kind) (hf : l.txFifo = f :: rest) :
    l.drain n = { l with txFifo := { f with bytes := f.bytes.drop n } :: rest } := by
  unfold Link.drain
  rw [h, hf]

theorem drain_eq (n : Nat) (l : Link) : l.drain n = { l with txFifo := (l.drain n).txFifo } := by
  unfold Link.drain
  split <;> rfl

theorem drain_zero (l : Link) : l.drain 0 = l := by
  unfold Link.drain
  split
  · next kind f rest htx hf =>
    rw [List.drop_zero]
    exact congrArg (fun fifo => { l with txFifo := fifo }) hf.symm
  · rfl

theorem arrive_enabled {bs : List Byte} {l : Link} (h : l.state = .enabled) :
    l.arrive bs =
      { l with
        rxFrame := l.rxFrame ++ bs.take (256 - l.rxFill), rxDropped := l.rxDropped || decide (256 - l.rxFill < bs.length) } :=
  if_pos h

theorem arrive_other {bs : List Byte} {l : Link} (h : l.state ≠ .enabled) : l.arrive bs = l := if_neg h

theorem arrive_nil (l : Link) : l.arrive [] = l := by
  by_cases h : l.state = .enabled
  · rw [arrive_enabled h, List.take_nil, List.append_nil, List.length_nil]
    simp
  · exact arrive_other h

theorem passLines_nil (u : State) : passLines [] u = u := by
  obtain ⟨hlink, hrest⟩ := passLines_eq [] u
  rw [hrest, show (passLines [] u).links = u.links from PerLink.ext_get fun k => (hlink k).trans ?_]
  exact (arrive_nil _).trans (drain_zero _)

/-- What the bytes taken and arrived make of a link. -/
theorem passed_link (n : Nat) (bs : List Byte) (l : Link) :
    let m := (l.drain n).arrive bs
    m = { l with txFifo := m.txFifo, rxFrame := m.rxFrame, rxDropped := m.rxDropped } ∧
      ((∀ kind, l.tx ≠ .carousel kind) ∨ l.txFifo = [] → m.txFifo = l.txFifo) ∧
      (∀ kind f rest, l.tx = .carousel kind → l.txFifo = f :: rest →
        m.txFifo = { f with bytes := f.bytes.drop n } :: rest) ∧
      (l.state = .enabled → m.rxFrame = l.rxFrame ++ bs.take (256 - l.rxFill) ∧
        (m.rxDropped = true ↔ l.rxDropped = true ∨ 256 - l.rxFill < bs.length)) ∧
      (l.state ≠ .enabled → m.rxFrame = l.rxFrame ∧ m.rxDropped = l.rxDropped) := by
  intro m
  have hfifo : m.txFifo = (l.drain n).txFifo := by
    by_cases h : (l.drain n).state = .enabled
    · rw [show m = _ from arrive_enabled h]
    · rw [show m = _ from arrive_other h]
  have hd := drain_eq n l
  have hstate : (l.drain n).state = l.state := by rw [hd]
  refine ⟨?_, fun h => by rw [hfifo, drain_other h], fun kind f rest h hf => by rw [hfifo, drain_sending h hf], fun h => ?_,
    fun h => ?_⟩
  · by_cases h : (l.drain n).state = .enabled
    · rw [show m = _ from arrive_enabled h, hd]
    · rw [show m = _ from arrive_other h, hd]
  · rw [show m = _ from arrive_enabled (hstate.trans h), hd]
    refine ⟨rfl, ?_⟩
    dsimp only
    rw [Bool.or_eq_true, decide_eq_true_eq]
    exact Iff.rfl
  · rw [show m = _ from arrive_other (hstate ▸ h), hd]
    exact ⟨rfl, rfl⟩

/-! ### The link served (R106, R107) -/

theorem needsRefill_iff (l : Link) :
    l.needsRefill = true ↔
      l.state = .enabled ∧ l.phase = .inCycle ∧ l.txFill ≤ l.threshold ∧
        (l.ctx.wip ≠ none ∨ l.ctx.ending ≠ none ∨ l.ctx.todo ≠ []) := by
  simp only [Link.needsRefill, Link.inCycle, Context.unfinished, Bool.and_eq_true, Bool.or_eq_true, decide_eq_true_eq,
    Option.isSome_iff_ne_none]
  tauto

/-- How far behind the pointer a link comes in the rotating order (R107). -/
def turnOf (p k : LinkId) : Nat := (k.val + 7 - p.val) % 8

/-- The links between the pointer and a link are those that come before it. -/
theorem linksAfter_split (p k : LinkId) :
    linksAfter p = (linksAfter p).take (turnOf p k) ++ k :: (linksAfter p).drop (turnOf p k + 1) ∧
      ∀ j ∈ (linksAfter p).take (turnOf p k), turnOf p j < turnOf p k := by
  revert p k
  decide

theorem served_first {p k : LinkId} {q : LinkId → Bool} (hk : q k = true) (h : ∀ j, q j = true → turnOf p k ≤ turnOf p j) :
    (linksAfter p).find? q = some k := by
  obtain ⟨hsplit, hbefore⟩ := linksAfter_split p k
  rw [List.find?_eq_some_iff_append]
  refine ⟨hk, _, _, hsplit, fun j hj => ?_⟩
  cases hq : q j with
  | false => rfl
  | true => exact absurd (hbefore j hj) (Nat.not_lt.mpr (h j hq))

/-! ### The service (R105, R107) -/

theorem beginFrame_some {bank : Option Bank} {l : Link}
    (h : l.ctx.wip ≠ none ∨ l.ctx.ending ≠ none ∨ l.ctx.todo ≠ []) : ∃ w, (l.beginFrame bank).ctx.wip = some w := by
  unfold Link.beginFrame
  split
  · next w hw => exact ⟨w, hw⟩
  · next hw =>
    split
    · exact ⟨_, rfl⟩
    · next he =>
      split
      · exact ⟨_, rfl⟩
      · next ht => exact absurd h (by rw [hw, he, ht]; simp)

/-- The bytes of a frame join a link whatever its context holds. -/
theorem storeBytes_ctx (kind : FrameKind) (first whole : Bool) (out : List Byte) (l : Link) (c : Context) :
    Link.storeBytes kind first whole out { l with ctx := c } = { Link.storeBytes kind first whole out l with ctx := c } := by
  unfold Link.storeBytes
  dsimp only
  split
  · rfl
  · split
    · rfl
    · split <;> rfl

/-- The link behind a service that has written the bytes in `out` of frame `w`, which may be whole with them. -/
def Link.served (l : Link) (w : Wip) (out : List Byte) (whole : Bool) (left : List Piece) (crc : Half) : Link :=
  { Link.storeBytes w.kind (decide (w.written = 0)) whole out l with
    ctx :=
      { l.ctx with
        wip :=
          if whole then none
          else
            some
              { w with
                pieces := left, crc := crc, written := w.written + out.length
                aborted := w.aborted || w.unreadable }
        frameIndex := if whole then l.ctx.frameIndex + 1 else l.ctx.frameIndex
        sent :=
          if whole then
            l.ctx.sent + (if (w.aborted || w.unreadable) || decide (w.kind = .cycleEnd) then 0 else 1)
          else l.ctx.sent
        aborted := l.ctx.aborted + (if w.unreadable && !w.aborted then 1 else 0) } }

/-- The state behind the pieces of frame `w` of link `k`: the link and its context hold what has been written (R97, R106). -/
def Emit.stored (e : Emit) (k : LinkId) (w : Wip) : State :=
  e.state.setLink k (Link.storeBytes w.kind (decide (w.written = 0)) (decide (e.left = [])) e.out
    { e.state.link k with ctx := (e.state.link k).ctx.wrote w e })

/-- A service of a link that has a frame to write: its pieces go out, and a whole frame comes to its boundary (R107). -/
theorem serveLink_eq {k : LinkId} {s : State} {l : Link} {w : Wip} {e : Emit}
    (hl : (s.link k).beginFrame ((s.link k).ctx.content.map s.bank) = l) (hw : l.ctx.wip = some w)
    (he : emitPieces l.ctx.content w.pieces
      ⟨s.setLink k l, w.pieces, w.crc, [], if 0 < l.discard then l.discard else 1024 - l.txFill, w.unreadable⟩ = e) :
    serveLink k s =
      tryBegin k (if e.left = [] ∧ w.kind ≠ .cycleEnd then frameBoundary k (e.stored k w) else e.stored k w) := by
  unfold serveLink
  dsimp only
  rw [hl, hw]
  dsimp only
  rw [show Config.txFifoBytes = 1024 from rfl, he]
  rfl

/-- A service of a link when no word is in error (R107). -/
theorem serveLink_writes {k : LinkId} {s : State} {w : Wip} (hu : s.upsets = [])
    (hw : ((s.link k).beginFrame ((s.link k).ctx.content.map s.bank)).ctx.wip = some w) (hend : endsInCrc w.pieces) :
    let x := (s.link k).ctx.content.map s.bank
    let l := (s.link k).beginFrame x
    let room := if 0 < l.discard then l.discard else 1024 - l.txFill
    ∃ (left : List Piece) (crc : Half),
      (room < (w.rest x).length → frameRest x crc w.unreadable left = (w.rest x).drop room) ∧
        serveLink k s =
          tryBegin k
            (if (w.rest x).length ≤ room ∧ w.kind ≠ .cycleEnd then
              frameBoundary k (s.setLink k (l.served w ((w.rest x).take room) (decide ((w.rest x).length ≤ room)) left crc))
            else s.setLink k (l.served w ((w.rest x).take room) (decide ((w.rest x).length ≤ room)) left crc)) := by
  intro x l room
  have hcontent : l.ctx.content = (s.link k).ctx.content := (beginFrame_keeps x (s.link k)).2.2.1
  let e := emitPieces l.ctx.content w.pieces ⟨s.setLink k l, w.pieces, w.crc, [], room, w.unreadable⟩
  have hx : l.ctx.content.map (s.setLink k l).bank = x := by
    rw [hcontent]
    rfl
  obtain ⟨hstate, hunread, hout, hwhole, hpart⟩ :=
    emitPieces_writes (content := l.ctx.content) (ps := w.pieces) (e := ⟨s.setLink k l, w.pieces, w.crc, [], room, w.unreadable⟩)
      hu hend
  dsimp only at hstate hunread hout hwhole hpart
  rw [hx] at hout hwhole hpart
  change e.state = _ at hstate
  change e.unreadable = _ at hunread
  change e.out = (w.rest x).take room at hout
  change (w.rest x).length ≤ room → e.left = [] at hwhole
  change room < (w.rest x).length → e.left ≠ [] ∧ frameRest x e.crc w.unreadable e.left = (w.rest x).drop room at hpart
  refine ⟨e.left, e.crc, fun hlt => (hpart hlt).2, ?_⟩
  have hleft : e.left = [] ↔ (w.rest x).length ≤ room :=
    ⟨fun h => Nat.le_of_not_lt fun hlt => (hpart hlt).1 h, hwhole⟩
  have hserved : Link.storeBytes w.kind (decide (w.written = 0)) (decide (e.left = [])) e.out { l with ctx := l.ctx.wrote w e } =
      l.served w ((w.rest x).take room) (decide ((w.rest x).length ≤ room)) e.left e.crc := by
    have hdec : decide (e.left = []) = decide ((w.rest x).length ≤ room) := decide_eq_decide.mpr hleft
    rw [storeBytes_ctx, hdec, hout]
    unfold Link.served Context.wrote
    dsimp only
    rw [hunread, hout]
    by_cases h : (w.rest x).length ≤ room
    · rw [if_pos (hleft.mpr h), decide_eq_true h]
      rfl
    · rw [if_neg (mt hleft.mp h), decide_eq_false h]
      rfl
  have hstored : e.stored k w = s.setLink k (l.served w ((w.rest x).take room) (decide ((w.rest x).length ≤ room)) e.left e.crc) := by
    unfold Emit.stored
    rw [hstate, State.link_setLink_same, hserved, State.setLink_setLink]
  rw [serveLink_eq (l := l) (e := e) rfl hw rfl, hstored]
  exact congrArg (tryBegin k) (if_congr (and_congr_left' hleft) rfl rfl)

end Sys2Proof.Machine
end

section
/-!
PROOFS. The boundary after a frame, and the frames of a cycle (R91 to R97, R101, R102, R116).
-/

namespace Sys2Proof.Machine

/-! ### The boundary (R101, R102) -/

theorem sendable_iff (r : BankRecord) :
    r.sendable = true ↔ r.state = .pending ∨ (r.state = .inForce ∧ r.marks = ⟨none, none, none⟩) := by
  unfold BankRecord.sendable
  rw [Bool.or_eq_true, Bool.and_eq_true, decide_eq_true_eq, decide_eq_true_eq, Bool.not_eq_true', undamaged_iff]

theorem releaseReader_setLink (b : BankId) (k : LinkId) (x : Link) (s : State) :
    releaseReader b (s.setLink k x) = (releaseReader b s).setLink k x := by
  have h := releaseReader_aside b (s.links.set k x) s.lookups s.port s
  rw [show s.setLink k x = { s with links := s.links.set k x, lookups := s.lookups, port := s.port } from rfl, h]
  unfold State.setLink
  rw [releaseReader_links, ← releaseReader_lookups b s, ← releaseReader_port b s]

/-- The link at whose boundary the CYCLE_END is composed (R101). -/
def Link.ended (l : Link) : Link := { l with ctx := { l.ctx with content := none, ending := some (endBody l.ctx false) } }

theorem frameBoundary_none {u : State} {k : LinkId} (h : (u.link k).ctx.content = none) :
    frameBoundary k u = if (u.link k).ctx.todo = [] then u.setLink k (u.link k).ended else u := by
  have he : composeEnd k u = u.setLink k (u.link k).ended := by
    unfold composeEnd
    dsimp only
    rw [h]
    rfl
  unfold frameBoundary
  dsimp only
  rw [h, he]

theorem frameBoundary_some {u : State} {k : LinkId} {b : BankId} (h : (u.link k).ctx.content = some b) :
    frameBoundary k u =
      if (u.recOf b).sendable = true then
        if (u.link k).ctx.todo = [] then (releaseReader b u).setLink k (u.link k).ended else u
      else (releaseReader b u).setLink k (u.link k).cutOff := by
  have hend : composeEnd k u = (releaseReader b u).setLink k (u.link k).ended := by
    unfold composeEnd
    dsimp only
    rw [h]
    exact releaseReader_setLink ..
  have hcut : takeCut k u = (releaseReader b u).setLink k (u.link k).cutOff := by
    unfold takeCut
    dsimp only
    rw [h]
    exact releaseReader_setLink ..
  unfold frameBoundary
  dsimp only
  rw [h, hend, hcut]
  dsimp only
  cases (u.recOf b).sendable <;> rfl

/-! ### The frames (R93 to R97, R116) -/

/-- A frame whose body is known: its lead-in, then the link frame (R91, R116). -/
theorem wholePieces_rest (n : Nat) (kind : FrameKind) (body : List Byte) (x : Option Bank) :
    (newWip kind (wholePieces n kind body)).rest x = List.replicate n 0xAA#8 ++ linkFrame kind.code body := by
  have hframe : frameRest x crc16Preset false [.covered (kind.code :: (n16 body.length ++ body)), .crc] =
      linkFrame kind.code body := by
    unfold linkFrame
    dsimp only [frameRest]
    rw [List.append_nil]
    rfl
  unfold Wip.rest wholePieces newWip
  dsimp only
  by_cases hn : n = 0
  · rw [if_pos hn, hn]
    exact hframe
  · rw [if_neg hn]
    exact congrArg _ hframe

theorem items_rest (y : Bank) (crc : Half) (items : List Item) :
    frameRest (some y) crc false (items.map Piece.item ++ [.crc]) =
      items.flatMap (itemBytes y) ++ be16 (crc16Feed crc (items.flatMap (itemBytes y))) := by
  induction items generalizing crc with
  | nil => exact List.append_nil _
  | cons i items ih =>
    rw [List.map_cons, List.cons_append, frameRest_cons, List.flatMap_cons, crc16Feed_append, List.append_assoc]
    exact congrArg _ (ih _)

/-- A content frame: the part header and the bytes of its items (R94 to R96, R116). -/
theorem contentPieces_rest (y : Bank) (spec : FrameSpec) :
    (newWip spec.kind (contentPieces y spec)).rest (some y) =
      linkFrame spec.kind.code ((frameContent y spec).1 ++ (frameContent y spec).2.flatMap (itemBytes y)) := by
  unfold Wip.rest contentPieces newWip linkFrame
  dsimp only
  rw [frameRest_cons, List.length_append, List.length_flatMap]
  simp only [Piece.bytes, Piece.isCovered, if_true]
  rw [items_rest, ← crc16Feed_append, ← List.append_assoc]
  simp only [List.cons_append, List.append_assoc]
  rfl

/-- Every frame of a cycle ends in its CRC (R116). -/
theorem wipOf_ends (l : Link) (x : Option Bank) (spec : FrameSpec) :
    (wipOf l x spec).pieces.getLast? = some .crc ∧ (wipOf l x spec).written = 0 ∧ (wipOf l x spec).unreadable = false ∧
      (wipOf l x spec).aborted = false ∧ (wipOf l x spec).kind = spec.kind := by
  have hwhole : ∀ n kind body, (wholePieces n kind body).getLast? = some .crc := fun n kind body => by
    unfold wholePieces
    rw [show ∀ p : Piece, [p, Piece.crc] = [p] ++ [.crc] from fun _ => rfl, ← List.append_assoc]
    exact List.getLast?_concat
  have hcontent : ∀ y spec, (contentPieces y spec).getLast? = some .crc := fun y spec => by
    unfold contentPieces
    dsimp only
    rw [← List.cons_append]
    exact List.getLast?_concat
  unfold wipOf
  split
  · exact ⟨hwhole _ _ _, rfl, rfl, rfl, rfl⟩
  · exact ⟨hcontent _ _, rfl, rfl, rfl, rfl⟩
  · exact ⟨hwhole _ _ _, rfl, rfl, rfl, rfl⟩

theorem wipOf_content {l : Link} {y : Bank} {spec : FrameSpec} (h : spec ≠ .head) :
    wipOf l (some y) spec = newWip spec.kind (contentPieces y spec) := by
  cases spec with
  | head => exact absurd rfl h
  | directory _ | classes | matrix _ | products _ | shelf _ _ => rfl

/-- What a link with no frame in progress begins (R92, R107). -/
theorem beginFrame_begins {l : Link} {x : Option Bank} {w : Wip} (hn : l.ctx.wip = none)
    (hw : (l.beginFrame x).ctx.wip = some w) :
    (∃ body, l.ctx.ending = some body ∧ w = newWip .cycleEnd (wholePieces 0 .cycleEnd body)) ∨
      (l.ctx.ending = none ∧
        ∃ spec rest, l.ctx.todo = spec :: rest ∧ (l.beginFrame x).ctx.todo = rest ∧ w = wipOf l x spec) := by
  unfold Link.beginFrame at hw ⊢
  rw [hn] at hw ⊢
  dsimp only at hw ⊢
  cases he : l.ctx.ending with
  | some body =>
    rw [he] at hw
    exact .inl ⟨body, rfl, (Option.some.inj hw).symm⟩
  | none =>
    rw [he] at hw
    cases ht : l.ctx.todo with
    | nil =>
      rw [ht] at hw
      exact absurd (hn.symm.trans hw) (Option.some_ne_none w).symm
    | cons spec rest =>
      rw [ht] at hw
      exact .inr ⟨rfl, spec, rest, rfl, rfl, (Option.some.inj hw).symm⟩

theorem flatMap_partRange {f : Nat → Item} {g : Item → List Byte} (size i n : Nat) :
    ((partRange size i n).map f).flatMap g = (List.range (min size (n - size * i))).flatMap fun j => g (f (size * i + j)) := by
  unfold partRange
  rw [List.map_map, List.flatMap_map]
  rfl

theorem contentFrame_rest {l : Link} {y : Bank} {spec : FrameSpec} (h : spec ≠ .head) :
    (wipOf l (some y) spec).rest (some y) =
      linkFrame spec.kind.code ((frameContent y spec).1 ++ (frameContent y spec).2.flatMap (itemBytes y)) := by
  rw [wipOf_content h, contentPieces_rest]

theorem valueItem_bytes (y : Bank) (p : Nat) :
    itemBytes y (valueItem y.tariff p) =
      ((if p < y.tariff.zones * y.tariff.zones then y.tariff.base[p]?
        else y.tariff.prices[p - y.tariff.zones * y.tariff.zones]?).map be16).getD [] := by
  unfold valueItem
  split <;> rfl

theorem directory_rest {l : Link} {y : Bank} (h : Nat) :
    (wipOf l (some y) (.directory h)).rest (some y) =
      linkFrame 0x11#8
        (n8 h :: (List.range (min 128 (256 - 128 * h))).flatMap fun j =>
          n16 (y.ranges.directory.getD (128 * h + j) ⟨0, 0⟩).count ++ be32 (y.record.shelfCrcs.getD (128 * h + j) 0#32) ++
            [flagByte (y.record.shelfChanged.getD (128 * h + j) false)]) := by
  rw [contentFrame_rest (spec := .directory h) nofun]
  unfold frameContent
  dsimp only
  rw [flatMap_partRange]
  rfl

theorem classes_rest {l : Link} {y : Bank} :
    (wipOf l (some y) .classes).rest (some y) =
      linkFrame 0x12#8
        (be32 y.record.tariffVersion ++ [n8 y.tariff.zones, n8 y.tariff.classCount] ++ n16 y.tariff.productCount ++
          (List.range y.tariff.classCount).flatMap fun i => (y.tariff.classes[i]?.map encodeClass).getD []) := by
  rw [contentFrame_rest (spec := .classes) nofun]
  unfold frameContent
  dsimp only
  rw [List.flatMap_cons, List.flatMap_map, ← List.append_assoc]
  rfl

theorem matrix_rest {l : Link} {y : Bank} (i : Nat) :
    let zz := y.tariff.zones * y.tariff.zones
    let values := zz + y.tariff.classCount * zz
    (wipOf l (some y) (.matrix i)).rest (some y) =
      linkFrame 0x13#8
        (n8 i :: n8 ((values + 509) / 510) ::
          (List.range (min 510 (values - 510 * i))).flatMap fun j =>
            ((if 510 * i + j < zz then y.tariff.base[510 * i + j]?
              else y.tariff.prices[510 * i + j - zz]?).map be16).getD []) := by
  intro zz values
  rw [contentFrame_rest (spec := .matrix i) nofun]
  unfold frameContent
  dsimp only
  rw [flatMap_partRange]
  simp only [valueItem_bytes]
  rfl

theorem products_rest {l : Link} {y : Bank} (i : Nat) :
    (wipOf l (some y) (.products i)).rest (some y) =
      linkFrame 0x14#8
        (n8 i :: n8 (max 1 ((y.tariff.productCount + 21) / 22)) ::
          (List.range (min 22 (y.tariff.productCount - 22 * i))).flatMap fun j =>
            (y.tariff.products[22 * i + j]?.map encodeProduct).getD []) := by
  rw [contentFrame_rest (spec := .products i) nofun]
  unfold frameContent
  dsimp only
  rw [flatMap_partRange]
  rfl

theorem shelf_rest {l : Link} {y : Bank} (shelf i : Nat) :
    let entry := y.ranges.directory.getD shelf ⟨0, 0⟩
    (wipOf l (some y) (.shelf shelf i)).rest (some y) =
      linkFrame 0x15#8
        (n8 shelf :: n8 i :: n8 ((entry.count + 67) / 68) ::
          (List.range (min 68 (entry.count - 68 * i))).flatMap fun j =>
            (y.ranges.records[entry.first + (68 * i + j)]?.map encodeRecord).getD []) := by
  intro entry
  rw [contentFrame_rest (spec := .shelf shelf i) nofun]
  unfold frameContent
  dsimp only
  rw [flatMap_partRange]
  rfl

end Sys2Proof.Machine
end

section
/-!
PROOFS. A refill service that comes to a word it cannot read (R22, R23, R105).
-/

namespace Sys2Proof.Machine

/-! ### The mark on a bank that the carousel sends (R22, R23) -/

/-- A withdrawal leaves the bank STALE, and no word in error is touched. -/
theorem withdrawBank_stale (b : BankId) (s : State) :
    ((withdrawBank b s).recOf b).state = .stale ∧ (withdrawBank b s).upsets = s.upsets := by
  unfold withdrawBank
  dsimp only
  generalize ht : State.raise .pendingWithdrawn _ = t
  have hbanks : t.banks = (s.setRec b { s.recOf b with state := .stale }).banks := by
    rw [← ht, State.raise_banks, evalReady_banks]
    rfl
  have hupsets : t.upsets = s.upsets := by
    rw [← ht, State.raise_upsets, evalReady_upsets]
    rfl
  have hstate : (t.recOf b).state = .stale := by
    rw [recOf_congr hbanks, State.recOf_setRec, if_pos rfl]
  have hcut := cutCyclesOf_cuts (b := b) (s := t) (by rw [hstate]; nofun)
  refine ⟨?_, ?_⟩
  · exact (congrArg (fun x : Bank => x.record.state) hcut.bank).trans hstate
  · rw [hcut.rest]
    exact hupsets

/-- A word of a PENDING bank found uncorrectable (R23). -/
theorem uncorrectable_withdrawal {b : BankId} {r : Region} {o : Nat} {reader : Reader} {s : State}
    (h : (s.recOf b).state = .pending) :
    uncorrectable (.bank b r o) reader s = scrubLeaves b r (withdrawBank b (s.found reader b r o)) := by
  rw [uncorrectable_bank, ← markRegion_found]
  unfold setMark
  rw [show (reportUncorrectable (.bank b r o) reader s).recOf b = s.recOf b from rfl, h]

/-- The bank, standing where the carousel may send it, carries a mark on the region, whose error has been reported; link `k`
is as it was. -/
structure MarkedAt (b : BankId) (r : Region) (mark : Nat) (u : Upset) (k : LinkId) (l : Link) (t : State) : Prop where
  mark : (t.recOf b).marks.get r = some mark
  state : (t.recOf b).state = .inForce ∨ (t.recOf b).state = .stale
  reported : t.events.has .eccUncorrectable = true
  upsets : t.upsets = [u]
  link : t.link k = l

theorem uncorrectable_marked {b : BankId} {r : Region} {o : Nat} {u : Upset} {k : LinkId} {l : Link} {s : State}
    (hs : (s.recOf b).state = .inForce ∨ (s.recOf b).state = .pending ∨ (s.recOf b).state = .stale) (hu : s.upsets = [u])
    (hl : s.link k = l) (hwip : l.ctx.wip ≠ none) :
    MarkedAt b r (((s.recOf b).marks.get r).getD o) u k l (uncorrectable (.bank b r o) .carousel s) := by
  obtain ⟨hmarks, hevents⟩ := setMark_marks b r o (reportUncorrectable (.bank b r o) .carousel s) (by
    show (s.recOf b).state ≠ _
    rcases hs with h | h | h <;> rw [h] <;> nofun)
  have hlink : (uncorrectable (.bank b r o) .carousel s).link k = l :=
    (uncorrectable_link fun c hc => hwip (by rw [hl] at hc; exact hc.2.2.1)).trans hl
  have hstate : ((uncorrectable (.bank b r o) .carousel s).recOf b).state = .inForce ∨
      ((uncorrectable (.bank b r o) .carousel s).recOf b).state = .stale := by
    rcases hs with h | h | h
    · exact .inl ((uncorrectable_leaves (.inl h)).2.1.trans h)
    · rw [uncorrectable_withdrawal h, show ∀ x : State, (scrubLeaves b r x).recOf b = x.recOf b from fun _ => rfl]
      exact .inr (withdrawBank_stale b (s.found .carousel b r o)).1
    · exact .inr ((uncorrectable_leaves (.inr h)).2.1.trans h)
  have hupsets : (uncorrectable (.bank b r o) .carousel s).upsets = [u] := by
    rcases hs with h | h | h
    · rw [(uncorrectable_inForce h).rest]
      exact hu
    · rw [uncorrectable_withdrawal h, show ∀ x : State, (scrubLeaves b r x).upsets = x.upsets from fun _ => rfl]
      exact (withdrawBank_stale b (s.found .carousel b r o)).2.trans hu
    · rw [uncorrectable_stale h]
      exact hu
  refine ⟨?_, hstate, hevents ?_, hupsets, hlink⟩
  · exact (congrArg (Marks.get · r) hmarks).trans (Marks.get_mark _ _ _)
  · show (reportUncorrectable (.bank b r o) .carousel s).events.flags.getLsbD 17 = true
    simp [reportUncorrectable, State.raise, Events.raise, Event.bit, Event.number]

/-- The words of items, when only one word is in error. -/
theorem hitsIn_single (b : BankId) (items : List Item) (u : Upset) :
    hitsIn b items [u] = if inItems b items u.loc = true then [u] else [] := by
  split
  · next h =>
    have hlen := hitsIn_length b items [u]
    rw [List.filter_cons_of_pos (by simpa using h), List.filter_nil] at hlen
    obtain ⟨x, hx⟩ := List.length_eq_one_iff.mp hlen
    have hm : x ∈ hitsIn b items [u] := by rw [hx]; exact List.mem_singleton_self x
    rw [hx, List.mem_singleton.mp ((mem_hitsIn _ _ _ _).mp hm).1]
  · next h =>
    refine List.eq_nil_iff_forall_not_mem.mpr fun x hx => ?_
    obtain ⟨hxu, hi⟩ := (mem_hitsIn _ _ _ _).mp hx
    exact h (by rw [← List.mem_singleton.mp hxu]; exact hi)

theorem readOn_fatal {reader : Reader} {u : Upset} {s : State} (h : fatal u.kind = true) :
    readOn reader [u] s = (uncorrectable u.loc reader s, [u.loc]) := by
  unfold readOn
  rw [if_pos h]
  rfl

/-- Another read of the carousel leaves the mark as it stands. -/
theorem MarkedAt.read {b c : BankId} {r : Region} {o mark : Nat} {u : Upset} {k : LinkId} {l : Link} {t : State} {i : Item}
    (h : MarkedAt b r mark u k l t) (hloc : u.loc = .bank b r o) (hfatal : fatal u.kind = true) (hwip : l.ctx.wip ≠ none) :
    MarkedAt b r mark u k l (readOn .carousel (hitsIn c [i] t.upsets) t).1 := by
  rw [h.upsets, hitsIn_single]
  split
  · rw [readOn_fatal hfatal, hloc]
    have hagain := uncorrectable_marked (b := b) (r := r) (o := o) (s := t)
      (h.state.elim .inl fun hs => .inr (.inr hs)) h.upsets h.link hwip
    rw [h.mark] at hagain
    exact hagain
  · exact h

/-! ### The frame (R105) -/

theorem piece_unreadable {content : Option BankId} {p : Piece} {ps : List Piece} {e : Emit} (h : e.unreadable = true) :
    (e.piece content p ps).unreadable = true := by
  cases p with
  | plain bs | covered bs | crc => exact h
  | item i =>
    cases content with
    | none => exact h
    | some b =>
      unfold Emit.piece Emit.item
      dsimp only
      split
      · exact h
      · rfl

/-- A frame with an unreadable word stays one. -/
theorem emitPieces_unreadable {content : Option BankId} {ps : List Piece} {e : Emit} (h : e.unreadable = true) :
    (emitPieces content ps e).unreadable = true := by
  induction ps generalizing e with
  | nil => exact h
  | cons p ps ih =>
    by_cases hr : e.room = 0
    · rw [emitPieces_full hr]
      exact h
    · have h1 := piece_unreadable (content := content) (p := p) (ps := ps) h
      rw [emitPieces_cons hr]
      split
      · exact ih h1
      · exact h1

/-- The pieces of a frame whose first item holds the unreadable word. -/
theorem emitPieces_marked {b : BankId} {r : Region} {o : Nat} {u : Upset} {k : LinkId} {l : Link} {i : Item} {ps : List Piece}
    {e : Emit} (hs : (e.state.recOf b).state = .inForce ∨ (e.state.recOf b).state = .pending ∨ (e.state.recOf b).state = .stale)
    (hu : e.state.upsets = [u]) (hloc : u.loc = .bank b r o) (hfatal : fatal u.kind = true)
    (hi : inItems b [i] u.loc = true) (hl : e.state.link k = l) (hwip : l.ctx.wip ≠ none) (hr : e.room ≠ 0) :
    (emitPieces (some b) (.item i :: ps) e).unreadable = true ∧
      MarkedAt b r (((e.state.recOf b).marks.get r).getD o) u k l (emitPieces (some b) (.item i :: ps) e).state := by
  have hread : readOn .carousel (hitsIn b [i] e.state.upsets) e.state =
      (uncorrectable (.bank b r o) .carousel e.state, [u.loc]) := by
    rw [hu, hitsIn_single, if_pos hi, readOn_fatal hfatal, hloc]
  obtain ⟨hmark, hunread⟩ : MarkedAt b r (((e.state.recOf b).marks.get r).getD o) u k l (e.piece (some b) (.item i) ps).state ∧
      (e.piece (some b) (.item i) ps).unreadable = true := by
    have hm := uncorrectable_marked (r := r) (o := o) hs hu hl hwip
    unfold Emit.piece Emit.item
    dsimp only
    rw [hread]
    dsimp only
    rw [if_neg (List.cons_ne_nil _ _)]
    exact ⟨⟨hm.mark, hm.state, hm.reported, hm.upsets, hm.link⟩, rfl⟩
  rw [emitPieces_cons hr]
  split
  · exact ⟨emitPieces_unreadable hunread,
      emitPieces_keeps (fun c j t ht => ht.read hloc hfatal hwip)
        (fun t n ht => ⟨ht.mark, ht.state, ht.reported, ht.upsets, ht.link⟩) hmark⟩
  · exact ⟨hunread, hmark⟩

/-! ### What the service leaves (R101, R102, R117) -/

theorem begin_ctx (l : Link) : l.begin.ctx = l.ctx := by
  unfold Link.begin
  repeat' split
  all_goals rfl

theorem tryBegin_ctx (k : LinkId) (t : State) : ((tryBegin k t).link k).ctx = (t.link k).ctx := by
  unfold tryBegin
  dsimp only
  split
  · rw [State.link_setLink_same, begin_ctx]
  · rfl

/-- What a boundary of a bank that does not drain leaves of the bank's marks, the events and the context. -/
theorem frameBoundary_leaves {t : State} {k : LinkId} {b : BankId} (hc : (t.link k).ctx.content = some b)
    (hd : (t.recOf b).state ≠ .draining) :
    ((frameBoundary k t).recOf b).marks = (t.recOf b).marks ∧ (frameBoundary k t).events = t.events ∧
      ((frameBoundary k t).link k).ctx.aborted = (t.link k).ctx.aborted ∧
      ((frameBoundary k t).link k).ctx.wip = (t.link k).ctx.wip := by
  have hreleased : ∀ l : Link, l.ctx.aborted = (t.link k).ctx.aborted → l.ctx.wip = (t.link k).ctx.wip →
      (((releaseReader b t).setLink k l).recOf b).marks = (t.recOf b).marks ∧
        ((releaseReader b t).setLink k l).events = t.events ∧
        (((releaseReader b t).setLink k l).link k).ctx.aborted = (t.link k).ctx.aborted ∧
        (((releaseReader b t).setLink k l).link k).ctx.wip = (t.link k).ctx.wip := fun l ha hw => by
    rw [releaseReader_eq hd, State.setLink_recOf, State.recOf_setRec, if_pos rfl, State.link_setLink_same]
    exact ⟨rfl, rfl, ha, hw⟩
  rw [frameBoundary_some hc]
  split
  · split
    · exact hreleased _ rfl rfl
    · exact ⟨rfl, rfl, rfl, rfl⟩
  · exact hreleased _ rfl rfl

/-- A service whose next word cannot be read (R105). -/
theorem serveLink_unreadable {s : State} {k : LinkId} {w : Wip} {i : Item} {ps : List Piece} {b : BankId} {u : Upset}
    {r : Region} {o : Nat} (hw : (s.link k).ctx.wip = some w) (hps : w.pieces = .item i :: ps)
    (hc : (s.link k).ctx.content = some b) (hdiscard : (s.link k).discard = 0) (hfill : (s.link k).txFill < 1024)
    (hu : s.upsets = [u]) (hloc : u.loc = .bank b r o) (hfatal : fatal u.kind = true) (hi : inItems b [i] u.loc = true)
    (hs : (s.recOf b).state = .inForce ∨ (s.recOf b).state = .pending ∨ (s.recOf b).state = .stale) :
    ((serveLink k s).recOf b).marks.get r = some (((s.recOf b).marks.get r).getD o) ∧
      (serveLink k s).events.has .eccUncorrectable = true ∧
      ((serveLink k s).link k).ctx.aborted = (s.link k).ctx.aborted + (if w.aborted then 0 else 1) ∧
      ∀ w', ((serveLink k s).link k).ctx.wip = some w' → w'.unreadable = true ∧ w'.aborted = true := by
  generalize hl : s.link k = l at hw hc hdiscard hfill
  have hbegin : (s.link k).beginFrame ((s.link k).ctx.content.map s.bank) = l := by
    rw [hl]
    unfold Link.beginFrame
    rw [hw]
  have hself : s.setLink k l = s := by
    rw [← hl]
    unfold State.setLink State.link
    rw [PerLink.set_get]
  obtain ⟨e, he⟩ : ∃ e, emitPieces l.ctx.content w.pieces
      ⟨s.setLink k l, w.pieces, w.crc, [], if 0 < l.discard then l.discard else 1024 - l.txFill, w.unreadable⟩ = e := ⟨_, rfl⟩
  have hserve := serveLink_eq hbegin hw he
  rw [hself, hc, hps] at he
  obtain ⟨hunread, hmark⟩ := emitPieces_marked (b := b) (r := r) (o := o) (u := u) (k := k) (l := l) (i := i) (ps := ps)
    (e := ⟨s, .item i :: ps, w.crc, [], if 0 < l.discard then l.discard else 1024 - l.txFill, w.unreadable⟩)
    hs hu hloc hfatal hi hl (by rw [hw]; nofun) (by rw [hdiscard]; dsimp only; rw [if_neg (Nat.lt_irrefl 0)]; omega)
  rw [he] at hunread hmark
  obtain ⟨hcontent, -, -, -, -⟩ := wrote_keeps w e l.ctx
  have hctx : ((e.stored k w).link k).ctx = l.ctx.wrote w e := by
    unfold Emit.stored
    rw [State.link_setLink_same, hmark.link]
    exact (storeBytes_keeps _ _ _ _ _).2.2.1
  have hrec : (e.stored k w).recOf b = e.state.recOf b := State.setLink_recOf _ _ _ _
  have haborted : (l.ctx.wrote w e).aborted = l.ctx.aborted + (if w.aborted then 0 else 1) := by
    unfold Context.wrote
    dsimp only
    rw [hunread]
    cases w.aborted <;> split <;> rfl
  have hwip : ∀ w', (l.ctx.wrote w e).wip = some w' → w'.unreadable = true ∧ w'.aborted = true := fun w' h => by
    unfold Context.wrote at h
    dsimp only at h
    split at h
    · cases h
    · obtain rfl := Option.some.inj h
      exact ⟨hunread, by rw [hunread, Bool.or_true]⟩
  rw [hserve, tryBegin_ctx, tryBegin_events, recOf_congr (tryBegin_banks _ _)]
  split
  · obtain ⟨h1, h2, h3, h4⟩ := frameBoundary_leaves (t := e.stored k w) (b := b) (by rw [hctx, hcontent, hc])
      (by rw [hrec]; rcases hmark.state with h | h <;> rw [h] <;> nofun)
    rw [h1, h2, h3, h4, hctx, hrec]
    exact ⟨hmark.mark, hmark.reported, haborted, hwip⟩
  · rw [hctx, hrec]
    exact ⟨hmark.mark, hmark.reported, haborted, hwip⟩

end Sys2Proof.Machine
end

section
/-!
PROOFS. REFILL_SERVICE (R91 to R97, R101, R102, R105 to R107, R116, R121).
-/

namespace Sys2Proof.Machine

theorem refill_idle {s : State} (h : ∀ k, (s.link k).needsRefill = false) : refillService [] s = s := by
  unfold refillService
  dsimp only
  rw [passLines_nil, List.find?_eq_none.mpr fun k _ => by rw [h k]; nofun]

theorem refill_serves {s : State} {k : LinkId} (hk : (s.link k).needsRefill = true)
    (h : ∀ j, (s.link j).needsRefill = true → turnOf s.carousel.pointer k ≤ turnOf s.carousel.pointer j) :
    refillService [] s = serveLink k { s with carousel := { s.carousel with pointer := k } } := by
  unfold refillService
  dsimp only
  rw [passLines_nil, served_first hk h]

theorem endsInCrc_of {ps : List Piece} (h : ps.getLast? = some .crc ∨ ∃ c, ps.getLast? = some (.plain [c])) :
    endsInCrc ps := by
  intro p hp
  rcases h with h | ⟨c, h⟩
  · exact .inl (Option.some.inj (hp.symm.trans h))
  · exact .inr ⟨c, Option.some.inj (hp.symm.trans h)⟩

/-- Where the bytes written of a frame go (R106, R109). -/
theorem storeBytes_eq (kind : FrameKind) (written : Nat) (whole : Bool) (out : List Byte) (l : Link) :
    Link.storeBytes kind (decide (written = 0)) whole out l =
      if 0 < l.discard then { l with discard := l.discard - out.length }
      else
        { l with
          txFifo :=
            if written = 0 then l.txFifo ++ [⟨kind, out, whole⟩]
            else
              match l.txFifo.getLast? with
              | some f => l.txFifo.dropLast ++ [{ f with bytes := f.bytes ++ out, whole := whole }]
              | none => [⟨kind, out, whole⟩] } := by
  unfold Link.storeBytes
  split
  · rfl
  · by_cases h : written = 0
    · rw [if_pos h, if_pos (decide_eq_true h)]
    · rw [if_neg h, if_neg (by simpa using h)]
      cases l.txFifo.getLast? <;> rfl

/-- Settles O37: what has passed on the lines, the service of one link, the boundary, and the frames. -/
theorem refillServesOneLink : Obligations.RefillServesOneLink := by
  unfold Obligations.RefillServesOneLink
  have hexec : ∀ (passed : List (Nat × List Byte)) (s : State), s.inReset = false →
      exec (.refillService passed) s = .next (refillService passed s) := fun passed s h => congrArg _ (event_running h)
  refine ⟨fun s passed hrun => ?_, fun s hrun => ?_, fun u k => ?_, fun l x w hn hw => ?_⟩
  · obtain ⟨hlink, hrest⟩ := passLines_eq passed s
    have hreset : (passLines passed s).inReset = false := by rw [hrest]; exact hrun
    refine ⟨passLines passed s, fun k => ?_, hrest, ?_⟩
    · intro l taken arrived room
      rw [hlink k]
      exact passed_link _ _ _
    · rw [hexec _ _ hrun, hexec _ _ hreset]
      unfold refillService
      dsimp only
      rw [passLines_nil]
  · intro needs place
    have hneeds : ∀ k, (s.link k).needsRefill = true ↔ needs k := fun k => needsRefill_iff _
    rw [hexec _ _ hrun]
    refine ⟨fun h => ?_, fun k hk hfirst => ?_⟩
    · rw [refill_idle fun k => Bool.eq_false_iff.mpr (mt (hneeds k).mp (h k))]
    · intro x l
      rw [refill_serves ((hneeds k).mpr hk) fun j hj => hfirst j ((hneeds j).mp hj)]
      obtain ⟨-, -, hfill, hmore⟩ := hk
      refine ⟨beginFrame_some hmore, fun hu w hw hlast => ?_, fun w i ps b u r o hw hps hc hd hf hu hloc hfatal hi hs => ?_⟩
      · intro room whole out aborted stored lost
        obtain ⟨left, crc, hleft, hserve⟩ := serveLink_writes
          (k := k) (s := { s with carousel := { s.carousel with pointer := k } }) hu hw (endsInCrc_of hlast)
        refine ⟨left, crc, fun h => hleft (Nat.lt_of_not_le (of_decide_eq_false h)), ?_⟩
        intro ctx v
        have hserved : l.served w out whole left crc = { stored with ctx := ctx } := by
          have hstored : Link.storeBytes w.kind (decide (w.written = 0)) whole out l = stored := storeBytes_eq _ _ _ _ _
          unfold Link.served
          rw [hstored]
          refine congrArg (fun c : Context => { stored with ctx := c }) ?_
          clear_value whole
          cases whole <;> rfl
        have hboundary : ((w.rest x).length ≤ room ∧ w.kind ≠ .cycleEnd) ↔ (whole && decide (w.kind ≠ .cycleEnd)) = true := by
          rw [Bool.and_eq_true, decide_eq_true_eq, decide_eq_true_eq]
        have hv : State.setLink k (l.served w out whole left crc)
            { s with carousel := { s.carousel with pointer := k } } = v := by
          rw [hserved]
          rfl
        refine congrArg _ (hserve.trans (congrArg (tryBegin k) (if_congr hboundary ?_ ?_)))
        · exact congrArg (frameBoundary k) hv
        · exact hv
      · exact ⟨_, rfl, serveLink_unreadable (s := { s with carousel := { s.carousel with pointer := k } })
          hw hps hc hd hf hu hloc hfatal hi hs⟩
  · intro l composed
    refine ⟨fun hc => frameBoundary_none hc, fun b hc => ?_⟩
    intro sendable
    have hsend : (u.recOf b).sendable = true ↔ sendable := sendable_iff _
    refine ⟨releaseReader b u, releaseReader_released u b, fun h => ?_, fun h => ?_⟩
    · rw [frameBoundary_some hc, if_neg (mt hsend.mp h)]
    · rw [frameBoundary_some hc, if_pos (hsend.mpr h)]
      rfl
  · rcases beginFrame_begins hn hw with ⟨body, hbody, rfl⟩ | ⟨hend, spec, rest, htodo, hrest, rfl⟩
    · refine ⟨rfl, rfl, rfl, rfl, fun body' h => ⟨rfl, ?_⟩, fun h => absurd (hbody.symm.trans h) (Option.some_ne_none _)⟩
      rw [hbody] at h
      rw [wholePieces_rest, Option.some.inj h]
      rfl
    · obtain ⟨hlast, h1, h2, h3, hkind⟩ := wipOf_ends l x spec
      refine ⟨h1, h2, h3, hlast, fun body h => absurd (h.symm.trans hend) (Option.some_ne_none _), fun _ spec' rest' h => ?_⟩
      obtain ⟨rfl, rfl⟩ := List.cons.inj (htodo.symm.trans h)
      refine ⟨hrest, hkind, fun h => ?_, fun y hy => ?_⟩
      · subst h
        exact wholePieces_rest _ _ _ _
      · subst hy
        intro t entry zz values fare
        refine ⟨fun h hs => ?_, fun hs => ?_, fun i hs => ?_, fun i hs => ?_, fun shelf i hs => ?_⟩
        · rw [hs]; exact directory_rest h
        · rw [hs]; exact classes_rest
        · rw [hs]; exact matrix_rest i
        · rw [hs]; exact products_rest i
        · rw [hs]; exact shelf_rest shelf i

end Sys2Proof.Machine
end

section
/-!
PROOFS. The eviction order (R41), what eviction and pruning leave of a table (R42, R45), and the canonical shape of a part of a
table (R27).
-/

namespace Sys2Proof.Machine

/-! ### The eviction order (R41) -/

/-- An expiry as a number, an absent one above every day (R41). -/
def expiryRank : Option Half → Nat
  | some d => d.toNat
  | none => 65536

theorem expiryRank_inj {x y : Option Half} : expiryRank x = expiryRank y ↔ x = y := by
  cases x with
  | none =>
    cases y with
    | none => simp
    | some e => simp only [expiryRank, reduceCtorEq, iff_false]; omega
  | some d =>
    cases y with
    | none => simp only [expiryRank, reduceCtorEq, iff_false]; omega
    | some e => simp only [expiryRank, Option.some.injEq, BitVec.toNat_inj]

theorem expiresEarlier_iff (x y : Option Half) : expiresEarlier x y = true ↔ expiryRank x < expiryRank y := by
  cases x with
  | none =>
    cases y with
    | none => simp [expiresEarlier, expiryRank]
    | some e => simp only [expiresEarlier, expiryRank, Bool.false_eq_true, false_iff]; omega
  | some d =>
    cases y with
    | none => simp only [expiresEarlier, expiryRank, true_iff]; omega
    | some e => simp [expiresEarlier, expiryRank, BitVec.lt_def]

theorem expiryRank_lt {x y : Option Half} :
    expiryRank x < expiryRank y ↔ ∃ d, x = some d ∧ (y = none ∨ ∃ e, y = some e ∧ d < e) := by
  rw [← expiresEarlier_iff]
  rcases x with _ | d <;> rcases y with _ | e <;> simp [expiresEarlier]

/-- The three tests of R41 as comparisons of numbers. -/
theorem evictsBefore_iff (x y : RangeRec) :
    evictsBefore x y = true ↔
      x.priority.toNat < y.priority.toNat ∨ x.priority.toNat = y.priority.toNat ∧
        (expiryRank x.expiry < expiryRank y.expiry ∨
          expiryRank x.expiry = expiryRank y.expiry ∧ y.first.toNat < x.first.toNat) := by
  unfold evictsBefore
  split
  · next hp =>
    rw [decide_eq_true_eq, BitVec.lt_def]
    have := mt BitVec.eq_of_toNat_eq hp
    omega
  · next hp =>
    have hp : x.priority.toNat = y.priority.toNat := by rw [Decidable.not_not.mp hp]
    split
    · next he =>
      rw [expiresEarlier_iff]
      have := mt expiryRank_inj.mp he
      omega
    · next he =>
      rw [decide_eq_true_eq, BitVec.lt_def, Decidable.not_not.mp he]
      omega

theorem evictsBefore_trans {x y z : RangeRec} (hxy : evictsBefore x y = true) (hyz : evictsBefore y z = true) :
    evictsBefore x z = true := by
  rw [evictsBefore_iff] at *
  omega

theorem evictsBefore_total {x y : RangeRec} (h : x.first ≠ y.first) : evictsBefore x y = true ↔ evictsBefore y x = false := by
  have := mt BitVec.eq_of_toNat_eq h
  rw [← Bool.not_eq_true, evictsBefore_iff, evictsBefore_iff]
  omega

theorem evictionChoice_none {rs : List RangeRec} : evictionChoice rs = none ↔ rs = [] := by
  cases rs with
  | nil => simp [evictionChoice]
  | cons r rs =>
    simp only [evictionChoice, reduceCtorEq, iff_false]
    repeat' split
    all_goals simp

theorem evictionChoice_mem {rs : List RangeRec} {v : RangeRec} (h : evictionChoice rs = some v) : v ∈ rs := by
  induction rs generalizing v with
  | nil => cases h
  | cons r rs ih =>
    unfold evictionChoice at h
    split at h
    · cases h; exact List.mem_cons_self
    · next b hb =>
      split at h
      · cases h; exact List.mem_cons_self
      · cases h; exact List.mem_cons_of_mem _ (ih hb)

/-- The choice comes before every other record (R41, R42). -/
theorem evictionChoice_first {rs : List RangeRec} {v : RangeRec} (hd : rs.Pairwise fun x y => x.first ≠ y.first)
    (h : evictionChoice rs = some v) : ∀ y ∈ rs, y ≠ v → evictsBefore v y = true := by
  induction rs generalizing v with
  | nil => cases h
  | cons r rs ih =>
    obtain ⟨hr, hd⟩ := List.pairwise_cons.mp hd
    unfold evictionChoice at h
    split at h
    · next hn =>
      cases h
      rw [evictionChoice_none.mp hn]
      simp
    · next b hb =>
      have hfirst := ih hd hb
      split at h
      · next hrb =>
        cases h
        intro y hy hne
        have hy := (List.mem_cons.mp hy).resolve_left hne
        by_cases hyb : y = b
        · rwa [hyb]
        · exact evictsBefore_trans hrb (hfirst y hy hyb)
      · next hrb =>
        cases h
        intro y hy hne
        rcases List.mem_cons.mp hy with rfl | hy
        · exact (evictsBefore_total (hr v (evictionChoice_mem hb)).symm).mpr (by simpa using hrb)
        · exact hfirst y hy hne

/-- Settles O23: the three tests are comparisons of numbers, and the choice is kept from the end of the list on. -/
theorem evictionOrderIsTotal : Obligations.EvictionOrderIsTotal := by
  refine ⟨fun x y => ?_, fun x y => evictsBefore_total, fun rs hne hd => ?_⟩
  · rw [evictsBefore_iff, BitVec.lt_def, BitVec.lt_def, BitVec.toNat_inj, expiryRank_inj, expiryRank_lt]
  · obtain ⟨v, hv⟩ := Option.ne_none_iff_exists'.mp (mt evictionChoice_none.mp hne)
    exact ⟨v, evictionChoice_mem hv, hv, evictionChoice_first hd hv⟩

/-! ### Eviction and pruning take records away (R42, R45) -/

theorem evictOne_sublist (rs : List RangeRec) : (evictOne rs).Sublist rs := by
  unfold evictOne
  split
  · exact List.Sublist.refl _
  · exact List.erase_sublist

theorem evictOne_length (rs : List RangeRec) : (evictOne rs).length = rs.length - 1 := by
  unfold evictOne
  split
  · next h => rw [evictionChoice_none.mp h]; rfl
  · next v h => exact List.length_erase_of_mem (evictionChoice_mem h)

theorem evictions_sublist_length (n : Nat) (rs : List RangeRec) :
    (Nat.repeat evictOne n rs).Sublist rs ∧ (Nat.repeat evictOne n rs).length = rs.length - n := by
  induction n with
  | zero => exact ⟨List.Sublist.refl _, rfl⟩
  | succ n ih => exact ⟨(evictOne_sublist _).trans ih.1, by rw [Nat.repeat, evictOne_length, ih.2]; omega⟩

theorem evict_sublist (rs : List RangeRec) : (evict rs).Sublist rs := (evictions_sublist_length _ rs).1

theorem evict_length_le (rs : List RangeRec) : (evict rs).length ≤ 16384 := by
  have := (evictions_sublist_length (rs.length - Config.rangeCapacity) rs).2
  rw [evict, this, Config.rangeCapacity]
  omega

theorem pruneFirst_sublist (day : Half) (n : Nat) (rs : List RangeRec) : (pruneFirst day n rs).Sublist rs := by
  induction rs generalizing n with
  | nil => exact List.Sublist.refl _
  | cons r rs ih =>
    unfold pruneFirst
    split
    · cases n with
      | zero => exact List.Sublist.refl _
      | succ n => exact (ih n).cons r
    · exact (ih n).cons_cons r

/-! ### Parts of a canonical table (R27) -/

theorem canonical_nil : canonical [] := ⟨by simp, .nil, .nil⟩

theorem canonical_sublist {xs ys : List RangeRec} (h : xs.Sublist ys) (hy : canonical ys) : canonical xs :=
  ⟨fun r hr => hy.1 r (h.subset hr), hy.2.1.sublist h, hy.2.2.sublist h⟩

theorem canonical_cons {r : RangeRec} {rs : List RangeRec} :
    canonical (r :: rs) ↔ r.wf ∧ (∀ x ∈ rs, r.last < x.first ∧ r.joins x = false) ∧ canonical rs := by
  simp only [canonical, List.forall_mem_cons, List.pairwise_cons]
  constructor
  · rintro ⟨⟨hr, hrs⟩, ⟨hlt, hp⟩, hj, hq⟩
    exact ⟨hr, fun x hx => ⟨hlt x hx, hj x hx⟩, hrs, hp, hq⟩
  · rintro ⟨hr, h, hrs, hp, hq⟩
    exact ⟨⟨hr, hrs⟩, ⟨fun x hx => (h x hx).1, hp⟩, fun x hx => (h x hx).2, hq⟩

end Sys2Proof.Machine
end

section
/-!
PROOFS. What the laws of O57 ask of a state (`Ranged`), and the steps that keep them with all that the laws of O58 rest on
(`Steady`): plain updates of the parts of a state.
-/

namespace Sys2Proof.Machine

/-! ### Values within their ranges -/

/-- What the laws of O57 ask of a link (R87, R88, R98, R106, R113, R121). -/
structure Link.Ranged (l : Link) : Prop where
  settings : l.settings.inRange
  divider : 1 ≤ l.divider ∧ l.divider ≤ 8
  threshold : 64 ≤ l.threshold ∧ l.threshold ≤ 960
  interleave : l.interleave ≤ l.settings.interleave
  refresh : l.refresh < l.settings.refresh
  txFill : l.txFill ≤ 1024
  rxFill : l.rxFill ≤ 256

/-- What these laws see of a link. -/
def Link.measures (l : Link) : Settings × Nat × Nat × Nat × Nat × Nat × Nat :=
  (l.settings, l.divider, l.threshold, l.interleave, l.refresh, l.txFill, l.rxFill)

theorem Link.Ranged.of_measures {l m : Link} (h : l.Ranged) (e : m.measures = l.measures) : m.Ranged := by
  simp only [Link.measures, Prod.mk.injEq] at e
  obtain ⟨h1, h2, h3, h4, h5, h6, h7⟩ := e
  exact ⟨h1 ▸ h.settings, h2 ▸ h.divider, h3 ▸ h.threshold, h4 ▸ h1 ▸ h.interleave, h5 ▸ h1 ▸ h.refresh, h6 ▸ h.txFill,
    h7 ▸ h.rxFill⟩

/-- The limits of R145 and R155. -/
def State.limited (s : State) : Prop :=
  100 ≤ s.table.silenceLimit ∧ s.table.silenceLimit ≤ 65535 ∧ 1 ≤ s.table.mismatchLimit ∧ s.table.mismatchLimit ≤ 15 ∧
    1 ≤ s.cutover.waitLimit ∧ s.cutover.waitLimit ≤ 240 ∧ s.cutover.grace ≤ 600

/-- The laws of O57. -/
structure Ranged (s : State) : Prop where
  directory : ∀ b, (s.bank b).ranges = RangeRegion.ofRecords (s.bank b).ranges.records
  errors : errorsLaw s
  clock : clockLaw s
  flags : flagsLaw s
  settings : s.carousel.settings.inRange
  limits : s.limited
  links : ∀ k, (s.link k).Ranged

theorem ranged_iff (s : State) :
    Ranged s ↔ directoryLaw s ∧ errorsLaw s ∧ clockLaw s ∧ flagsLaw s ∧ settingsLaw s ∧ fifoLaw s := by
  constructor
  · rintro ⟨hd, he, hc, hf, hs, ⟨h1, h2, h3, h4, h5, h6, h7⟩, hl⟩
    refine ⟨⟨hd _, hd _⟩, he, hc, hf, ⟨hs, h1, h2, h3, h4, h5, h6, h7, fun k => ?_⟩, fun k => ⟨(hl k).txFill, (hl k).rxFill⟩⟩
    obtain ⟨hset, hdiv, hth, hil, hrf, -, -⟩ := hl k
    exact ⟨hset, hdiv.1, hdiv.2, hth.1, hth.2, hil, hrf⟩
  · rintro ⟨⟨ha, hb⟩, he, hc, hf, ⟨hs, h1, h2, h3, h4, h5, h6, h7, hl⟩, hq⟩
    refine ⟨fun b => by cases b <;> assumption, he, hc, hf, hs, ⟨h1, h2, h3, h4, h5, h6, h7⟩, fun k => ?_⟩
    obtain ⟨hset, hd1, hd2, ht1, ht2, hil, hrf⟩ := hl k
    exact ⟨hset, ⟨hd1, hd2⟩, ⟨ht1, ht2⟩, hil, hrf, (hq k).1, (hq k).2⟩

/-- What the laws of O57 see of a state. -/
def State.measures (s : State) : Banks × List Upset × Clock × (FlagSet × FlagSet) × Settings × (Nat × Nat × Nat × Nat) × PerLink Link :=
  (s.banks, s.upsets, s.clock, (s.events.flags, s.events.masks), s.carousel.settings,
    (s.table.silenceLimit, s.table.mismatchLimit, s.cutover.waitLimit, s.cutover.grace), s.links)

theorem Ranged.of_measures {s t : State} (h : Ranged s) (e : t.measures = s.measures) : Ranged t := by
  simp only [State.measures, Prod.mk.injEq] at e
  obtain ⟨hb, hu, hc, ⟨hf, hm⟩, hs, ⟨h1, h2, h3, h4⟩, hl⟩ := e
  obtain ⟨gd, ge, gc, gf, gs, gl, gk⟩ := h
  constructor
  · simpa only [State.bank, hb] using gd
  · simpa only [errorsLaw, hu] using ge
  · simpa only [clockLaw, hc] using gc
  · simpa only [flagsLaw, hf, hm] using gf
  · rwa [hs]
  · simpa only [State.limited, h1, h2, h3, h4] using gl
  · simpa only [State.link, hl] using gk

theorem Ranged.set_bank {s : State} {b : BankId} {x : Bank} (h : Ranged s) (hx : x.ranges = RangeRegion.ofRecords x.ranges.records) :
    Ranged (s.setBank b x) := by
  refine ⟨fun c => ?_, h.errors, h.clock, h.flags, h.settings, h.limits, h.links⟩
  rw [State.bank_setBank]
  split
  · exact hx
  · exact h.directory c

theorem Ranged.set_record {s : State} {b : BankId} {r : BankRecord} (h : Ranged s) : Ranged (s.setRec b r) :=
  h.set_bank (h.directory b)

theorem Ranged.set_link {s : State} {k : LinkId} {l : Link} (h : Ranged s) (hl : (s.link k).Ranged → l.Ranged) :
    Ranged (s.setLink k l) := by
  refine ⟨h.directory, h.errors, h.clock, h.flags, h.settings, h.limits, fun j => ?_⟩
  rw [State.link_setLink]
  split
  · exact hl (h.links k)
  · exact h.links j

theorem Ranged.refreshed {s : State} {w : WordLoc → Bool} (h : Ranged s) : Ranged (s.refresh w) :=
  ⟨h.directory, refresh_wf w s h.errors, h.clock, h.flags, h.settings, h.limits, h.links⟩

/-- An event sets no flag above number 18 (R187). -/
theorem Events.raise_flags_lt {u : Events} (e : Event) (h : u.flags.toNat < 2 ^ 19) : (u.raise e).flags.toNat < 2 ^ 19 := by
  have hbit : e.bit.toNat < 2 ^ 19 := by cases e <;> decide
  exact Nat.or_lt_two_pow h hbit

theorem Ranged.raise {s : State} {e : Event} (h : Ranged s) : Ranged (State.raise e s) :=
  ⟨h.directory, h.errors, h.clock, ⟨Events.raise_flags_lt e h.flags.1, h.flags.2⟩, h.settings, h.limits, h.links⟩

theorem Events.joinSet_flags (e : Event) (k : LinkId) (u : Events) :
    (u.joinSet e k).flags = u.flags ∧ (u.joinSet e k).masks = u.masks := by cases e <;> exact ⟨rfl, rfl⟩

theorem Ranged.raise_link {s : State} {e : Event} {k : LinkId} (h : Ranged s) : Ranged (State.raiseLink e k s) := by
  obtain ⟨hf, hm⟩ := Events.joinSet_flags e k (s.events.raise e)
  refine (h.raise (e := e)).of_measures ?_
  unfold State.measures State.raiseLink State.raise
  rw [hf, hm]

/-! ### Steps that keep what the laws rest on -/

/-- What a package's checks see of the bank they were made against (R32 to R34, R36). -/
def Bank.checked (x : Bank) : BlockStatus × Word32 × List RangeRec :=
  (x.record.blockStatus, x.record.blockVersion, x.ranges.records)

/-- From `s` to `t` the laws of O57 are kept, the loader and what a package's checks saw of a BUILDING bank stay, no bank joins
the build side, and tables stay canonical. -/
structure Steady (s t : State) : Prop where
  ranged : Ranged s → Ranged t
  loader : t.loader = s.loader
  built : ∀ b, (s.recOf b).state = .building → (t.recOf b).state = .building ∧ (t.bank b).checked = (s.bank b).checked
  side : ∀ b, (t.recOf b).state.buildSide = true → (s.recOf b).state.buildSide = true
  tables : tablesLaw s → tablesLaw t

theorem Steady.refl (s : State) : Steady s s := ⟨id, rfl, fun _ h => ⟨h, rfl⟩, fun _ => id, id⟩

theorem Steady.trans {s t u : State} (h : Steady s t) (g : Steady t u) : Steady s u :=
  ⟨g.ranged ∘ h.ranged, g.loader.trans h.loader,
    fun b hb => ⟨(g.built b (h.built b hb).1).1, (g.built b (h.built b hb).1).2.trans (h.built b hb).2⟩,
    fun b => h.side b ∘ g.side b, g.tables ∘ h.tables⟩

/-- A change that leaves the banks and the loader alone. -/
theorem Steady.beside {s t u : State} (h : Steady s t) (hb : u.banks = t.banks) (hd : u.loader = t.loader)
    (hr : Ranged t → Ranged u) : Steady s u := by
  have bank : ∀ b, u.bank b = t.bank b := fun b => by rw [State.bank, State.bank, hb]
  have record : ∀ b, u.recOf b = t.recOf b := fun b => congrArg Bank.record (bank b)
  refine h.trans ⟨hr, hd, fun b => ?_, fun b => ?_, fun ht b => ?_⟩
  · rw [record, bank]; exact fun hs => ⟨hs, rfl⟩
  · rw [record]; exact id
  · rw [bank]; exact ht b

/-- A change in parts that the laws do not see. -/
theorem Steady.unseen {s t u : State} (h : Steady s t) (e : (u.measures, u.loader) = (t.measures, t.loader)) : Steady s u := by
  obtain ⟨e, hd⟩ := Prod.mk.inj e
  exact h.beside (congrArg Prod.fst e) hd fun hr => hr.of_measures e

theorem Steady.raise {s t : State} {e : Event} (h : Steady s t) : Steady s (State.raise e t) := h.beside rfl rfl Ranged.raise

theorem Steady.raise_link {s t : State} {e : Event} {k : LinkId} (h : Steady s t) : Steady s (State.raiseLink e k t) :=
  h.beside rfl rfl Ranged.raise_link

theorem Steady.refreshed {s t : State} {w : WordLoc → Bool} (h : Steady s t) : Steady s (t.refresh w) :=
  h.beside rfl rfl Ranged.refreshed

theorem Steady.set_link {s t : State} {k : LinkId} {l : Link} (h : Steady s t) (hl : (t.link k).Ranged → l.Ranged) :
    Steady s (t.setLink k l) :=
  h.beside rfl rfl fun hr => hr.set_link hl

/-- A link whose settings, counts and FIFO fills stay. -/
theorem Steady.touch_link {s t : State} {k : LinkId} {l : Link} (h : Steady s t) (e : l.measures = (t.link k).measures) :
    Steady s (t.setLink k l) :=
  h.set_link fun hl => hl.of_measures e

theorem Steady.map_links {s t : State} {f : Link → Link} (h : Steady s t) (hf : ∀ l : Link, l.Ranged → (f l).Ranged) :
    Steady s (mapLinks f t) := by
  refine h.beside rfl rfl fun hr => ⟨hr.directory, hr.errors, hr.clock, hr.flags, hr.settings, hr.limits, fun k => ?_⟩
  rw [State.link_mapLinks]
  exact hf _ (hr.links k)

theorem tablesLaw_setBank {s : State} {b : BankId} {x : Bank} (h : tablesLaw s)
    (hx : canonical x.ranges.records ∧ x.ranges.records.length ≤ 16384) : tablesLaw (s.setBank b x) := by
  intro c
  rw [State.bank_setBank]
  split
  · exact hx
  · exact h c

/-- A bank replaced, which was not BUILDING. -/
theorem Steady.set_bank {s t : State} {b : BankId} {x : Bank} (h : Steady s t) (hb : (t.recOf b).state ≠ .building)
    (hside : x.record.state.buildSide = true → (t.recOf b).state.buildSide = true)
    (hr : Ranged t → x.ranges = RangeRegion.ofRecords x.ranges.records)
    (ht : tablesLaw t → canonical x.ranges.records ∧ x.ranges.records.length ≤ 16384) : Steady s (t.setBank b x) := by
  refine h.trans ⟨fun h => h.set_bank (hr h), rfl, fun c hc => ?_, fun c => ?_, fun h => tablesLaw_setBank h (ht h)⟩
  · have hne : c ≠ b := fun e => hb (e ▸ hc)
    rw [State.recOf_setBank, State.bank_setBank, if_neg hne, if_neg hne]
    exact ⟨hc, rfl⟩
  · rw [State.recOf_setBank]
    split
    · next e => rw [e]; exact hside
    · exact id

/-- A bank record replaced, which was not BUILDING. -/
theorem Steady.set_record {s t : State} {b : BankId} {r : BankRecord} (h : Steady s t) (hb : (t.recOf b).state ≠ .building)
    (hside : r.state.buildSide = true → (t.recOf b).state.buildSide = true) : Steady s (t.setRec b r) :=
  h.set_bank hb hside (fun hr => hr.directory b) fun ht => ht b

/-- A bank record's state and blocklist (R1, R30). -/
def BankRecord.held (r : BankRecord) : BankState × BlockStatus × Word32 := (r.state, r.blockStatus, r.blockVersion)

/-- A bank record replaced by one with the same state and blocklist. -/
theorem Steady.touch_record {s t : State} {b : BankId} {r : BankRecord} (h : Steady s t) (e : r.held = (t.recOf b).held) :
    Steady s (t.setRec b r) := by
  simp only [BankRecord.held, Prod.mk.injEq] at e
  obtain ⟨hs, hb, hv⟩ := e
  refine h.trans ⟨fun hr => hr.set_record, rfl, fun c hc => ?_, fun c => ?_, fun ht => tablesLaw_setBank ht (ht b)⟩
  · by_cases e : c = b
    · subst e
      refine ⟨?_, ?_⟩
      · rw [State.recOf_setRec_same, hs]; exact hc
      · rw [State.setRec, State.bank_setBank_same]
        simp only [Bank.checked, hb, hv]
        rfl
    · rw [State.recOf_setRec, State.setRec, State.bank_setBank, if_neg e, if_neg e]
      exact ⟨hc, rfl⟩
  · rw [State.recOf_setRec]
    split
    · next e => rw [e, hs]; exact id
    · exact id

end Sys2Proof.Machine
end

section
/-!
PROOFS. The shared operations are `Steady`: builds and drains, cuts, readiness, cutovers and withdrawals, marks and reads, copies,
closing runs.
-/

namespace Sys2Proof.Machine

variable {s t : State}

/-! ### Builds, readers and drains (R4 to R8) -/

theorem begun_tables {b : BankId} {o : BuildOption} :
    (Ranged t → Ranged (beginBuild b o t)) ∧ (tablesLaw t → tablesLaw (beginBuild b o t)) := by
  cases o with
  | empty =>
    refine ⟨fun h => ((h.set_record.set_bank ?_).refreshed).raise, fun h => tablesLaw_setBank (tablesLaw_setBank h (h b)) ?_⟩
    · exact ofRecords_nil.symm
    · exact ⟨canonical_nil, Nat.zero_le _⟩
  | fromInForce => exact ⟨fun h => (h.set_record (b := b)).of_measures rfl, fun h => tablesLaw_setBank h (h b)⟩

theorem Steady.begin_build {b : BankId} {o : BuildOption} (h : Steady s t) (hb : (t.recOf b).state ≠ .building)
    (hside : (t.recOf b).state.buildSide = true) : Steady s (beginBuild b o t) := by
  have other : ∀ c, c ≠ b → (beginBuild b o t).bank c = t.bank c := fun c hc => by
    have set : ∀ x u, (State.setBank b x u).bank c = u.bank c := fun x u => (State.bank_setBank b c x u).trans (if_neg hc)
    cases o with
    | empty => exact (set _ _).trans (set _ _)
    | fromInForce => exact set _ _
  refine h.trans ⟨begun_tables.1, by simp, fun c hc => ?_, fun c hc => ?_, begun_tables.2⟩
  · have := other c fun e => hb (e ▸ hc)
    rw [State.recOf, this]
    exact ⟨hc, rfl⟩
  · by_cases e : c = b
    · rw [e]; exact hside
    · rwa [State.recOf, other c e] at hc

theorem Steady.empty_bank {b : BankId} (h : Steady s t) (hb : (t.recOf b).state ≠ .building) : Steady s (emptyBank b t) :=
  (h.set_record (b := b) (r := BankRecord.reset) hb nofun).unseen (by rfl)

theorem Steady.drain_done {b : BankId} (h : Steady s t) (hd : (t.recOf b).state = .draining) : Steady s (drainDone b t) := by
  have hb : (t.recOf b).state ≠ .building := by rw [hd]; decide
  have hside : (t.recOf b).state.buildSide = true := by rw [hd]; rfl
  unfold drainDone
  repeat' split
  · exact (h.empty_bank hb).raise
  all_goals exact h.begin_build hb hside

theorem Steady.release {b : BankId} (h : Steady s t) : Steady s (releaseReader b t) := by
  have h1 : Steady s (t.setRec b { t.recOf b with readers := (t.recOf b).readers - 1 }) := h.touch_record (by rfl)
  unfold releaseReader
  dsimp only
  split
  · next hd => exact h1.drain_done hd.1
  · exact h1

/-! ### Cuts (R101, R102) -/

theorem Steady.take_cut {k : LinkId} (h : Steady s t) : Steady s (takeCut k t) := by
  unfold takeCut
  dsimp only
  split
  · exact h
  · exact (h.touch_link (by rfl)).release

theorem Steady.compose_end {k : LinkId} (h : Steady s t) : Steady s (composeEnd k t) := by
  unfold composeEnd
  dsimp only
  split
  · exact h.touch_link (by rfl)
  · exact (h.touch_link (by rfl)).release

theorem Steady.cut_cycles {b : BankId} (h : Steady s t) : Steady s (cutCyclesOf b t) := by
  unfold cutCyclesOf
  refine foldl_invariant (Steady s) _ (fun u k hu => ?_) _ _ h
  split
  · exact hu.take_cut
  · exact hu

/-! ### Readiness, cutovers and withdrawals (R146, R160 to R166, R19) -/

theorem Steady.eval_ready (h : Steady s t) : Steady s (evalReady t) := by
  unfold evalReady
  split
  · exact (h.unseen (u := { t with table := { t.table with allReady := true } }) (by rfl)).raise
  · exact h.unseen (by rfl)

theorem Steady.promoted {p : BankId} (h : Steady s t) (hp : (t.recOf p).state = .pending) : Steady s (promote p t) := by
  rw [promote_eq hp]
  have hnew : (t.recOf p).state ≠ .building := by rw [hp]; decide
  split
  · next hf =>
    refine (h.set_record (b := other p) (r := { t.recOf (other p) with state := .stale }) ?_ nofun).set_record ?_ nofun
    · rw [hf]; decide
    · rw [State.recOf_setRec, if_neg (ne_other p)]; exact hnew
  · exact h.set_record hnew nofun

theorem Link.Ranged.counts_zero {l : Link} (h : l.Ranged) : Link.Ranged { l with interleave := 0, refresh := 0 } :=
  ⟨h.settings, h.divider, h.threshold, Nat.zero_le _, h.settings.2.1, h.txFill, h.rxFill⟩

theorem Steady.perform_cutover {cause : Option Cause} {cutEnd : CutEnd} (h : Steady s t) :
    Steady s (performCutover cause cutEnd t) := by
  unfold performCutover
  split
  · exact h
  · next p hp =>
    have entries : Steady s (mapEntries Entry.atCutover (promote p t)) := (h.promoted (findBank_some hp)).unseen (by rfl)
    have counts := entries.map_links fun _ => Link.Ranged.counts_zero
    dsimp only
    split
    · exact ((counts.unseen (by rfl)).raise.eval_ready).cut_cycles
    · exact (counts.unseen (by rfl)).raise.eval_ready

theorem Steady.take_trigger {cause : Cause} (h : Steady s t) : Steady s (takeTrigger cause t) := by
  unfold takeTrigger
  repeat' split
  · exact h.perform_cutover
  · exact h.unseen (by rfl)
  · exact h.perform_cutover

theorem Steady.tell_ready (h : Steady s t) : Steady s (tellReady t) := by
  unfold tellReady
  split
  · exact h.take_trigger
  · exact h

theorem Steady.reevaluated (h : Steady s t) : Steady s (reevaluate t) := by
  unfold reevaluate
  split
  · exact h.eval_ready.tell_ready
  · exact h.eval_ready

theorem Steady.examine_at (h : Steady s t) : Steady s (examineAt t) := by
  unfold examineAt
  split
  · exact h.take_trigger
  · exact h

theorem Steady.withdraw_bank {b : BankId} (h : Steady s t) (hb : (t.recOf b).state = .pending) : Steady s (withdrawBank b t) := by
  have stale : Steady s (t.setRec b { t.recOf b with state := .stale }) := h.set_record (by rw [hb]; decide) nofun
  unfold withdrawBank
  exact ((stale.unseen (u := mapEntries _ { t.setRec b _ with cutover := (t.setRec b _).cutover.toIdle }) (by rfl)).eval_ready.raise).cut_cycles

/-! ### Closing runs (R11 to R16) -/

/-- A closing run touches a table only by pruning it (R45). -/
theorem closeWorkAt_ranges (pt : ClosePoint) (day : Option Half) (f : Option BankRecord) (x : Bank) :
    (closeWorkAt pt day f x).bank.ranges = x.ranges ∨
      ∃ rs, rs.Sublist x.ranges.records ∧ (closeWorkAt pt day f x).bank.ranges = RangeRegion.ofRecords rs := by
  have prune : ∀ n, (prunePart day n x).bank.ranges = x.ranges ∨
      ∃ rs, rs.Sublist x.ranges.records ∧ (prunePart day n x).bank.ranges = RangeRegion.ofRecords rs := fun n => by
    unfold prunePart
    split
    · exact .inl rfl
    · exact .inr ⟨_, pruneFirst_sublist _ _ _, rfl⟩
  have expandPart_ranges : ∀ n w, (expandPart n w).bank.ranges = w.bank.ranges := fun n w => by unfold expandPart; split <;> rfl
  have expandStep_ranges : ∀ w, (expandStep w).bank.ranges = w.bank.ranges := fun w => by unfold expandStep; split <;> rfl
  cases pt with
  | prune n => exact prune n
  | expand n => rw [closeWorkAt, expandPart_ranges]; exact prune _
  | checksum | checksummed | compared | sequenced =>
    simp only [closeWorkAt, checksumPart, checksumStep, compareStep, expandStep_ranges]
    exact prune _

/-- The bank that a closing run leaves, whatever becomes of its record. -/
theorem Steady.closing_bank {b : BankId} {pt : ClosePoint} {day : Option Half} {f : Option BankRecord} {r : BankRecord}
    {tariff : Tariff} (h : Steady s t) (hb : (t.recOf b).state = .closing) :
    Steady s (t.setBank b ⟨r, tariff, (closeWorkAt pt day f (t.bank b)).bank.ranges⟩) := by
  refine h.set_bank (by rw [hb]; decide) (fun _ => by rw [hb]; rfl) (fun hr => ?_) fun ht => ?_
  · rcases closeWorkAt_ranges pt day f (t.bank b) with e | ⟨rs, -, e⟩
    · rw [e]; exact hr.directory b
    · rw [e]; rfl
  · rcases closeWorkAt_ranges pt day f (t.bank b) with e | ⟨rs, hrs, e⟩
    · rw [e]; exact ht b
    · rw [e]; exact ⟨canonical_sublist hrs (ht b).1, hrs.length_le.trans (ht b).2⟩

theorem Steady.fail_close {b : BankId} {pt : ClosePoint} {found : WordLoc} (h : Steady s t) (hb : (t.recOf b).state = .closing) :
    Steady s (failClose b pt found t) := by
  unfold failClose
  exact ((h.closing_bank hb).refreshed.unseen (by rfl)).raise

theorem Steady.correct {u : Upset} (h : Steady s t) : Steady s (correctWord u t) := by
  unfold correctWord
  exact ((h.refreshed (w := fun l => decide (l = u.loc))).unseen (by rfl)).raise

theorem Steady.run_acts {b : BankId} {kept : Option WordLoc} {acts : List CloseAct} {pt : ClosePoint} (h : Steady s t) :
    Steady s (runActs b kept acts pt t).1 := by
  induction acts generalizing t pt with
  | nil => exact h
  | cons a acts ih =>
    cases a with
    | reach p => exact ih h
    | write items => exact ih h.refreshed
    | read r o =>
      unfold runActs
      split
      · exact ih h
      · split
        · exact h
        · exact ih h.correct

/-! ### Marks and reads (R22, R23, R180 to R182) -/

theorem Steady.report_uncorrectable {loc : WordLoc} {reader : Reader} (h : Steady s t) :
    Steady s (reportUncorrectable loc reader t) := by
  unfold reportUncorrectable
  exact (h.unseen (by rfl)).raise

theorem Steady.mark_region {b : BankId} {r : Region} {o : Nat} (h : Steady s t) : Steady s (markRegion b r o t) := h.touch_record (by rfl)

theorem Steady.leave_region {b : BankId} {r : Region} (h : Steady s t) : Steady s (scrubLeaves b r t) := h.unseen (by rfl)

theorem Steady.set_mark {b : BankId} {r : Region} {o : Nat} (h : Steady s t) : Steady s (setMark b r o t) := by
  have state : ((markRegion b r o t).recOf b).state = (t.recOf b).state := by simp [markRegion]
  have h1 : Steady s (markRegion b r o t) := h.mark_region
  unfold setMark
  dsimp only
  refine Steady.leave_region ?_
  split
  · refine Steady.cut_cycles ?_
    unfold failCopyFrom
    split
    · next hc => exact (h1.empty_bank (by rw [hc]; decide)).raise
    · exact h1
  · next hb => exact h1.withdraw_bank (state.trans hb)
  · next hb =>
    refine h1.run_acts.fail_close ?_
    rw [State.recOf, State.bank, runActs_banks]
    exact state.trans hb
  all_goals exact h1

theorem Steady.find_uncorrectable {loc : WordLoc} {reader : Reader} (h : Steady s t) : Steady s (uncorrectable loc reader t) := by
  unfold uncorrectable
  dsimp only
  split
  · exact h.report_uncorrectable.set_mark
  · exact h.report_uncorrectable

theorem Steady.read_hits {reader : Reader} {us : List Upset} (h : Steady s t) : Steady s (readHits reader us t).1 := by
  induction us generalizing t with
  | nil => exact h
  | cons u us ih =>
    unfold readHits
    split
    · exact h.find_uncorrectable
    · exact ih h.correct

theorem Steady.read_on {reader : Reader} {us : List Upset} (h : Steady s t) : Steady s (readOn reader us t).1 := by
  induction us generalizing t with
  | nil => exact h
  | cons u us ih =>
    unfold readOn
    split
    · exact ih h.find_uncorrectable
    · exact ih h.correct

theorem Steady.read_words {reader : Reader} {sel : WordLoc → Bool} (h : Steady s t) : Steady s (readWords reader sel t).1 :=
  h.read_hits

theorem Steady.read_items {reader : Reader} {b : BankId} {items : List Item} (h : Steady s t) :
    Steady s (readItems reader b items t).1 := h.read_hits

theorem Steady.read_buffer {lo hi : Nat} (h : Steady s t) : Steady s (readBuffer lo hi t).1 := h.read_hits

theorem Steady.read_new {lo hi : Nat} (h : Steady s t) : Steady s (readNewBytes lo hi t).1 := h.read_hits

/-- A failure found by the closing run itself (R15, R182). -/
theorem Steady.fail_own_read {b : BankId} {r : Region} {o : Nat} {pt : ClosePoint} (h : Steady s t)
    (hb : (t.recOf b).state = .closing) : Steady s (failOwnRead b r o pt t) := by
  unfold failOwnRead
  have h1 : Steady s (markRegion b r o (reportUncorrectable (.bank b r o) .close t)) := h.report_uncorrectable.mark_region
  have h2 : Steady s (failClose b (failPoint t.free pt) (.bank b r o) (markRegion b r o (reportUncorrectable (.bank b r o) .close t))) :=
    h1.fail_close (by simpa [markRegion] using hb)
  exact h2.unseen (by rfl)

/-! ### The copy (R8) -/

theorem Steady.copy_to {b f : BankId} {c : Copied} (h : Steady s t) : Steady s (copyTo b f c t).1 := by
  have h1 : Steady s (readHits .copy (copyHits f (allExtentItems (t.bank f)) t.copied (some c) t.upsets) t).1 := h.read_hits
  unfold copyTo
  dsimp only
  split
  · exact h1.refreshed.unseen (by rfl)
  · exact h1

theorem Steady.copy_on (h : Steady s t) : Steady s (copyOn t) := by
  unfold copyOn
  split
  · exact h.copy_to.unseen (by rfl)
  · exact h

end Sys2Proof.Machine
end

section
/-!
PROOFS. The commands of the links, the Lookup Engine and the Carousel Engine are `Steady`.
-/

namespace Sys2Proof.Machine

variable {s t : State}

/-! ### Transmitters and tests (R117 to R120, R129 to R131) -/

theorem begin_measures (l : Link) : l.begin.measures = l.measures := by
  unfold Link.begin
  repeat' split
  all_goals rfl

theorem Steady.try_begin {k : LinkId} (h : Steady s t) : Steady s (tryBegin k t) := by
  unfold tryBegin
  dsimp only
  split
  · exact h.touch_link (begin_measures _)
  · exact h

theorem Steady.left_cycle (h : Steady s t) : Steady s (leftCycle t) := by
  unfold leftCycle
  split
  · exact (h.unseen (u := { t with carousel := { t.carousel with state := .stopped } }) (by rfl)).raise
  · exact h

theorem Steady.transmit_boundary {k : LinkId} (h : Steady s t) : Steady s (transmitBoundary k t) := by
  unfold transmitBoundary
  dsimp only
  split
  · exact (h.touch_link (by rfl)).try_begin
  · exact h

/-- A link whose transmit FIFO has lost its first frame. -/
theorem Link.Ranged.sent {l m : Link} {f : FifoFrame} {rest : List FifoFrame} (h : l.Ranged) (hf : l.txFifo = f :: rest)
    (e : m.measures = { l with txFifo := rest }.measures) : m.Ranged := by
  refine Link.Ranged.of_measures (l := { l with txFifo := rest })
    ⟨h.settings, h.divider, h.threshold, h.interleave, h.refresh, ?_, h.rxFill⟩ e
  have := h.txFill
  simp only [Link.txFill, hf, List.map_cons, List.sum_cons] at this ⊢
  omega

theorem Steady.end_cycle {k : LinkId} (h : Steady s t) : Steady s (endCycle k t) := by
  unfold endCycle
  exact (h.touch_link (by rfl)).left_cycle

theorem Steady.carousel_sent {k : LinkId} (h : Steady s t) : Steady s (carouselSent k t) := by
  unfold carouselSent
  dsimp only
  split
  · exact h
  · next f rest hf =>
    split
    · split
      · refine Steady.end_cycle (h.set_link fun hl => ?_)
        exact hl.sent hf rfl
      · exact h.set_link fun hl => hl.sent hf rfl
    · exact h

theorem Steady.frame_transmitted {k : LinkId} (h : Steady s t) : Steady s (frameTransmitted k t) := by
  unfold frameTransmitted
  dsimp only
  split
  · split
    · exact h.touch_link (by rfl)
    · exact h.touch_link (by rfl)
    · exact h.carousel_sent
    all_goals exact h
  · exact h

theorem Steady.underrun_met {k : LinkId} (h : Steady s t) : Steady s (underrun k t) := by
  unfold underrun
  dsimp only
  split
  · next f rest _ hf =>
    split
    · refine Steady.raise_link (h.set_link fun hl => ?_)
      exact hl.sent hf rfl
    · exact h
  · exact h

theorem Steady.end_test {k : LinkId} {result : LastTest} (h : Steady s t) : Steady s (endTest k result t) := by
  unfold endTest
  exact (h.touch_link (by rfl)).raise_link

theorem Steady.test_frame_start {k : LinkId} (h : Steady s t) : Steady s (testFrameStart k t) := by
  unfold testFrameStart
  dsimp only
  split
  · exact h.touch_link (by rfl)
  · exact h

theorem Steady.test_frame_returned {k : LinkId} {bytes : List Byte} {extra : Nat} (h : Steady s t) :
    Steady s (testFrameReturned k bytes extra t) := by
  unfold testFrameReturned
  dsimp only
  split
  · split
    · split
      · split
        · exact h.end_test
        · exact h.touch_link (by rfl)
      · exact h.end_test
    · exact h
  · exact h

theorem Steady.test_no_echo {k : LinkId} (h : Steady s t) : Steady s (testNoEcho k t) := by
  unfold testNoEcho
  dsimp only
  split
  · split
    · exact h.end_test
    · exact h
  · exact h

/-! ### Configuration (R88, R112 to R115, R127) -/

theorem clamp_mem {lo hi n : Nat} (h : lo ≤ hi) : lo ≤ clamp lo hi n ∧ clamp lo hi n ≤ hi := by
  unfold clamp
  omega

theorem Steady.link_config {link divider : Byte} {threshold : Half} (h : Steady s t) :
    Steady s (linkConfig link divider threshold t).state := by
  unfold linkConfig
  split
  · exact h
  · dsimp only
    split
    · exact h
    · exact h.set_link fun hl =>
        ⟨hl.settings, clamp_mem (by decide), clamp_mem (by decide), hl.interleave, hl.refresh, hl.txFill, hl.rxFill⟩

/-- The take-up of settings in their ranges (R88). -/
theorem Link.Ranged.taken {l m : Link} {c : Settings} (h : l.Ranged) (hc : c.inRange) (e : m.measures = (l.takeUp c).measures) :
    m.Ranged :=
  Link.Ranged.of_measures (l := l.takeUp c)
    ⟨hc, h.divider, h.threshold, Nat.min_le_right _ _,
      (Nat.min_le_right _ _).trans_lt (Nat.sub_lt hc.2.1 Nat.one_pos), h.txFill, h.rxFill⟩ e

/-- A link that takes up the device's settings (R88). -/
theorem Steady.take_up {k : LinkId} {l : Link} (h : Steady s t)
    (e : l.measures = ((t.link k).takeUp t.carousel.settings).measures) : Steady s (t.setLink k l) :=
  h.beside rfl rfl fun hr => hr.set_link fun hl => hl.taken hr.settings e

theorem Steady.link_enable {link : Byte} (h : Steady s t) : Steady s (linkEnable link t).state := by
  unfold linkEnable
  split
  · exact h
  · split
    · exact h
    · exact h
    · exact h.take_up (by rfl)

theorem Link.Ranged.reset {l : Link} (h : l.Ranged) : l.afterReset.Ranged :=
  ⟨h.settings, h.divider, h.threshold, Nat.zero_le _, h.settings.2.1, Nat.zero_le _, Nat.zero_le _⟩

theorem Steady.link_reset {k : LinkId} (h : Steady s t) : Steady s (linkReset k t) := by
  have h1 : Steady s { t.setLink k (t.link k).afterReset with lookups := t.lookups.dropLink k } :=
    (h.set_link Link.Ranged.reset).unseen (by rfl)
  have entry : ∀ {u : State}, Steady s u → Steady s (reevaluate (u.setEntry k (freshEntry u (u.entry k).excluded))) := fun hu =>
    (hu.unseen (u := State.setEntry k _ _) (by rfl)).reevaluated
  unfold linkReset
  dsimp only
  refine entry (Steady.left_cycle ?_)
  split
  · exact h1.release
  · exact h1

theorem Steady.link_disable {link : Byte} (h : Steady s t) : Steady s (linkDisable link t).state := by
  unfold linkDisable
  split
  · exact h
  · split
    · exact h
    · exact h.link_reset

theorem Steady.link_test {link mode count : Byte} (h : Steady s t) : Steady s (linkTest link mode count t).state := by
  unfold linkTest
  dsimp only
  split
  · split
    · exact h
    · split
      · exact h
      · exact h.touch_link (by rfl)
  · exact h

theorem Steady.carousel_config {il rf li fg : Byte} {cg : Half} (h : Steady s t) :
    Steady s (carouselConfig il rf li fg cg t).state := by
  refine h.beside rfl rfl fun hr => ⟨hr.directory, hr.errors, hr.clock, hr.flags, ?_, hr.limits, hr.links⟩
  have hfg := fg.isLt
  have h1 := clamp_mem (lo := 0) (hi := 15) (n := il.toNat) (by decide)
  have h2 := clamp_mem (lo := 1) (hi := 255) (n := rf.toNat) (by decide)
  have h3 := clamp_mem (lo := 2) (hi := 64) (n := li.toNat) (by decide)
  have h4 := clamp_mem (lo := 0) (hi := 4095) (n := cg.toNat) (by decide)
  exact ⟨h1.2, h2.1, h2.2, h3.1, h3.2, Nat.le_of_lt_succ hfg, h4.2⟩

theorem Steady.carousel_start (h : Steady s t) : Steady s (carouselStart t).state := by
  have gap : ∀ l : Link, l.Ranged → l.enterGap.Ranged := fun l hl => by
    unfold Link.enterGap
    split
    · exact hl.of_measures rfl
    · exact hl
  unfold carouselStart
  split
  · exact h
  · exact (h.unseen (u := { t with carousel := { t.carousel with state := .running } }) (by rfl)).map_links gap

theorem Steady.carousel_stop (h : Steady s t) : Steady s (carouselStop t).state := by
  have gap : ∀ l : Link, l.Ranged → l.leaveGap.Ranged := fun l hl => by
    unfold Link.leaveGap
    split
    · exact hl.of_measures rfl
    · exact hl
  unfold carouselStop
  split
  · exact ((h.unseen (u := { t with carousel := { t.carousel with state := .stopping } }) (by rfl)).map_links gap).left_cycle
  · exact h

/-! ### Lookups (chapter 9) -/

theorem Steady.deliver_link {k : LinkId} {a : Answer} (h : Steady s t) : Steady s (deliverLink k a t) := by
  have h1 : Steady s (t.setLink k { t.link k with answers := (t.link k).answers ++ [a] }) := h.touch_link (by rfl)
  unfold deliverLink
  exact (h1.unseen (u := State.setEntry k _ _) (by rfl)).try_begin

theorem Steady.finish_lookup {v : Service} {verdict : Verdict} (h : Steady s t) : Steady s (finishLookup v verdict t) := by
  have gone : Steady s (leaveService v t) := by
    cases hb : v.bank with
    | none => rw [leaveService_none hb]; exact h.unseen (by rfl)
    | some b => rw [leaveService_some hb]; exact (h.unseen (by rfl)).release
  cases hd : v.discard with
  | true => rw [finishLookup_discarded hd]; exact gone
  | false =>
    cases hr : v.requester with
    | link k => rw [finishLookup_link hd hr]; exact gone.deliver_link
    | gateway => rw [finishLookup_gateway hd hr]; exact gone.unseen (by rfl)

theorem Steady.take_query {r : Requester} {q : Query} (h : Steady s t) : Steady s (takeQuery r q t) := by
  unfold takeQuery
  dsimp only
  split
  · exact (h.unseen (by rfl)).touch_record (by rfl)
  · exact h.unseen (by rfl)

theorem Steady.take_next {n : Nat} (h : Steady s t) : Steady s (takeNext n t) := by
  induction n generalizing t with
  | zero => exact h
  | succ n ih =>
    unfold takeNext
    split
    · exact h
    · split
      · exact h
      · dsimp only
        split
        · exact ih h.take_query.finish_lookup
        · exact h.take_query

theorem Steady.attempt_take (h : Steady s t) : Steady s (attemptTake t) := h.take_next

theorem Steady.query_met {kind : Byte} {tag : Half} {args : List Byte} (h : Steady s t) :
    Steady s (query kind tag args t).state := by
  unfold query
  split
  · exact h
  · split
    · exact h
    · exact (h.unseen (by rfl)).attempt_take

theorem Steady.lookup_complete (h : Steady s t) : Steady s (lookupComplete t) := by
  unfold lookupComplete
  split
  · exact h
  · split
    · exact h.finish_lookup.attempt_take
    · exact (lookUp_keeps (fun _ _ => Steady.read_items) h).finish_lookup.attempt_take

/-! ### Receiving (R121 to R124, R135) -/

theorem Link.Ranged.received {l m : Link} {f : RxFrame} {rest : List RxFrame} (h : l.Ranged) (hf : l.rxFifo = f :: rest)
    (e : m.measures = { l with rxFifo := rest }.measures) : m.Ranged := by
  refine Link.Ranged.of_measures (l := { l with rxFifo := rest })
    ⟨h.settings, h.divider, h.threshold, h.interleave, h.refresh, h.txFill, ?_⟩ e
  have := h.rxFill
  simp only [Link.rxFill, hf, List.map_cons, List.sum_cons] at this ⊢
  omega

theorem Steady.judge_query {k : LinkId} {kind : QueryKind} {q : Query} (h : Steady s t) : Steady s (judgeQuery k kind q t) := by
  have h1 : Steady s (t.setLink k { t.link k with slots := (t.link k).slots + 1 }) := h.touch_link (by rfl)
  unfold judgeQuery
  dsimp only
  split
  · exact (h1.unseen (by rfl)).attempt_take
  · exact (h.touch_link (by rfl)).try_begin

theorem Steady.judge_queries {k : LinkId} {n : Nat} (h : Steady s t) : Steady s (judgeQueries k n t) := by
  induction n generalizing t with
  | zero => exact h
  | succ n ih =>
    unfold judgeQueries
    dsimp only
    split
    · exact h
    · next f rest hf =>
      have h1 : Steady s (t.setLink k { t.link k with rxFifo := rest }) := h.set_link fun hl => hl.received hf rfl
      split
      · exact h
      · split
        · exact ih h1
        · exact ih h1.judge_query

/-- A good frame is no longer than the bytes it came in, which had found room (R121, R122). -/
theorem judgeFrame_fits {bytes : List Byte} {extra : Nat} {overflowed : Bool} {f : RxFrame}
    (h : judgeFrame bytes extra overflowed = .ok f) : overflowed = false ∧ f.body.length + 5 ≤ bytes.length := by
  unfold judgeFrame at h
  split at h
  · cases h
  · split at h
    · split at h
      · cases h
      · next hok =>
        dsimp only at h
        split at h
        · cases h
        · split at h
          · cases h
          · cases h
            simp only [Bool.or_eq_true, decide_eq_true_eq, not_or, Bool.not_eq_true] at hok
            obtain ⟨⟨⟨ho, -⟩, -⟩, hlen⟩ := hok
            exact ⟨ho, by rw [List.length_take]; omega⟩
    · cases h

theorem Steady.frame_received {k : LinkId} {bytes : List Byte} {extra : Nat} {dropped before : Bool} (h : Steady s t) :
    Steady s (frameReceived k bytes extra dropped before t) := by
  unfold frameReceived
  dsimp only
  split
  · split
    · refine h.set_link fun hl => ⟨hl.settings, hl.divider, hl.threshold, hl.interleave, hl.refresh, hl.txFill, ?_⟩
      exact (Nat.le_add_right _ _).trans hl.rxFill
    · next f hf =>
      obtain ⟨hroom, hbody⟩ := judgeFrame_fits hf
      refine Steady.judge_queries (h.set_link fun hl =>
        ⟨hl.settings, hl.divider, hl.threshold, hl.interleave, hl.refresh, hl.txFill, ?_⟩)
      rw [Bool.or_eq_false_iff, decide_eq_false_iff_not, Config.rxFifoBytes] at hroom
      obtain ⟨-, hroom⟩ := hroom
      rw [List.length_append] at hbody
      simp only [Link.rxFill, List.map_append, List.sum_append, List.map_cons, List.map_nil, List.sum_cons, List.sum_nil,
        List.length_nil] at hroom ⊢
      omega
  · exact h

theorem Steady.evaluate_report {k : LinkId} {r : ReportBody} (h : Steady s t) : Steady s (evaluateReport k r t) := by
  have h1 : Steady s (t.setEntry k (entryAfter (t.entry k) r t)) := h.unseen (by rfl)
  unfold evaluateReport
  dsimp only
  refine Steady.reevaluated ?_
  repeat' split
  · exact h1.raise_link.raise_link
  · exact h1.raise_link
  · exact h1.raise_link
  · exact h1

theorem Steady.report_taken {k : LinkId} (h : Steady s t) : Steady s (report k t) := by
  unfold report
  dsimp only
  split
  · exact h
  · next f rest hf =>
    have h1 : Steady s (t.setLink k { t.link k with rxFifo := rest }) := h.set_link fun hl => hl.received hf rfl
    split
    · exact h
    · split
      · exact h1.judge_queries
      · exact h1.evaluate_report.judge_queries

/-! ### A cycle start (R88, R99 to R101) -/

/-- The counts of a choice are within the link's settings (R99, R100). -/
theorem chooseCycle_counts {k : LinkId} (h : (t.link k).Ranged) :
    (chooseCycle k t).interleave ≤ (t.link k).settings.interleave ∧ (chooseCycle k t).refresh < (t.link k).settings.refresh := by
  have content : (chooseContent (t.link k) t).2 ≤ (t.link k).settings.interleave := by
    unfold chooseContent
    repeat' split
    · exact Nat.zero_le _
    · exact Nat.min_le_right _ _
    · exact Nat.min_le_right _ _
    · exact h.interleave
  have hrefresh := h.refresh
  unfold chooseCycle
  dsimp only
  repeat' split
  all_goals exact ⟨content, by dsimp only; omega⟩

/-- The choice of a settled start is one made on some state that the reads have led to (R101). -/
theorem settleChoice_chosen {Q : State → Prop} (hQ : ∀ b is u, Q u → Q (readItems .carousel b is u).1) {k : LinkId} {n : Nat}
    (h : Q t) : ∃ u, Q u ∧ (settleChoice k n t).2 = chooseCycle k u := by
  induction n generalizing t with
  | zero => exact ⟨t, h, rfl⟩
  | succ n ih =>
    unfold settleChoice
    dsimp only
    split
    · exact ⟨t, h, rfl⟩
    · split
      · exact ⟨t, h, rfl⟩
      · exact ih (hQ _ _ _ h)

theorem Steady.cycle_start {k : LinkId} (h : Steady s t) : Steady s (cycleStart k t) := by
  unfold cycleStart
  dsimp only
  split
  · next hs =>
    generalize hl : ({ (t.link k).takeUp t.carousel.settings with
      cycleCounter := ((t.link k).takeUp t.carousel.settings).cycleCounter + 1#16 } : Link) = l
    have hgap : l.phase ≠ .inCycle := by rw [← hl]; exact hs.2.1 ▸ nofun
    have reads : ∀ b is u, State.link u k = l → ((readItems .carousel b is u).1).link k = l := fun b is u hu =>
      (readHits_link fun b hb => hgap (hu ▸ hb.1)).trans hu
    have h1 : Steady s (t.setLink k l) := h.take_up (by rw [← hl]; rfl)
    have h2 : Steady s (settleChoice k 3 (t.setLink k l)).1 := settleChoice_keeps (fun _ _ _ => Steady.read_items) h1
    have hk : (settleChoice k 3 (t.setLink k l)).1.link k = l := settleChoice_keeps (Q := fun u => u.link k = l) reads (by simp)
    obtain ⟨u, hu, hc⟩ := settleChoice_chosen (k := k) (n := 3) reads (State.link_setLink_same k l t)
    generalize settleChoice k 3 (t.setLink k l) = p at h2 hk hc ⊢
    have fixed : Steady s (p.1.setLink k
        { p.1.link k with ctx := contextOf k (p.1.link k).cycleCounter p.2 p.1, interleave := p.2.interleave,
                          refresh := p.2.refresh, phase := .inCycle }) := by
      refine h2.set_link fun hr => ?_
      obtain ⟨hil, hrf⟩ := chooseCycle_counts (k := k) (t := u) (by rw [hu, ← hk]; exact hr)
      rw [← hc, hu, ← hk] at hil hrf
      exact ⟨hr.settings, hr.divider, hr.threshold, hil, hrf, hr.txFill, hr.rxFill⟩
    unfold fixCycle
    dsimp only
    split
    · exact fixed.touch_record (by rfl)
    · exact fixed
  · exact h

/-! ### A refill service (R106, R107) -/

/-- The bytes that go out of a frame are no more than there is room for (R107). -/
theorem emitPieces_room {content : Option BankId} {ps : List Piece} {e : Emit} :
    (emitPieces content ps e).out.length ≤ e.out.length + e.room := by
  induction ps generalizing e with
  | nil => exact Nat.le_add_right _ _
  | cons p ps ih =>
    by_cases hr : e.room = 0
    · rw [emitPieces_full hr, hr]; rfl
    · obtain ⟨bs, covered, e', ho, hroom, -, hp⟩ := piece_pushes content p ps e
      have hpush : (e.piece content p ps).out.length + (e.piece content p ps).room = e.out.length + e.room := by
        rw [hp, ← ho, ← hroom]
        simp only [Emit.push, List.length_append, List.length_take]
        omega
      rw [emitPieces_cons hr]
      split
      · exact ih.trans_eq hpush
      · exact (Nat.le_add_right _ _).trans_eq hpush

/-- What is written of a frame joins the transmit FIFO, unless it is discarded (R106, R109). -/
theorem storeBytes_measures (kind : FrameKind) (first whole : Bool) (out : List Byte) (l : Link) :
    ∃ n, (l.storeBytes kind first whole out).measures =
        (l.settings, l.divider, l.threshold, l.interleave, l.refresh, n, l.rxFill) ∧
      n ≤ l.txFill + if 0 < l.discard then 0 else out.length := by
  have sum : ∀ fs : List FifoFrame, ∀ f, fs.getLast? = some f →
      (fs.map fun f => f.bytes.length).sum = (fs.dropLast.map fun f => f.bytes.length).sum + f.bytes.length := by
    intro fs f hf
    conv_lhs => rw [← List.dropLast_append_getLast? f hf]
    simp
  unfold Link.storeBytes
  split
  · exact ⟨_, rfl, Nat.le_add_right _ _⟩
  · split
    · refine ⟨_, rfl, ?_⟩
      simp [Link.txFill]
    · split
      · next f hf =>
        refine ⟨_, rfl, ?_⟩
        simp only [Link.txFill, sum _ f hf, List.map_append, List.sum_append, List.map_cons, List.map_nil, List.sum_cons,
          List.sum_nil, List.length_append]
        omega
      · refine ⟨_, rfl, ?_⟩
        simp [Link.txFill]

theorem beginFrame_measures (bank : Option Bank) (l : Link) : (l.beginFrame bank).measures = l.measures := by
  unfold Link.beginFrame
  repeat' split
  all_goals rfl

theorem Steady.frame_boundary {k : LinkId} (h : Steady s t) : Steady s (frameBoundary k t) := by
  unfold frameBoundary
  dsimp only
  repeat' split
  · exact h.take_cut
  · exact h.compose_end
  · exact h
  · exact h.compose_end
  · exact h

theorem Steady.serve_link {k : LinkId} (h : Steady s t) : Steady s (serveLink k t) := by
  generalize hl : (t.link k).beginFrame ((t.link k).ctx.content.map t.bank) = l
  unfold serveLink
  dsimp only
  rw [hl]
  split
  · exact h
  · next w hw =>
    generalize hroom : (if 0 < l.discard then l.discard else Config.txFifoBytes - l.txFill) = room
    generalize he : emitPieces l.ctx.content w.pieces ⟨t.setLink k l, w.pieces, w.crc, [], room, w.unreadable⟩ = e
    have h1 : Steady s (t.setLink k l) := h.touch_link (by rw [← hl]; exact beginFrame_measures _ _)
    have h2 : Steady s e.state := by
      rw [← he]
      exact emitPieces_keeps (fun _ _ _ => Steady.read_on) (fun _ _ hx => hx.unseen (by rfl)) h1
    have hk : e.state.link k = l := by
      rw [← he]
      refine emitPieces_keeps (Q := fun u => u.link k = l) (fun b i u hu => ?_) (fun _ _ hx => hx) (by simp)
      refine (readOn_link fun b hb => ?_).trans hu
      rw [hu] at hb
      exact absurd (hb.2.2.1.symm.trans hw) nofun
    have hout : e.out.length ≤ room := by rw [← he]; exact emitPieces_room.trans_eq (Nat.zero_add _)
    have h3 : Steady s (e.state.setLink k
        (Link.storeBytes w.kind (decide (w.written = 0)) (decide (e.left = [])) e.out
          { e.state.link k with ctx := (e.state.link k).ctx.wrote w e })) := by
      refine h2.set_link fun hr => ?_
      obtain ⟨n, hm, hn⟩ := storeBytes_measures w.kind (decide (w.written = 0)) (decide (e.left = [])) e.out
        { e.state.link k with ctx := (e.state.link k).ctx.wrote w e }
      have fill : n ≤ 1024 := by
        have hf := hr.txFill
        rw [hk] at hn hf
        have hn : n ≤ l.txFill + if 0 < l.discard then 0 else e.out.length := hn
        rw [← hroom, Config.txFifoBytes] at hout
        by_cases hd : 0 < l.discard
        · rw [if_pos hd] at hn
          omega
        · rw [if_neg hd] at hn hout
          omega
      simp only [Link.measures, Prod.mk.injEq] at hm
      obtain ⟨m1, m2, m3, m4, m5, m6, m7⟩ := hm
      exact ⟨m1 ▸ hr.settings, m2 ▸ hr.divider, m3 ▸ hr.threshold, m4 ▸ m1 ▸ hr.interleave, m5 ▸ m1 ▸ hr.refresh,
        m6 ▸ fill, m7 ▸ hr.rxFill⟩
    refine Steady.try_begin ?_
    split
    · exact h3.frame_boundary
    · exact h3

/-- What has passed on a line leaves no FIFO with more than it holds (R106, R121). -/
theorem Link.Ranged.passed {l : Link} (h : l.Ranged) (taken : Nat) (bytes : List Byte) : ((l.drain taken).arrive bytes).Ranged := by
  have drained : (l.drain taken).Ranged := by
    unfold Link.drain
    split
    · next f rest hf =>
      refine ⟨h.settings, h.divider, h.threshold, h.interleave, h.refresh, ?_, h.rxFill⟩
      have := h.txFill
      simp only [Link.txFill, hf, List.map_cons, List.sum_cons, List.length_drop] at this ⊢
      omega
    · exact h
  generalize l.drain taken = m at drained ⊢
  unfold Link.arrive
  split
  · refine ⟨drained.settings, drained.divider, drained.threshold, drained.interleave, drained.refresh, drained.txFill, ?_⟩
    have := drained.rxFill
    simp only [Link.rxFill, List.length_append, List.length_take, Config.rxFifoBytes] at this ⊢
    omega
  · exact drained

theorem Steady.pass_lines {passed : List (Nat × List Byte)} (h : Steady s t) : Steady s (passLines passed t) := by
  unfold passLines
  exact foldl_invariant (Steady s) _ (fun u k hu => hu.set_link fun hl => hl.passed _ _) _ _ h

theorem Steady.refill_service {passed : List (Nat × List Byte)} (h : Steady s t) : Steady s (refillService passed t) := by
  have h1 : Steady s (passLines passed t) := h.pass_lines
  unfold refillService
  dsimp only
  generalize passLines passed t = u at h1 ⊢
  split
  · exact h1
  · exact (h1.unseen (by rfl)).serve_link

end Sys2Proof.Machine
end

section
/-!
PROOFS. The commands of Bank Control, the reads of a bank, the Validator Table, Cutover Control, the Event and Error Unit, the
scrubber and the port are `Steady`, but for those that begin or end the work on a build; what these keep too, every step keeps.
-/

namespace Sys2Proof.Machine

variable {s t : State}

/-! ### Bank Control (chapter 1) -/

theorem Steady.withdrawn (h : Steady s t) : Steady s (withdraw t).state := by
  unfold withdraw
  split
  · exact h
  · next b hb =>
    rw [answer_state]
    exact h.withdraw_bank (findBank_some hb)

theorem Steady.drain_complete (h : Steady s t) : Steady s (drainComplete t) := by
  unfold drainComplete
  split
  · next b hb =>
    split
    · exact h.drain_done (findBank_some hb)
    · exact h
  · exact h

theorem Steady.copy_complete (h : Steady s t) : Steady s (copyComplete t) := by
  unfold copyComplete
  split
  · next b f hb hf =>
    have h1 : Steady s (readHits .copy (copyHits f (allExtentItems (t.bank f)) t.copied none t.upsets) t).1 := h.read_hits
    dsimp only
    split
    · next hok =>
      have hs := congrArg Prod.fst (readHits_corrects .copy _ t ((readHits_ok .copy _ t).1 hok))
      generalize (readHits .copy (copyHits f (allExtentItems (t.bank f)) t.copied none t.upsets) t).1 = u at hs h1 ⊢
      have hb : (u.recOf b).state = .copying := by rw [hs]; exact findBank_some hb
      have h2 : Steady s (u.setBank b ⟨(u.recOf b).copiedFrom (u.bank f).record, (u.bank f).tariff, (u.bank f).ranges⟩) :=
        h1.set_bank (by rw [hb]; decide) (fun _ => by rw [hb]; rfl) (fun hr => hr.directory f) fun ht => ht f
      exact h2.refreshed.raise
    · exact h1
  · exact h

theorem Ranged.struck {us : List Upset} (h : Ranged t) : Ranged (strikeAll us t) :=
  ⟨h.directory, foldl_invariant upsetsWf _ (fun _ u => strike_wf u _) us _ h.errors, h.clock, h.flags, h.settings, h.limits, h.links⟩

theorem Steady.struck {us : List Upset} (h : Steady s t) : Steady s (strikeAll us t) := h.beside rfl rfl Ranged.struck

theorem Steady.copy_failure {r : Region} {o : Nat} (h : Steady s t) : Steady s (copyFailure r o t) := by
  unfold copyFailure
  split
  · next b f _ _ =>
    dsimp only
    split
    · split
      · exact ((h.copy_to).struck (us := [⟨.bank f r o, .double⟩])).find_uncorrectable
      · exact h.copy_to
    · exact h
  · exact h

theorem Steady.complete_close {b : BankId} (h : Steady s t) (hb : (t.recOf b).state = .closing) : Steady s (completeClose b t) := by
  have h1 : Steady s (t.setBank b ⟨{ (t.closeWork b).bank.record with state := .pending, seq := t.drawnSeq },
      (t.closeWork b).bank.tariff, (t.closeWork b).bank.ranges⟩) :=
    h.closing_bank (pt := .sequenced) hb
  unfold completeClose
  exact (h1.unseen (by rfl)).raise

theorem Steady.enter_waiting (h : Steady s t) : Steady s (enterWaiting t) := by
  have h1 : Steady s { t with cutover := { t.cutover with state := .waiting, waitTimer := 0, graceTimer := 0, cause := none } } :=
    h.unseen (by rfl)
  unfold enterWaiting
  dsimp only
  split
  · split
    · exact h1.take_trigger
    · exact h1
  · exact h1.examine_at

theorem Steady.closed (h : Steady s t) : Steady s (evalReady (mapEntries Entry.atClose t)) :=
  (h.unseen (u := mapEntries Entry.atClose t) (by rfl)).eval_ready

theorem closing_after_acts {b c : BankId} {kept : Option WordLoc} {acts : List CloseAct} {pt : ClosePoint}
    (h : (t.recOf c).state = .closing) : ((runActs b kept acts pt t).1.recOf c).state = .closing := by
  rw [State.recOf, State.bank, runActs_banks]
  exact h

theorem Steady.close_run_complete (h : Steady s t) : Steady s (closeRunComplete t) := by
  unfold closeRunComplete
  split
  · exact h
  · next b hb =>
    have h1 : Steady s (runActs b none (closeActs t.closeDay (t.bank b)) (.prune 0) t).1 := h.run_acts
    have hb1 := closing_after_acts (b := b) (kept := none) (acts := closeActs t.closeDay (t.bank b)) (pt := .prune 0) (findBank_some hb)
    generalize runActs b none (closeActs t.closeDay (t.bank b)) (.prune 0) t = run at h1 hb1 ⊢
    split
    · exact h1.fail_own_read hb1
    · exact (h1.complete_close hb1).closed.enter_waiting

theorem Steady.closing_run_failure {r : Region} {o again : Nat} (h : Steady s t) : Steady s (closingRunFailure r o again t) := by
  unfold closingRunFailure
  split
  · exact h
  · next b hb =>
    split
    · exact h
    · next acts _ =>
      have h1 : Steady s (runActs b none acts (.prune 0) t).1 := h.run_acts
      have hb1 := closing_after_acts (b := b) (kept := none) (acts := acts) (pt := .prune 0) (findBank_some hb)
      generalize runActs b none acts (.prune 0) t = run at h1 hb1 ⊢
      split
      · exact h1.fail_own_read hb1
      · exact (h1.struck (us := [⟨.bank b r o, .double⟩])).fail_own_read hb1

/-! ### The reads of a bank (R47, R67) -/

/-- An answer given after a read of items. -/
theorem Steady.answered {b : BankId} {items : List Item} {body : List Byte} {code : ResultCode} (h : Steady s t) :
    Steady s (if (readItems .gatewayRead b items t).2 = true then answer .ok body (readItems .gatewayRead b items t).1
      else refuse code (readItems .gatewayRead b items t).1).state := by
  split <;> exact h.read_items

theorem Steady.range_read {bank : Byte} {shelf index : Half} (h : Steady s t) : Steady s (rangeRead bank shelf index t).state := by
  unfold rangeRead
  repeat' split
  any_goals exact h
  exact h.answered

theorem Steady.tariff_read {bank item arg1 arg2 arg3 : Byte} (h : Steady s t) :
    Steady s (tariffRead bank item arg1 arg2 arg3 t).state := by
  have serve : ∀ b i, Steady s (serveTariffRead b i t).state := fun b i => by
    have h1 : Steady s (readItems .gatewayRead b [.dims] t).1 := h.read_items
    unfold serveTariffRead
    dsimp only
    generalize readItems .gatewayRead b [.dims] t = r at h1 ⊢
    repeat' split
    any_goals exact h1
    all_goals exact h1.read_items
  unfold tariffRead
  repeat' split
  any_goals exact h
  exact serve _ _

/-! ### The Validator Table (chapter 7) -/

theorem Steady.silence_test {k : LinkId} (h : Steady s t) : Steady s (silenceTest k t) := by
  unfold silenceTest
  dsimp only
  split
  · exact ((h.unseen (u := State.setEntry k _ t) (by rfl)).raise_link).reevaluated
  · exact h

theorem Steady.validator_silent {k : LinkId} (h : Steady s t) : Steady s (validatorSilent k t) := by
  unfold validatorSilent
  split
  · exact h.silence_test
  · exact h

theorem Steady.validator_config {limit : Half} {mismatch : Byte} (h : Steady s t) :
    Steady s (validatorConfig limit mismatch t).state := by
  unfold validatorConfig
  dsimp only
  rw [answer_state]
  refine foldl_invariant (Steady s) _ (fun u k hu => hu.silence_test) _ _ (h.beside rfl rfl fun hr => ?_)
  obtain ⟨-, -, -, -, hwait⟩ := hr.limits
  obtain ⟨hs1, hs2⟩ := clamp_mem (lo := 100) (hi := 65535) (n := limit.toNat) (by decide)
  obtain ⟨hm1, hm2⟩ := clamp_mem (lo := 1) (hi := 15) (n := mismatch.toNat) (by decide)
  exact ⟨hr.directory, hr.errors, hr.clock, hr.flags, hr.settings, ⟨hs1, hs2, hm1, hm2, hwait⟩, hr.links⟩

theorem Steady.validator_exclude {link : Byte} (h : Steady s t) : Steady s (validatorExclude link t).state := by
  unfold validatorExclude
  split
  · exact h
  · next k _ => exact (h.unseen (u := State.setEntry k _ t) (by rfl)).reevaluated

theorem Steady.validator_include {link : Byte} (h : Steady s t) : Steady s (validatorInclude link t).state := by
  unfold validatorInclude
  split
  · exact h
  · next k _ => exact (h.unseen (u := State.setEntry k _ t) (by rfl)).reevaluated

/-! ### Cutover Control (chapter 8) -/

/-- The service clock takes a time of day (R152). -/
theorem Steady.set_clock {c : Clock} (h : Steady s t) (hc : clockLaw t → c.minute.toNat ≤ 1439 ∧ c.ms ≤ 59999) :
    Steady s { t with clock := c } :=
  h.beside rfl rfl fun hr => ⟨hr.directory, hr.errors, hc hr.clock, hr.flags, hr.settings, hr.limits, hr.links⟩

theorem Steady.time_set {day minute : Half} (h : Steady s t) : Steady s (timeSet day minute t).state := by
  unfold timeSet
  split
  · exact h
  · next hm => exact (h.set_clock fun _ => ⟨Nat.le_of_not_lt hm, Nat.zero_le _⟩).examine_at

theorem Steady.minute_event (h : Steady s t) : Steady s (minuteEvent t) := by
  have next : clockLaw t → t.clock.nextMinute.minute.toNat ≤ 1439 ∧ t.clock.nextMinute.ms ≤ 59999 := fun _ => by
    unfold Clock.nextMinute
    split
    · next hm => exact ⟨by bv_omega, Nat.zero_le _⟩
    · exact ⟨Nat.zero_le _, Nat.zero_le _⟩
  unfold minuteEvent
  split
  · exact (h.set_clock next).examine_at
  · exact h

theorem Steady.expire_wait (h : Steady s t) : Steady s (expireWait t) := by
  unfold expireWait
  exact h.raise.take_trigger

theorem Steady.end_deferral {e : CutEnd} (h : Steady s t) : Steady s (endDeferral e t) := by
  unfold endDeferral
  exact h.perform_cutover

theorem Steady.cutover_config {w : Byte} {g : Half} (h : Steady s t) : Steady s (cutoverConfig w g t).state := by
  have h1 : Steady s { t with cutover := { t.cutover with waitLimit := clamp 1 240 w.toNat, grace := clamp 0 600 g.toNat } } := by
    refine h.beside rfl rfl fun hr => ?_
    obtain ⟨hs1, hs2, hm1, hm2, -⟩ := hr.limits
    obtain ⟨hw1, hw2⟩ := clamp_mem (lo := 1) (hi := 240) (n := w.toNat) (by decide)
    obtain ⟨-, hg⟩ := clamp_mem (lo := 0) (hi := 600) (n := g.toNat) (by decide)
    exact ⟨hr.directory, hr.errors, hr.clock, hr.flags, hr.settings, ⟨hs1, hs2, hm1, hm2, hw1, hw2, hg⟩, hr.links⟩
  unfold cutoverConfig applyLimits
  dsimp only
  rw [answer_state]
  repeat' split
  · exact h1.expire_wait
  · exact h1.end_deferral
  · exact h1

theorem Steady.wait_expired (h : Steady s t) : Steady s (waitExpired t) := by
  unfold waitExpired
  split
  · exact h.expire_wait
  · exact h

theorem Steady.grace_run_out (h : Steady s t) : Steady s (graceRunOut t) := by
  unfold graceRunOut
  split
  · exact h.end_deferral
  · exact h

theorem Steady.take_inhibit {level : Bool} (h : Steady s t) : Steady s (takeInhibit level t) := h.unseen (by rfl)

theorem Steady.inhibit_deassertion (h : Steady s t) : Steady s (inhibitDeassertion t) := by
  unfold inhibitDeassertion
  split
  · exact h.take_inhibit.end_deferral
  · exact h.take_inhibit

theorem Steady.cutover_now {option : Byte} (h : Steady s t) : Steady s (cutoverNow option t).state := by
  have answered : ∀ seq u, Steady s u → Steady s (cutoverAnswer seq u).state := fun seq u hu => by
    unfold cutoverAnswer; split <;> exact hu
  unfold cutoverNow
  split
  · exact h
  · dsimp only
    split
    · exact h
    · split
      · exact h.perform_cutover
      · exact answered _ _ h.take_trigger
    · split
      · exact h.end_deferral
      · exact h

/-! ### Events and the scrubber (chapter 10) -/

theorem Steady.events_clear {named : FlagSet} (h : Steady s t) : Steady s (eventsClear named t).state := by
  unfold eventsClear
  split
  · exact h
  · refine h.beside rfl rfl fun hr => ⟨hr.directory, hr.errors, hr.clock, ⟨?_, hr.flags.2⟩, hr.settings, hr.limits, hr.links⟩
    exact (Nat.and_le_left).trans_lt hr.flags.1

theorem Steady.event_mask {masks : FlagSet} (h : Steady s t) : Steady s (eventMask masks t).state := by
  unfold eventMask
  split
  · exact h
  · next hm =>
    have hm : masks.toNat < 2 ^ 19 := by simpa [flagSetOk] using hm
    exact h.beside rfl rfl fun hr => ⟨hr.directory, hr.errors, hr.clock, ⟨hr.flags.1, hm⟩, hr.settings, hr.limits, hr.links⟩

theorem Steady.scrub_period (h : Steady s t) : Steady s (scrubPeriod t) := by
  unfold scrubPeriod
  split
  · exact h.unseen (by rfl)
  · exact h

theorem Steady.scrub_one {b : BankId} {r : Region} {o : Nat} (h : Steady s t) : Steady s (scrubOne b r o t) := by
  have h1 : Steady s { t with scrub := { t.scrub with mode := .walking b r (o + 1) } } := h.unseen (by rfl)
  unfold scrubOne
  exact h1.read_words.unseen (by rfl)

theorem Steady.end_pass_if_done (h : Steady s t) : Steady s (endPassIfDone t) := by
  unfold endPassIfDone
  repeat' split
  · exact h.unseen (by rfl)
  all_goals exact h

theorem Steady.scrub_read {us : List Upset} (h : Steady s t) : Steady s (scrubRead us t) := by
  have h1 : Steady s (strikeAll us (copyOn t)) := h.copy_on.struck
  unfold scrubRead
  dsimp only
  repeat' split
  · exact h1.scrub_one
  · exact h1.scrub_one.end_pass_if_done
  · exact h1.end_pass_if_done

/-! ### The millisecond and the port (R152, chapter 11) -/

theorem Steady.advanced (h : Steady s t) : Steady s (advance t) := by
  have ticked : clockLaw t → t.clock.tick.minute.toNat ≤ 1439 ∧ t.clock.tick.ms ≤ 59999 := fun ht => by
    unfold Clock.tick
    split
    · next hm => exact ⟨ht.1, hm.2⟩
    · exact ht
  unfold advance
  exact (h.set_clock ticked).unseen (by rfl)

theorem Steady.passes_tick (h : Steady s t) : Steady s (tick t) := by
  unfold tick
  repeat' split
  · exact h
  · exact h.unseen (by rfl)
  · exact h.copy_on.advanced.unseen (by rfl)

theorem Steady.write_message {low : Bool} {bytes : List Byte} (h : Steady s t) : Steady s (writeMessage low bytes t) := by
  unfold writeMessage judgeArrival
  dsimp only
  repeat' split
  all_goals exact h.unseen (by rfl)

theorem Steady.read_response {late : Bool} {clocked : Nat} (h : Steady s t) : Steady s (readResponse late clocked t) := by
  unfold readResponse fetch
  dsimp only
  repeat' split
  all_goals exact h.unseen (by rfl)

theorem Steady.ignored_transaction {bytes : List Byte} (h : Steady s t) : Steady s (ignoredTransaction bytes t) := by
  unfold ignoredTransaction
  split
  · exact h.unseen (by rfl)
  · exact h

theorem Steady.leave_reset (h : Steady s t) : Steady s (leaveReset t) := by
  unfold leaveReset
  split
  · exact h.unseen (by rfl)
  · exact h

/-! ### Every step -/

/-- A predicate that `Steady` steps keep, and with them the commands that begin or end the work on a build: resets, OPEN_BUILD,
CLOSE_BUILD, DISCARD_BUILD, and the packages. -/
structure Settled (P : State → Prop) : Prop where
  steady : ∀ {s t}, P s → Steady s t → P t
  resetBlocks : ∀ {s}, P s → P (resetBlocks s)
  openBuild : ∀ {s option}, P s → P (openBuild option s).state
  closeBuild : ∀ {s mode day minute}, P s → P (closeBuild mode day minute s).state
  discardBuild : ∀ {s}, P s → P (discardBuild s).state
  segment : ∀ {s id index count payload}, P s → P (segment id index count payload s).state
  checkPhaseEnd : ∀ {s}, P s → P (checkPhaseEnd s)
  applyPhaseEnd : ∀ {s}, P s → P (applyPhaseEnd s)

/-- What a message can come to: the port changes, or its owner takes it from the port and the answer changes the port and the
gateway slot (R193 to R195). -/
theorem gateway_cases (i : Instr) (own : State → Reply) (s : State) :
    (∃ p, gateway i own s = { s with port := p }) ∨
      ∃ p q slot, gateway i own s =
        { (own { s with port := p }).state with
          port := q, lookups := { (own { s with port := p }).state.lookups with slot := slot } } := by
  have reply : ∀ r : Reply, ∃ q slot,
      (match r.answer with
        | none => r.state
        | some (code, body) => respond code body r.state) =
        { r.state with port := q, lookups := { r.state.lookups with slot := slot } } := fun r => by
    split
    · exact ⟨_, _, rfl⟩
    · exact ⟨_, _, rfl⟩
  unfold gateway
  split
  · exact .inl ⟨_, rfl⟩
  · split
    · exact .inl ⟨_, rfl⟩
    · by_cases hd : s.port.dispatched = some i
      · simp only [hd, if_true]
        exact .inr ⟨_, reply _⟩
      · by_cases hr : s.port.rdy = true
        · simp only [hd, hr, if_true, if_false]
          exact .inr ⟨_, reply _⟩
        · simp only [hd, hr, if_false]
          exact .inl ⟨_, rfl⟩

section
variable {P : State → Prop} (hP : Settled P)
include hP

theorem Settled.through_gateway {i : Instr} {own : State → Reply} (hown : ∀ u, P u → P (own u).state) (h : P s) :
    P (gateway i own s) := by
  rcases gateway_cases i own s with ⟨p, e⟩ | ⟨p, q, slot, e⟩
  · rw [e]; exact hP.steady h ((Steady.refl s).unseen (by rfl))
  · have h1 := hown { s with port := p } (hP.steady h ((Steady.refl s).unseen (by rfl)))
    rw [e]
    generalize (own { s with port := p }).state = r at h1 ⊢
    exact hP.steady h1 ((Steady.refl r).unseen (by rfl))

omit hP in
theorem Settled.through_event {f : State → State} (hf : ∀ u, P u → P (f u)) (h : P s) : P (event f s) := by
  unfold event
  split
  · exact h
  · exact hf s h

theorem Settled.executed {i : Instr} (h : P s) (ht : exec i s = .next t) : P t := by
  have at_port : ∀ {own : State → Reply}, (∀ u, P u → P (own u).state) → exec i s = .next (gateway i own s) → P t :=
    fun hown he => by
      rw [he] at ht
      cases ht
      exact hP.through_gateway hown h
  have in_part : ∀ {f : State → State}, (∀ u, P u → P (f u)) → exec i s = .next (event f s) → P t := fun hf he => by
    rw [he] at ht
    cases ht
    exact Settled.through_event hf h
  have answers : ∀ {own : State → Reply}, (∀ u, Steady u u → Steady u (own u).state) → ∀ u, P u → P (own u).state :=
    fun hown u hu => hP.steady hu (hown u (.refl u))
  have happens : ∀ {f : State → State}, (∀ u, Steady u u → Steady u (f u)) → ∀ u, P u → P (f u) :=
    fun hf u hu => hP.steady hu (hf u (.refl u))
  cases i with
  | powerOn => cases ht; exact hP.steady (hP.resetBlocks h) ((Steady.refl _).unseen (by rfl))
  | resetNLow => cases ht; exact hP.steady (hP.resetBlocks h) ((Steady.refl _).unseen (by rfl))
  | resetEnd => cases ht; exact hP.steady h (Steady.refl s).leave_reset
  | deviceReset => exact at_port (fun _ => hP.resetBlocks) rfl
  | writeMessage => exact in_part (happens fun _ => Steady.write_message) rfl
  | readResponse => exact in_part (happens fun _ => Steady.read_response) rfl
  | ignoredTransaction => exact in_part (happens fun _ => Steady.ignored_transaction) rfl
  | openBuild => exact at_port (fun _ => hP.openBuild) rfl
  | closeBuild => exact at_port (fun _ => hP.closeBuild) rfl
  | withdraw => exact at_port (answers fun _ => Steady.withdrawn) rfl
  | discardBuild => exact at_port (fun _ => hP.discardBuild) rfl
  | bankRead => exact at_port (fun _ h => by rw [bankRead_state]; exact h) rfl
  | rangeRead => exact at_port (answers fun _ => Steady.range_read) rfl
  | tariffRead => exact at_port (answers fun _ => Steady.tariff_read) rfl
  | segment => exact at_port (fun _ => hP.segment) rfl
  | carouselConfig => exact at_port (answers fun _ => Steady.carousel_config) rfl
  | carouselStart => exact at_port (answers fun _ => Steady.carousel_start) rfl
  | carouselStop => exact at_port (answers fun _ => Steady.carousel_stop) rfl
  | linkConfig => exact at_port (answers fun _ => Steady.link_config) rfl
  | linkEnable => exact at_port (answers fun _ => Steady.link_enable) rfl
  | linkDisable => exact at_port (answers fun _ => Steady.link_disable) rfl
  | linkTest => exact at_port (answers fun _ => Steady.link_test) rfl
  | linkRead => exact at_port (fun _ h => by rw [linkRead_state]; exact h) rfl
  | validatorConfig => exact at_port (answers fun _ => Steady.validator_config) rfl
  | validatorRead => exact at_port (fun _ h => by rw [validatorRead_state]; exact h) rfl
  | validatorExclude => exact at_port (answers fun _ => Steady.validator_exclude) rfl
  | validatorInclude => exact at_port (answers fun _ => Steady.validator_include) rfl
  | timeSet => exact at_port (answers fun _ => Steady.time_set) rfl
  | cutoverConfig => exact at_port (answers fun _ => Steady.cutover_config) rfl
  | cutoverNow => exact at_port (answers fun _ => Steady.cutover_now) rfl
  | query => exact at_port (answers fun _ => Steady.query_met) rfl
  | eventsRead => exact at_port (fun _ h => h) rfl
  | eventsClear => exact at_port (answers fun _ => Steady.events_clear) rfl
  | eventMask => exact at_port (answers fun _ => Steady.event_mask) rfl
  | scrubConfig => exact at_port (answers fun _ h => h.unseen (by rfl)) rfl
  | identify => exact at_port (fun _ h => h) rfl
  | status => exact at_port (fun _ h => h) rfl
  | copyComplete => exact in_part (happens fun _ => Steady.copy_complete) rfl
  | drainComplete => exact in_part (happens fun _ => Steady.drain_complete) rfl
  | closeRunComplete => exact in_part (happens fun _ => Steady.close_run_complete) rfl
  | checkPhaseEnd => exact in_part (fun _ => hP.checkPhaseEnd) rfl
  | applyPhaseEnd => exact in_part (fun _ => hP.applyPhaseEnd) rfl
  | cycleStart => exact in_part (happens fun _ => Steady.cycle_start) rfl
  | refillService => exact in_part (happens fun _ => Steady.refill_service) rfl
  | transmitBoundary => exact in_part (happens fun _ => Steady.transmit_boundary) rfl
  | frameTransmitted => exact in_part (happens fun _ => Steady.frame_transmitted) rfl
  | underrun => exact in_part (happens fun _ => Steady.underrun_met) rfl
  | frameReceived => exact in_part (happens fun _ => Steady.frame_received) rfl
  | report => exact in_part (happens fun _ => Steady.report_taken) rfl
  | validatorSilent => exact in_part (happens fun _ => Steady.validator_silent) rfl
  | minuteEvent => exact in_part (happens fun _ => Steady.minute_event) rfl
  | waitExpired => exact in_part (happens fun _ => Steady.wait_expired) rfl
  | inhibitAssertion => exact in_part (happens fun _ => Steady.take_inhibit) rfl
  | inhibitDeassertion => exact in_part (happens fun _ => Steady.inhibit_deassertion) rfl
  | graceRunOut => exact in_part (happens fun _ => Steady.grace_run_out) rfl
  | lookupComplete => exact in_part (happens fun _ => Steady.lookup_complete) rfl
  | scrubPeriod => exact in_part (happens fun _ => Steady.scrub_period) rfl
  | scrubRead => exact in_part (happens fun _ => Steady.scrub_read) rfl
  | testFrameReturned => exact in_part (happens fun _ => Steady.test_frame_returned) rfl
  | testNoEcho => exact in_part (happens fun _ => Steady.test_no_echo) rfl
  | testFrameStart => exact in_part (happens fun _ => Steady.test_frame_start) rfl
  | copyFailure => exact in_part (happens fun _ => Steady.copy_failure) rfl
  | closingRunFailure => exact in_part (happens fun _ => Steady.closing_run_failure) rfl

/-- A settled predicate survives every step. -/
theorem Settled.stepped (h : P s) (ht : step s = .next t) : P t := by
  unfold step at ht
  split at ht
  · cases ht
    exact hP.steady h (Steady.refl s).passes_tick
  · exact hP.executed (hP.steady h ((Steady.refl s).unseen (by rfl))) ht

end

end Sys2Proof.Machine
end

section
/-!
PROOFS. The values within their ranges survive every step, which settles O57.
-/

namespace Sys2Proof.Machine

variable {s : State}

/-! ### Builds and resets -/

theorem Ranged.steady {t : State} (h : Ranged s) (g : Steady s t) : Ranged t := g.ranged h

theorem State.reset_ranged : clockLaw State.reset ∧ flagsLaw State.reset ∧ State.reset.carousel.settings.inRange ∧ State.reset.limited := by
  unfold State.limited
  decide

theorem Ranged.reset_blocks (h : Ranged s) : Ranged (resetBlocks s) := by
  obtain ⟨hclock, hflags, hsettings, hlimits⟩ := State.reset_ranged
  refine ⟨fun b => ?_, h.errors, hclock, hflags, hsettings, hlimits, fun k => ?_⟩
  · cases b
    · exact h.directory .bankA
    · exact h.directory .bankB
  · have hk : (resetBlocks s).link k = Link.reset := PerLink.get_all _ k
    rw [hk]
    exact ⟨by decide, by decide, by decide, by decide, by decide, by decide, by decide⟩

theorem Ranged.open_build {option : Byte} (h : Ranged s) : Ranged (openBuild option s).state := by
  have take : ∀ o, Ranged (takeOpenBuild o s).state := fun o => by
    unfold takeOpenBuild
    dsimp only
    repeat' split
    all_goals rw [answer_state]
    · exact h.set_record
    · exact begun_tables.1 h
    · exact begun_tables.1 h
  unfold openBuild
  repeat' split
  any_goals exact h
  all_goals exact take _

theorem Ranged.close_build {mode : Byte} {day minute : Half} (h : Ranged s) : Ranged (closeBuild mode day minute s).state := by
  unfold closeBuild
  split
  · exact h
  · next b hb =>
    dsimp only
    repeat' split
    any_goals exact h
    all_goals exact (h.set_record (b := b)).of_measures rfl

theorem Ranged.discard_build (h : Ranged s) : Ranged (discardBuild s).state := by
  unfold discardBuild
  split
  · next b _ => exact (h.set_record (b := b)).of_measures rfl
  · split
    · next b _ => exact (h.set_record (b := b)).of_measures rfl
    · exact h

/-! ### Packages (chapter 3) -/

theorem Ranged.finish_with {result : PackageResult} {n : Nat} {e : Event} (h : Ranged s) : Ranged (finishWith result n e s) := by
  have h1 : Ranged (State.raise e { s with loader := ⟨.idle, result, []⟩ }) := Ranged.raise (h.of_measures rfl)
  unfold finishWith
  dsimp only
  split
  · exact h1.raise
  · exact h1

theorem Ranged.package_done {id : Half} {kind : PackageKind} {c : Counts} (h : Ranged s) : Ranged (packageDone id kind c s) :=
  Ranged.finish_with (h.of_measures rfl)

theorem Ranged.package_refused {id : Half} {kind : PackageKind} {code : ResultCode} {index : Option Nat} {c : Counts}
    (h : Ranged s) : Ranged (packageRefused id kind code index c s) :=
  Ranged.finish_with (h.of_measures rfl)

theorem Ranged.segment_stored {last : Bool} {r : Receiving} {start : Nat} {payload : List Byte} (h : Ranged s) :
    Ranged (segmentStored last r (storePayload start last payload s)).state := by
  have h1 : Ranged (storePayload start last payload s) := Ranged.refreshed (h.of_measures rfl)
  generalize storePayload start last payload s = t at h1 ⊢
  unfold segmentStored wholePackage abandonPackage
  repeat' split
  · rw [answer_state]; exact h1.package_refused
  · exact h1.of_measures rfl
  · exact h1.of_measures rfl

theorem Ranged.segment_taken {id index count : Half} {payload : List Byte} (h : Ranged s) :
    Ranged (segment id index count payload s).state := by
  unfold segment
  split
  · exact h
  · split
    · unfold startPackage
      repeat' split
      any_goals exact h
      all_goals exact h.segment_stored
    · unfold continuePackage takeSegment abandonPackage
      repeat' split
      any_goals exact h
      · rw [answer_state]; exact h.package_refused
      · exact h.segment_stored

theorem Steady.run_check_reads {t : State} {b : BankId} {rs : List CheckRead} (h : Steady s t) :
    Steady s (runCheckReads b rs t).1 := by
  induction rs generalizing t with
  | nil => exact h
  | cons r rs ih =>
    cases r with
    | bytes lo hi =>
      unfold runCheckReads
      dsimp only
      split
      · exact ih h.read_new
      · exact h.read_new
    | items is =>
      unfold runCheckReads
      dsimp only
      split
      · exact ih h.read_items
      · exact h.read_items

theorem Ranged.check_phase_end (h : Ranged s) : Ranged (checkPhaseEnd s) := by
  unfold checkPhaseEnd
  split
  · next id kind total b _ _ =>
    have h1 := h.steady (Steady.run_check_reads (b := b) (rs := checkReads (s.bank b) kind s.loader.buffer) (.refl s))
    dsimp only
    repeat' split
    · exact h1.of_measures rfl
    · exact h1.package_refused
    · exact h1.package_refused
  · exact h

theorem Ranged.read_new {lo hi : Nat} (h : Ranged s) : Ranged (readNewBytes lo hi s).1 := h.steady (Steady.refl s).read_new

theorem Ranged.read_items {b : BankId} {items : List Item} (h : Ranged s) : Ranged (readItems .loader b items s).1 :=
  h.steady (Steady.refl s).read_items

theorem Ranged.read_records {ws : List Nat} {lo n : Nat} (h : Ranged s) : Ranged (readRecords lo ws n s).1 := by
  induction ws generalizing lo n s with
  | nil => exact h
  | cons w ws ih =>
    unfold readRecords
    dsimp only
    split
    · exact ih h.read_new
    · exact h.read_new

theorem Ranged.write_tariff {b : BankId} {p : TariffPackage} {n : Nat} (h : Ranged s) : Ranged (writeTariff b p n s) := by
  have h1 : Ranged (s.setBank b { s.bank b with tariff := p.over n (s.bank b).tariff }) := h.set_bank (h.directory b)
  exact h1.refreshed

theorem Ranged.write_ranges {b : BankId} {rs : List RangeRec} (h : Ranged s) : Ranged (writeRanges b (RangeRegion.ofRecords rs) s) := by
  have h1 : Ranged (s.setBank b { s.bank b with ranges := RangeRegion.ofRecords rs }) := h.set_bank rfl
  exact h1.refreshed

theorem Ranged.empty_table {b : BankId} (h : Ranged s) : Ranged (emptyTable b s) := by
  have h1 : Ranged (s.setBank b { s.bank b with ranges := RangeRegion.empty }) := h.set_bank ofRecords_nil.symm
  exact h1.refreshed

theorem Ranged.apply_tariff {b : BankId} {id : Half} (h : Ranged s) : Ranged (applyTariff b id s) := by
  unfold applyTariff
  split
  · exact h
  · next p _ =>
    have h1 : Ranged (readBuffer 0 16 s).1 := h.steady (Steady.refl s).read_buffer
    have h2 : Ranged (readRecords 16 (tariffWidths p) 0 (readBuffer 0 16 s).1).1 := h1.read_records
    dsimp only
    repeat' split
    · exact h1.set_record.package_refused
    · exact h2.write_tariff.set_record.package_done
    · exact h2.write_tariff.set_record.package_refused

theorem Ranged.apply_entries {b : BankId} {bss : List (List Byte)} {lo : Nat} {c : Counts} (h : Ranged s) :
    Ranged (applyEntries b lo bss c s).state := by
  induction bss generalizing lo c s with
  | nil => exact h
  | cons bs bss ih =>
    unfold applyEntries
    dsimp only
    repeat' split
    · exact h.read_new
    · exact h.read_new
    · exact h.read_new.read_items
    · exact ih h.read_new.read_items.write_ranges

theorem Ranged.apply_op {b : BankId} {op : DeltaOp} (h : Ranged s) : Ranged (applyOp b op s) := by
  unfold applyOp DeltaOp.result
  exact h.write_ranges.set_record

theorem Ranged.apply_ops {b : BankId} {bss : List (List Byte)} {lo : Nat} {c : Counts} (h : Ranged s) :
    Ranged (applyOps b lo bss c s).state := by
  induction bss generalizing lo c s with
  | nil => exact h
  | cons bs bss ih =>
    unfold applyOps
    dsimp only
    repeat' split
    · exact h.read_new
    · exact h.read_new
    · exact h.read_new.read_items
    · exact ih h.read_new.read_items.apply_op

theorem Ranged.end_range_apply {b : BankId} {id : Half} {kind : PackageKind} {done : BankRecord → BankRecord} {r : ApplyRun}
    (h : Ranged r.state) : Ranged (endRangeApply b id kind done r) := by
  unfold endRangeApply
  split
  · exact h.set_record.package_done
  · exact h.set_record.package_refused
  · exact h.package_refused

theorem Ranged.apply_base {b : BankId} {id : Half} (h : Ranged s) : Ranged (applyBase b id s) := by
  have h1 : Ranged (readBuffer 0 18 s).1 := h.steady (Steady.refl s).read_buffer
  unfold applyBase
  split
  · exact h
  · dsimp only
    refine Ranged.end_range_apply ?_
    repeat' split
    · exact h1.empty_table.apply_entries
    · exact h1.apply_entries
    · exact h1

theorem Ranged.apply_delta {b : BankId} {id : Half} (h : Ranged s) : Ranged (applyDelta b id s) := by
  have h1 : Ranged (readBuffer 0 18 s).1 := h.steady (Steady.refl s).read_buffer
  unfold applyDelta
  split
  · exact h
  · dsimp only
    refine Ranged.end_range_apply ?_
    split
    · exact h1.apply_ops
    · exact h1

theorem Ranged.apply_phase_end (h : Ranged s) : Ranged (applyPhaseEnd s) := by
  unfold applyPhaseEnd
  repeat' split
  · exact h.apply_tariff
  · exact h.apply_base
  · exact h.apply_delta
  · exact h

theorem Ranged.settled : Settled Ranged where
  steady := Ranged.steady
  resetBlocks := Ranged.reset_blocks
  openBuild := Ranged.open_build
  closeBuild := Ranged.close_build
  discardBuild := Ranged.discard_build
  segment := Ranged.segment_taken
  checkPhaseEnd := Ranged.check_phase_end
  applyPhaseEnd := Ranged.apply_phase_end

/-- Settles O57: together the laws are a `Settled` predicate. -/
theorem stepKeepsTablesAndRanges : Obligations.StepKeepsTablesAndRanges := by
  intro s t hd he hc hf hs hq hstep
  exact (ranged_iff t).mp (Ranged.settled.stepped ((ranged_iff s).mpr ⟨hd, he, hc, hf, hs, hq⟩) hstep)

end Sys2Proof.Machine
end

section
/-!
PROOFS. Records that touch, records cut and pieces inserted: what becomes of the canonical shape and of the listing of each card
(R25 to R27, R35, R38, R39).
-/

namespace Sys2Proof.Machine

/-! ### Shelves and records (R25, R26) -/

theorem shelfOf_eq (c : Card) : shelfOf c = c.toNat / 281474976710656 := by
  simp [shelfOf, BitVec.toNat_ushiftRight, Nat.shiftRight_eq_div_pow]

theorem shelfOf_lt (c : Card) : shelfOf c < 256 := by
  have := c.isLt
  rw [shelfOf_eq]
  omega

theorem shelfOf_mono {c d : Card} (h : c ≤ d) : shelfOf c ≤ shelfOf d := by
  rw [shelfOf_eq, shelfOf_eq]
  exact Nat.div_le_div_right (BitVec.le_def.mp h)

/-- The attributes a record gives to the cards it lists (R25). -/
def RangeRec.attrs (r : RangeRec) : Reason × BitVec 2 × Option Half := (r.reason, r.priority, r.expiry)

theorem sameAttrs_iff {x y : RangeRec} : x.sameAttrs y = true ↔ x.attrs = y.attrs := by
  simp [RangeRec.sameAttrs, RangeRec.attrs, and_assoc]

theorem joins_iff {x y : RangeRec} :
    x.joins y = true ↔ x.last.toNat + 1 = y.first.toNat ∧ shelfOf x.last = shelfOf y.first ∧ x.attrs = y.attrs := by
  rw [RangeRec.joins, Bool.and_eq_true, sameAttrs_iff, RangeRec.touches, Bool.and_eq_true, decide_eq_true_eq, decide_eq_true_eq,
    and_assoc]

theorem lists_iff {r : RangeRec} {c : Card} : r.lists c = true ↔ r.first.toNat ≤ c.toNat ∧ c.toNat ≤ r.last.toNat := by
  simp [RangeRec.lists, BitVec.le_def]

/-- Whether a record joins another turns on the upper end of the one and the lower end of the other (R27). -/
theorem joins_congr {x x' y y' : RangeRec} (hx : x.last = x'.last) (hsx : x.attrs = x'.attrs) (hy : y.first = y'.first)
    (hsy : y.attrs = y'.attrs) : x.joins y = x'.joins y' := by
  rw [Bool.eq_iff_iff, joins_iff, joins_iff, hx, hsx, hy, hsy]

/-- A record that joins nothing when it does not touch. -/
theorem joins_eq_false {x y : RangeRec} (h : x.last.toNat + 1 ≠ y.first.toNat) : x.joins y = false := by
  rw [← Bool.not_eq_true, joins_iff]
  exact fun hj => h hj.1

/-! ### Listings (R46) -/

theorem listing_nil (c : Card) : listing [] c = none := rfl

theorem listing_cons (r : RangeRec) (rs : List RangeRec) (c : Card) :
    listing (r :: rs) c = if r.lists c then some r.attrs else listing rs c := by
  unfold listing
  rw [List.find?_cons]
  cases r.lists c <;> rfl

theorem listing_append (xs ys : List RangeRec) (c : Card) : listing (xs ++ ys) c = (listing xs c).or (listing ys c) := by
  unfold listing
  rw [List.find?_append, Option.map_or]

theorem listing_none {rs : List RangeRec} {c : Card} : listing rs c = none ↔ ∀ r ∈ rs, r.lists c = false := by
  simp [listing]

/-- A record's own ends are listed. -/
theorem listing_last {rs : List RangeRec} {x : RangeRec} (hx : x ∈ rs) (hw : x.first ≤ x.last) : listing rs x.last ≠ none := by
  rw [Ne, listing_none]
  intro h
  have h1 : x.lists x.last = true := lists_iff.mpr ⟨BitVec.le_def.mp hw, le_refl _⟩
  rw [h x hx] at h1
  cases h1

/-- No card of the record is listed. -/
def clearOf (rs : List RangeRec) (p : RangeRec) : Prop := ∀ c, p.lists c = true → listing rs c = none

/-- A record in order that lists no listed card lies below or above each record of the table. -/
theorem clearOf.apart {rs : List RangeRec} {p x : RangeRec} (h : clearOf rs p) (hp : p.first ≤ p.last) (hx : x ∈ rs)
    (hw : x.first ≤ x.last) : x.last < p.first ∨ p.last < x.first := by
  have listed : ∀ c, p.lists c = true → x.lists c = true → False := fun c hc hxc => by
    rw [listing_none.mp (h c hc) x hx] at hxc
    cases hxc
  simp only [lists_iff, BitVec.lt_def, BitVec.le_def] at *
  by_contra hn
  rcases le_total p.first.toNat x.first.toNat with hle | hle
  · exact listed x.first (by omega) (by omega)
  · exact listed p.first (by omega) (by omega)

theorem clearOf_of_below {rs : List RangeRec} {p : RangeRec} (h : ∀ x ∈ rs, x.last < p.first) : clearOf rs p := fun c hc => by
  rw [listing_none]
  intro x hx
  have := BitVec.lt_def.mp (h x hx)
  rw [lists_iff] at hc
  rw [← Bool.not_eq_true, lists_iff]
  omega

/-! ### Parts of a record -/

/-- A record that is part of another. -/
structure RangeRec.Within (x r : RangeRec) : Prop where
  lower : r.first ≤ x.first
  order : x.first ≤ x.last
  upper : x.last ≤ r.last
  attrs : x.attrs = r.attrs

theorem RangeRec.Within.self {r : RangeRec} (h : r.first ≤ r.last) : r.Within r :=
  ⟨BitVec.le_def.mpr (le_refl _), h, BitVec.le_def.mpr (le_refl _), rfl⟩

theorem RangeRec.Within.wf {x r : RangeRec} (h : x.Within r) (hr : r.wf) : x.wf := by
  have h1 := shelfOf_mono h.lower
  have h2 := shelfOf_mono h.order
  have h3 := shelfOf_mono h.upper
  have h4 := hr.2
  exact ⟨h.order, by omega⟩

/-- Parts of records that do not join do not join. -/
theorem RangeRec.Within.apart {x y r q : RangeRec} (hx : x.Within r) (hy : y.Within q) (hlt : r.last < q.first)
    (hj : r.joins q = false) : x.last < y.first ∧ x.joins y = false := by
  have hu := BitVec.le_def.mp hx.upper
  have hl := BitVec.le_def.mp hy.lower
  have hm := BitVec.lt_def.mp hlt
  refine ⟨BitVec.lt_def.mpr (by omega), ?_⟩
  rw [← Bool.not_eq_true] at hj ⊢
  refine mt (fun h => ?_) hj
  obtain ⟨htouch, hshelf, hattrs⟩ := joins_iff.mp h
  have el : x.last = r.last := BitVec.eq_of_toNat_eq (by omega)
  have ef : y.first = q.first := BitVec.eq_of_toNat_eq (by omega)
  rwa [joins_congr el hx.attrs ef hy.attrs] at h

/-! ### Tables put together -/

theorem canonical_append {xs ys : List RangeRec} (hx : canonical xs) (hy : canonical ys)
    (h : ∀ x ∈ xs, ∀ y ∈ ys, x.last < y.first ∧ x.joins y = false) : canonical (xs ++ ys) :=
  ⟨fun r hr => (List.mem_append.mp hr).elim (hx.1 r) (hy.1 r),
    List.pairwise_append.mpr ⟨hx.2.1, hy.2.1, fun x hx y hy => (h x hx y hy).1⟩,
    List.pairwise_append.mpr ⟨hx.2.2, hy.2.2, fun x hx y hy => (h x hx y hy).2⟩⟩

theorem canonical_single {r : RangeRec} (h : r.wf) : canonical [r] := canonical_cons.mpr ⟨h, by simp, canonical_nil⟩

/-- In a canonical table the records are in ascending order to the last. -/
theorem canonical_order {r x : RangeRec} {rs : List RangeRec} (h : canonical (r :: rs)) (hx : x ∈ r :: rs) : r.first ≤ x.first := by
  obtain ⟨hr, hrs, -⟩ := canonical_cons.mp h
  rcases List.mem_cons.mp hx with rfl | hx
  · exact BitVec.le_def.mpr (le_refl _)
  · have h1 := BitVec.le_def.mp hr.1
    have h2 := BitVec.lt_def.mp (hrs x hx).1
    exact BitVec.le_def.mpr (by omega)

/-! ### Cutting (R38) -/

/-- What is left of a record below the span. -/
theorem within_below {lo : Card} {r : RangeRec} (h : r.first < lo) (hl : lo ≤ r.last) :
    RangeRec.Within { r with last := lo - 1#56 } r ∧ (lo - 1#56).toNat + 1 = lo.toNat := by
  have h1 := BitVec.lt_def.mp h
  have h2 := BitVec.le_def.mp hl
  have e : (lo - 1#56).toNat + 1 = lo.toNat := by bv_omega
  exact ⟨⟨BitVec.le_def.mpr (le_refl _), BitVec.le_def.mpr (by simp only; omega), BitVec.le_def.mpr (by simp only; omega), rfl⟩, e⟩

/-- What is left of a record above the span. -/
theorem within_above {hi : Card} {r : RangeRec} (h : hi < r.last) (hl : r.first ≤ hi) :
    RangeRec.Within { r with first := hi + 1#56 } r ∧ (hi + 1#56).toNat = hi.toNat + 1 := by
  have h1 := BitVec.lt_def.mp h
  have h2 := BitVec.le_def.mp hl
  have e : (hi + 1#56).toNat = hi.toNat + 1 := by bv_omega
  exact ⟨⟨BitVec.le_def.mpr (by simp only; omega), BitVec.le_def.mpr (by simp only; omega), BitVec.le_def.mpr (le_refl _), rfl⟩, e⟩

theorem cutRecord_within {lo hi : Card} {r : RangeRec} (hr : r.first ≤ r.last) : ∀ x ∈ cutRecord lo hi r, x.Within r := by
  unfold cutRecord
  split
  · simpa using RangeRec.Within.self hr
  · next hin =>
    simp only [not_or, BitVec.not_lt] at hin
    intro x hx
    rcases List.mem_append.mp hx with hx | hx
    · split at hx
      · next h => rw [List.mem_singleton.mp hx]; exact (within_below h hin.1).1
      · cases hx
    · split at hx
      · next h => rw [List.mem_singleton.mp hx]; exact (within_above h hin.2).1
      · cases hx

end Sys2Proof.Machine
end

section
/-!
PROOFS. Cutting a span out of a table, placing a piece in it, and the pieces of a range: the canonical shape and the listing of
each card (R26, R35, R37 to R40), and O21 and O22 with them.
-/

namespace Sys2Proof.Machine

/-! ### Cutting (R38) -/

theorem mem_if_singleton {α : Type} {p : Prop} [Decidable p] {x y : α} : x ∈ (if p then [y] else []) ↔ p ∧ x = y := by
  split <;> simp [*]

theorem cutRecord_canonical {lo hi : Card} {r : RangeRec} (hspan : lo ≤ hi) (hr : r.wf) : canonical (cutRecord lo hi r) := by
  have hwithin := cutRecord_within (lo := lo) (hi := hi) hr.1
  unfold cutRecord at hwithin ⊢
  by_cases hout : r.last < lo ∨ hi < r.first
  · rw [if_pos hout]
    exact canonical_single hr
  · rw [if_neg hout] at hwithin ⊢
    simp only [not_or, BitVec.not_lt] at hout
    have part : ∀ {p : Prop} [Decidable p] {x : RangeRec}, (p → x.wf) → canonical (if p then [x] else []) := by
      intro p _ x hx
      split
      · next h => exact canonical_single (hx h)
      · exact canonical_nil
    refine canonical_append (part fun h => (within_below h hout.1).1.wf hr) (part fun h => (within_above h hout.2).1.wf hr) ?_
    intro x hx y hy
    obtain ⟨hlow, rfl⟩ := mem_if_singleton.mp hx
    obtain ⟨hhigh, rfl⟩ := mem_if_singleton.mp hy
    have h1 := (within_below hlow hout.1).2
    have h2 := (within_above hhigh hout.2).2
    have h3 := BitVec.le_def.mp hspan
    exact ⟨BitVec.lt_def.mpr (by simp only; omega), joins_eq_false (by simp only; omega)⟩

theorem listing_if (p : Prop) [Decidable p] (x : RangeRec) (c : Card) :
    listing (if p then [x] else []) c = if p ∧ x.lists c = true then some x.attrs else none := by
  split
  · next h => simp only [listing_cons, listing_nil, h, true_and]
  · next h => simp only [listing_nil, h, false_and, if_false]

theorem cutRecord_listing {lo hi : Card} {r : RangeRec} (hspan : lo ≤ hi) (c : Card) :
    listing (cutRecord lo hi r) c = if lo ≤ c ∧ c ≤ hi then none else if r.lists c then some r.attrs else none := by
  have hspan := BitVec.le_def.mp hspan
  unfold cutRecord
  split
  · next hout =>
    rw [listing_cons, listing_nil]
    split
    · next hl =>
      rw [if_neg]
      rw [lists_iff] at hl
      simp only [BitVec.lt_def, BitVec.le_def] at hout ⊢
      omega
    · exact (ite_self _).symm
  · next hin =>
    simp only [not_or, BitVec.not_lt] at hin
    obtain ⟨hlo, hhi⟩ := hin
    have hlow : r.first < lo ∧ RangeRec.lists { r with last := lo - 1#56 } c = true ↔ r.lists c = true ∧ c.toNat < lo.toNat := by
      have hb := fun h => (within_below (r := r) h hlo).2
      simp only [BitVec.lt_def, BitVec.le_def, lists_iff] at hlo hb ⊢
      omega
    have hhigh : hi < r.last ∧ RangeRec.lists { r with first := hi + 1#56 } c = true ↔ r.lists c = true ∧ hi.toNat < c.toNat := by
      have ha := fun h => (within_above (r := r) h hhi).2
      simp only [BitVec.lt_def, BitVec.le_def, lists_iff] at hhi ha ⊢
      omega
    rw [listing_append, listing_if, listing_if]
    simp only [hlow, hhigh, RangeRec.attrs, BitVec.le_def]
    by_cases hl : r.lists c = true
    · by_cases h1 : c.toNat < lo.toNat
      · rw [if_pos ⟨hl, h1⟩, if_neg (by omega), if_neg (by omega), if_pos hl]
        rfl
      · by_cases h2 : hi.toNat < c.toNat
        · rw [if_neg (by omega), if_pos ⟨hl, h2⟩, if_neg (by omega), if_pos hl]
          rfl
        · rw [if_neg (by omega), if_neg (by omega), if_pos (by omega)]
          rfl
    · simp [hl]

/-- What is left of the table is canonical, each record part of one that stood there. -/
theorem cutSpan_parts {lo hi : Card} {rs : List RangeRec} (hspan : lo ≤ hi) (h : canonical rs) :
    canonical (cutSpan lo hi rs) ∧ ∀ x ∈ cutSpan lo hi rs, ∃ r ∈ rs, x.Within r := by
  refine ⟨?_, fun x hx => ?_⟩
  · induction rs with
    | nil => exact canonical_nil
    | cons r rs ih =>
      obtain ⟨hr, hrs, h⟩ := canonical_cons.mp h
      refine canonical_append (cutRecord_canonical hspan hr) (ih h) fun x hx y hy => ?_
      obtain ⟨q, hq, hy⟩ := List.mem_flatMap.mp hy
      exact (cutRecord_within hr.1 x hx).apart (cutRecord_within (h.1 q hq).1 y hy) (hrs q hq).1 (hrs q hq).2
  · obtain ⟨r, hr, hx⟩ := List.mem_flatMap.mp hx
    exact ⟨r, hr, cutRecord_within (h.1 r hr).1 x hx⟩

theorem cutSpan_listing {lo hi : Card} (rs : List RangeRec) (hspan : lo ≤ hi) (c : Card) :
    listing (cutSpan lo hi rs) c = if lo ≤ c ∧ c ≤ hi then none else listing rs c := by
  induction rs with
  | nil => exact (ite_self _).symm
  | cons r rs ih =>
    change listing (cutRecord lo hi r ++ cutSpan lo hi rs) c = _
    rw [listing_append, ih, cutRecord_listing hspan, listing_cons]
    split
    · rfl
    · split <;> rfl

/-! ### A piece placed in the table (R39) -/

/-- A piece below the records of a table, coalesced with the first when it joins it. -/
theorem joinAbove_keeps {p : RangeRec} {rs : List RangeRec} (hp : p.wf) (h : canonical rs) (hlt : ∀ x ∈ rs, p.last < x.first) :
    canonical (joinAbove p rs) ∧
      ∀ c, listing (joinAbove p rs) c = if p.lists c then some p.attrs else listing rs c := by
  cases rs with
  | nil => exact ⟨canonical_single hp, fun c => listing_cons p [] c⟩
  | cons r rs =>
    obtain ⟨hr, hrs, h'⟩ := canonical_cons.mp h
    have hpr := BitVec.lt_def.mp (hlt r List.mem_cons_self)
    have hr1 := BitVec.le_def.mp hr.1
    have hp1 := BitVec.le_def.mp hp.1
    rw [joinAbove]
    split
    · next hj =>
      obtain ⟨htouch, hshelf, hattrs⟩ := joins_iff.mp hj
      have hq : RangeRec.wf { p with last := r.last } :=
        ⟨BitVec.le_def.mpr (by simp only; omega), by simp only; rw [hp.2, hshelf, hr.2]⟩
      refine ⟨canonical_cons.mpr ⟨hq, fun x hx => ⟨(hrs x hx).1, ?_⟩, h'⟩, fun c => ?_⟩
      · rw [joins_congr (x := { p with last := r.last }) (x' := r) rfl hattrs rfl rfl]
        exact (hrs x hx).2
      · rw [listing_cons, listing_cons, ← hattrs, ← ite_or]
        refine if_congr ?_ rfl rfl
        simp only [lists_iff]
        omega
    · next hj =>
      refine ⟨canonical_cons.mpr ⟨hp, fun x hx => ⟨hlt x hx, ?_⟩, h⟩, fun c => listing_cons _ _ c⟩
      rcases List.mem_cons.mp hx with rfl | hx
      · simpa using hj
      · have hx1 := BitVec.lt_def.mp (hrs x hx).1
        exact joins_eq_false (by omega)

/-- Each record has the lower end and the attributes of the piece or of a record that stood there. -/
theorem mem_insertPiece {p x : RangeRec} {rs : List RangeRec} (hx : x ∈ insertPiece p rs) :
    ∃ y ∈ p :: rs, x.first = y.first ∧ x.attrs = y.attrs := by
  have above : ∀ (q : RangeRec) (qs : List RangeRec), x ∈ joinAbove q qs → ∃ y ∈ q :: qs, x.first = y.first ∧ x.attrs = y.attrs := by
    intro q qs hx
    cases qs with
    | nil => exact ⟨x, hx, rfl, rfl⟩
    | cons r qs =>
      rw [joinAbove] at hx
      split at hx
      · rcases List.mem_cons.mp hx with rfl | hx
        · exact ⟨q, List.mem_cons_self, rfl, rfl⟩
        · exact ⟨x, List.mem_cons_of_mem _ (List.mem_cons_of_mem _ hx), rfl, rfl⟩
      · exact ⟨x, hx, rfl, rfl⟩
  induction rs with
  | nil => exact ⟨x, hx, rfl, rfl⟩
  | cons r rs ih =>
    rw [insertPiece] at hx
    split at hx
    · split at hx
      · obtain ⟨y, hy, e⟩ := above _ _ hx
        rcases List.mem_cons.mp hy with rfl | hy
        · exact ⟨r, by simp, e⟩
        · exact ⟨y, by simp [hy], e⟩
      · rcases List.mem_cons.mp hx with rfl | hx
        · exact ⟨x, by simp, rfl, rfl⟩
        · obtain ⟨y, hy, e⟩ := ih hx
          exact ⟨y, (List.mem_cons.mp hy).elim (by simp +contextual) (by simp +contextual), e⟩
    · exact above _ _ hx

/-- A piece none of whose cards is listed. -/
theorem insertPiece_keeps {p : RangeRec} {rs : List RangeRec} (hp : p.wf) (h : canonical rs) (hc : clearOf rs p) :
    canonical (insertPiece p rs) ∧
      ∀ c, listing (insertPiece p rs) c = if p.lists c then some p.attrs else listing rs c := by
  induction rs with
  | nil => exact ⟨canonical_single hp, fun c => listing_cons p [] c⟩
  | cons r rs ih =>
    obtain ⟨hr, hrs, h'⟩ := canonical_cons.mp h
    have hr1 := BitVec.le_def.mp hr.1
    have hp1 := BitVec.le_def.mp hp.1
    rw [insertPiece]
    split
    · next hlow =>
      have hlow := BitVec.lt_def.mp hlow
      split
      · next hj =>
        obtain ⟨htouch, hshelf, hattrs⟩ := joins_iff.mp hj
        have hq : RangeRec.wf { r with last := p.last } :=
          ⟨BitVec.le_def.mpr (by simp only; omega), by simp only; rw [hr.2, hshelf, hp.2]⟩
        have habove : ∀ x ∈ rs, p.last < x.first := fun x hx => by
          refine (hc.apart hp.1 (List.mem_cons_of_mem _ hx) (h'.1 x hx).1).resolve_left fun hlt => ?_
          have h1 := BitVec.lt_def.mp (hrs x hx).1
          have h2 := BitVec.le_def.mp (h'.1 x hx).1
          have h3 := BitVec.lt_def.mp hlt
          omega
        obtain ⟨hcan, hlist⟩ := joinAbove_keeps hq h' habove
        refine ⟨hcan, fun c => ?_⟩
        have e : RangeRec.attrs { r with last := p.last } = r.attrs := rfl
        rw [hlist, listing_cons, e, ← hattrs, ← ite_or]
        refine if_congr ?_ rfl rfl
        simp only [lists_iff]
        omega
      · next hj =>
        have hc' : clearOf rs p := fun c hcl => by
          have := hc c hcl
          rw [listing_cons] at this
          split at this
          · cases this
          · exact this
        obtain ⟨hcan, hlist⟩ := ih h' hc'
        refine ⟨canonical_cons.mpr ⟨hr, fun x hx => ?_, hcan⟩, fun c => ?_⟩
        · obtain ⟨y, hy, ef, ea⟩ := mem_insertPiece hx
          rw [ef, joins_congr (x' := r) rfl rfl ef ea]
          rcases List.mem_cons.mp hy with rfl | hy
          · exact ⟨BitVec.lt_def.mpr hlow, by simpa using hj⟩
          · exact hrs y hy
        · rw [listing_cons, listing_cons, hlist]
          by_cases h1 : r.lists c = true
          · rw [if_pos h1, if_pos h1, if_neg]
            rw [lists_iff] at h1 ⊢
            omega
          · rw [if_neg h1, if_neg h1]
    · next hhigh =>
      refine joinAbove_keeps hp h fun x hx => ?_
      have h1 := BitVec.lt_def.mp ((hc.apart hp.1 List.mem_cons_self hr.1).resolve_left hhigh)
      have h2 := BitVec.le_def.mp (canonical_order h hx)
      exact BitVec.lt_def.mpr (by omega)

end Sys2Proof.Machine
end

section
/-!
PROOFS. The pieces of a range at the shelf boundaries, placed in a table or appended to it (R26, R35, R39), and O21 and O22 with
them.
-/

namespace Sys2Proof.Machine

/-! ### The pieces of a range (R26) -/

/-- The piece of a range in one of its shelves. -/
def pieceAt (r : RangeRec) (k : Nat) : RangeRec :=
  { r with
    first := if k = shelfOf r.first then r.first else shelfFirst k
    last := if k = shelfOf r.last then r.last else shelfLast k }

/-- The shelf is one that the range meets. -/
def meetsShelf (r : RangeRec) (k : Nat) : Prop := shelfOf r.first ≤ k ∧ k ≤ shelfOf r.last

theorem splitRange_eq (r : RangeRec) :
    splitRange r = (List.range' (shelfOf r.first) (shelfOf r.last - shelfOf r.first + 1)).map (pieceAt r) := by
  rw [List.range'_eq_map_range, List.map_map]
  refine List.map_congr_left fun i _ => ?_
  simp [pieceAt]

theorem mem_splitRange {r p : RangeRec} (h : r.first ≤ r.last) : p ∈ splitRange r ↔ ∃ k, meetsShelf r k ∧ pieceAt r k = p := by
  have := shelfOf_mono h
  rw [splitRange_eq, List.mem_map]
  refine exists_congr fun k => and_congr_left' ?_
  rw [List.mem_range'_1, meetsShelf]
  omega

theorem pieceAt_first {r : RangeRec} {k : Nat} (h : meetsShelf r k) :
    (pieceAt r k).first.toNat = max r.first.toNat (k * 281474976710656) := by
  obtain ⟨h1, h2⟩ := h
  have := shelfOf_lt r.last
  simp only [pieceAt]
  split
  · next e => rw [e, shelfOf_eq]; omega
  · rw [shelfFirst, BitVec.toNat_ofNat]
    rw [shelfOf_eq] at *
    omega

theorem pieceAt_last {r : RangeRec} {k : Nat} (h : meetsShelf r k) :
    (pieceAt r k).last.toNat = min r.last.toNat (k * 281474976710656 + 281474976710655) := by
  obtain ⟨h1, h2⟩ := h
  have := shelfOf_lt r.last
  simp only [pieceAt]
  split
  · next e => rw [e, shelfOf_eq]; omega
  · rw [shelfLast, BitVec.toNat_ofNat]
    rw [shelfOf_eq] at *
    omega

theorem pieceAt_wf {r : RangeRec} {k : Nat} (hr : r.first ≤ r.last) (h : meetsShelf r k) : (pieceAt r k).wf := by
  have hr := BitVec.le_def.mp hr
  have hf := pieceAt_first h
  have hl := pieceAt_last h
  simp only [meetsShelf, shelfOf_eq] at h
  refine ⟨BitVec.le_def.mpr (by omega), ?_⟩
  rw [shelfOf_eq, shelfOf_eq]
  omega

/-- The pieces of a range list its cards. -/
theorem splitRange_lists {r : RangeRec} (hr : r.first ≤ r.last) (c : Card) :
    (∃ p ∈ splitRange r, p.lists c = true) ↔ r.first ≤ c ∧ c ≤ r.last := by
  constructor
  · rintro ⟨p, hp, hc⟩
    obtain ⟨k, hk, rfl⟩ := (mem_splitRange hr).mp hp
    rw [lists_iff, pieceAt_first hk, pieceAt_last hk] at hc
    exact ⟨BitVec.le_def.mpr (by omega), BitVec.le_def.mpr (by omega)⟩
  · rintro ⟨h1, h2⟩
    have hk : meetsShelf r (shelfOf c) := ⟨shelfOf_mono h1, shelfOf_mono h2⟩
    refine ⟨_, (mem_splitRange hr).mpr ⟨_, hk, rfl⟩, ?_⟩
    rw [BitVec.le_def] at h1 h2
    rw [lists_iff, pieceAt_first hk, pieceAt_last hk, shelfOf_eq]
    omega

/-- Pieces to be placed: in order, one above the other, with the same attributes. -/
structure Pieces (a : Reason × BitVec 2 × Option Half) (ps : List RangeRec) : Prop where
  wf : ∀ p ∈ ps, p.wf
  attrs : ∀ p ∈ ps, p.attrs = a
  rising : ps.Pairwise fun p q => p.last < q.first

theorem splitRange_pieces {r : RangeRec} (hr : r.first ≤ r.last) : Pieces r.attrs (splitRange r) where
  wf p hp := by
    obtain ⟨k, hk, rfl⟩ := (mem_splitRange hr).mp hp
    exact pieceAt_wf hr hk
  attrs p hp := by
    obtain ⟨k, hk, rfl⟩ := (mem_splitRange hr).mp hp
    rfl
  rising := by
    have hm := shelfOf_mono hr
    rw [splitRange_eq, List.pairwise_map]
    refine List.pairwise_lt_range' .. |>.imp_of_mem fun {i j} hi hj hij => BitVec.lt_def.mpr ?_
    rw [List.mem_range'_1] at hi hj
    rw [pieceAt_last ⟨by omega, by omega⟩, pieceAt_first ⟨by omega, by omega⟩]
    omega

theorem Pieces.tail {a : Reason × BitVec 2 × Option Half} {p : RangeRec} {ps : List RangeRec} (h : Pieces a (p :: ps)) :
    Pieces a ps :=
  ⟨fun q hq => h.wf q (List.mem_cons_of_mem _ hq), fun q hq => h.attrs q (List.mem_cons_of_mem _ hq),
    (List.pairwise_cons.mp h.rising).2⟩

/-! ### Pieces placed (R39) -/

/-- Pieces none of whose cards is listed, placed one after another. -/
theorem insertPieces_keep {a : Reason × BitVec 2 × Option Half} {ps rs : List RangeRec} (hps : Pieces a ps) (h : canonical rs)
    (hc : ∀ p ∈ ps, clearOf rs p) :
    canonical (ps.foldl (fun acc p => insertPiece p acc) rs) ∧
      ∀ c, listing (ps.foldl (fun acc p => insertPiece p acc) rs) c =
        if ∃ p ∈ ps, p.lists c = true then some a else listing rs c := by
  induction ps generalizing rs with
  | nil => exact ⟨h, fun c => by simp⟩
  | cons p ps ih =>
    obtain ⟨hcan, hlist⟩ := insertPiece_keeps (hps.wf p List.mem_cons_self) h (hc p List.mem_cons_self)
    have hrise := (List.pairwise_cons.mp hps.rising).1
    have hclear : ∀ q ∈ ps, clearOf (insertPiece p rs) q := fun q hq c hcl => by
      rw [hlist, if_neg, hc q (List.mem_cons_of_mem _ hq) c hcl]
      have := BitVec.lt_def.mp (hrise q hq)
      rw [lists_iff] at hcl ⊢
      omega
    obtain ⟨hcan, hall⟩ := ih hps.tail hcan hclear
    refine ⟨hcan, fun c => ?_⟩
    rw [List.foldl_cons, hall, hlist, hps.attrs p List.mem_cons_self, ← ite_or]
    refine if_congr ?_ rfl rfl
    rw [List.exists_mem_cons_iff, or_comm]

theorem addRange_keeps {rs : List RangeRec} {r : RangeRec} (h : canonical rs) (hr : r.first ≤ r.last) :
    canonical (addRange rs r) ∧
      ∀ c, listing (addRange rs r) c = if r.first ≤ c ∧ c ≤ r.last then some r.attrs else listing rs c := by
  have hcut := cutSpan_listing rs hr
  have hlists := splitRange_lists hr
  obtain ⟨hcan, hlist⟩ := insertPieces_keep (splitRange_pieces hr) (cutSpan_parts hr h).1 fun p hp c hc => by
    rw [hcut, if_pos ((hlists c).mp ⟨p, hp, hc⟩)]
  refine ⟨hcan, fun c => ?_⟩
  rw [addRange, hlist, hcut]
  by_cases hin : r.first ≤ c ∧ c ≤ r.last
  · rw [if_pos ((hlists c).mpr hin), if_pos hin]
  · rw [if_neg (mt (hlists c).mp hin), if_neg hin, if_neg hin]

/-- Settles O21: the span is cut out first, and each piece then placed lists none but cards of the span. -/
theorem deltaOperationsListTheirSpan : Obligations.DeltaOperationsListTheirSpan := fun rs c h =>
  ⟨fun _ hr => (addRange_keeps h hr).2 c, fun _ _ hspan => cutSpan_listing rs hspan c⟩

theorem applyTo_canonical {rs : List RangeRec} {op : DeltaOp} (h : canonical rs) (hop : op.span.1 ≤ op.span.2) :
    canonical (op.applyTo rs) := by
  cases op with
  | add r => exact (addRange_keeps h hop).1
  | remove lo hi => exact (cutSpan_parts hop h).1

/-! ### Pieces appended (R35) -/

/-- Appending above a table is placing: the piece comes after the last record or is coalesced into it. -/
theorem appendPiece_eq {rs : List RangeRec} {p : RangeRec} (h : canonical rs) (hlt : ∀ x ∈ rs, x.last < p.first) :
    appendPiece rs p = insertPiece p rs := by
  induction rs with
  | nil => rfl
  | cons r rs ih =>
    obtain ⟨hr, hrs, h'⟩ := canonical_cons.mp h
    cases rs with
    | nil => rw [insertPiece, if_pos (hlt r List.mem_cons_self)]; rfl
    | cons x xs =>
      have hj : r.joins p = false := joins_eq_false <| by
        have h1 := BitVec.lt_def.mp (hrs x List.mem_cons_self).1
        have h2 := BitVec.le_def.mp (h'.1 x List.mem_cons_self).1
        have h3 := BitVec.lt_def.mp (hlt x (by simp))
        omega
      rw [appendPiece, insertPiece, if_pos (hlt r List.mem_cons_self), hj, ih h' fun x hx => hlt x (List.mem_cons_of_mem _ hx)]
      rfl

/-- The records of a canonical table with a piece above them end no higher than the piece. -/
theorem insertPiece_below {p q : RangeRec} {rs : List RangeRec} (hp : p.wf) (h : canonical rs) (hlt : ∀ x ∈ rs, x.last < p.first)
    (hpq : p.last < q.first) : ∀ x ∈ insertPiece p rs, x.last < q.first := by
  obtain ⟨hcan, hlist⟩ := insertPiece_keeps hp h (clearOf_of_below hlt)
  intro x hx
  have hpq := BitVec.lt_def.mp hpq
  have hp1 := BitVec.le_def.mp hp.1
  have hne := listing_last hx (hcan.1 x hx).1
  rw [hlist] at hne
  split at hne
  · next hl =>
    rw [lists_iff] at hl
    exact BitVec.lt_def.mpr (by omega)
  · rw [Ne, listing_none] at hne
    push Not at hne
    obtain ⟨y, hy, hl⟩ := hne
    have := BitVec.lt_def.mp (hlt y hy)
    rw [Bool.ne_false_iff, lists_iff] at hl
    exact BitVec.lt_def.mpr (by omega)

theorem appendPieces_eq {a : Reason × BitVec 2 × Option Half} {ps rs : List RangeRec} (hps : Pieces a ps) (h : canonical rs)
    (hlt : ∀ p ∈ ps, ∀ x ∈ rs, x.last < p.first) :
    ps.foldl appendPiece rs = ps.foldl (fun acc p => insertPiece p acc) rs := by
  induction ps generalizing rs with
  | nil => rfl
  | cons p ps ih =>
    have hp := hps.wf p List.mem_cons_self
    have hbelow := hlt p List.mem_cons_self
    rw [List.foldl_cons, List.foldl_cons, appendPiece_eq h hbelow]
    exact ih hps.tail (insertPiece_keeps hp h (clearOf_of_below hbelow)).1 fun q hq =>
      insertPiece_below hp h hbelow ((List.pairwise_cons.mp hps.rising).1 q hq)

/-- The pieces of a range above a table lie above it. -/
theorem splitRange_above {rs : List RangeRec} {r : RangeRec} (hr : r.first ≤ r.last) (hlt : ∀ x ∈ rs, x.last < r.first) :
    ∀ p ∈ splitRange r, ∀ x ∈ rs, x.last < p.first := by
  intro p hp x hx
  obtain ⟨k, hk, rfl⟩ := (mem_splitRange hr).mp hp
  have h1 := BitVec.lt_def.mp (hlt x hx)
  have h2 := pieceAt_first hk
  exact BitVec.lt_def.mpr (by omega)

theorem appendEntry_canonical {rs : List RangeRec} {r : RangeRec} (h : canonical rs) (hr : r.first ≤ r.last)
    (hlt : ∀ x ∈ rs, x.last < r.first) : canonical (appendEntry rs r) := by
  have habove := splitRange_above hr hlt
  rw [appendEntry, appendPieces_eq (splitRange_pieces hr) h habove]
  exact (insertPieces_keep (splitRange_pieces hr) h fun p hp => clearOf_of_below (habove p hp)).1

/-- Settles O22: cutting and placing keep the shape, an entry above the table is placed, and eviction and pruning take records
away. -/
theorem tablesStayCanonical : Obligations.TablesStayCanonical := fun rs h =>
  ⟨fun _ hop => ⟨canonical_sublist (evict_sublist _) (applyTo_canonical h hop), evict_length_le _⟩,
    fun _ hr hlt => appendEntry_canonical h hr hlt,
    fun day n => canonical_sublist (pruneFirst_sublist day n rs) h,
    fun day => pruneFirst_all day rs rs.length (Nat.le_refl _)⟩

/-! ### The last record and the number of records after an entry (R34, R35) -/

theorem appendPiece_append_singleton (rs : List RangeRec) (r p : RangeRec) :
    appendPiece (rs ++ [r]) p = if r.joins p then rs ++ [{ r with last := p.last }] else rs ++ [r, p] := by
  induction rs with
  | nil => rfl
  | cons x xs ih =>
    have e : appendPiece (x :: xs ++ [r]) p = x :: appendPiece (xs ++ [r]) p := by cases xs <;> rfl
    rw [e, ih]
    split <;> rfl

/-- The table's last record ends where the range ends and carries its attributes; before the first entry of a part there is
none. -/
def endsWith (rs : List RangeRec) (e : Option RangeRec) : Prop :=
  rs.getLast?.map (fun r => (r.last, r.attrs)) = e.map fun r => (r.last, r.attrs)

theorem endsWith_self (rs : List RangeRec) : endsWith rs rs.getLast? := rfl

/-- A piece appended becomes the end of the table, and adds a record unless the end before joins it. -/
theorem appendPiece_ends {rs : List RangeRec} {prev : Option RangeRec} (h : endsWith rs prev) (p : RangeRec) :
    endsWith (appendPiece rs p) (some p) ∧
      (appendPiece rs p).length = rs.length + (1 - if prev.any fun q => q.joins p then 1 else 0) := by
  rcases rs.eq_nil_or_concat' with rfl | ⟨xs, r, rfl⟩
  · cases prev with
    | none => exact ⟨rfl, rfl⟩
    | some q => cases h
  · cases prev with
    | none => simp [endsWith] at h
    | some q =>
      simp only [endsWith, List.getLast?_concat, Option.map_some, Option.some.injEq, Prod.mk.injEq] at h
      have e : r.joins p = q.joins p := joins_congr h.1 h.2 rfl rfl
      rw [appendPiece_append_singleton, Option.any_some, ← e]
      split
      · next hj =>
        refine ⟨?_, by simp⟩
        simp only [endsWith, List.getLast?_concat, Option.map_some]
        rw [← (joins_iff.mp hj).2.2]
        rfl
      · exact ⟨by simp [endsWith], by simp⟩

/-- Pieces in different shelves do not join. -/
theorem appendPieces_length {r p : RangeRec} {n k : Nat} {rs : List RangeRec} (hr : r.first ≤ r.last) (hk : k + n = shelfOf r.last)
    (hs : shelfOf r.first ≤ k) (hp : pieceAt r k = p) (h : endsWith rs (some p)) :
    endsWith (((List.range' (k + 1) n).map (pieceAt r)).foldl appendPiece rs) (some r) ∧
      (((List.range' (k + 1) n).map (pieceAt r)).foldl appendPiece rs).length = rs.length + n := by
  induction n generalizing k p rs with
  | zero =>
    refine ⟨?_, rfl⟩
    rw [endsWith] at h
    simp only [List.range'_zero, List.map_nil, List.foldl_nil, endsWith]
    rw [h, ← hp]
    simp [pieceAt, ← hk, RangeRec.attrs]
  | succ n ih =>
    have hj : (pieceAt r k).joins (pieceAt r (k + 1)) = false := by
      rw [← Bool.not_eq_true, joins_iff]
      rintro ⟨-, hsh, -⟩
      have h1 := pieceAt_last (r := r) (k := k) ⟨by omega, by omega⟩
      have h2 := pieceAt_first (r := r) (k := k + 1) ⟨by omega, by omega⟩
      have hr := BitVec.le_def.mp hr
      rw [shelfOf_eq] at *
      rw [shelfOf_eq] at *
      omega
    obtain ⟨hend, hlen⟩ := appendPiece_ends h (pieceAt r (k + 1))
    rw [List.range'_succ, List.map_cons, List.foldl_cons]
    obtain ⟨h1, h2⟩ := ih (k := k + 1) (by omega) (by omega) rfl hend
    refine ⟨h1, ?_⟩
    rw [h2, hlen, ← hp, Option.any_some, hj]
    simp
    omega

theorem entryAdds_eq (prev : Option RangeRec) (e : RangeRec) :
    entryAdds prev e = extraPieces e + 1 - if prev.any fun q => q.joins e then 1 else 0 := by
  cases prev <;> rfl

/-- An entry becomes the end of the table and adds the records the capacity check counts (R34). -/
theorem appendEntry_ends {rs : List RangeRec} {prev : Option RangeRec} {e : RangeRec} (he : e.first ≤ e.last)
    (h : endsWith rs prev) :
    endsWith (appendEntry rs e) (some e) ∧ (appendEntry rs e).length = rs.length + entryAdds prev e := by
  have hm := shelfOf_mono he
  have hk : (pieceAt e (shelfOf e.first)).first = e.first := by simp [pieceAt]
  have hj : (prev.any fun q => q.joins (pieceAt e (shelfOf e.first))) = prev.any fun q => q.joins e := by
    cases prev with
    | none => rfl
    | some q => exact joins_congr rfl rfl hk rfl
  obtain ⟨hend, hlen⟩ := appendPiece_ends h (pieceAt e (shelfOf e.first))
  obtain ⟨h1, h2⟩ := appendPieces_length (n := shelfOf e.last - shelfOf e.first) he (by omega) (Nat.le_refl _) rfl hend
  rw [appendEntry, splitRange_eq, List.range'_succ, List.map_cons, List.foldl_cons]
  refine ⟨h1, ?_⟩
  rw [h2, hlen, hj, entryAdds_eq, extraPieces]
  split <;> omega

end Sys2Proof.Machine
end

section
/-!
PROOFS. Tables stay canonical and packages that passed their checks keep what they were checked against, which settles O58.
-/

namespace Sys2Proof.Machine

variable {s t u : State} {b : BankId}

/-! ### What the checks of a package rest on (R32 to R34, R36) -/

theorem checkContent_congr {x y : Bank} (h : x.checked = y.checked) (kind : PackageKind) (buffer : List Byte) :
    checkContent x kind buffer = checkContent y kind buffer := by
  simp only [Bank.checked, Prod.mk.injEq] at h
  obtain ⟨hstatus, hversion, hrecords⟩ := h
  cases kind with
  | tariff => rfl
  | blockBase => simp only [checkContent, checkBase, hstatus, hrecords]
  | blockDelta => simp only [checkContent, checkDelta, hstatus, hversion]

/-- At most one bank is on the build side, tables are canonical, and packages in their apply phase have passed their checks. -/
structure Tabled (s : State) : Prop where
  one : ∀ b c, (s.recOf b).state.buildSide = true → (s.recOf c).state.buildSide = true → b = c
  tables : tablesLaw s
  package : packageLaw s

theorem rolesLaw.one (h : rolesLaw s) : ∀ b c, (s.recOf b).state.buildSide = true → (s.recOf c).state.buildSide = true → b = c := by
  obtain ⟨-, h⟩ := h
  intro b c hb hc
  cases b <;> cases c
  · rfl
  · exact absurd ⟨hb, hc⟩ h
  · exact absurd ⟨hc, hb⟩ h
  · rfl

theorem building_side (h : (s.recOf b).state = .building) : (s.recOf b).state.buildSide = true := by rw [h]; rfl

theorem Tabled.steady (h : Tabled s) (g : Steady s t) : Tabled t where
  one b c hb hc := h.one b c (g.side b hb) (g.side c hc)
  tables := g.tables h.tables
  package := by
    rw [packageLaw, g.loader]
    refine ⟨fun hl => ?_, fun id kind total hl b hb => ?_⟩
    · obtain ⟨b, hb⟩ := h.package.1 hl
      exact ⟨b, (g.built b hb).1⟩
    · obtain ⟨c, hc⟩ := h.package.1 (by rw [hl]; nofun)
      obtain rfl := h.one b c (g.side b (building_side hb)) (building_side hc)
      rw [checkContent_congr (g.built b hc).2]
      exact h.package.2 id kind total hl b hc

/-- With the loader IDLE there is no package to have passed its checks. -/
theorem packageLaw_of_idle (h : s.loader.state = .idle) : packageLaw s := by
  rw [packageLaw, h]
  exact ⟨fun hn => absurd rfl hn, nofun⟩

/-- A change that leaves the loader IDLE and puts no bank on the build side. -/
theorem Tabled.idled (h : Tabled s) (side : ∀ c, (t.recOf c).state.buildSide = true → (s.recOf c).state.buildSide = true)
    (tables : tablesLaw t) (idle : t.loader.state = .idle) : Tabled t :=
  ⟨fun b c hb hc => h.one b c (side b hb) (side c hc), tables, packageLaw_of_idle idle⟩

/-- With no bank on the build side the loader is IDLE. -/
theorem Tabled.idle (h : Tabled s) (hfree : s.buildSideTaken = false) : s.loader.state = .idle := by
  by_contra hl
  obtain ⟨b, hb⟩ := h.package.1 hl
  have := building_side hb
  rw [State.buildSideTaken, Bool.or_eq_false_iff] at hfree
  cases b
  · rw [hfree.1] at this; cases this
  · rw [hfree.2] at this; cases this

/-! ### Builds and resets (R5, R6, R10, R20, R198) -/

theorem Tabled.reset_blocks (h : Tabled s) : Tabled (resetBlocks s) := by
  have hreset : ∀ b, ((resetBlocks s).recOf b).state.buildSide = false := fun b => by cases b <;> rfl
  refine ⟨fun b c hb => ?_, fun b => ?_, packageLaw_of_idle rfl⟩
  · rw [hreset] at hb; cases hb
  · cases b
    · exact h.tables .bankA
    · exact h.tables .bankB

/-- The first bank joins the build side. -/
theorem Tabled.joined (h : Tabled s) (hfree : s.buildSideTaken = false) (hloader : t.loader = s.loader)
    (hother : t.recOf (other b) = s.recOf (other b)) (tables : tablesLaw t) : Tabled t := by
  have hb : (t.recOf (other b)).state.buildSide = false := by
    rw [hother]
    rw [State.buildSideTaken, Bool.or_eq_false_iff] at hfree
    cases b
    · exact hfree.2
    · exact hfree.1
  have only : ∀ c, (t.recOf c).state.buildSide = true → c = b := fun c hc =>
    (eq_or_other b c).resolve_right fun e => by rw [e, hb] at hc; cases hc
  exact ⟨fun c d hc hd => (only c hc).trans (only d hd).symm, tables, packageLaw_of_idle (hloader ▸ h.idle hfree)⟩

theorem beginBuild_recOf_other (b : BankId) (o : BuildOption) (s : State) :
    (beginBuild b o s).recOf (other b) = s.recOf (other b) := by cases o <;> cases b <;> rfl

theorem Tabled.open_build {option : Byte} (h : Tabled s) : Tabled (openBuild option s).state := by
  have take : s.buildSideTaken = false → ∀ o, Tabled (takeOpenBuild o s).state := fun hfree o => by
    have begun : ∀ o, Tabled (beginBuild s.openTarget o s) := fun o =>
      h.joined hfree (beginBuild_loader _ _ _) (beginBuild_recOf_other _ _ _) (begun_tables.2 h.tables)
    unfold takeOpenBuild
    dsimp only
    repeat' split
    all_goals rw [answer_state]
    · exact h.joined hfree rfl (State.recOf_setRec_other _ _ _) (tablesLaw_setBank h.tables (h.tables _))
    · exact begun _
    · exact begun _
  unfold openBuild
  split
  · exact h
  · split
    · exact h
    · next hfree =>
      have hfree := Bool.eq_false_iff.mpr hfree
      split
      · exact take hfree _
      · split
        · exact h
        · split
          · exact h
          · exact take hfree _

/-- The record of a bank that was on the build side replaced, the loader IDLE. -/
theorem Tabled.set_record {r : BankRecord} (h : Tabled s) (hb : (s.recOf b).state.buildSide = true)
    (hbanks : t.banks = (s.setRec b r).banks) (hidle : t.loader.state = .idle) : Tabled t := by
  have bank : ∀ c, t.bank c = (s.setRec b r).bank c := fun c => by rw [State.bank, State.bank, hbanks]
  have record : ∀ c, t.recOf c = (s.setRec b r).recOf c := fun c => congrArg Bank.record (bank c)
  refine h.idled (fun c => ?_) (fun c => ?_) hidle
  · rw [record, State.recOf_setRec]
    split
    · next e => rw [e]; exact fun _ => hb
    · exact id
  · rw [bank]
    exact tablesLaw_setBank (x := { s.bank b with record := r }) h.tables (h.tables b) c

theorem Tabled.close_build {mode : Byte} {day minute : Half} (h : Tabled s) : Tabled (closeBuild mode day minute s).state := by
  unfold closeBuild
  split
  · exact h
  · next b hb =>
    have hside := building_side (findBank_some hb)
    dsimp only
    split
    · exact h
    · next hidle =>
      repeat' split
      any_goals exact h
      all_goals exact h.set_record (b := b) hside rfl (Decidable.not_not.mp hidle)

theorem workBank_side (h : s.workBank = some b) : (s.recOf b).state.buildSide = true := by
  have found : ∀ {x : BankState}, x.buildSide = true → s.findBank x = some b → (s.recOf b).state.buildSide = true := fun hx hb => by
    rw [findBank_some hb]; exact hx
  unfold State.workBank at h
  split at h
  · next hb => cases h; exact found rfl hb
  · split at h
    · next hb => cases h; exact found rfl hb
    · exact found rfl h

theorem Tabled.discard_build (h : Tabled s) : Tabled (discardBuild s).state := by
  unfold discardBuild
  split
  · next b hb => exact h.set_record (workBank_side hb) (r := BankRecord.reset) rfl rfl
  · split
    · next b hb => exact h.set_record (b := b) (by rw [findBank_some hb]; rfl) rfl rfl
    · exact h

/-! ### Segments and the check phase (R71 to R76) -/

/-- A change of the loader alone that begins no apply phase and finds a bank BUILDING. -/
theorem Tabled.loading (h : Tabled s) (hbanks : t.banks = s.banks) (hb : (s.recOf b).state = .building)
    (hl : ∀ id kind total, t.loader.state ≠ .applying id kind total .apply) : Tabled t := by
  have bank : ∀ c, t.bank c = s.bank c := fun c => by rw [State.bank, State.bank, hbanks]
  have record : ∀ c, t.recOf c = s.recOf c := fun c => congrArg Bank.record (bank c)
  refine ⟨fun c d => ?_, fun c => ?_, fun _ => ⟨b, ?_⟩, fun id kind total he => absurd he (hl id kind total)⟩
  · rw [record, record]; exact h.one c d
  · rw [bank]; exact h.tables c
  · rw [record]; exact hb

theorem finishWith_idle (result : PackageResult) (n : Nat) (e : Event) (s : State) :
    (finishWith result n e s).loader.state = .idle ∧ (finishWith result n e s).banks = s.banks := by
  unfold finishWith
  dsimp only
  split <;> exact ⟨rfl, rfl⟩

theorem Tabled.finish {result : PackageResult} {n : Nat} {e : Event} (h : Tabled s) (hbanks : t.banks = s.banks) :
    Tabled (finishWith result n e t) := by
  obtain ⟨hidle, hsame⟩ := finishWith_idle result n e t
  have bank : ∀ c, (finishWith result n e t).bank c = s.bank c := fun c => by rw [State.bank, State.bank, hsame, hbanks]
  have record : ∀ c, (finishWith result n e t).recOf c = s.recOf c := fun c => congrArg Bank.record (bank c)
  refine h.idled (fun c => ?_) (fun c => ?_) hidle
  · rw [record]; exact id
  · rw [bank]; exact h.tables c

theorem Tabled.package_refused {id : Half} {kind : PackageKind} {code : ResultCode} {index : Option Nat} {c : Counts}
    (h : Tabled s) (hbanks : t.banks = s.banks) : Tabled (packageRefused id kind code index c t) :=
  h.finish (t := { t with free := t.free + 3 }) hbanks

theorem Tabled.segment_stored {last : Bool} {r : Receiving} {start : Nat} {payload : List Byte} (h : Tabled s)
    (hb : (s.recOf b).state = .building) : Tabled (segmentStored last r (storePayload start last payload s)).state := by
  have hbanks : (storePayload start last payload s).banks = s.banks := rfl
  generalize storePayload start last payload s = t at hbanks ⊢
  unfold segmentStored wholePackage abandonPackage
  repeat' split
  · rw [answer_state]; exact h.package_refused hbanks
  · exact h.loading (t := { t with loader := { t.loader with state := _ } }) hbanks hb fun _ _ _ e => by cases e
  · exact h.loading (t := { t with loader := { t.loader with state := _ } }) hbanks hb fun _ _ _ e => by cases e

theorem Tabled.segment_taken {id index count : Half} {payload : List Byte} (h : Tabled s) :
    Tabled (segment id index count payload s).state := by
  unfold segment
  split
  · exact h
  · split
    · unfold startPackage
      split
      · exact h
      · split
        · exact h
        · next b hb =>
          split
          · exact h
          · exact h.segment_stored (findBank_some hb)
    · unfold continuePackage
      split
      · exact h
      · exact h
      · next r hr =>
        obtain ⟨b, hb⟩ := h.package.1 (by rw [hr]; nofun)
        split
        · exact h
        · unfold takeSegment abandonPackage
          split
          · rw [answer_state]; exact h.package_refused rfl
          · exact h.segment_stored hb

/-- The bank found BUILDING is the one the loader works on. -/
theorem Tabled.found (h : Tabled s) {c : BankId} (hb : s.findBank .building = some b) (hc : (s.recOf c).state = .building) : c = b :=
  h.one c b (building_side hc) (building_side (findBank_some hb))

theorem Tabled.check_phase_end (h : Tabled s) : Tabled (checkPhaseEnd s) := by
  unfold checkPhaseEnd
  split
  · next id kind total b hl hb =>
    have hread := Steady.run_check_reads (b := b) (rs := checkReads (s.bank b) kind s.loader.buffer) (.refl s)
    have h1 := h.steady hread
    obtain ⟨hbuilding, hchecked⟩ := hread.built b (findBank_some hb)
    dsimp only
    split
    · split
      · next hnone =>
        refine ⟨h1.one, h1.tables, fun _ => ⟨b, hbuilding⟩, fun id' kind' total' he c hc => ?_⟩
        obtain rfl := h1.one c b (building_side hc) (building_side hbuilding)
        cases he
        have hbuffer := congrArg Loader.buffer hread.loader
        exact (checkContent_congr hchecked _ _).trans ((congrArg _ hbuffer).trans hnone)
      · exact h1.package_refused rfl
    · exact h1.package_refused rfl
  · exact h

/-! ### The apply phase (R78, R79) -/

/-- A state that the apply phase of a package for the bank comes to from `s`. -/
structure Applied (b : BankId) (s t : State) : Prop where
  building : (t.recOf b).state = .building
  side : ∀ c, (t.recOf c).state.buildSide = true → (s.recOf c).state.buildSide = true
  tables : tablesLaw t

theorem Applied.steady (h : Applied b s t) (g : Steady t u) :
    Applied b s u ∧ (u.bank b).ranges.records = (t.bank b).ranges.records := by
  obtain ⟨hb, hchecked⟩ := g.built b h.building
  exact ⟨⟨hb, fun c hc => h.side c (g.side c hc), g.tables h.tables⟩, congrArg (fun p => p.2.2) hchecked⟩

/-- A bank replaced by one still BUILDING with a table in canonical shape. -/
theorem Applied.set_bank {x : Bank} (h : Applied b s t) (hx : x.record.state = .building)
    (htable : canonical x.ranges.records ∧ x.ranges.records.length ≤ 16384) : Applied b s (t.setBank b x) := by
  refine ⟨?_, fun c => ?_, tablesLaw_setBank h.tables htable⟩
  · rw [State.recOf_setBank, if_pos rfl]; exact hx
  · rw [State.recOf_setBank]
    split
    · next e => rw [e]; exact fun _ => h.side b (building_side h.building)
    · exact h.side c

theorem Applied.set_record {r : BankRecord} (h : Applied b s t) (hr : r.state = (t.recOf b).state) : Applied b s (t.setRec b r) :=
  h.set_bank (hr.trans h.building) (h.tables b)

theorem Applied.refreshed {w : WordLoc → Bool} (h : Applied b s t) : Applied b s (t.refresh w) :=
  ⟨h.building, h.side, h.tables⟩

theorem Applied.write_ranges {rs : List RangeRec} (h : Applied b s t) (hrs : canonical rs ∧ rs.length ≤ 16384) :
    Applied b s (writeRanges b (RangeRegion.ofRecords rs) t) :=
  (h.set_bank (x := { t.bank b with ranges := RangeRegion.ofRecords rs }) h.building hrs).refreshed

theorem writeRanges_records (b : BankId) (new : RangeRegion) (s : State) : ((writeRanges b new s).bank b).ranges = new := by
  rw [writeRanges, State.refresh_bank, State.bank_setBank_same]

theorem Applied.empty_table (h : Applied b s t) : Applied b s (emptyTable b t) :=
  (h.set_bank (x := { t.bank b with ranges := RangeRegion.empty }) h.building ⟨canonical_nil, Nat.zero_le _⟩).refreshed

theorem emptyTable_records (b : BankId) (s : State) : ((emptyTable b s).bank b).ranges.records = [] := by
  rw [emptyTable, State.refresh_bank, State.bank_setBank_same]
  rfl

/-- Every end of the apply phase leaves the loader IDLE (R80). -/
theorem Applied.finish {result : PackageResult} {n : Nat} {e : Event} (hs : Tabled s) (h : Applied b s t) :
    Tabled (finishWith result n e t) :=
  (hs.idled (t := { t with loader := ⟨.idle, result, []⟩ }) h.side h.tables rfl).finish rfl

theorem Applied.refused {id : Half} {kind : PackageKind} {code : ResultCode} {index : Option Nat} {c : Counts}
    (hs : Tabled s) (h : Applied b s t) : Tabled (packageRefused id kind code index c t) :=
  Applied.finish hs (t := { t with free := t.free + 3 }) ⟨h.building, h.side, h.tables⟩

theorem Applied.done {id : Half} {kind : PackageKind} {c : Counts} (hs : Tabled s) (h : Applied b s t) :
    Tabled (packageDone id kind c t) :=
  Applied.finish hs (t := { t with free := t.free + 3 }) ⟨h.building, h.side, h.tables⟩

/-- No record ends above the last one. -/
theorem last_le_getLast {rs : List RangeRec} {x r : RangeRec} (h : canonical rs) (hx : x ∈ rs) (hr : rs.getLast? = some r) :
    x.last ≤ r.last := by
  obtain ⟨xs, rfl⟩ := List.getLast?_eq_some_iff.mp hr
  rcases List.mem_append.mp hx with hx | hx
  · have h1 := BitVec.lt_def.mp ((List.pairwise_append.mp h.2.1).2.2 x hx r List.mem_cons_self)
    have h2 := BitVec.le_def.mp (h.1 r (by simp)).1
    exact BitVec.le_def.mpr (by omega)
  · rw [List.mem_singleton.mp hx]
    exact BitVec.le_def.mpr (le_refl _)

/-- An entry above the record before lies above the whole table. -/
theorem above_table {rs : List RangeRec} {prev : Option RangeRec} {e x : RangeRec} (h : canonical rs) (hp : endsWith rs prev)
    (ho : prev.any (fun p => decide (e.first ≤ p.last)) = false) (hx : x ∈ rs) : x.last < e.first := by
  obtain ⟨r, hr⟩ := Option.isSome_iff_exists.mp (List.getLast?_isSome.mpr (List.ne_nil_of_mem hx))
  rw [endsWith, hr] at hp
  cases prev with
  | none => cases hp
  | some p =>
    simp only [Option.map_some, Option.some.injEq, Prod.mk.injEq] at hp
    have h1 := BitVec.le_def.mp (last_le_getLast h hx hr)
    simp only [Option.any_some, decide_eq_false_iff_not, BitVec.not_le] at ho
    have h2 := BitVec.lt_def.mp ho
    rw [hp.1] at h1
    exact BitVec.lt_def.mpr (by omega)

/-- What the check of the entries found of the first. -/
theorem checkEntries_cons {i count : Nat} {prev : Option RangeRec} {bs : List Byte} {rest : List (List Byte)} {e : RangeRec}
    (h : checkEntries i prev count (bs :: rest) = none) (he : entryOf bs = some e) :
    e.first ≤ e.last ∧ prev.any (fun p => decide (e.first ≤ p.last)) = false ∧ count + entryAdds prev e ≤ 16384 ∧
      checkEntries (i + 1) (some e) (count + entryAdds prev e) rest = none := by
  rw [checkEntries, he] at h
  dsimp only at h
  split at h
  · cases h
  · next h1 =>
    split at h
    · cases h
    · next h2 =>
      split at h
      · cases h
      · next h3 => exact ⟨BitVec.not_lt.mp h1, Bool.eq_false_iff.mpr h2, Nat.not_lt.mp h3, h⟩

/-- Entries that passed their checks keep the table canonical, above the records before and within the capacity. -/
theorem Applied.apply_entries {bss : List (List Byte)} {i count lo : Nat} {prev : Option RangeRec} {c : Counts}
    (h : Applied b s t) (hcheck : checkEntries i prev count bss = none) (hprev : endsWith (t.bank b).ranges.records prev)
    (hcount : (t.bank b).ranges.records.length = count) : Applied b s (applyEntries b lo bss c t).state := by
  induction bss generalizing i count lo prev c t with
  | nil => exact h
  | cons bs rest ih =>
    obtain ⟨h1, e1⟩ := h.steady ((Steady.refl t).read_new (lo := lo) (hi := lo + 17))
    unfold applyEntries
    dsimp only
    split
    · exact h1
    · split
      · exact h1
      · next e he =>
        obtain ⟨horder, habove, hfits, hrest⟩ := checkEntries_cons hcheck he
        rw [← e1] at hprev hcount
        obtain ⟨hlast, hlen⟩ := appendEntry_ends horder hprev
        generalize (readNewBytes lo (lo + 17) t).1 = t1 at h1 hprev hcount hlast hlen ⊢
        have hcan := (h1.tables b).1
        have hnew := appendEntry_canonical hcan horder fun x hx => above_table hcan hprev habove hx
        have h2 : ∀ items, Applied b s (readItems .loader b items t1).1 := fun _ => (h1.steady (Steady.refl t1).read_items).1
        rw [hcount] at hlen
        split
        · exact h2 _
        · exact ih ((h2 _).write_ranges ⟨hnew, hlen ▸ hfits⟩) hrest (by rw [writeRanges_records]; exact hlast)
            (by rw [writeRanges_records]; exact hlen)

theorem Applied.apply_op {op : DeltaOp} (h : Applied b s t) (hop : op.span.1 ≤ op.span.2) : Applied b s (applyOp b op t) := by
  have hnew := canonical_sublist (evict_sublist _) (applyTo_canonical (h.tables b).1 hop)
  exact (h.write_ranges ⟨hnew, evict_length_le _⟩).set_record rfl

theorem Applied.apply_ops {bss : List (List Byte)} {i lo : Nat} {c : Counts} (h : Applied b s t)
    (hcheck : checkOps i bss = none) : Applied b s (applyOps b lo bss c t).state := by
  induction bss generalizing i lo c t with
  | nil => exact h
  | cons bs rest ih =>
    have h1 := (h.steady ((Steady.refl t).read_new (lo := lo) (hi := lo + 18))).1
    unfold applyOps
    dsimp only
    split
    · exact h1
    · split
      · exact h1
      · next op hop =>
        generalize (readNewBytes lo (lo + 18) t).1 = t1 at h1 ⊢
        have h2 : ∀ items, Applied b s (readItems .loader b items t1).1 := fun _ => (h1.steady (Steady.refl t1).read_items).1
        split
        · exact h2 _
        · rw [checkOps, hop] at hcheck
          dsimp only at hcheck
          split at hcheck
          · cases hcheck
          · next hspan => exact ih ((h2 _).apply_op (BitVec.not_lt.mp hspan)) hcheck

theorem Applied.end_range_apply {id : Half} {kind : PackageKind} {done : BankRecord → BankRecord} {r : ApplyRun} (hs : Tabled s)
    (h : Applied b s r.state) (hdone : ∀ x, (done x).state = x.state) : Tabled (endRangeApply b id kind done r) := by
  unfold endRangeApply
  split
  · exact Applied.done hs (h.set_record (hdone _))
  · exact Applied.refused hs (h.set_record rfl)
  · exact Applied.refused hs h

theorem BankRecord.afterPart_state (h : BaseHeader) (r : BankRecord) : (r.afterPart h).state = r.state := by
  unfold BankRecord.afterPart
  split <;> rfl

theorem Tabled.apply_base {id : Half} (h : Tabled s) (ha : Applied b s s) (hcheck : checkBase (s.bank b) s.loader.buffer = none) :
    Tabled (applyBase b id s) := by
  obtain ⟨h1, e1⟩ := ha.steady ((Steady.refl s).read_buffer (lo := 0) (hi := 18))
  unfold checkBase at hcheck
  unfold applyBase
  split
  · exact h
  · next hd body hheader =>
    rw [hheader] at hcheck
    dsimp only at hcheck ⊢
    refine Applied.end_range_apply h ?_ (BankRecord.afterPart_state hd)
    split at hcheck
    · cases hcheck
    · split at hcheck
      · cases hcheck
      · by_cases hok : (readBuffer 0 18 s).2 = true
        · rw [if_pos hok]
          by_cases hpart : hd.part = 1#16
          · rw [if_pos hpart] at hcheck ⊢
            exact h1.empty_table.apply_entries hcheck (by rw [emptyTable_records]; rfl) (by rw [emptyTable_records]; rfl)
          · rw [if_neg hpart] at hcheck ⊢
            exact h1.apply_entries hcheck (by rw [e1]; exact endsWith_self _) (by rw [e1])
        · rw [if_neg hok]
          exact h1

theorem Tabled.apply_delta {id : Half} (h : Tabled s) (ha : Applied b s s)
    (hcheck : checkDelta (s.recOf b) s.loader.buffer = none) : Tabled (applyDelta b id s) := by
  have h1 := (ha.steady ((Steady.refl s).read_buffer (lo := 0) (hi := 18))).1
  unfold checkDelta at hcheck
  unfold applyDelta
  split
  · exact h
  · next hd body hheader =>
    rw [hheader] at hcheck
    dsimp only at hcheck ⊢
    refine Applied.end_range_apply h ?_ fun _ => rfl
    split at hcheck
    · cases hcheck
    · split at hcheck
      · cases hcheck
      · split
        · exact h1.apply_ops hcheck
        · exact h1

theorem Applied.read_records {ws : List Nat} {lo n : Nat} (h : Applied b s t) : Applied b s (readRecords lo ws n t).1 := by
  induction ws generalizing lo n t with
  | nil => exact h
  | cons w ws ih =>
    have h1 := (h.steady ((Steady.refl t).read_new (lo := lo) (hi := lo + w))).1
    unfold readRecords
    dsimp only
    split
    · exact ih h1
    · exact h1

theorem Applied.write_tariff {p : TariffPackage} {n : Nat} (h : Applied b s t) : Applied b s (writeTariff b p n t) :=
  (h.set_bank (x := { t.bank b with tariff := p.over n (t.bank b).tariff }) h.building (h.tables b)).refreshed

theorem Tabled.apply_tariff {id : Half} (h : Tabled s) (ha : Applied b s s) : Tabled (applyTariff b id s) := by
  have h1 := (ha.steady ((Steady.refl s).read_buffer (lo := 0) (hi := 16))).1
  unfold applyTariff
  split
  · exact h
  · next p _ =>
    have h2 := (h1.read_records (lo := 16) (n := 0) (ws := tariffWidths p)).write_tariff
      (p := p) (n := (readRecords 16 (tariffWidths p) 0 (readBuffer 0 16 s).1).2.1)
    dsimp only
    repeat' split
    · exact Applied.refused h (h1.set_record rfl)
    · exact Applied.done h (h2.set_record rfl)
    · exact Applied.refused h (h2.set_record rfl)

theorem Tabled.apply_phase_end (h : Tabled s) : Tabled (applyPhaseEnd s) := by
  unfold applyPhaseEnd
  split
  · next id kind total b hl hb =>
    have hbuilding := findBank_some hb
    have ha : Applied b s s := ⟨hbuilding, fun _ hc => hc, h.tables⟩
    have hcheck := h.package.2 id kind total hl b hbuilding
    cases kind with
    | tariff => exact h.apply_tariff ha
    | blockBase => exact h.apply_base ha hcheck
    | blockDelta => exact h.apply_delta ha hcheck
  · exact h

theorem Tabled.settled : Settled Tabled where
  steady := Tabled.steady
  resetBlocks := Tabled.reset_blocks
  openBuild := Tabled.open_build
  closeBuild := Tabled.close_build
  discardBuild := Tabled.discard_build
  segment := Tabled.segment_taken
  checkPhaseEnd := Tabled.check_phase_end
  applyPhaseEnd := Tabled.apply_phase_end

/-- Settles O58: the laws with the build side's one bank are a `Settled` predicate, for entries and operations that passed their
checks keep a table canonical. -/
theorem stepKeepsTablesCanonical : Obligations.StepKeepsTablesCanonical := by
  intro s t hroles htables hpackage hstep
  have h : Tabled t := Tabled.settled.stepped ⟨hroles.one, htables, hpackage⟩ hstep
  exact ⟨h.tables, h.package⟩

end Sys2Proof.Machine
end

section
/-!
PROOFS. The directory of a table (R28): its entries, where a shelf's records stand, and O24.
-/

namespace Sys2Proof.Machine

/-- The number of records in the shelves below one (R28). -/
def recordsBelow (rs : List RangeRec) (k : Nat) : Nat := (rs.filter fun r => decide (shelfOf r.first < k)).length

theorem recordsBelow_zero (rs : List RangeRec) : recordsBelow rs 0 = 0 := by simp [recordsBelow]

theorem recordsBelow_succ (rs : List RangeRec) (k : Nat) :
    recordsBelow rs (k + 1) = recordsBelow rs k + (shelfRecords rs k).length := by
  unfold recordsBelow shelfRecords
  induction rs with
  | nil => rfl
  | cons r rs ih =>
    rcases Nat.lt_trichotomy (shelfOf r.first) k with h | h | h
    · have h1 : shelfOf r.first < k + 1 := by omega
      have h2 : shelfOf r.first ≠ k := by omega
      simp only [List.filter_cons, h, h1, h2, decide_true, decide_false, if_true, Bool.false_eq_true, if_false, List.length_cons, ih]
      omega
    · subst h
      simp only [List.filter_cons, Nat.lt_irrefl, Nat.lt_succ_self, decide_true, decide_false, if_true, Bool.false_eq_true,
        if_false, List.length_cons, ih]
      omega
    · have h1 : ¬shelfOf r.first < k + 1 := by omega
      have h2 : ¬shelfOf r.first < k := by omega
      have h3 : shelfOf r.first ≠ k := by omega
      simp only [List.filter_cons, h1, h2, h3, decide_false, Bool.false_eq_true, if_false, ih]

/-- The entries of shelves one after the other, from the first position of the first. -/
theorem directoryFrom_range' (rs : List RangeRec) (k n : Nat) :
    directoryFrom rs (recordsBelow rs k) (List.range' k n) =
      (List.range' k n).map fun i => ⟨(shelfRecords rs i).length, recordsBelow rs i⟩ := by
  induction n generalizing k with
  | zero => rfl
  | succ n ih =>
    rw [List.range'_succ, directoryFrom, List.map_cons, ← recordsBelow_succ, ih]

/-- The directory gives each shelf the number of its records and the number of those in the shelves below (R28). -/
theorem ofRecords_directory (rs : List RangeRec) :
    (RangeRegion.ofRecords rs).directory = (List.range 256).map fun i => ⟨(shelfRecords rs i).length, recordsBelow rs i⟩ := by
  have h := directoryFrom_range' rs 0 256
  rwa [recordsBelow_zero, ← List.range_eq_range'] at h

theorem ofRecords_directory_get {shelf : Nat} (rs : List RangeRec) (h : shelf < 256) :
    (RangeRegion.ofRecords rs).directory.getD shelf ⟨0, 0⟩ = ⟨(shelfRecords rs shelf).length, recordsBelow rs shelf⟩ := by
  rw [ofRecords_directory, List.getD_eq_getElem?_getD, List.getElem?_map, List.getElem?_range h]
  rfl

/-- In a canonical table the shelves come in order. -/
theorem canonical_shelves {rs : List RangeRec} (h : canonical rs) : rs.Pairwise fun x y => shelfOf x.first ≤ shelfOf y.first := by
  refine h.2.1.imp_of_mem fun {x y} hx _ hxy => shelfOf_mono (BitVec.le_def.mpr ?_)
  have h1 := BitVec.lt_def.mp hxy
  have h2 := BitVec.le_def.mp (h.1 x hx).1
  omega

/-- Where the shelves come in order, those of one shelf stand together behind those of the shelves below. -/
theorem shelfRecords_together {rs : List RangeRec} (h : rs.Pairwise fun x y => shelfOf x.first ≤ shelfOf y.first) (k : Nat) :
    (rs.drop (recordsBelow rs k)).take (shelfRecords rs k).length = shelfRecords rs k := by
  induction rs with
  | nil => rfl
  | cons r rs ih =>
    obtain ⟨hr, h⟩ := List.pairwise_cons.mp h
    by_cases hk : shelfOf r.first < k
    · have e1 : recordsBelow (r :: rs) k = recordsBelow rs k + 1 := by simp [recordsBelow, hk]
      have e2 : shelfRecords (r :: rs) k = shelfRecords rs k := by simp [shelfRecords, Nat.ne_of_lt hk]
      rw [e1, e2, List.drop_succ_cons, ih h]
    · have none : ∀ xs : List RangeRec, (∀ x ∈ xs, k ≤ shelfOf x.first) → recordsBelow xs k = 0 := fun xs hxs => by
        simpa [recordsBelow, List.filter_eq_nil_iff] using hxs
      have habove : ∀ x ∈ rs, k ≤ shelfOf x.first := fun x hx => by have := hr x hx; omega
      have ih := ih h
      rw [none rs habove, List.drop_zero] at ih
      rw [none (r :: rs) (List.forall_mem_cons.mpr ⟨by omega, habove⟩), List.drop_zero]
      by_cases he : shelfOf r.first = k
      · have e2 : shelfRecords (r :: rs) k = r :: shelfRecords rs k := by simp [shelfRecords, he]
        rw [e2, List.length_cons, List.take_succ_cons, ih]
      · have e2 : shelfRecords (r :: rs) k = [] := by
          simp only [shelfRecords, List.filter_eq_nil_iff, List.forall_mem_cons, decide_eq_true_eq]
          exact ⟨he, fun x hx => by have := hr x hx; omega⟩
        rw [e2]
        rfl

/-- Settles O24: the entry holds the two numbers, and in a canonical table the shelves come in order. -/
theorem directoryLocatesTheShelf : Obligations.DirectoryLocatesTheShelf := by
  intro rs shelf h hshelf
  dsimp only
  rw [ofRecords_directory_get rs hshelf]
  exact ⟨rfl, rfl, shelfRecords_together (canonical_shelves h) shelf⟩

end Sys2Proof.Machine
end

section
/-!
PROOFS. The checks of a base part and of a delta in their order (R31 to R34, R36), which settles O32.
-/

namespace Sys2Proof.Machine

/-! ### The entries of a base part one at a time (R31, R33, R34) -/

section
variable (table : List RangeRec) (bss : List (List Byte)) (j : Nat)

/-- The entry in a place, when its bytes can be read as one. -/
def entryAt : Option RangeRec := (bss[j]?).bind entryOf

/-- The record before the entry: the table's highest for the first (R33). -/
def entryBefore : Option RangeRec := if j = 0 then table.getLast? else entryAt bss (j - 1)

/-- The records the entry adds (R34). -/
def entryAddsAt : Nat :=
  match entryAt bss j with
  | some e => shelfOf e.last - shelfOf e.first + 1 - (if (entryBefore table bss j).any fun p => p.joins e then 1 else 0)
  | none => 0

/-- The records there would be before the entry (R34). -/
def countBefore : Nat := table.length + ((List.range j).map (entryAddsAt table bss)).sum

def entryContentOk : Prop := ∃ e, entryAt bss j = some e ∧ e.first ≤ e.last

def entryOrderOk : Prop := ∀ p e, entryBefore table bss j = some p → entryAt bss j = some e → p.last < e.first

def entryFits : Prop := countBefore table bss (j + 1) ≤ 16384

end

section
variable {table : List RangeRec} {bss : List (List Byte)} {i j : Nat}

theorem drop_entry (hj : j < bss.length) : ∃ bs, bss.drop j = bs :: bss.drop (j + 1) ∧ entryOf bs = entryAt bss j :=
  ⟨bss[j], List.drop_eq_getElem_cons hj, by rw [entryAt, List.getElem?_eq_getElem hj]; rfl⟩

theorem entryBefore_succ {e : RangeRec} (he : entryAt bss j = some e) : entryBefore table bss (j + 1) = some e := by
  rw [entryBefore, if_neg (Nat.succ_ne_zero j), Nat.add_sub_cancel, he]

theorem countBefore_succ {e : RangeRec} (he : entryAt bss j = some e) :
    countBefore table bss (j + 1) = countBefore table bss j + entryAdds (entryBefore table bss j) e := by
  have hadds : entryAddsAt table bss j = entryAdds (entryBefore table bss j) e := by
    rw [entryAddsAt, he, entryAdds_eq]
    rfl
  rw [countBefore, countBefore, List.range_succ, List.map_append, List.sum_append, List.map_singleton, List.sum_singleton,
    hadds, Nat.add_assoc]

theorem entryOrderOk_iff {e : RangeRec} (he : entryAt bss j = some e) :
    entryOrderOk table bss j ↔ (entryBefore table bss j).any (fun p => decide (e.first ≤ p.last)) = false := by
  rw [entryOrderOk, he]
  cases entryBefore table bss j with
  | none => simp
  | some p => simp [BitVec.not_le]

/-- The check of the entries from one on, when the records before it are given. -/
abbrev checkFrom (table : List RangeRec) (bss : List (List Byte)) (j : Nat) : Finding :=
  checkEntries j (entryBefore table bss j) (countBefore table bss j) (bss.drop j)

theorem checkFrom_badContent (hj : j < bss.length) (hc : ¬entryContentOk bss j) :
    checkFrom table bss j = some (.badContent, some j) := by
  obtain ⟨bs, hdrop, hentry⟩ := drop_entry hj
  rw [checkFrom, hdrop, checkEntries, hentry]
  cases he : entryAt bss j with
  | none => rfl
  | some e => exact if_pos (BitVec.not_le.mp fun h => hc ⟨e, he, h⟩)

theorem checkFrom_order (hj : j < bss.length) (hc : entryContentOk bss j) (ho : ¬entryOrderOk table bss j) :
    checkFrom table bss j = some (.order, some j) := by
  obtain ⟨bs, hdrop, hentry⟩ := drop_entry hj
  obtain ⟨e, he, hle⟩ := hc
  rw [entryOrderOk_iff he, Bool.not_eq_false] at ho
  rw [checkFrom, hdrop, checkEntries, hentry, he]
  dsimp only
  rw [if_neg (BitVec.not_lt.mpr hle), if_pos ho]

theorem checkFrom_fitted (hj : j < bss.length) (hc : entryContentOk bss j) (ho : entryOrderOk table bss j) :
    checkFrom table bss j =
      if 16384 < countBefore table bss (j + 1) then some (.capacity, some j) else checkFrom table bss (j + 1) := by
  obtain ⟨bs, hdrop, hentry⟩ := drop_entry hj
  obtain ⟨e, he, hle⟩ := hc
  rw [entryOrderOk_iff he] at ho
  rw [checkFrom, hdrop, checkEntries, hentry, he, checkFrom, entryBefore_succ he, countBefore_succ he]
  dsimp only
  rw [if_neg (BitVec.not_lt.mpr hle), ho, if_neg Bool.false_ne_true]
  rfl

/-- The check comes to an entry when those before it pass. -/
theorem checkFrom_reached (h : ∀ i, i < j → entryContentOk bss i ∧ entryOrderOk table bss i ∧ entryFits table bss i)
    (hj : j ≤ bss.length) : checkFrom table bss 0 = checkFrom table bss j := by
  induction j with
  | zero => rfl
  | succ j ih =>
    obtain ⟨hc, ho, hf⟩ := h j (Nat.lt_succ_self j)
    rw [ih (fun i hi => h i (Nat.lt_succ_of_lt hi)) (Nat.le_of_succ_le hj), checkFrom_fitted hj hc ho,
      if_neg (Nat.not_lt.mpr hf)]

/-- The check of the entries names the first that fails. -/
theorem checkEntries_first :
    ((∀ j, j < bss.length → entryContentOk bss j ∧ entryOrderOk table bss j ∧ entryFits table bss j) →
        checkEntries 0 table.getLast? table.length bss = none) ∧
      ∀ j, j < bss.length → (∀ i, i < j → entryContentOk bss i ∧ entryOrderOk table bss i ∧ entryFits table bss i) →
        (¬entryContentOk bss j → checkEntries 0 table.getLast? table.length bss = some (.badContent, some j)) ∧
        (entryContentOk bss j → ¬entryOrderOk table bss j →
          checkEntries 0 table.getLast? table.length bss = some (.order, some j)) ∧
        (entryContentOk bss j → entryOrderOk table bss j → ¬entryFits table bss j →
          checkEntries 0 table.getLast? table.length bss = some (.capacity, some j)) := by
  have hstart : checkEntries 0 table.getLast? table.length bss = checkFrom table bss 0 := rfl
  rw [hstart]
  refine ⟨fun h => ?_, fun j hj h => ?_⟩
  · rw [checkFrom_reached h (Nat.le_refl _), checkFrom, List.drop_length]
    rfl
  · rw [checkFrom_reached h (Nat.le_of_lt hj)]
    refine ⟨checkFrom_badContent hj, checkFrom_order hj, fun hc ho hf => ?_⟩
    rw [checkFrom_fitted hj hc ho, if_pos (Nat.not_le.mp hf)]

end

/-! ### The operations of a delta one at a time (R36) -/

/-- The operation's bytes can be read and its span is in order. -/
def opBytesOk (bs : List Byte) : Prop := ∃ op, deltaOpOf bs = some op ∧ op.span.1 ≤ op.span.2

theorem checkOps_ok {i : Nat} {bs : List Byte} {rest : List (List Byte)} (h : opBytesOk bs) :
    checkOps i (bs :: rest) = checkOps (i + 1) rest := by
  obtain ⟨op, hop, hle⟩ := h
  rw [checkOps, hop]
  exact if_neg (BitVec.not_lt.mpr hle)

theorem checkOps_fails {i : Nat} {bs : List Byte} {rest : List (List Byte)} (h : ¬opBytesOk bs) :
    checkOps i (bs :: rest) = some (.badContent, some i) := by
  rw [checkOps]
  cases hop : deltaOpOf bs with
  | none => rfl
  | some op => exact if_pos (BitVec.not_le.mp fun hle => h ⟨op, hop, hle⟩)

theorem checkOps_none {i : Nat} {bss : List (List Byte)} (h : ∀ x ∈ bss, opBytesOk x) : checkOps i bss = none := by
  induction bss generalizing i with
  | nil => rfl
  | cons bs rest ih =>
    rw [checkOps_ok (h bs List.mem_cons_self)]
    exact ih fun x hx => h x (List.mem_cons_of_mem _ hx)

theorem checkOps_first {i j : Nat} {bss : List (List Byte)} {x : List Byte} (hx : bss[j]? = some x) (hbad : ¬opBytesOk x)
    (h : ∀ k y, k < j → bss[k]? = some y → opBytesOk y) : checkOps i bss = some (.badContent, some (i + j)) := by
  induction bss generalizing i j with
  | nil => cases hx
  | cons bs rest ih =>
    cases j with
    | zero =>
      cases hx
      exact checkOps_fails hbad
    | succ j =>
      rw [checkOps_ok (h 0 bs (Nat.succ_pos j) rfl), ih hx fun k y hk hy => h (k + 1) y (Nat.succ_lt_succ hk) hy,
        Nat.add_right_comm, Nat.add_assoc]

/-! ### The headers (R31, R32, R36) -/

theorem baseHeaderOk_iff (h : BaseHeader) (body : List Byte) :
    baseHeaderOk h body = false ↔
      h.parts = 0#16 ∨ h.part = 0#16 ∨ h.parts < h.part ∨ body.length ≠ 17 * h.entries.toNat := by
  simp only [baseHeaderOk, Bool.and_eq_false_iff, decide_eq_false_iff_not, Decidable.not_not, BitVec.not_le, or_assoc]

theorem partInSequence_iff (h : BaseHeader) (status : BlockStatus) :
    partInSequence h status = true ↔ h.part = 1#16 ∨ status = .inProgress h.part h.parts h.version := by
  simp only [partInSequence, Bool.or_eq_true, decide_eq_true_eq]

/-- With header and sequence in order the check of a base part is that of its entries above the table it appends to. -/
theorem checkBase_entries {x : Bank} {buffer body : List Byte} {h : BaseHeader} (hh : baseHeaderOf buffer = some (h, body))
    (hok : baseHeaderOk h body = true) (hseq : partInSequence h x.record.blockStatus = true) {table : List RangeRec}
    (htable : table = if h.part = 1#16 then [] else x.ranges.records) :
    checkBase x buffer = checkEntries 0 table.getLast? table.length (chunks 17 h.entries.toNat body) := by
  rw [checkBase, hh, htable]
  dsimp only
  rw [hok, hseq]
  simp only [Bool.not_true, Bool.false_eq_true, if_false]
  split <;> rfl

/-- Settles O32: the checks are made in the order the definitions write them. -/
theorem rangePackagesAreChecked : Obligations.RangePackagesAreChecked := by
  refine fun x buffer => ⟨fun h body hh => ?_, fun h body hh => ?_⟩
  · intro bad inSequence table entries entry before adds contentOk orderOk fits ok
    refine ⟨fun hbad => ?_, fun hok hseq => ?_, fun hok hseq => ?_⟩
    · rw [checkBase, hh]
      dsimp only
      rw [(baseHeaderOk_iff h body).mpr hbad]
      rfl
    · have hok := Bool.not_eq_false _ ▸ mt (baseHeaderOk_iff h body).mp hok
      have hseq := Bool.not_eq_true _ ▸ mt (partInSequence_iff h x.record.blockStatus).mp hseq
      rw [checkBase, hh]
      dsimp only
      rw [hok, hseq]
      rfl
    · have hok := Bool.not_eq_false _ ▸ mt (baseHeaderOk_iff h body).mp hok
      rw [checkBase_entries hh hok ((partInSequence_iff _ _).mpr hseq) (table := table) rfl]
      exact checkEntries_first
  · intro r ops opOk
    refine ⟨fun hlen => ?_, fun hlen hseq => ?_, fun hlen hstatus hversion => ?_⟩
    · rw [checkDelta, hh]
      exact if_pos hlen
    · rw [checkDelta, hh]
      exact (if_neg (not_not_intro hlen)).trans (if_pos hseq)
    · have hcheck : checkDelta r buffer = checkOps 0 ops := by
        rw [checkDelta, hh]
        exact (if_neg (not_not_intro hlen)).trans (if_neg (not_or_intro (not_not_intro hstatus) (not_not_intro hversion)))
      rw [hcheck]
      refine ⟨checkOps_none, fun j y hy hbad h => ?_⟩
      rw [checkOps_first hy hbad h, Nat.zero_add]

end Sys2Proof.Machine
end

section
/-!
PROOFS. The searches by halving on words without errors (R173 to R176), which settles O52.
-/

namespace Sys2Proof.Machine

/-! ### Searching a part of a list by halving (R173) -/

section
variable {α : Type} {xs ys : List α} {x : α} {p : α → Bool}

/-- The positions `lo` up to, not including, `lo + n` of a list. -/
abbrev segmentOf (xs : List α) (lo n : Nat) : List α := (xs.drop lo).take n

theorem segment_mid {lo n mid : Nat} (h : xs[mid]? = some x) (hlo : lo ≤ mid) (hn : mid < lo + n) :
    segmentOf xs lo n = segmentOf xs lo (mid - lo) ++ x :: segmentOf xs (mid + 1) (lo + n - (mid + 1)) := by
  obtain ⟨hm, hx⟩ := List.getElem?_eq_some_iff.mp h
  have e1 : n = (mid - lo) + (1 + (lo + n - (mid + 1))) := by omega
  have e2 : lo + (mid - lo) = mid := by omega
  conv => lhs; rw [segmentOf, e1]
  rw [List.take_add, List.drop_drop, e2, List.drop_eq_getElem_cons hm, hx, Nat.add_comm 1, List.take_succ_cons]

theorem find_below (h : ∀ y ∈ x :: ys, p y = false) : (xs ++ x :: ys).find? p = xs.find? p := by
  have hnone : (x :: ys).find? p = none := by simpa using h
  rw [List.find?_append, hnone, Option.or_none]

theorem find_above (h : ∀ y ∈ xs, p y = false) (hx : p x = false) : (xs ++ x :: ys).find? p = ys.find? p := by
  have hnone : xs.find? p = none := by simpa using h
  rw [List.find?_append, hnone, Option.none_or, List.find?_cons, hx]

theorem find_here (h : ∀ y ∈ xs, p y = false) (hx : p x = true) : (xs ++ x :: ys).find? p = some x := by
  have hnone : xs.find? p = none := by simpa using h
  rw [List.find?_append, hnone, Option.none_or, List.find?_cons, hx]

/-- What stands below and above the middle of a part of an ordered list. -/
theorem segment_order {r : α → α → Prop} {xs : List α} {lo n mid : Nat} (hr : xs.Pairwise r) (h : xs[mid]? = some x) (hlo : lo ≤ mid)
    (hn : mid < lo + n) :
    (∀ y ∈ segmentOf xs lo (mid - lo), r y x) ∧ ∀ y ∈ segmentOf xs (mid + 1) (lo + n - (mid + 1)), r x y := by
  have hseg : (segmentOf xs lo n).Pairwise r := hr.sublist ((List.take_sublist _ _).trans (List.drop_sublist _ _))
  rw [segment_mid h hlo hn, List.pairwise_append, List.pairwise_cons] at hseg
  obtain ⟨-, ⟨habove, -⟩, hbelow⟩ := hseg
  exact ⟨fun y hy => hbelow y hy x List.mem_cons_self, habove⟩

end

theorem middle_bounds (lo : Nat) {n : Nat} (h : n ≠ 0) : lo ≤ middle lo n ∧ middle lo n < lo + n := by
  unfold middle
  omega

variable {s : State} {b : BankId} {day : Option Half}

/-! ### CARD_CHECK (R173, R174) -/

theorem lists_eq_false {r : RangeRec} {c : Card} : r.lists c = false ↔ c.toNat < r.first.toNat ∨ r.last.toNat < c.toNat := by
  rw [← Bool.not_eq_true, lists_iff]
  omega

/-- The search finds the record of its positions that lists the card. -/
theorem searchCard_clean {c : Card} {fuel lo n : Nat} (hs : s.upsets = []) (hcan : canonical (s.bank b).ranges.records)
    (hfuel : n ≤ fuel) (hlen : lo + n ≤ (s.bank b).ranges.records.length) :
    searchCard b c fuel lo n s = (s, some ((segmentOf (s.bank b).ranges.records lo n).find? fun r => r.lists c)) := by
  induction fuel generalizing lo n with
  | zero =>
    obtain rfl := Nat.le_zero.mp hfuel
    rfl
  | succ fuel ih =>
    rw [searchCard]
    by_cases hn : n = 0
    · rw [if_pos hn, hn]
      rfl
    · obtain ⟨hlo, hhi⟩ := middle_bounds lo hn
      generalize middle lo n = mid at hlo hhi ⊢
      have hget := List.getElem?_eq_getElem (Nat.lt_of_lt_of_le hhi hlen)
      generalize (s.bank b).ranges.records[mid] = r at hget
      have hr := hcan.1 r (List.mem_of_getElem? hget)
      have hr1 := BitVec.le_def.mp hr.1
      obtain ⟨hbelow, habove⟩ := segment_order hcan.2.1 hget hlo hhi
      rw [if_neg hn]
      dsimp only
      rw [readItems_clean _ _ _ _ hs]
      dsimp only
      rw [if_neg (by decide), hget, segment_mid hget hlo hhi]
      dsimp only
      have left : r.first.toNat ≤ c.toNat → ∀ y ∈ segmentOf (s.bank b).ranges.records lo (mid - lo), y.lists c = false := fun hc y hy => by
        have := BitVec.lt_def.mp (hbelow y hy)
        exact lists_eq_false.mpr (Or.inr (by omega))
      split
      · next hc =>
        have hc := BitVec.lt_def.mp hc
        rw [ih (by omega) (by omega), find_below]
        refine List.forall_mem_cons.mpr ⟨lists_eq_false.mpr (Or.inl hc), fun y hy => lists_eq_false.mpr (Or.inl ?_)⟩
        have := BitVec.lt_def.mp (habove y hy)
        omega
      · next hc =>
        have hc := BitVec.le_def.mp (BitVec.not_lt.mp hc)
        split
        · next hc' =>
          have hc' := BitVec.lt_def.mp hc'
          rw [ih (by omega) (by omega), find_above (left hc) (lists_eq_false.mpr (Or.inr hc'))]
        · next hc' =>
          rw [find_here (left hc) (lists_iff.mpr ⟨hc, BitVec.le_def.mp (BitVec.not_lt.mp hc')⟩)]

/-- The record that lists a card stands in the card's shelf. -/
theorem find_in_shelf {rs : List RangeRec} (h : canonical rs) (c : Card) :
    (shelfRecords rs (shelfOf c)).find? (fun r => r.lists c) = rs.find? fun r => r.lists c := by
  have hshelf : ∀ r ∈ rs, r.lists c = true → shelfOf r.first = shelfOf c := fun r hr hl => by
    obtain ⟨h1, h2⟩ := lists_iff.mp hl
    have h3 := shelfOf_mono (BitVec.le_def.mpr h1)
    have h4 := shelfOf_mono (BitVec.le_def.mpr h2)
    have h5 := (h.1 r hr).2
    omega
  rw [shelfRecords, List.find?_filter]
  refine List.find?_congr fun r hr => ?_
  cases hl : r.lists c with
  | true => simp [hshelf r hr hl]
  | false => simp

theorem lookUpCard_clean {c : Card} (hs : s.upsets = []) (hcan : canonical (s.bank b).ranges.records)
    (hdir : (s.bank b).ranges = RangeRegion.ofRecords (s.bank b).ranges.records) :
    lookUpCard b day c s = (s, some (cardVerdict day ((s.bank b).ranges.records.find? fun r => r.lists c))) := by
  have hentry := ofRecords_directory_get (s.bank b).ranges.records (shelfOf_lt c)
  rw [← congrArg RangeRegion.directory hdir] at hentry
  have hbelow : recordsBelow (s.bank b).ranges.records (shelfOf c + 1) ≤ (s.bank b).ranges.records.length :=
    List.length_filter_le _ _
  rw [recordsBelow_succ] at hbelow
  rw [lookUpCard, readItems_clean _ _ _ _ hs]
  dsimp only
  rw [if_neg (by decide), hentry]
  dsimp only
  rw [searchCard_clean hs hcan (Nat.le_refl _) hbelow, segmentOf, shelfRecords_together (canonical_shelves hcan),
    find_in_shelf hcan]
  rfl

/-! ### PRODUCT_INFO (R176) -/

/-- The search finds the product of its positions with the code. -/
theorem searchProduct_clean {code : Half} {fuel lo n : Nat} (hs : s.upsets = [])
    (hcodes : (s.bank b).tariff.products.Pairwise fun p q => p.code < q.code) (hfuel : n ≤ fuel)
    (hlen : lo + n ≤ (s.bank b).tariff.products.length) :
    searchProduct b code fuel lo n s =
      (s, some ((segmentOf (s.bank b).tariff.products lo n).find? fun p => decide (p.code = code))) := by
  have differ : ∀ {p : Product}, p.code.toNat ≠ code.toNat → decide (p.code = code) = false := fun hne =>
    decide_eq_false fun e => hne (congrArg BitVec.toNat e)
  induction fuel generalizing lo n with
  | zero =>
    obtain rfl := Nat.le_zero.mp hfuel
    rfl
  | succ fuel ih =>
    rw [searchProduct]
    by_cases hn : n = 0
    · rw [if_pos hn, hn]
      rfl
    · obtain ⟨hlo, hhi⟩ := middle_bounds lo hn
      generalize middle lo n = mid at hlo hhi ⊢
      have hget := List.getElem?_eq_getElem (Nat.lt_of_lt_of_le hhi hlen)
      generalize (s.bank b).tariff.products[mid] = q at hget
      obtain ⟨hbelow, habove⟩ := segment_order hcodes hget hlo hhi
      rw [if_neg hn]
      dsimp only
      rw [readItems_clean _ _ _ _ hs]
      dsimp only
      rw [if_neg (by decide), hget, segment_mid hget hlo hhi]
      dsimp only
      have left : q.code.toNat ≤ code.toNat →
          ∀ y ∈ segmentOf (s.bank b).tariff.products lo (mid - lo), decide (y.code = code) = false := fun hc y hy => by
        have := BitVec.lt_def.mp (hbelow y hy)
        exact differ (by omega)
      split
      · next he => rw [find_here (left (Nat.le_of_eq (congrArg _ he))) (decide_eq_true he)]
      · next hne =>
        have hne := mt BitVec.eq_of_toNat_eq hne
        split
        · next hc =>
          have hc := BitVec.lt_def.mp hc
          rw [ih (by omega) (by omega), find_below]
          refine List.forall_mem_cons.mpr ⟨differ (by omega), fun y hy => differ ?_⟩
          have := BitVec.lt_def.mp (habove y hy)
          omega
        · next hc =>
          have hc := BitVec.le_def.mp (BitVec.not_lt.mp hc)
          rw [ih (by omega) (by omega), find_above (left hc) (differ hne)]

theorem lookUpProduct_clean {code : Half} (hs : s.upsets = [])
    (hcodes : (s.bank b).tariff.products.Pairwise fun p q => p.code < q.code)
    (hcount : (s.bank b).tariff.productCount = (s.bank b).tariff.products.length) :
    lookUpProduct b day code s =
      (s,
        some
          (match (s.bank b).tariff.products.find? fun p => decide (p.code = code) with
           | some p => .product (validToday day p) p
           | none => .notFound)) := by
  rw [lookUpProduct, readItems_clean _ _ _ _ hs]
  dsimp only
  rw [if_neg (by decide), hcount, searchProduct_clean hs hcodes (Nat.le_refl _) (by omega), segmentOf, List.drop_zero,
    List.take_length]
  rfl

/-! ### FARE_QUOTE (R175) -/

theorem lookUpFare_outside {cls origin dest : Byte} (hs : s.upsets = [])
    (h : (s.bank b).tariff.classCount ≤ cls.toNat ∨ origin = 0#8 ∨ (s.bank b).tariff.zones < origin.toNat ∨ dest = 0#8 ∨
      (s.bank b).tariff.zones < dest.toNat) :
    lookUpFare b cls origin dest s = (s, some .badQuery) := by
  rw [lookUpFare, readItems_clean _ _ _ _ hs]
  dsimp only
  rw [if_neg (by decide), if_pos]
  simp only [Bool.or_eq_true, Bool.not_eq_true', Bool.and_eq_false_iff, decide_eq_false_iff_not, Nat.not_lt, Nat.not_le]
  bv_omega

theorem lookUpFare_inside {cls origin dest : Byte} {price : Half} (hs : s.upsets = [])
    (h : ¬((s.bank b).tariff.classCount ≤ cls.toNat ∨ origin = 0#8 ∨ (s.bank b).tariff.zones < origin.toNat ∨ dest = 0#8 ∨
      (s.bank b).tariff.zones < dest.toNat))
    (hp : (s.bank b).tariff.prices[cls.toNat * (s.bank b).tariff.zones * (s.bank b).tariff.zones +
      (origin.toNat - 1) * (s.bank b).tariff.zones + (dest.toNat - 1)]? = some price) :
    lookUpFare b cls origin dest s = (s, some (.price price)) := by
  rw [lookUpFare, readItems_clean _ _ _ _ hs]
  dsimp only
  rw [if_neg (by decide), if_neg, readItems_clean _ _ _ _ hs]
  · dsimp only
    rw [if_pos rfl, List.getD_eq_getElem?_getD, hp]
    rfl
  · simp only [Bool.or_eq_true, Bool.not_eq_true', Bool.and_eq_false_iff, decide_eq_false_iff_not, Nat.not_lt, Nat.not_le]
    bv_omega

/-! ### The verdicts (R174, R176) -/

theorem cardVerdict_clear {r : RangeRec} {d e : Half} (hd : day = some d) (he : r.expiry = some e) (h : e < d) :
    cardVerdict day (some r) = .clear (some e) := by
  subst hd
  unfold cardVerdict
  dsimp only
  rw [he]
  exact if_pos h

theorem cardVerdict_blocked {r : RangeRec}
    (h : day = none ∨ r.expiry = none ∨ ∃ d e, day = some d ∧ r.expiry = some e ∧ d ≤ e) :
    cardVerdict day (some r) = .blocked r := by
  unfold cardVerdict
  dsimp only
  rcases h with h | h | ⟨d, e, hd, he, hle⟩
  · rw [h]
  · rw [h]
    cases day <;> rfl
  · rw [hd, he]
    exact if_neg (BitVec.not_lt.mpr hle)

theorem validToday_iff (day : Option Half) (p : Product) :
    validToday day p = true ↔ ∃ d, day = some d ∧ p.validFrom ≤ d ∧ ∀ e, p.validTo = some e → d ≤ e := by
  unfold validToday
  cases day with
  | none => simp
  | some d => cases p.validTo <;> simp

/-- Settles O52: the searches read without errors, halve an ordered part of a list, and CARD_CHECK's part is the card's shelf. -/
theorem searchesFindWhatTheirRulesAsk : Obligations.SearchesFindWhatTheirRulesAsk := by
  refine fun s b day hs => ⟨fun c hcan hdir => lookUpCard_clean hs hcan hdir, fun code => lookUpProduct_clean hs,
    fun cls origin dest => ⟨lookUpFare_outside hs, fun h price => lookUpFare_inside hs h⟩, rfl, fun r => ⟨?_, ?_⟩,
    validToday_iff day⟩
  · exact fun d e hd he h => cardVerdict_clear hd he h
  · exact cardVerdict_blocked

end Sys2Proof.Machine
end

section
/-!
PROOFS. The apply phase of a range package, record by record: the reads that meet a word in error or none, the writes that leave
the words in error where they are, and what the end of the phase reports (R35, R43, R44, R79, R80, R182).
-/

namespace Sys2Proof.Machine

variable {s : State} {b : BankId} {u : Upset}

/-! ### Words in error that the phase does not come to (R180) -/

/-- None of the words in error is one of the buffer's words that begin in bytes `lo` up to, not including, `hi`. -/
def bytesClear (us : List Upset) (lo hi : Nat) : Prop := ∀ u ∈ us, ∀ o, u.loc = .buffer o → 8 * o < lo ∨ hi ≤ 8 * o

/-- None of the words in error is among those of the items. -/
def itemsClear (b : BankId) (us : List Upset) (items : List Item) : Prop := ∀ u ∈ us, inItems b items u.loc = false

theorem inItems_append (b : BankId) (xs ys : List Item) (l : WordLoc) :
    inItems b (xs ++ ys) l = (inItems b xs l || inItems b ys l) := by
  cases l with
  | bank b' r o =>
    simp only [inItems, List.any_append]
    cases decide (b' = b) <;> rfl
  | buffer o => rfl

theorem itemsClear_append {us : List Upset} {xs ys : List Item} (h : itemsClear b us (xs ++ ys)) :
    itemsClear b us xs ∧ itemsClear b us ys := by
  have h := fun u hu => Bool.or_eq_false_iff.mp ((inItems_append b xs ys u.loc).symm.trans (h u hu))
  exact ⟨fun u hu => (h u hu).1, fun u hu => (h u hu).2⟩

theorem itemsClear_buffer {o : Nat} {items : List Item} (h : u.loc = .buffer o) : itemsClear b [u] items := by
  intro v hv
  rw [List.mem_singleton.mp hv, h]
  rfl

theorem bytesClear_bank {r : Region} {o lo hi : Nat} (h : u.loc = .bank b r o) : bytesClear [u] lo hi := by
  intro v hv o' he
  rw [List.mem_singleton.mp hv, h] at he
  cases he

theorem refresh_clear {w : WordLoc → Bool} (h : ∀ u ∈ s.upsets, w u.loc = false) : s.refresh w = s := by
  rw [refresh_congr (w := fun _ => false) s h]
  exact (congrArg (fun us => { s with upsets := us }) (List.filterMap_some (l := s.upsets)) : _)

/-- The word of the buffer is one of those that bytes `lo` up to `hi` add to the bytes before. -/
theorem inBuffer_new {lo hi o : Nat} : inBuffer ((lo + 7) / 8 * 8) hi (.buffer o) = true ↔ lo ≤ 8 * o ∧ 8 * o < hi := by
  simp only [inBuffer, Bool.and_eq_true, decide_eq_true_eq]
  omega

theorem readNewBytes_clear {lo hi : Nat} (h : bytesClear s.upsets lo hi) : readNewBytes lo hi s = (s, true) := by
  refine readWords_sound _ _ _ fun u hu => ?_
  cases hl : u.loc with
  | bank b r o => rfl
  | buffer o =>
    have := h u hu o hl
    rw [← Bool.not_eq_true, inBuffer_new]
    omega

theorem readWords_single {reader : Reader} {sel : WordLoc → Bool} (hs : s.upsets = [u]) (hsel : sel u.loc = true)
    (hu : fatal u.kind = true) : readWords reader sel s = (uncorrectable u.loc reader s, false) := by
  rw [readWords, hs, List.filter_cons_of_pos (by exact hsel), List.filter_nil, readHits, if_pos hu]

theorem readNewBytes_single {lo hi o : Nat} (hs : s.upsets = [u]) (hl : u.loc = .buffer o) (hu : fatal u.kind = true) (hlo : lo ≤ 8 * o)
    (hhi : 8 * o < hi) : readNewBytes lo hi s = (uncorrectable u.loc .loader s, false) :=
  readWords_single hs (by rw [hl]; exact inBuffer_new.mpr ⟨hlo, hhi⟩) hu

/-! ### The bank while the phase writes it -/

/-- The bank with another table and another count of evictions. -/
def State.rebuilt (b : BankId) (rs : List RangeRec) (evictions : Nat) (s : State) : State :=
  s.setBank b ⟨{ s.recOf b with evictions := evictions }, (s.bank b).tariff, RangeRegion.ofRecords rs⟩

theorem rebuilt_self (h : (s.bank b).ranges = RangeRegion.ofRecords (s.bank b).ranges.records) :
    s.rebuilt b (s.bank b).ranges.records (s.recOf b).evictions = s := by
  rw [State.rebuilt, ← h]
  exact congrArg (fun p => { s with banks := p }) (Banks.set_get s.banks b)

theorem rebuilt_ranges (rs : List RangeRec) (ev : Nat) : ((s.rebuilt b rs ev).bank b).ranges = RangeRegion.ofRecords rs := by
  rw [State.rebuilt, State.bank_setBank_same]

theorem rebuilt_recOf (rs : List RangeRec) (ev : Nat) :
    (s.rebuilt b rs ev).recOf b = { s.recOf b with evictions := ev } := by
  rw [State.rebuilt, State.recOf_setBank, if_pos rfl]

theorem setRec_rebuilt (rs : List RangeRec) (ev : Nat) (r : BankRecord) :
    (s.rebuilt b rs ev).setRec b r = s.setBank b ⟨r, (s.bank b).tariff, RangeRegion.ofRecords rs⟩ := by
  cases b <;> rfl

/-- A table written where no word in error is (R28, R180). -/
theorem writeRanges_rebuilt {old new : List RangeRec} {ev : Nat}
    (h : itemsClear b s.upsets (rangeItemsWritten (RangeRegion.ofRecords old) (RangeRegion.ofRecords new))) :
    writeRanges b (RangeRegion.ofRecords new) (s.rebuilt b old ev) = s.rebuilt b new ev := by
  have e : (s.rebuilt b old ev).setBank b { (s.rebuilt b old ev).bank b with ranges := RangeRegion.ofRecords new } =
      s.rebuilt b new ev := by cases b <;> rfl
  rw [writeRanges, rebuilt_ranges]
  dsimp only
  rw [e]
  exact refresh_clear (s := s.rebuilt b new ev) h

theorem emptyTable_rebuilt (h : itemsClear b s.upsets tableItems) : emptyTable b s = s.rebuilt b [] (s.recOf b).evictions := by
  rw [emptyTable, ← ofRecords_nil]
  exact refresh_clear (s := s.rebuilt b [] (s.recOf b).evictions) h

/-! ### The entries of a base part (R35) -/

/-- The items that appending an entry reads and writes (R28, R35, R44). -/
def entryWords (rs : List RangeRec) (e : RangeRec) : List Item :=
  entryItems (RangeRegion.ofRecords rs) (RangeRegion.ofRecords (appendEntry rs e)) ++
    rangeItemsWritten (RangeRegion.ofRecords rs) (RangeRegion.ofRecords (appendEntry rs e))

/-- The table after the first entries. -/
abbrev entriesTable (es : List RangeRec) (rs : List RangeRec) (n : Nat) : List RangeRec := (es.take n).foldl appendEntry rs

theorem entriesTable_succ {es rs : List RangeRec} {e : RangeRec} {n : Nat} (h : es[n]? = some e) :
    entriesTable es rs (n + 1) = appendEntry (entriesTable es rs n) e := by
  rw [entriesTable, List.take_add_one, h, List.foldl_append]
  rfl

theorem applyEntries_cons {lo ev : Nat} {bs : List Byte} {rest : List (List Byte)} {c : Counts} {rs : List RangeRec} {e : RangeRec}
    (hbytes : bytesClear s.upsets lo (lo + 17)) (hentry : entryOf bs = some e) (hitems : itemsClear b s.upsets (entryWords rs e)) :
    applyEntries b lo (bs :: rest) c (s.rebuilt b rs ev) =
      applyEntries b (lo + 17) rest ⟨c.records + 1, c.evictions, c.splits + extraPieces e⟩
        (s.rebuilt b (appendEntry rs e) ev) := by
  obtain ⟨hread, hwrite⟩ := itemsClear_append hitems
  rw [applyEntries, readNewBytes_clear (s := s.rebuilt b rs ev) hbytes]
  dsimp only
  rw [hentry, if_neg (by decide)]
  dsimp only
  rw [rebuilt_ranges, ofRecords_records, readItems_sound .loader b _ (s.rebuilt b rs ev) hread]
  dsimp only
  rw [if_neg (by decide)]
  exact congrArg _ (writeRanges_rebuilt hwrite)

/-- The entries before the words in error are appended. -/
theorem applyEntries_passes {lo ev n : Nat} {bss : List (List Byte)} {c : Counts} {rs es : List RangeRec}
    (hes : bss.map entryOf = es.map some) (hn : n ≤ es.length) (hbytes : bytesClear s.upsets lo (lo + 17 * n))
    (hitems : ∀ j e, j < n → es[j]? = some e → itemsClear b s.upsets (entryWords (entriesTable es rs j) e)) :
    applyEntries b lo bss c (s.rebuilt b rs ev) =
      applyEntries b (lo + 17 * n) (bss.drop n) ⟨c.records + n, c.evictions, c.splits + ((es.take n).map extraPieces).sum⟩
        (s.rebuilt b (entriesTable es rs n) ev) := by
  induction n generalizing lo bss c rs es with
  | zero => rfl
  | succ n ih =>
    cases es with
    | nil => cases hn
    | cons e es =>
      obtain ⟨bs, rest, rfl, hentry, hes⟩ := List.map_eq_cons_iff.mp hes
      have hfirst : bytesClear s.upsets lo (lo + 17) := fun u hu o ho => by have := hbytes u hu o ho; omega
      have hrest : bytesClear s.upsets (lo + 17) (lo + 17 + 17 * n) := fun u hu o ho => by have := hbytes u hu o ho; omega
      have hclear : itemsClear b s.upsets (entryWords rs e) := hitems 0 e (Nat.succ_pos n) rfl
      rw [applyEntries_cons hfirst hentry hclear,
        ih hes (Nat.le_of_succ_le_succ hn) hrest fun j x hj hx => hitems (j + 1) x (Nat.succ_lt_succ hj) hx]
      have hlo : lo + 17 + 17 * n = lo + 17 * (n + 1) := by omega
      have hrecords : c.records + 1 + n = c.records + (n + 1) := by omega
      dsimp only
      rw [hlo, hrecords, List.drop_succ_cons, List.take_succ_cons, List.map_cons, List.sum_cons, Nat.add_assoc c.splits]
      rfl

theorem applyEntries_bufferError {lo o : Nat} {bs : List Byte} {rest : List (List Byte)} {c : Counts} (hs : s.upsets = [u])
    (hl : u.loc = .buffer o) (hu : fatal u.kind = true) (hlo : lo ≤ 8 * o) (hhi : 8 * o < lo + 17) :
    applyEntries b lo (bs :: rest) c s = ⟨uncorrectable u.loc .loader s, c, .bufferError⟩ := by
  rw [applyEntries, readNewBytes_single hs hl hu hlo hhi]
  rfl

theorem applyEntries_rangeError {lo ev : Nat} {bs : List Byte} {rest : List (List Byte)} {c : Counts} {rs : List RangeRec}
    {e : RangeRec} (hs : s.upsets = [u]) (hbytes : bytesClear s.upsets lo (lo + 17)) (hentry : entryOf bs = some e)
    (hu : fatal u.kind = true)
    (hi : inItems b (entryItems (RangeRegion.ofRecords rs) (RangeRegion.ofRecords (appendEntry rs e))) u.loc = true) :
    applyEntries b lo (bs :: rest) c (s.rebuilt b rs ev) = ⟨uncorrectable u.loc .loader (s.rebuilt b rs ev), c, .rangeError⟩ := by
  rw [applyEntries, readNewBytes_clear (s := s.rebuilt b rs ev) hbytes]
  dsimp only
  rw [hentry, if_neg (by decide)]
  dsimp only
  rw [rebuilt_ranges, ofRecords_records, readItems_single (s := s.rebuilt b rs ev) hs hi hu]
  rfl

/-! ### The operations of a delta (R37, R42, R43) -/

/-- The items that an operation reads and writes (R28, R38, R39, R41, R44). -/
def opWords (rs : List RangeRec) (op : DeltaOp) : List Item :=
  opItems (RangeRegion.ofRecords rs) op ++ rangeItemsWritten (RangeRegion.ofRecords rs) (op.result (RangeRegion.ofRecords rs))

/-- An operation counts its evictions in the bank's record (R43). -/
theorem applyOp_rebuilt {rs : List RangeRec} {op : DeltaOp} {ev n : Nat}
    (h : itemsClear b s.upsets (rangeItemsWritten (RangeRegion.ofRecords rs) (op.result (RangeRegion.ofRecords rs)))) :
    applyOp b op (s.rebuilt b rs (min 65535 (ev + n))) =
      s.rebuilt b (evict (op.applyTo rs)) (min 65535 (ev + (n + ((op.applyTo rs).length - 16384)))) := by
  have hwrite := writeRanges_rebuilt (ev := min 65535 (ev + n)) (new := evict (op.applyTo rs)) h
  unfold applyOp DeltaOp.result
  rw [rebuilt_ranges]
  dsimp only
  rw [ofRecords_records, hwrite, rebuilt_recOf, setRec_rebuilt]
  have e : satAdd 65535 (min 65535 (ev + n)) ((op.applyTo rs).length - Config.rangeCapacity) =
      min 65535 (ev + (n + ((op.applyTo rs).length - 16384))) := by
    rw [satAdd, Config.rangeCapacity]
    omega
  rw [e]
  rfl

theorem rangeCapacity_eq : Config.rangeCapacity = 16384 := rfl

theorem deltaRun_nil (out : List RangeRec × Nat × Nat) : deltaRun [] out = out := by
  rw [deltaRun]

theorem deltaRun_cons (op : DeltaOp) (ops : List DeltaOp) (rs : List RangeRec) (evictions splits : Nat) :
    deltaRun (op :: ops) (rs, evictions, splits) =
      deltaRun ops (evict (op.applyTo rs), evictions + ((op.applyTo rs).length - 16384), splits + op.splits rs) := by
  rw [deltaRun]

theorem applyOps_cons {lo ev : Nat} {bs : List Byte} {rest : List (List Byte)} {c : Counts} {rs : List RangeRec} {op : DeltaOp}
    (hbytes : bytesClear s.upsets lo (lo + 18)) (hop : deltaOpOf bs = some op) (hitems : itemsClear b s.upsets (opWords rs op)) :
    applyOps b lo (bs :: rest) c (s.rebuilt b rs ev) =
      applyOps b (lo + 18) rest
        ⟨c.records + 1, c.evictions + ((op.applyTo rs).length - Config.rangeCapacity), c.splits + op.splits rs⟩
        (applyOp b op (s.rebuilt b rs ev)) := by
  obtain ⟨hread, hwrite⟩ := itemsClear_append hitems
  rw [applyOps, readNewBytes_clear (s := s.rebuilt b rs ev) hbytes]
  dsimp only
  rw [hop, if_neg (by decide)]
  dsimp only
  rw [rebuilt_ranges, readItems_sound .loader b _ (s.rebuilt b rs ev) hread]
  dsimp only
  rw [if_neg (by decide), rebuilt_ranges, ofRecords_records]

/-- The operations before the words in error are applied. -/
theorem applyOps_passes {lo ev n : Nat} {bss : List (List Byte)} {c : Counts} {rs : List RangeRec} {ops : List DeltaOp}
    (hops : bss.map deltaOpOf = ops.map some) (hn : n ≤ ops.length) (hbytes : bytesClear s.upsets lo (lo + 18 * n))
    (hitems : ∀ j op, j < n → ops[j]? = some op →
      itemsClear b s.upsets (opWords (deltaRun (ops.take j) (rs, c.evictions, c.splits)).1 op)) :
    applyOps b lo bss c (s.rebuilt b rs (min 65535 (ev + c.evictions))) =
      applyOps b (lo + 18 * n) (bss.drop n)
        ⟨c.records + n, (deltaRun (ops.take n) (rs, c.evictions, c.splits)).2.1,
          (deltaRun (ops.take n) (rs, c.evictions, c.splits)).2.2⟩
        (s.rebuilt b (deltaRun (ops.take n) (rs, c.evictions, c.splits)).1
          (min 65535 (ev + (deltaRun (ops.take n) (rs, c.evictions, c.splits)).2.1))) := by
  induction n generalizing lo bss c rs ops with
  | zero => rw [Nat.mul_zero, Nat.add_zero, Nat.add_zero, List.drop_zero, List.take_zero, deltaRun_nil]
  | succ n ih =>
    cases ops with
    | nil => cases hn
    | cons op ops =>
      obtain ⟨bs, rest, rfl, hop, hops⟩ := List.map_eq_cons_iff.mp hops
      have hfirst : bytesClear s.upsets lo (lo + 18) := fun u hu o ho => by have := hbytes u hu o ho; omega
      have hrest : bytesClear s.upsets (lo + 18) (lo + 18 + 18 * n) := fun u hu o ho => by have := hbytes u hu o ho; omega
      have ih := ih (c := ⟨c.records + 1, c.evictions + ((op.applyTo rs).length - 16384), c.splits + op.splits rs⟩)
        (rs := evict (op.applyTo rs)) hops (Nat.le_of_succ_le_succ hn) hrest
        fun j x hj hx => by
          have h := hitems (j + 1) x (Nat.succ_lt_succ hj) hx
          rwa [List.take_succ_cons, deltaRun_cons] at h
      have hclear := hitems 0 op (Nat.succ_pos n) rfl
      rw [List.take_zero, deltaRun_nil] at hclear
      rw [applyOps_cons hfirst hop hclear, applyOp_rebuilt (itemsClear_append hclear).2, rangeCapacity_eq, ih]
      have hlo : lo + 18 + 18 * n = lo + 18 * (n + 1) := by omega
      have hrecords : c.records + 1 + n = c.records + (n + 1) := by omega
      dsimp only
      rw [hlo, hrecords, List.drop_succ_cons, List.take_succ_cons, deltaRun_cons]

theorem applyOps_bufferError {lo o : Nat} {bs : List Byte} {rest : List (List Byte)} {c : Counts} (hs : s.upsets = [u])
    (hl : u.loc = .buffer o) (hu : fatal u.kind = true) (hlo : lo ≤ 8 * o) (hhi : 8 * o < lo + 18) :
    applyOps b lo (bs :: rest) c s = ⟨uncorrectable u.loc .loader s, c, .bufferError⟩ := by
  rw [applyOps, readNewBytes_single hs hl hu hlo hhi]
  rfl

theorem applyOps_rangeError {lo ev : Nat} {bs : List Byte} {rest : List (List Byte)} {c : Counts} {rs : List RangeRec}
    {op : DeltaOp} (hs : s.upsets = [u]) (hbytes : bytesClear s.upsets lo (lo + 18)) (hop : deltaOpOf bs = some op)
    (hu : fatal u.kind = true) (hi : inItems b (opItems (RangeRegion.ofRecords rs) op) u.loc = true) :
    applyOps b lo (bs :: rest) c (s.rebuilt b rs ev) = ⟨uncorrectable u.loc .loader (s.rebuilt b rs ev), c, .rangeError⟩ := by
  rw [applyOps, readNewBytes_clear (s := s.rebuilt b rs ev) hbytes]
  dsimp only
  rw [hop, if_neg (by decide)]
  dsimp only
  rw [rebuilt_ranges, readItems_single (s := s.rebuilt b rs ev) hs hi hu]
  rfl

end Sys2Proof.Machine
end

section
/-!
PROOFS. How the apply phase of a range package ends, done or refused (R43, R79, R80, R182), and O34 with it.
-/

namespace Sys2Proof.Machine

variable {s : State} {b : BankId} {id : Half} {kind : PackageKind} {u : Upset} {n evictions splits : Nat}

/-! ### The result of a package (R80) -/

theorem finishWith_eq (result : PackageResult) (n : Nat) (e : Event) (s : State) :
    finishWith result n e s =
      { s with
        loader := ⟨.idle, result, []⟩
        events :=
          { s.events with flags := s.events.flags ||| (if 0 < n then e.bit ||| Event.eviction.bit else e.bit) } } := by
  unfold finishWith
  dsimp only
  split
  · simp only [State.raise, Events.raise, BitVec.or_assoc]
  · rfl

theorem countField_toNat {free n : Nat} (h : n ≤ 65535) : (countField free n).toNat = n := by
  rw [countField, if_pos h, BitVec.toNat_ofNat]
  omega

/-- From `s` to `t` a range package for the bank has ended with these counts: nothing but the bank, the loader, the events and
the scrubber has changed. -/
def RangeEnded (s : State) (b : BankId) (id : Half) (t : State) (scrub : Scrub) (n evictions splits : Nat) : Prop :=
  t.loader.result.index = none ∧ t.loader.result.packageId = id ∧ t.loader.result.records.toNat = n ∧
    (evictions ≤ 65535 → t.loader.result.evictions.toNat = evictions) ∧
    (splits ≤ 65535 → t.loader.result.splits.toNat = splits) ∧
    t.loader.state = .idle ∧ t.loader.buffer = [] ∧ t.bank (other b) = s.bank (other b) ∧
    t = { s with banks := t.banks, loader := t.loader, events := t.events, free := t.free, scrub := scrub }

/-- The package has ended DONE (R43, R80). -/
def RangeDone (s : State) (b : BankId) (id : Half) (t : State) (kind : PackageKind) (n evictions splits : Nat) : Prop :=
  t.loader.result.outcome = .done ∧ t.loader.result.kind = some kind ∧ t.loader.result.code = .ok ∧
    t.events = { s.events with flags := s.events.flags ||| (if 0 < evictions then 0x8001#24 else 1#24) } ∧
    RangeEnded s b id t s.scrub n evictions splits

/-- The package has ended REFUSED at an unreadable word (R79, R80, R182). -/
def RangeRefused (s : State) (b : BankId) (id : Half) (t : State) (kind : PackageKind) (u : Upset) (state : Option BankState)
    (n evictions splits : Nat) : Prop :=
  t.loader.result.outcome = .refused ∧ t.loader.result.kind = some kind ∧ t.loader.result.code = .memory ∧
    t.events =
      { s.events with
        flags := s.events.flags ||| (if 0 < evictions then 0x28002#24 else 0x20002#24)
        uncorrectable := min 65535 (s.events.uncorrectable + 1)
        capture := some (s.events.capture.getD ⟨u.loc, .loader, state⟩) } ∧
    RangeEnded s b id t (if state = none then s.scrub else s.scrub.leftRegion b .ranges) n evictions splits

theorem bank_other_setBank (b : BankId) (x : Bank) (s : State) : (s.setBank b x).bank (other b) = s.bank (other b) := by
  rw [State.bank_setBank, if_neg (other_ne b)]

theorem packageDone_ends (x : Bank) (hn : n ≤ 65535) :
    RangeDone s b id (packageDone id kind ⟨n, evictions, splits⟩ (s.setBank b x)) kind n evictions splits ∧
      (packageDone id kind ⟨n, evictions, splits⟩ (s.setBank b x)).bank b = x := by
  rw [packageDone, finishWith_eq]
  exact ⟨⟨rfl, rfl, rfl, rfl, rfl, rfl, countField_toNat hn, countField_toNat, countField_toNat, rfl, rfl,
    bank_other_setBank b x s, rfl⟩, State.bank_setBank_same b x s⟩

/-- The state when the loader has found an unreadable word: counted and captured, and with a word of the bank's table the
scrubber has left it (R182, R185). -/
def State.faulted (b : BankId) (u : Upset) (state : Option BankState) (s : State) : State :=
  { s with
    events :=
      { s.events with
        flags := s.events.flags ||| 0x20000#24
        uncorrectable := min 65535 (s.events.uncorrectable + 1)
        capture := some (s.events.capture.getD ⟨u.loc, .loader, state⟩) }
    scrub := if state = none then s.scrub else s.scrub.leftRegion b .ranges }

theorem packageRefused_ends (x : Bank) (state : Option BankState) (hn : n ≤ 65535) :
    RangeRefused s b id
        (packageRefused id kind .memory none ⟨n, evictions, splits⟩ ((s.setBank b x).faulted b u state)) kind u state n evictions
        splits ∧
      (packageRefused id kind .memory none ⟨n, evictions, splits⟩ ((s.setBank b x).faulted b u state)).bank b = x := by
  have hflags : (s.events.flags ||| 0x20000#24) |||
        (if 0 < evictions then Event.packageRefused.bit ||| Event.eviction.bit else Event.packageRefused.bit) =
      s.events.flags ||| (if 0 < evictions then 0x28002#24 else 0x20002#24) := by
    rw [BitVec.or_assoc]
    split <;> rfl
  rw [packageRefused, finishWith_eq]
  refine ⟨⟨rfl, rfl, rfl, ?_, rfl, rfl, countField_toNat hn, countField_toNat, countField_toNat, rfl, rfl,
    bank_other_setBank b x s, rfl⟩, State.bank_setBank_same b x s⟩
  rw [← hflags]
  rfl

/-! ### An unreadable word of the buffer and of the table (R79, R182) -/

theorem uncorrectable_ofBuffer {o : Nat} (hl : u.loc = .buffer o) : uncorrectable u.loc .loader s = s.faulted b u none := by
  rw [hl, State.faulted, hl]
  rfl

theorem uncorrectable_ofTable {o : Nat} (hl : u.loc = .bank b .ranges o) (hb : (s.recOf b).state = .building) :
    uncorrectable u.loc .loader s =
      (s.setRec b { s.recOf b with marks := (s.recOf b).marks.mark .ranges o }).faulted b u (some .building) := by
  rw [hl, uncorrectable_plain (Or.inl hb), State.found, State.faulted, hb, hl]
  rfl

theorem setRec_faulted (rs : List RangeRec) (ev : Nat) (r : BankRecord) (state : Option BankState) :
    ((s.rebuilt b rs ev).faulted b u state).setRec b r =
      (s.setBank b ⟨r, (s.bank b).tariff, RangeRegion.ofRecords rs⟩).faulted b u state := by
  cases b <;> rfl

theorem recOf_faulted (rs : List RangeRec) (ev : Nat) (state : Option BankState) :
    ((s.rebuilt b rs ev).faulted b u state).recOf b = { s.recOf b with evictions := ev } := rebuilt_recOf rs ev

/-! ### The end of the phase -/

variable {rs : List RangeRec} {ev : Nat} {done : BankRecord → BankRecord}

/-- The phase comes to the package's end. -/
theorem endRangeApply_whole (hn : n ≤ 65535) :
    RangeDone s b id (endRangeApply b id kind done ⟨s.rebuilt b rs ev, ⟨n, evictions, splits⟩, .whole⟩) kind n evictions splits ∧
      (endRangeApply b id kind done ⟨s.rebuilt b rs ev, ⟨n, evictions, splits⟩, .whole⟩).bank b =
        ⟨done { s.recOf b with evictions := ev }, (s.bank b).tariff, RangeRegion.ofRecords rs⟩ := by
  rw [endRangeApply]
  dsimp only
  rw [setRec_rebuilt, rebuilt_recOf]
  exact packageDone_ends _ hn

/-- The phase comes to an unreadable word of the buffer (R79). -/
theorem endRangeApply_bufferError {o : Nat} (hn : n ≤ 65535) (hl : u.loc = .buffer o) :
    RangeRefused s b id
        (endRangeApply b id kind done ⟨uncorrectable u.loc .loader (s.rebuilt b rs ev), ⟨n, evictions, splits⟩, .bufferError⟩)
        kind u none n evictions splits ∧
      (endRangeApply b id kind done
          ⟨uncorrectable u.loc .loader (s.rebuilt b rs ev), ⟨n, evictions, splits⟩, .bufferError⟩).bank b =
        ⟨{ s.recOf b with evictions := ev, blockStatus := .none }, (s.bank b).tariff, RangeRegion.ofRecords rs⟩ := by
  rw [endRangeApply, uncorrectable_ofBuffer (b := b) hl]
  dsimp only
  rw [setRec_faulted, recOf_faulted]
  exact packageRefused_ends _ none hn

/-- The phase comes to an unreadable word of the table (R44, R182). -/
theorem endRangeApply_rangeError {o : Nat} (hn : n ≤ 65535) (hl : u.loc = .bank b .ranges o) (hb : (s.recOf b).state = .building) :
    RangeRefused s b id
        (endRangeApply b id kind done ⟨uncorrectable u.loc .loader (s.rebuilt b rs ev), ⟨n, evictions, splits⟩, .rangeError⟩)
        kind u (some .building) n evictions splits ∧
      (endRangeApply b id kind done
          ⟨uncorrectable u.loc .loader (s.rebuilt b rs ev), ⟨n, evictions, splits⟩, .rangeError⟩).bank b =
        ⟨{ s.recOf b with evictions := ev, marks := (s.recOf b).marks.mark .ranges o }, (s.bank b).tariff,
          RangeRegion.ofRecords rs⟩ := by
  have hb' : ((s.rebuilt b rs ev).recOf b).state = .building := by rw [rebuilt_recOf]; exact hb
  rw [endRangeApply, uncorrectable_ofTable hl hb', rebuilt_recOf, setRec_rebuilt]
  exact packageRefused_ends _ (some .building) hn

/-! ### The two packages -/

theorem chunks_length (width : Nat) (n : Nat) (bs : List Byte) : (chunks width n bs).length = n := by
  induction n generalizing bs with
  | zero => rfl
  | succ n ih => rw [chunks, List.length_cons, ih]

/-- The records of a package and the values read from them. -/
theorem chunks_values {α : Type} {f : List Byte → Option α} {width : Nat} {count : Half} {body : List Byte} {xs : List α}
    (h : (chunks width count.toNat body).map f = xs.map some) : xs.length = count.toNat ∧ xs.length ≤ 65535 := by
  have hlen := congrArg List.length h
  rw [List.length_map, List.length_map, chunks_length] at hlen
  have := count.isLt
  omega

/-- The bytes of the record in a place, and the value read from them. -/
theorem chunks_drop {α : Type} {f : List Byte → Option α} {bss : List (List Byte)} {xs : List α} {n : Nat} {x : α}
    (h : bss.map f = xs.map some) (hx : xs[n]? = some x) : ∃ bs rest, bss.drop n = bs :: rest ∧ f bs = some x := by
  have hn : n < bss.length := by
    have h1 := congrArg List.length h
    rw [List.length_map, List.length_map] at h1
    have h2 := (List.getElem?_eq_some_iff.mp hx).1
    omega
  refine ⟨bss[n], bss.drop (n + 1), List.drop_eq_getElem_cons hn, ?_⟩
  have h1 := congrArg (fun l => l[n]?) h
  simp only [List.getElem?_map, hx, List.getElem?_eq_getElem hn, Option.map_some, Option.some.injEq] at h1
  exact h1

theorem drop_whole {α : Type} {f : List Byte → Option α} {bss : List (List Byte)} {xs : List α} (h : bss.map f = xs.map some) :
    bss.drop xs.length = [] := by
  have h1 := congrArg List.length h
  rw [List.length_map, List.length_map] at h1
  rw [← h1, List.drop_length]

theorem baseHeaderOf_length {buffer body : List Byte} {h : BaseHeader} (hh : baseHeaderOf buffer = some (h, body)) :
    buffer.length = 18 + body.length := by
  unfold baseHeaderOf at hh
  split at hh
  · next heq =>
    have := congrArg List.length heq
    cases hh
    simp only [List.length_drop, List.length_cons] at this
    omega
  · cases hh

theorem deltaHeaderOf_length {buffer body : List Byte} {h : DeltaHeader} (hh : deltaHeaderOf buffer = some (h, body)) :
    buffer.length = 18 + body.length := by
  unfold deltaHeaderOf at hh
  split at hh
  · next heq =>
    have := congrArg List.length heq
    cases hh
    simp only [List.length_drop, List.length_cons] at this
    omega
  · cases hh

theorem exec_applyBase {total : Nat} (hr : s.inReset = false) (hroles : rolesLaw s) (hb : (s.recOf b).state = .building)
    (hl : s.loader.state = .applying id .blockBase total .apply) : exec .applyPhaseEnd s = .next (applyBase b id s) := by
  change execApplyPhaseEnd s = _
  rw [execApplyPhaseEnd, event_running hr, applyPhaseEnd, hl, findBank_of hroles rfl hb]

theorem exec_applyDelta {total : Nat} (hr : s.inReset = false) (hroles : rolesLaw s) (hb : (s.recOf b).state = .building)
    (hl : s.loader.state = .applying id .blockDelta total .apply) : exec .applyPhaseEnd s = .next (applyDelta b id s) := by
  change execApplyPhaseEnd s = _
  rw [execApplyPhaseEnd, event_running hr, applyPhaseEnd, hl, findBank_of hroles rfl hb]

end Sys2Proof.Machine
end

section
/-!
PROOFS. The apply phase of a base part and of a delta from beginning to end, which settles O34.
-/

namespace Sys2Proof.Machine

variable {s : State} {b : BankId} {id : Half} {u : Upset} {body : List Byte}

theorem bytesClear_nil {lo hi : Nat} : bytesClear [] lo hi := nofun

theorem itemsClear_nil {items : List Item} : itemsClear b [] items := nofun

theorem bytesClear_buffer {o lo hi : Nat} (hl : u.loc = .buffer o) (h : 8 * o < lo ∨ hi ≤ 8 * o) : bytesClear [u] lo hi := by
  intro v hv o' he
  rw [List.mem_singleton.mp hv, hl] at he
  cases he
  exact h

theorem itemsClear_single {items : List Item} (h : inItems b items u.loc = false) : itemsClear b [u] items := by
  intro v hv
  rw [List.mem_singleton.mp hv]
  exact h

/-! ### A base part (R35) -/

section
variable {h : BaseHeader} {entries : List RangeRec}

/-- The table that the entries of a base part are appended to. -/
abbrev baseStart (h : BaseHeader) (x : Bank) : List RangeRec := if h.part = 1#16 then [] else x.ranges.records

variable (hh : baseHeaderOf s.loader.buffer = some (h, body))
  (hdir : (s.bank b).ranges = RangeRegion.ofRecords (s.bank b).ranges.records)

include hh hdir

theorem applyBase_started (hbytes : bytesClear s.upsets 0 18)
    (htable : h.part = 1#16 → itemsClear b s.upsets tableItems) :
    applyBase b id s =
      endRangeApply b id .blockBase (BankRecord.afterPart h)
        (applyEntries b 18 (chunks 17 h.entries.toNat body) ⟨0, 0, 0⟩
          (s.rebuilt b (baseStart h (s.bank b)) (s.recOf b).evictions)) := by
  have hread : readBuffer 0 18 s = (s, true) := readNewBytes_clear (lo := 0) hbytes
  have hstart : (if h.part = 1#16 then emptyTable b s else s) = s.rebuilt b (baseStart h (s.bank b)) (s.recOf b).evictions := by
    unfold baseStart
    split
    · next hp => exact emptyTable_rebuilt (htable hp)
    · exact (rebuilt_self hdir).symm
  rw [applyBase, hh]
  dsimp only
  rw [hread]
  dsimp only
  rw [hstart]
  rfl

/-- A word among the headers: nothing has been written (R79, log 12). -/
theorem applyBase_headerRefused {o : Nat} (hs : s.upsets = [u]) (hl : u.loc = .buffer o)
    (hu : fatal u.kind = true) (hhi : 8 * o < 18) :
    RangeRefused s b id (applyBase b id s) .blockBase u none 0 0 0 ∧
      (applyBase b id s).bank b =
        ⟨{ s.recOf b with blockStatus := .none }, (s.bank b).tariff, RangeRegion.ofRecords (s.bank b).ranges.records⟩ := by
  have hread : readBuffer 0 18 s = (uncorrectable u.loc .loader s, false) :=
    readNewBytes_single (lo := 0) hs hl hu (Nat.zero_le _) hhi
  have hend := endRangeApply_bufferError (s := s) (b := b) (id := id) (kind := .blockBase) (done := BankRecord.afterPart h)
    (rs := (s.bank b).ranges.records) (ev := (s.recOf b).evictions) (evictions := 0) (splits := 0) (Nat.zero_le 65535) hl
  rw [rebuilt_self hdir] at hend
  rw [applyBase, hh]
  dsimp only
  rw [hread]
  exact hend

variable (hes : (chunks 17 h.entries.toNat body).map entryOf = entries.map some)

include hes

/-- A base part whose first `n` entries are appended before the words in error are met. -/
theorem applyBase_passes {n : Nat} (hn : n ≤ entries.length)
    (hbytes : bytesClear s.upsets 0 (18 + 17 * n)) (htable : h.part = 1#16 → itemsClear b s.upsets tableItems)
    (hitems : ∀ j e, j < n → entries[j]? = some e →
      itemsClear b s.upsets (entryWords (entriesTable entries (baseStart h (s.bank b)) j) e)) :
    applyBase b id s =
      endRangeApply b id .blockBase (BankRecord.afterPart h)
        (applyEntries b (18 + 17 * n) ((chunks 17 h.entries.toNat body).drop n) ⟨n, 0, ((entries.take n).map extraPieces).sum⟩
          (s.rebuilt b (entriesTable entries (baseStart h (s.bank b)) n) (s.recOf b).evictions)) := by
  have hheader : bytesClear s.upsets 0 18 := fun u hu o ho => by have := hbytes u hu o ho; omega
  have hbody : bytesClear s.upsets 18 (18 + 17 * n) := fun u hu o ho => by have := hbytes u hu o ho; omega
  rw [applyBase_started hh hdir hheader htable, applyEntries_passes hes hn hbody hitems]
  dsimp only
  rw [Nat.zero_add, Nat.zero_add]

theorem applyBase_done (hs : s.upsets = []) :
    RangeDone s b id (applyBase b id s) .blockBase entries.length 0 ((entries.take entries.length).map extraPieces).sum ∧
      (applyBase b id s).bank b =
        ⟨BankRecord.afterPart h (s.recOf b), (s.bank b).tariff,
          RangeRegion.ofRecords (entriesTable entries (baseStart h (s.bank b)) entries.length)⟩ := by
  rw [applyBase_passes hh hdir hes (Nat.le_refl _) (hs ▸ bytesClear_nil) (fun _ => hs ▸ itemsClear_nil)
    (fun _ _ _ _ => hs ▸ itemsClear_nil), drop_whole hes]
  exact endRangeApply_whole (chunks_values hes).2

theorem applyBase_bufferRefused {o n : Nat} (hs : s.upsets = [u]) (hl : u.loc = .buffer o)
    (hu : fatal u.kind = true) (hn : n < entries.length) (hlo : 18 + 17 * n ≤ 8 * o) (hhi : 8 * o < 18 + 17 * n + 17) :
    RangeRefused s b id (applyBase b id s) .blockBase u none n 0 ((entries.take n).map extraPieces).sum ∧
      (applyBase b id s).bank b =
        ⟨{ s.recOf b with blockStatus := .none }, (s.bank b).tariff,
          RangeRegion.ofRecords (entriesTable entries (baseStart h (s.bank b)) n)⟩ := by
  obtain ⟨bs, rest, hdrop, -⟩ := chunks_drop hes (List.getElem?_eq_getElem hn)
  have hle := (chunks_values hes).2
  rw [applyBase_passes hh hdir hes (Nat.le_of_lt hn) (hs ▸ bytesClear_buffer hl (Or.inr hlo)) (fun _ => hs ▸ itemsClear_buffer hl)
    (fun _ _ _ _ => hs ▸ itemsClear_buffer hl), hdrop, applyEntries_bufferError (s := s.rebuilt b _ _) hs hl hu hlo hhi]
  exact endRangeApply_bufferError (by omega) hl

theorem applyBase_rangeRefused {o n : Nat} {e : RangeRec} (hb : (s.recOf b).state = .building)
    (hs : s.upsets = [u]) (hl : u.loc = .bank b .ranges o) (hu : fatal u.kind = true)
    (htable : h.part = 1#16 → inItems b tableItems u.loc = false)
    (hitems : ∀ j e, j < n → entries[j]? = some e →
      inItems b (entryWords (entriesTable entries (baseStart h (s.bank b)) j) e) u.loc = false)
    (he : entries[n]? = some e)
    (hi : inItems b
      (entryItems (RangeRegion.ofRecords (entriesTable entries (baseStart h (s.bank b)) n))
        (RangeRegion.ofRecords (appendEntry (entriesTable entries (baseStart h (s.bank b)) n) e))) u.loc = true) :
    RangeRefused s b id (applyBase b id s) .blockBase u (some .building) n 0 ((entries.take n).map extraPieces).sum ∧
      (applyBase b id s).bank b =
        ⟨{ s.recOf b with marks := (s.recOf b).marks.mark .ranges o }, (s.bank b).tariff,
          RangeRegion.ofRecords (entriesTable entries (baseStart h (s.bank b)) n)⟩ := by
  obtain ⟨bs, rest, hdrop, hentry⟩ := chunks_drop hes he
  have hn := (List.getElem?_eq_some_iff.mp he).1
  have hle := (chunks_values hes).2
  rw [applyBase_passes hh hdir hes (Nat.le_of_lt hn) (hs ▸ bytesClear_bank hl) (fun hp => hs ▸ itemsClear_single (htable hp))
    (fun j e hj hx => hs ▸ itemsClear_single (hitems j e hj hx)), hdrop,
    applyEntries_rangeError hs (hs ▸ bytesClear_bank hl) hentry hu hi]
  exact endRangeApply_rangeError (by omega) hl hb

end

/-! ### A delta (R43) -/

section
variable {h : DeltaHeader} {ops : List DeltaOp}

variable (hh : deltaHeaderOf s.loader.buffer = some (h, body))
  (hdir : (s.bank b).ranges = RangeRegion.ofRecords (s.bank b).ranges.records)

include hh hdir

theorem applyDelta_headerRefused {o : Nat} (hs : s.upsets = [u]) (hl : u.loc = .buffer o)
    (hu : fatal u.kind = true) (hhi : 8 * o < 18) :
    RangeRefused s b id (applyDelta b id s) .blockDelta u none 0 0 0 ∧
      (applyDelta b id s).bank b =
        ⟨{ s.recOf b with blockStatus := .none }, (s.bank b).tariff, RangeRegion.ofRecords (s.bank b).ranges.records⟩ := by
  have hread : readBuffer 0 18 s = (uncorrectable u.loc .loader s, false) :=
    readNewBytes_single (lo := 0) hs hl hu (Nat.zero_le _) hhi
  have hend := endRangeApply_bufferError (s := s) (b := b) (id := id) (kind := .blockDelta)
    (done := fun r => { r with blockVersion := h.toVersion })
    (rs := (s.bank b).ranges.records) (ev := (s.recOf b).evictions) (evictions := 0) (splits := 0) (Nat.zero_le 65535) hl
  rw [rebuilt_self hdir] at hend
  rw [applyDelta, hh]
  dsimp only
  rw [hread]
  exact hend

variable (hops : (chunks 18 h.ops.toNat body).map deltaOpOf = ops.map some)
  (hev : (s.recOf b).evictions ≤ 65535)

include hops hev

/-- A delta whose first `n` operations are applied before the words in error are met. -/
theorem applyDelta_passes {n : Nat}
    (hn : n ≤ ops.length) (hbytes : bytesClear s.upsets 0 (18 + 18 * n))
    (hitems : ∀ j op, j < n → ops[j]? = some op →
      itemsClear b s.upsets (opWords (deltaRun (ops.take j) ((s.bank b).ranges.records, 0, 0)).1 op)) :
    applyDelta b id s =
      endRangeApply b id .blockDelta (fun r => { r with blockVersion := h.toVersion })
        (applyOps b (18 + 18 * n) ((chunks 18 h.ops.toNat body).drop n)
          ⟨n, (deltaRun (ops.take n) ((s.bank b).ranges.records, 0, 0)).2.1,
            (deltaRun (ops.take n) ((s.bank b).ranges.records, 0, 0)).2.2⟩
          (s.rebuilt b (deltaRun (ops.take n) ((s.bank b).ranges.records, 0, 0)).1
            (min 65535 ((s.recOf b).evictions + (deltaRun (ops.take n) ((s.bank b).ranges.records, 0, 0)).2.1)))) := by
  have hheader : bytesClear s.upsets 0 18 := fun u hu o ho => by have := hbytes u hu o ho; omega
  have hbody : bytesClear s.upsets 18 (18 + 18 * n) := fun u hu o ho => by have := hbytes u hu o ho; omega
  have hread : readBuffer 0 18 s = (s, true) := readNewBytes_clear (lo := 0) hheader
  have hself : s.rebuilt b (s.bank b).ranges.records (min 65535 ((s.recOf b).evictions + 0)) = s := by
    rw [Nat.add_zero, Nat.min_eq_right hev, rebuilt_self hdir]
  have hrun := applyOps_passes (c := Counts.zero) (ev := (s.recOf b).evictions) hops hn hbody hitems
  rw [Counts.zero] at hrun
  dsimp only at hrun
  rw [hself, Nat.zero_add] at hrun
  rw [applyDelta, hh]
  dsimp only
  rw [hread]
  dsimp only
  rw [if_pos rfl, Counts.zero, hrun]

theorem applyDelta_done (hs : s.upsets = [])
    {run : List RangeRec × Nat × Nat} (hrun : deltaRun (ops.take ops.length) ((s.bank b).ranges.records, 0, 0) = run) :
    RangeDone s b id (applyDelta b id s) .blockDelta ops.length run.2.1 run.2.2 ∧
      (applyDelta b id s).bank b =
        ⟨{ s.recOf b with blockVersion := h.toVersion, evictions := min 65535 ((s.recOf b).evictions + run.2.1) },
          (s.bank b).tariff, RangeRegion.ofRecords run.1⟩ := by
  rw [applyDelta_passes hh hdir hops hev (Nat.le_refl _) (hs ▸ bytesClear_nil) (fun _ _ _ _ => hs ▸ itemsClear_nil),
    drop_whole hops, hrun]
  exact endRangeApply_whole (chunks_values hops).2

theorem applyDelta_bufferRefused {o n : Nat} (hs : s.upsets = [u])
    (hl : u.loc = .buffer o) (hu : fatal u.kind = true) (hn : n < ops.length) (hlo : 18 + 18 * n ≤ 8 * o)
    (hhi : 8 * o < 18 + 18 * n + 18)
    {run : List RangeRec × Nat × Nat} (hrun : deltaRun (ops.take n) ((s.bank b).ranges.records, 0, 0) = run) :
    RangeRefused s b id (applyDelta b id s) .blockDelta u none n run.2.1 run.2.2 ∧
      (applyDelta b id s).bank b =
        ⟨{ s.recOf b with blockStatus := .none, evictions := min 65535 ((s.recOf b).evictions + run.2.1) },
          (s.bank b).tariff, RangeRegion.ofRecords run.1⟩ := by
  obtain ⟨bs, rest, hdrop, -⟩ := chunks_drop hops (List.getElem?_eq_getElem hn)
  have hle := (chunks_values hops).2
  rw [applyDelta_passes hh hdir hops hev (Nat.le_of_lt hn) (hs ▸ bytesClear_buffer hl (Or.inr hlo))
    (fun _ _ _ _ => hs ▸ itemsClear_buffer hl), hdrop, hrun, applyOps_bufferError (s := s.rebuilt b _ _) hs hl hu hlo hhi]
  exact endRangeApply_bufferError (by omega) hl

theorem applyDelta_rangeRefused {o n : Nat} {op : DeltaOp}
    (hb : (s.recOf b).state = .building) (hs : s.upsets = [u]) (hl : u.loc = .bank b .ranges o) (hu : fatal u.kind = true)
    (hitems : ∀ j op, j < n → ops[j]? = some op →
      inItems b (opWords (deltaRun (ops.take j) ((s.bank b).ranges.records, 0, 0)).1 op) u.loc = false)
    (hop : ops[n]? = some op) {run : List RangeRec × Nat × Nat}
    (hrun : deltaRun (ops.take n) ((s.bank b).ranges.records, 0, 0) = run)
    (hi : inItems b (opItems (RangeRegion.ofRecords run.1) op) u.loc = true) :
    RangeRefused s b id (applyDelta b id s) .blockDelta u (some .building) n run.2.1 run.2.2 ∧
      (applyDelta b id s).bank b =
        ⟨{ s.recOf b with
            marks := (s.recOf b).marks.mark .ranges o, evictions := min 65535 ((s.recOf b).evictions + run.2.1) },
          (s.bank b).tariff, RangeRegion.ofRecords run.1⟩ := by
  obtain ⟨bs, rest, hdrop, hbs⟩ := chunks_drop hops hop
  have hn := (List.getElem?_eq_some_iff.mp hop).1
  have hle := (chunks_values hops).2
  rw [applyDelta_passes hh hdir hops hev (Nat.le_of_lt hn) (hs ▸ bytesClear_bank hl)
    (fun j op hj hx => hs ▸ itemsClear_single (hitems j op hj hx)), hdrop, hrun,
    applyOps_rangeError hs (hs ▸ bytesClear_bank hl) hbs hu hi]
  exact endRangeApply_rangeError (by omega) hl hb

end

/-- Settles O34: the records before the words in error are applied one by one, and the phase ends at its end or at the word. -/
theorem rangeApplyChangesTheTable : Obligations.RangeApplyChangesTheTable := by
  intro s b id total hr hroles hdirs hb buffer r x counted done refused whole
  have hdir : (s.bank b).ranges = RangeRegion.ofRecords (s.bank b).ranges.records := by
    cases b
    · exact hdirs.1
    · exact hdirs.2
  refine ⟨fun h body entries hl hh hlen hes => ?_, fun h body ops hl hh hlen hops hev => ?_⟩
  · intro start table splits
    have hexec := exec_applyBase hr hroles hb hl
    have hcount := (chunks_values hes).1
    have hbuffer := baseHeaderOf_length hh
    refine ⟨fun hs => ⟨_, hexec, applyBase_done hh hdir hes hs⟩, fun u o hs hloc hu ho => ?_,
      fun u o n hs hloc hu htable hitems hn hi => ?_⟩
    · intro n
      by_cases h18 : 8 * o < 18
      · have hn : n = 0 := if_pos h18
        rw [hn, if_pos h18]
        exact ⟨_, hexec, applyBase_headerRefused hh hdir hs hloc hu h18⟩
      · have hn : n = (8 * o - 18) / 17 := if_neg h18
        clear_value n
        rw [if_neg h18]
        exact ⟨_, hexec, applyBase_bufferRefused hh hdir hes hs hloc hu (by omega) (by omega) (by omega)⟩
    · have he := List.getElem?_eq_getElem hn
      refine ⟨_, hexec, applyBase_rangeRefused hh hdir hes hb hs hloc hu htable (fun j e hj hx => ?_) he ?_⟩
      · rw [entryWords, ← entriesTable_succ hx]
        exact hitems j hj
      · rw [← entriesTable_succ he]
        exact hi
  · intro run evicted
    have hexec := exec_applyDelta hr hroles hb hl
    have hcount := (chunks_values hops).1
    have hbuffer := deltaHeaderOf_length hh
    refine ⟨fun hs => ⟨_, hexec, applyDelta_done hh hdir hops hev hs rfl⟩, fun u o hs hloc hu ho => ?_,
      fun u o n op hs hloc hu hitems hop hi => ?_⟩
    · intro n
      by_cases h18 : 8 * o < 18
      · have hn : n = 0 := if_pos h18
        have hrun : run 0 = (x.ranges.records, 0, 0) := deltaRun_nil _
        have hevicted : evicted 0 = r.evictions := by
          change min 65535 (r.evictions + (run 0).2.1) = r.evictions
          rw [hrun, Nat.add_zero, Nat.min_eq_right hev]
        rw [hn, hrun, hevicted]
        exact ⟨_, hexec, applyDelta_headerRefused hh hdir hs hloc hu h18⟩
      · have hn : n = (8 * o - 18) / 18 := if_neg h18
        clear_value n
        exact ⟨_, hexec, applyDelta_bufferRefused hh hdir hops hev hs hloc hu (by omega) (by omega) (by omega) rfl⟩
    · exact ⟨_, hexec, applyDelta_rangeRefused hh hdir hops hev hb hs hloc hu hitems hop rfl hi⟩

end Sys2Proof.Machine
end

section
/-!
PROOFS. The price of a base fare in a class (R61 to R63) and the expanded matrix (R50, R60, R64), which settles O25 and O26.
-/

namespace Sys2Proof.Machine

/-! ### The stages of a price (R61 to R63) -/

/-- The cap of a class: 0 stands for the greatest price there is (R62). -/
def ClassRec.limit (c : ClassRec) : Nat := if c.cap = 0#16 then 65535 else c.cap.toNat

/-- The fare in the class after scaling, rounding and the minimum, before its cap (R61, R62). -/
def ClassRec.uncapped (c : ClassRec) (fare : Half) : Nat :=
  max (max (((fare.toNat * c.factor.toNat + 8192) / 16384 + c.unit.toNat / 2) / c.unit.toNat * c.unit.toNat)
    c.minCharge.toNat) 1

theorem expandPrice_zero (c : ClassRec) : expandPrice c 0#16 = (0#16, false) := by rw [expandPrice, if_pos rfl]

theorem expandPrice_pos (c : ClassRec) {fare : Half} (h : fare ≠ 0#16) :
    expandPrice c fare = (BitVec.ofNat 16 (min (c.uncapped fare) c.limit), decide (c.limit < c.uncapped fare)) := by
  rw [expandPrice, if_neg h]
  rfl

theorem limit_bounds (c : ClassRec) : 1 ≤ c.limit ∧ c.limit ≤ 65535 := by
  have := c.cap.isLt
  rw [ClassRec.limit]
  split
  · decide
  · next h => rw [← BitVec.toNat_inj, BitVec.toNat_ofNat] at h; omega

theorem expandPrice_toNat (c : ClassRec) {fare : Half} (h : fare ≠ 0#16) :
    (expandPrice c fare).1.toNat = min (c.uncapped fare) c.limit := by
  have hle : min (c.uncapped fare) c.limit ≤ 65535 := (Nat.min_le_right ..).trans (limit_bounds c).2
  rw [expandPrice_pos c h]
  exact Nat.mod_eq_of_lt (Nat.lt_succ_of_le hle)

/-- The checks of a class record (R55). -/
theorem classRecOk_iff (c : ClassRec) :
    classRecOk c = true ↔ c.factor.toNat ≤ 32767 ∧ c.unit.toNat ∈ [1, 2, 5, 10, 20, 25, 50, 100] := by
  rw [classRecOk, Bool.and_eq_true, decide_eq_true_eq, List.contains_iff_mem]

/-- A checked factor keeps the scaled fare below 2 ^ 31, and its quotient at most 131066 (R55, R61). -/
theorem scaled_bounds {fare factor : Half} (h : factor.toNat ≤ 32767) :
    fare.toNat * factor.toNat + 8192 < 2 ^ 31 ∧ (fare.toNat * factor.toNat + 8192) / 16384 ≤ 131066 := by
  have hprod : fare.toNat * factor.toNat ≤ 65535 * 32767 := Nat.mul_le_mul (by have := fare.isLt; omega) h
  omega

/-! ### The expanded matrix (R60, R64) -/

theorem expandAll_length (t : Tariff) : (expandAll t).length = t.classes.length * t.base.length := by
  simp only [expandAll, List.length_flatMap, List.length_map, List.map_const', List.sum_replicate, smul_eq_mul]

theorem cappedCount_le (ps : List (Half × Bool)) : cappedCount ps ≤ ps.length := List.length_filter_le ..

/-- The matrix is class-major (R60). -/
theorem expandAll_getElem? {t : Tariff} {c p : Nat} {cls : ClassRec} {fare : Half} (hc : t.classes[c]? = some cls)
    (hp : t.base[p]? = some fare) : (expandAll t)[c * t.base.length + p]? = some (expandPrice cls fare) := by
  have hlt : p < t.base.length := (List.getElem?_eq_some_iff.mp hp).1
  rw [expandAll]
  generalize t.classes = classes at hc
  induction classes generalizing c with
  | nil => cases hc
  | cons first rest ih =>
    rw [List.flatMap_cons]
    cases c with
    | zero =>
      cases hc
      rw [Nat.zero_mul, Nat.zero_add, List.getElem?_append_left (by rwa [List.length_map]), List.getElem?_map, hp]
      rfl
    | succ c =>
      have hplace : (c + 1) * t.base.length + p = (t.base.map (expandPrice first)).length + (c * t.base.length + p) := by
        rw [List.length_map, Nat.succ_mul]
        omega
      rw [hplace, List.getElem?_append_right (Nat.le_add_right ..), Nat.add_sub_cancel_left]
      exact ih hc

/-- Settles O25: the stages are those of `expandPrice`, and the matrix bounds its capped prices. -/
theorem priceFollowsTheStages : Obligations.PriceFollowsTheStages := by
  refine ⟨fun c fare => ?_, fun t => ?_⟩
  · intro b u cap p1 p2 p3
    refine ⟨fun hb => ?_, fun hb => ?_, fun hok => scaled_bounds ((classRecOk_iff c).mp hok).1⟩
    · rw [BitVec.eq_of_toNat_eq (x := fare) (y := 0#16) hb, expandPrice_zero]
    · have hfare : fare ≠ 0#16 := fun h => hb (congrArg BitVec.toNat h)
      refine ⟨expandPrice_toNat c hfare, ?_⟩
      rw [expandPrice_pos c hfare]
      exact decide_eq_true_iff
  · exact (cappedCount_le _).trans_eq (expandAll_length t)

/-- Settles O26: the place by induction over the classes, the bounds from the minimum stage and the cap. -/
theorem expansionFillsTheMatrix : Obligations.ExpansionFillsTheMatrix := by
  intro t c p cls fare hc hp
  refine ⟨expandAll_getElem? hc hp, fun _ => ?_⟩
  intro price cap
  have hcap : 1 ≤ cap := (limit_bounds cls).1
  by_cases hfare : fare = 0#16
  · have hprice : price = 0 := by rw [show price = (expandPrice cls fare).1.toNat from rfl, hfare, expandPrice_zero]; rfl
    exact ⟨iff_of_true hprice hfare, fun h => absurd hfare h⟩
  · have hprice : price = min (cls.uncapped fare) cap := expandPrice_toNat cls hfare
    have hmin : cls.minCharge.toNat ≤ cls.uncapped fare := (Nat.le_max_right ..).trans (Nat.le_max_left ..)
    have hone : 1 ≤ cls.uncapped fare := Nat.le_max_right ..
    refine ⟨iff_of_false (by omega) hfare, fun _ => ?_⟩
    omega

end Sys2Proof.Machine
end

section
/-!
PROOFS. The check of a TARIFF package record by record (R54 to R57), which settles O28.
-/

namespace Sys2Proof.Machine

/-! ### The content of a product record (R56) -/

theorem zonesOk_iff {z low : Nat} {xs : List Byte} :
    zonesOk z low xs = true ↔ xs.Pairwise (· < ·) ∧ ∀ x ∈ xs, low < x.toNat ∧ x.toNat ≤ z := by
  induction xs generalizing low with
  | nil => simp [zonesOk]
  | cons x xs ih =>
    simp only [zonesOk, Bool.and_eq_true, decide_eq_true_eq, ih, List.pairwise_cons, List.forall_mem_cons]
    constructor
    · rintro ⟨hx, hp, h⟩
      exact ⟨⟨fun y hy => (h y hy).1, hp⟩, hx, fun y hy => ⟨hx.1.trans (h y hy).1, (h y hy).2⟩⟩
    · rintro ⟨⟨hlt, hp⟩, hx, h⟩
      exact ⟨hx, hp, fun y hy => ⟨hlt y hy, (h y hy).2⟩⟩

theorem spanOk_iff {top : Nat} {o : Option Half} : spanOk top o = true ↔ ∀ n ∈ o, 1 ≤ n.toNat ∧ n.toNat ≤ top := by
  cases o <;> simp [spanOk]

/-- A product ends no earlier than it begins (R56). -/
def Product.datesOk (p : Product) : Bool := p.validTo.all fun d => decide (p.validFrom ≤ d)

/-- A pass has a fixed price; a single and a value product have none (R56). -/
def Product.priceOk (p : Product) : Bool :=
  decide ((p.kind = .pass → p.fixedPrice ≠ none) ∧ (p.kind = .single ∨ p.kind = .value → p.fixedPrice = none))

theorem productOk_eq (z k : Nat) (p : Product) :
    productOk z k p =
      (decide (p.code ≠ 0#16) && decide (p.code ≠ 65535#16) && decide (p.cls.toNat < k) && p.datesOk &&
        decide (p.zones.length ≤ 32) && zonesOk z 0 p.zones && spanOk 366 p.duration && spanOk 480 p.window && p.priceOk) := by
  obtain ⟨code, kind, cls, validFrom, validTo, zones, duration, window, price⟩ := p
  unfold productOk
  congr 1
  · cases validTo <;> rfl
  · cases kind <;> cases price <;> rfl

theorem productOk_iff (z k : Nat) (p : Product) :
    productOk z k p = true ↔
      p.code ≠ 0#16 ∧ p.code ≠ 65535#16 ∧ p.cls.toNat < k ∧ (∀ d ∈ p.validTo, p.validFrom ≤ d) ∧ p.zones.length ≤ 32 ∧
        p.zones.Pairwise (· < ·) ∧ (∀ x ∈ p.zones, 1 ≤ x.toNat ∧ x.toNat ≤ z) ∧
        (∀ n ∈ p.duration, 1 ≤ n.toNat ∧ n.toNat ≤ 366) ∧ (∀ n ∈ p.window, 1 ≤ n.toNat ∧ n.toNat ≤ 480) ∧
        (p.kind = .pass → p.fixedPrice ≠ none) ∧ (p.kind = .single ∨ p.kind = .value → p.fixedPrice = none) := by
  simp only [productOk_eq, Bool.and_eq_true, decide_eq_true_eq, Product.datesOk, Product.priceOk, Option.all_eq_true,
    Option.mem_def,
    zonesOk_iff, spanOk_iff, and_assoc, Nat.lt_iff_add_one_le, Nat.zero_add]

/-! ### The class records in order (R55) -/

/-- The class record in a place, when there is one, passes its checks (R55). -/
def classRecOkAt (cs : List ClassRec) (j : Nat) : Prop := ∀ c ∈ cs[j]?, classRecOk c = true

section
variable {cs : List ClassRec} {i j : Nat}

theorem checkClasses_none (h : ∀ j, classRecOkAt cs j) : checkClasses i cs = none := by
  induction cs generalizing i with
  | nil => rfl
  | cons c cs ih =>
    rw [checkClasses, if_pos (h 0 c rfl)]
    exact ih fun j => h (j + 1)

/-- The first class record that fails is named. -/
theorem checkClasses_first (h : ∀ k, k < j → classRecOkAt cs k) (hbad : ¬classRecOkAt cs j) :
    checkClasses i cs = some (.badContent, some (i + j)) := by
  induction cs generalizing i j with
  | nil => exact absurd nofun hbad
  | cons c cs ih =>
    cases j with
    | zero =>
      have hc : ¬classRecOk c = true := fun hc => hbad fun x hx => by cases hx; exact hc
      rw [checkClasses, if_neg hc]
      rfl
    | succ j =>
      rw [checkClasses, if_pos (h 0 (Nat.succ_pos j) c rfl), ih (fun k hk => h (k + 1) (Nat.succ_lt_succ hk)) hbad,
        Nat.add_right_comm, Nat.add_assoc]

end

/-! ### The products in order (R56, R57) -/

/-- The check of a product and of those after it: its content, then its order, then the rest. -/
theorem checkProducts_cons (z k i : Nat) (prev : Option Half) (p : Product) (ps : List Product) :
    checkProducts z k i prev (p :: ps) =
      if productOk z k p = true then
        if prev.any (fun c => decide (p.code ≤ c)) = true then some (.order, some i)
        else checkProducts z k (i + 1) (some p.code) ps
      else some (.badContent, some i) := by
  cases prev <;> cases h : productOk z k p <;> simp [checkProducts, h]

section
variable (z k : Nat) (ps : List Product) (place j : Nat)

/-- The product in a place, when there is one, passes its content checks (R56). -/
def productContentOk : Prop := ∀ p ∈ ps[j]?, productOk z k p = true

/-- The product in a place, when there is one, has a higher code than the one before it (R57). -/
def productOrderOk : Prop := j = 0 ∨ ∀ p ∈ ps[j]?, ∀ q ∈ ps[j - 1]?, q.code < p.code

/-- The code before a product: none for the first (R57). -/
def codeBefore : Option Half := if j = 0 then none else (ps[j - 1]?).map (·.code)

/-- The check of the products from one on, the first of all standing at `place` in the body. -/
def checkProductsFrom : Finding := checkProducts z k (place + j) (codeBefore ps j) (ps.drop j)

end

section
variable {z k : Nat} {ps : List Product} {place j : Nat} {p : Product}

theorem productContentOk_iff (hp : ps[j]? = some p) : productContentOk z k ps j ↔ productOk z k p = true := by
  rw [productContentOk, hp]
  exact ⟨fun h => h p rfl, fun h q hq => Option.some.inj hq ▸ h⟩

theorem productOrderOk_iff (hp : ps[j]? = some p) :
    productOrderOk ps j ↔ ¬(codeBefore ps j).any (fun c => decide (p.code ≤ c)) = true := by
  cases j with
  | zero => simp [productOrderOk, codeBefore]
  | succ j => cases hq : ps[j]? <;> simp [productOrderOk, codeBefore, hp, hq]

theorem checkProductsFrom_end (h : ps[j]? = none) : checkProductsFrom z k ps place j = none := by
  rw [checkProductsFrom, List.drop_eq_nil_of_le (List.getElem?_eq_none_iff.mp h), checkProducts]

theorem checkProductsFrom_at (hp : ps[j]? = some p) :
    checkProductsFrom z k ps place j =
      if productOk z k p = true then
        if (codeBefore ps j).any (fun c => decide (p.code ≤ c)) = true then some (.order, some (place + j))
        else checkProductsFrom z k ps place (j + 1)
      else some (.badContent, some (place + j)) := by
  have hdrop : ps.drop j = p :: ps.drop (j + 1) := by
    obtain ⟨hj, rfl⟩ := List.getElem?_eq_some_iff.mp hp
    exact List.drop_eq_getElem_cons hj
  have hnext : codeBefore ps (j + 1) = some p.code := by rw [codeBefore, if_neg (Nat.succ_ne_zero j), Nat.add_sub_cancel, hp]; rfl
  rw [checkProductsFrom, hdrop, checkProducts_cons, checkProductsFrom, hnext, Nat.add_assoc]

/-- A product that fails its content checks ends the check. -/
theorem checkProductsFrom_badContent (hc : ¬productContentOk z k ps j) :
    checkProductsFrom z k ps place j = some (.badContent, some (place + j)) := by
  cases hp : ps[j]? with
  | none => exact absurd (by rw [productContentOk, hp]; exact nofun) hc
  | some p => rw [checkProductsFrom_at hp, if_neg ((productContentOk_iff hp).not.mp hc)]

/-- A product that passes them and not its order ends the check. -/
theorem checkProductsFrom_order (hc : productContentOk z k ps j) (ho : ¬productOrderOk ps j) :
    checkProductsFrom z k ps place j = some (.order, some (place + j)) := by
  cases hp : ps[j]? with
  | none => exact absurd (Or.inr (by rw [hp]; exact nofun)) ho
  | some p =>
    rw [checkProductsFrom_at hp, if_pos ((productContentOk_iff hp).mp hc),
      if_pos (Decidable.not_not.mp ((productOrderOk_iff hp).not.mp ho))]

/-- A product that passes both leaves the check to those after it. -/
theorem checkProductsFrom_passed (hc : productContentOk z k ps j) (ho : productOrderOk ps j) :
    checkProductsFrom z k ps place j = checkProductsFrom z k ps place (j + 1) := by
  cases hp : ps[j]? with
  | none =>
    have hnext : ps[j + 1]? = none := List.getElem?_eq_none_iff.mpr (Nat.le_succ_of_le (List.getElem?_eq_none_iff.mp hp))
    rw [checkProductsFrom_end hp, checkProductsFrom_end hnext]
  | some p =>
    rw [checkProductsFrom_at hp, if_pos ((productContentOk_iff hp).mp hc), if_neg ((productOrderOk_iff hp).mp ho)]

/-- The check comes to a product when those before it pass. -/
theorem checkProductsFrom_reached (h : ∀ i, i < j → productContentOk z k ps i ∧ productOrderOk ps i) :
    checkProducts z k place none ps = checkProductsFrom z k ps place j := by
  induction j with
  | zero => rfl
  | succ j ih =>
    obtain ⟨hc, ho⟩ := h j (Nat.lt_succ_self j)
    rw [ih fun i hi => h i (Nat.lt_succ_of_lt hi), checkProductsFrom_passed hc ho]

end

/-! ### The whole check -/

theorem checkTariff_unparsed {buffer : List Byte} (h : parseTariff (buffer.drop 8) = none) :
    checkTariff buffer = some (.badContent, none) := by
  rw [checkTariff, h]

theorem checkTariff_classes {buffer : List Byte} {t : TariffPackage} {f : ResultCode × Option Nat}
    (h : parseTariff (buffer.drop 8) = some t) (hc : checkClasses 0 t.classes = some f) : checkTariff buffer = some f := by
  rw [checkTariff, h]
  dsimp only
  rw [hc]

theorem checkTariff_products {buffer : List Byte} {t : TariffPackage} (h : parseTariff (buffer.drop 8) = some t)
    (hc : ∀ j, classRecOkAt t.classes j) :
    checkTariff buffer = checkProducts t.zones t.classCount (t.classCount + t.zones * t.zones) none t.products := by
  rw [checkTariff, h]
  dsimp only
  rw [checkClasses_none hc]

/-- Settles O28: class records first, then each product's content before its order. -/
theorem tariffCheckNamesTheFirstFault : Obligations.TariffCheckNamesTheFirstFault := by
  refine ⟨classRecOk_iff, productOk_iff, fun buffer => ⟨checkTariff_unparsed, fun t ht => ?_⟩⟩
  intro classOk contentOk orderOk place
  refine ⟨fun hc hp => ?_, fun j h hbad => ?_, fun j hc h hbad => ?_, fun j hc h hcontent hbad => ?_⟩
  · rw [checkTariff_products ht hc, checkProductsFrom_reached (j := t.products.length) fun i _ => hp i]
    exact checkProductsFrom_end (List.getElem?_eq_none_iff.mpr (Nat.le_refl _))
  · refine checkTariff_classes ht ?_
    rw [checkClasses_first h hbad, Nat.zero_add]
  · rw [checkTariff_products ht hc, checkProductsFrom_reached h]
    exact checkProductsFrom_badContent hbad
  · rw [checkTariff_products ht hc, checkProductsFrom_reached h]
    exact checkProductsFrom_order hcontent hbad

end Sys2Proof.Machine
end

section
/-!
PROOFS. Tariffs, range entries and delta operations read back from their encodings (R53, R65, R200), which settles O27.
-/

namespace Sys2Proof.Machine

/-! ### A product record (R65) -/

theorem be16_append (v : Half) (rest : List Byte) : be16 v ++ rest = v.extractLsb' 8 8 :: v.extractLsb' 0 8 :: rest := rfl

theorem take16_be16 (v : Half) (rest : List Byte) : take16 (be16 v ++ rest) = some (v, rest) := by
  rw [be16_append, take16, half_bytes]

/-- An optional field is read back when its presence is known. -/
theorem take16If_maybe16 {present : Bool} {o : Option Half} (h : present = o.isSome) (rest : List Byte) :
    take16If present (maybe16 o ++ rest) = some (o, rest) := by
  subst h
  cases o with
  | none => rfl
  | some v => rw [maybe16, Option.isSome_some, take16If, if_pos rfl, take16_be16]; rfl

theorem productKindOf_code (k : ProductKind) : productKindOf k.code = some k := by cases k <;> rfl

/-- The presence byte tells which of the two dated fields are there. -/
theorem presenceByte_bits (p : Product) :
    ¬3 < (presenceByte p).toNat ∧ (presenceByte p).getLsbD 0 = p.validTo.isSome ∧
      (presenceByte p).getLsbD 1 = p.fixedPrice.isSome := by
  rw [presenceByte]
  cases p.validTo.isSome <;> cases p.fixedPrice.isSome <;> decide

theorem encodeProduct_append (p : Product) (rest : List Byte) :
    encodeProduct p ++ rest =
      p.code.extractLsb' 8 8 :: p.code.extractLsb' 0 8 :: p.kind.code :: p.cls :: presenceByte p ::
        p.validFrom.extractLsb' 8 8 :: p.validFrom.extractLsb' 0 8 ::
          (maybe16 p.validTo ++ n8 p.zones.length ::
            (p.zones ++ (maybe16 p.duration ++ (maybe16 p.window ++ (maybe16 p.fixedPrice ++ rest))))) := by
  simp only [encodeProduct, be16, List.append_assoc, List.cons_append, List.nil_append]

/-- The fields that a product's encoding can carry: a count of zones in one byte, and the span that belongs to its kind. -/
def Product.encodable (p : Product) : Prop :=
  p.zones.length < 256 ∧ (p.duration.isSome = true ↔ p.kind = .pass) ∧ (p.window.isSome = true ↔ p.kind = .transfer)

theorem parseProduct_encode {p : Product} (h : p.encodable) (rest : List Byte) :
    parseProduct (encodeProduct p ++ rest) = some (p, rest) := by
  obtain ⟨hzones, hduration, hwindow⟩ := h
  obtain ⟨hpresence, hto, hprice⟩ := presenceByte_bits p
  have hcount : (n8 p.zones.length).toNat = p.zones.length := n8_toNat hzones
  have hpass : decide (p.kind = .pass) = p.duration.isSome := by rw [Bool.eq_iff_iff, decide_eq_true_eq, hduration]
  have htransfer : decide (p.kind = .transfer) = p.window.isSome := by rw [Bool.eq_iff_iff, decide_eq_true_eq, hwindow]
  rw [encodeProduct_append, parseProduct, productKindOf_code]
  dsimp only
  rw [if_neg hpresence, take16If_maybe16 hto]
  dsimp only
  rw [hcount, if_neg (by rw [List.length_append]; omega), List.drop_left, take16If_maybe16 hpass]
  dsimp only
  rw [take16If_maybe16 htransfer]
  dsimp only
  rw [take16If_maybe16 hprice]
  dsimp only
  rw [List.take_left, half_bytes, half_bytes]

/-! ### A tariff (R53) -/

theorem parseClasses_encode (cs : List ClassRec) (rest : List Byte) :
    parseClasses cs.length (cs.flatMap encodeClass ++ rest) = some (cs, rest) := by
  induction cs with
  | nil => rfl
  | cons c cs ih =>
    simp only [List.flatMap_cons, encodeClass, be16, List.cons_append, List.nil_append, List.length_cons,
      parseClasses, ih, Option.map_some, half_bytes]

theorem parseFares_encode (fs : List Half) (rest : List Byte) :
    parseFares fs.length (fs.flatMap be16 ++ rest) = some (fs, rest) := by
  induction fs with
  | nil => rfl
  | cons f fs ih =>
    simp only [List.flatMap_cons, be16, List.cons_append, List.nil_append, List.length_cons, parseFares, ih, Option.map_some,
      half_bytes]

theorem parseProducts_encode {ps : List Product} (h : ∀ p ∈ ps, p.encodable) :
    parseProducts ps.length (ps.flatMap encodeProduct) = some ps := by
  induction ps with
  | nil => rfl
  | cons p ps ih =>
    obtain ⟨hp, hps⟩ := List.forall_mem_cons.mp h
    rw [List.length_cons, List.flatMap_cons, parseProducts, parseProduct_encode hp]
    dsimp only
    rw [ih hps]
    rfl

/-- The dimensions and record counts that a TARIFF package can carry, which are those of its sections (R53, R54). -/
def TariffPackage.encodable (t : TariffPackage) : Prop :=
  (1 ≤ t.zones ∧ t.zones ≤ 32) ∧ (1 ≤ t.classCount ∧ t.classCount ≤ 8) ∧ t.productCount ≤ 256 ∧
    t.classes.length = t.classCount ∧ t.base.length = t.zones * t.zones ∧ t.products.length = t.productCount

/-- A TARIFF package after its common header (R53, R200). -/
def TariffPackage.encode (t : TariffPackage) : List Byte :=
  be32 t.version ++ [n8 t.zones, n8 t.classCount] ++ n16 t.productCount ++ t.classes.flatMap encodeClass ++
    t.base.flatMap be16 ++ t.products.flatMap encodeProduct

theorem TariffPackage.encode_eq (t : TariffPackage) :
    t.encode =
      t.version.extractLsb' 24 8 :: t.version.extractLsb' 16 8 :: t.version.extractLsb' 8 8 :: t.version.extractLsb' 0 8 ::
        n8 t.zones :: n8 t.classCount :: (BitVec.ofNat 16 t.productCount).extractLsb' 8 8 ::
          (BitVec.ofNat 16 t.productCount).extractLsb' 0 8 ::
            (t.classes.flatMap encodeClass ++ (t.base.flatMap be16 ++ t.products.flatMap encodeProduct)) := by
  simp only [TariffPackage.encode, be32, n16, be16, List.append_assoc, List.cons_append, List.nil_append]

theorem parseTariff_encode {t : TariffPackage} (h : t.encodable) (hproducts : ∀ p ∈ t.products, p.encodable) :
    parseTariff t.encode = some t := by
  obtain ⟨hz, hk, hp, hclasses, hbase, hcount⟩ := h
  have hzn : (n8 t.zones).toNat = t.zones := n8_toNat (by omega)
  have hkn : (n8 t.classCount).toNat = t.classCount := n8_toNat (by omega)
  have hpn : (BitVec.ofNat 16 t.productCount).toNat = t.productCount := by rw [BitVec.toNat_ofNat]; omega
  have hdims : ¬(t.zones = 0 ∨ 32 < t.zones ∨ t.classCount = 0 ∨ 8 < t.classCount ∨
      Config.productCapacity < t.productCount) := by
    rw [Config.productCapacity]
    omega
  rw [TariffPackage.encode_eq, parseTariff]
  rw [half_bytes, hzn, hkn, hpn, if_neg hdims, ← hclasses, parseClasses_encode]
  dsimp only
  rw [← hbase, parseFares_encode]
  dsimp only
  rw [← hcount, parseProducts_encode hproducts, hclasses, hcount, word32_bytes]

/-! ### A range entry and a delta operation (R200) -/

/-- Reason, priority and the presence of the expiry are read back from the byte that holds them (R200). -/
theorem attrByte_fields (r : RangeRec) :
    reasonOf (attrByte r) = some r.reason ∧ (attrByte r).extractLsb' 3 2 = r.priority ∧
      (attrByte r).getLsbD 2 = r.expiry.isSome := by
  rw [attrByte]
  generalize r.priority = priority
  revert priority
  cases r.reason <;> cases r.expiry.isSome <;> decide

/-- The 17 bytes of a package entry (R200). -/
def encodeEntry (r : RangeRec) : List Byte := be56 r.first ++ be56 r.last ++ [attrByte r] ++ be16 (r.expiry.getD 0#16)

theorem entryOf_encodeEntry (r : RangeRec) : entryOf (encodeEntry r) = some r := by
  obtain ⟨hreason, hpriority, hexpiry⟩ := attrByte_fields r
  have hexpires : (if r.expiry.isSome = true then some (r.expiry.getD 0#16) else none) = r.expiry := by
    cases r.expiry <;> rfl
  simp only [encodeEntry, be56, be16, List.cons_append, List.nil_append, entryOf, hreason, hpriority, hexpiry, card56_bytes,
    half_bytes, hexpires]

theorem deltaOpOf_add (r : RangeRec) : deltaOpOf (0#8 :: encodeEntry r) = some (.add r) := by
  unfold deltaOpOf
  dsimp only
  rw [if_pos rfl, entryOf_encodeEntry]
  rfl

/-- Of a REMOVE's entry only the two card numbers are examined (R36). -/
theorem deltaOpOf_remove (r : RangeRec) : deltaOpOf (1#8 :: encodeEntry r) = some (.remove r.first r.last) := by
  unfold deltaOpOf
  dsimp only
  rw [if_neg (by decide), if_pos rfl]
  simp only [encodeEntry, be56, be16, List.cons_append, List.nil_append, card56_bytes]

/-- Settles O27: the three sections of a tariff in turn, each over the bytes that follow it, and an entry field by field. -/
theorem contentDecodesAsEncoded : Obligations.ContentDecodesAsEncoded := by
  refine ⟨fun p rest hzones hduration hwindow => parseProduct_encode ⟨hzones, hduration, hwindow⟩ rest, ?_, fun r => ?_⟩
  · intro t hz hz' hk hk' hp hclasses hbase hcount hproducts
    exact parseTariff_encode ⟨⟨hz, hz'⟩, ⟨hk, hk'⟩, hp, hclasses, hbase, hcount⟩ hproducts
  · exact ⟨entryOf_encodeEntry r, deltaOpOf_add r, deltaOpOf_remove r⟩

end Sys2Proof.Machine
end

section
/-!
PROOFS. The apply phase of a TARIFF package, which settles O33: its records are read one after the other, and what has been read
whole by the phase's end is written (R53, R58, R59, R80, R182).
-/

namespace Sys2Proof.Machine

/-! ### The sections of a parsed tariff (R53, R54) -/

theorem parseClasses_length {n : Nat} {bs rest : List Byte} {cs : List ClassRec} (h : parseClasses n bs = some (cs, rest)) :
    cs.length = n := by
  induction n, bs using parseClasses.induct generalizing cs with
  | case1 bs => cases h; rfl
  | case2 n f1 f0 u m1 m0 c1 c0 bs ih =>
    obtain ⟨⟨cs', rest'⟩, hparse, heq⟩ := Option.map_eq_some_iff.mp h
    cases heq
    rw [List.length_cons, ih hparse]
  | case3 n bs hshort =>
    rw [parseClasses] at h
    · cases h
    · exact hshort

theorem parseFares_length {n : Nat} {bs rest : List Byte} {fs : List Half} (h : parseFares n bs = some (fs, rest)) :
    fs.length = n := by
  induction n, bs using parseFares.induct generalizing fs with
  | case1 bs => cases h; rfl
  | case2 n h l bs ih =>
    obtain ⟨⟨fs', rest'⟩, hparse, heq⟩ := Option.map_eq_some_iff.mp h
    cases heq
    rw [List.length_cons, ih hparse]
  | case3 n bs hshort =>
    rw [parseFares] at h
    · cases h
    · exact hshort

theorem parseProducts_length {n : Nat} {bs : List Byte} {ps : List Product} (h : parseProducts n bs = some ps) :
    ps.length = n := by
  induction n generalizing bs ps with
  | zero =>
    cases bs <;> cases h
    rfl
  | succ n ih =>
    rw [parseProducts] at h
    split at h
    · cases h
    · obtain ⟨ps', hparse, rfl⟩ := Option.map_eq_some_iff.mp h
      rw [List.length_cons, ih hparse]

/-- A tariff that parses has the records that its dimensions ask for. -/
theorem parseTariff_encodable {bs : List Byte} {t : TariffPackage} (h : parseTariff bs = some t) : t.encodable := by
  unfold parseTariff at h
  split at h
  · dsimp only at h
    split at h
    · cases h
    · next hdims =>
      rw [Config.productCapacity] at hdims
      split at h
      · cases h
      · next hclasses =>
        split at h
        · cases h
        · next hfares =>
          split at h
          · cases h
          · next hproducts =>
            cases h
            refine ⟨?_, ?_, ?_, parseClasses_length hclasses, parseFares_length hfares, parseProducts_length hproducts⟩ <;>
              dsimp only <;> omega
  · cases h

/-- The records of a TARIFF package are few enough to be counted (R80). -/
theorem TariffPackage.encodable.records_le {t : TariffPackage} (h : t.encodable) :
    t.classes.length + t.base.length + t.products.length ≤ 65535 := by
  obtain ⟨⟨-, hz⟩, ⟨-, hk⟩, hp, hclasses, hbase, hproducts⟩ := h
  have : t.zones * t.zones ≤ 32 * 32 := Nat.mul_le_mul hz hz
  omega

theorem tariffWidths_length (t : TariffPackage) :
    (tariffWidths t).length = t.classes.length + t.base.length + t.products.length := by
  simp only [tariffWidths, List.length_append, List.length_map]

section
variable {s : State} {b : BankId} {id : Half} {u : Upset} {t : TariffPackage} {n : Nat}

/-! ### The records read one after the other (R76) -/

/-- The records before the words in error are read whole. -/
theorem readRecords_passes {lo n k : Nat} {ws : List Nat} (hk : k ≤ ws.length)
    (h : bytesClear s.upsets lo (lo + (ws.take k).sum)) :
    readRecords lo ws n s = readRecords (lo + (ws.take k).sum) (ws.drop k) (n + k) s := by
  induction k generalizing lo n ws with
  | zero => rfl
  | succ k ih =>
    cases ws with
    | nil => cases hk
    | cons w ws =>
      rw [List.take_succ_cons, List.sum_cons] at h ⊢
      have hfirst : bytesClear s.upsets lo (lo + w) := fun u hu o ho => by have := h u hu o ho; omega
      have hrest : bytesClear s.upsets (lo + w) (lo + w + (ws.take k).sum) := fun u hu o ho => by have := h u hu o ho; omega
      rw [readRecords, readNewBytes_clear hfirst]
      dsimp only
      rw [if_pos rfl, ih (Nat.le_of_succ_le_succ hk) hrest, List.drop_succ_cons, Nat.add_assoc lo, Nat.add_right_comm n,
        Nat.add_assoc n]

theorem readRecords_whole {lo : Nat} {ws : List Nat} (h : bytesClear s.upsets lo (lo + ws.sum)) :
    readRecords lo ws 0 s = (s, ws.length, true) := by
  rw [readRecords_passes (Nat.le_refl _) (by rwa [List.take_length]), List.drop_length, Nat.zero_add, readRecords]

/-- The record that the unreadable word is first read with ends the phase (R79). -/
theorem readRecords_stops {lo o : Nat} {ws : List Nat} (hs : s.upsets = [u]) (hl : u.loc = .buffer o)
    (hu : fatal u.kind = true) (hn : n < ws.length) (hlo : lo + (ws.take n).sum ≤ 8 * o)
    (hhi : 8 * o < lo + (ws.take (n + 1)).sum) : readRecords lo ws 0 s = (uncorrectable u.loc .loader s, n, false) := by
  rw [List.take_succ_eq_append_getElem hn, List.sum_append, List.sum_singleton, ← Nat.add_assoc] at hhi
  rw [readRecords_passes (Nat.le_of_lt hn) (hs ▸ bytesClear_buffer hl (Or.inr hlo)), List.drop_eq_getElem_cons hn, readRecords,
    readNewBytes_single hs hl hu hlo hhi, Nat.zero_add]
  rfl

/-! ### What is written (R58, R59) -/

theorem writtenOver_whole {α : Type} {n : Nat} {new old : List α} (h : new.length ≤ n) : writtenOver n new old = new :=
  if_pos h

/-- With every record written the regions hold the package's tariff, and the price words of before. -/
theorem over_whole (t : TariffPackage) (old : Tariff) :
    t.over (tariffWidths t).length old =
      ⟨t.zones, t.classCount, t.productCount, t.classes, t.base, old.prices, t.products⟩ := by
  rw [TariffPackage.over, tariffWidths_length, writtenOver_whole (by omega), writtenOver_whole (by omega),
    writtenOver_whole (by omega)]

theorem tariffWritten_whole (t : TariffPackage) : (tariffWritten t).take ((tariffWidths t).length + 1) = tariffWritten t := by
  refine List.take_of_length_le ?_
  simp only [tariffWritten, tariffWidths_length, List.length_cons, List.length_append, List.length_map, List.length_range]
  omega

theorem setRec_writeTariff_whole (r : BankRecord) :
    (writeTariff b t (tariffWidths t).length s).setRec b r =
      (s.setBank b
        ⟨r, ⟨t.zones, t.classCount, t.productCount, t.classes, t.base, (s.bank b).tariff.prices, t.products⟩,
          (s.bank b).ranges⟩).refresh (inItems b (tariffWritten t)) := by
  rw [writeTariff, tariffWritten_whole, over_whole]
  cases b <;> rfl

/-- The bank with another tariff in its regions, which is not present (R59). -/
def State.tariffLost (b : BankId) (tariff : Tariff) (s : State) : State :=
  s.setBank b ⟨{ s.recOf b with tariffPresent := false, expansionDue := true }, tariff, (s.bank b).ranges⟩

theorem setRec_faulted_lost :
    (s.faulted b u none).setRec b { (s.faulted b u none).recOf b with tariffPresent := false, expansionDue := true } =
      (s.tariffLost b (s.bank b).tariff).faulted b u none := by
  cases b <;> rfl

/-- No word of the bank is in error, so none is renewed. -/
theorem writeTariff_faulted {o : Nat} (hs : s.upsets = [u]) (hl : u.loc = .buffer o) :
    writeTariff b t n (s.faulted b u none) =
      (s.setBank b { s.bank b with tariff := t.over n (s.bank b).tariff }).faulted b u none :=
  refresh_clear (s := (s.setBank b { s.bank b with tariff := t.over n (s.bank b).tariff }).faulted b u none)
    (show ∀ v ∈ s.upsets, _ from hs ▸ itemsClear_buffer hl)

/-! ### How the phase ends (R58, R59, R80) -/

theorem packageDone_uncounted {kind : PackageKind} (hn : n ≤ 65535) :
    packageDone id kind ⟨n, 0, 0⟩ s =
      { s with
        loader := ⟨.idle, ⟨.done, id, some kind, .ok, none, BitVec.ofNat 16 n, 0#16, 0#16⟩, []⟩
        events := { s.events with flags := s.events.flags ||| 1#24 }
        free := s.free + 3 } := by
  rw [packageDone, finishWith_eq, countField, if_pos hn]
  rfl

theorem packageRefused_faulted {kind : PackageKind} (hn : n ≤ 65535) :
    packageRefused id kind .memory none ⟨n, 0, 0⟩ (s.faulted b u none) =
      { s with
        loader := ⟨.idle, ⟨.refused, id, some kind, .memory, none, BitVec.ofNat 16 n, 0#16, 0#16⟩, []⟩
        events :=
          { s.events with
            flags := s.events.flags ||| 0x20002#24
            uncorrectable := min 65535 (s.events.uncorrectable + 1)
            capture := some (s.events.capture.getD ⟨u.loc, .loader, none⟩) }
        free := s.free + 3 } := by
  have hflags : (s.events.flags ||| 0x20000#24) ||| Event.packageRefused.bit = s.events.flags ||| 0x20002#24 := by
    rw [BitVec.or_assoc]
    rfl
  rw [packageRefused, finishWith_eq, countField, if_pos hn, ← hflags]
  rfl

variable (ht : parseTariff (s.loader.buffer.drop 8) = some t)

include ht

theorem applyTariff_done (h : ∀ lo hi, bytesClear s.upsets lo hi) :
    applyTariff b id s =
      packageDone id .tariff ⟨(tariffWidths t).length, 0, 0⟩
        ((s.setBank b
          ⟨{ s.recOf b with tariffPresent := true, tariffVersion := t.version, expansionDue := true },
            ⟨t.zones, t.classCount, t.productCount, t.classes, t.base, (s.bank b).tariff.prices, t.products⟩,
            (s.bank b).ranges⟩).refresh (inItems b (tariffWritten t))) := by
  have hheader : readBuffer 0 16 s = (s, true) := readNewBytes_clear (lo := 0) (h 0 16)
  have hrec : (writeTariff b t (tariffWidths t).length s).recOf b = s.recOf b := by cases b <;> rfl
  rw [applyTariff, ht]
  dsimp only
  rw [hheader]
  dsimp only
  rw [readRecords_whole (h _ _), if_neg (by decide)]
  dsimp only
  rw [if_pos rfl, setRec_writeTariff_whole, hrec]

/-- A word among the headers: nothing has been written (R59). -/
theorem applyTariff_headerRefused {o : Nat} (hs : s.upsets = [u]) (hl : u.loc = .buffer o) (hu : fatal u.kind = true)
    (ho : 8 * o < 16) :
    applyTariff b id s =
      packageRefused id .tariff .memory none ⟨0, 0, 0⟩ ((s.tariffLost b (s.bank b).tariff).faulted b u none) := by
  have hheader : readBuffer 0 16 s = (s.faulted b u none, false) :=
    uncorrectable_ofBuffer (s := s) (b := b) hl ▸ readNewBytes_single (lo := 0) hs hl hu (Nat.zero_le _) ho
  rw [applyTariff, ht]
  dsimp only
  rw [hheader]
  dsimp only
  rw [if_pos (by decide), setRec_faulted_lost, Counts.zero]

/-- A word of a record: the dimensions and the records before it have been written (R59). -/
theorem applyTariff_recordRefused {o : Nat} (hs : s.upsets = [u]) (hl : u.loc = .buffer o) (hu : fatal u.kind = true)
    (hn : n < (tariffWidths t).length) (hlo : 16 + ((tariffWidths t).take n).sum ≤ 8 * o)
    (hhi : 8 * o < 16 + ((tariffWidths t).take (n + 1)).sum) :
    applyTariff b id s =
      packageRefused id .tariff .memory none ⟨n, 0, 0⟩ ((s.tariffLost b (t.over n (s.bank b).tariff)).faulted b u none) := by
  have hheader : readBuffer 0 16 s = (s, true) :=
    readNewBytes_clear (lo := 0) (hs ▸ bytesClear_buffer hl (Or.inr (by omega)))
  have hlost : (s.setBank b { s.bank b with tariff := t.over n (s.bank b).tariff }).tariffLost b (t.over n (s.bank b).tariff) =
      s.tariffLost b (t.over n (s.bank b).tariff) := by cases b <;> rfl
  rw [applyTariff, ht]
  dsimp only
  rw [hheader]
  dsimp only
  rw [readRecords_stops hs hl hu hn hlo hhi, if_neg (by decide), uncorrectable_ofBuffer (b := b) hl]
  dsimp only
  rw [if_neg (by decide), writeTariff_faulted hs hl, setRec_faulted_lost, State.bank_setBank_same, hlost]

end

theorem exec_applyTariff {s : State} {b : BankId} {id : Half} {total : Nat} (hr : s.inReset = false) (hroles : rolesLaw s)
    (hb : (s.recOf b).state = .building) (hl : s.loader.state = .applying id .tariff total .apply) :
    exec .applyPhaseEnd s = .next (applyTariff b id s) := by
  change execApplyPhaseEnd s = _
  rw [execApplyPhaseEnd, event_running hr, applyPhaseEnd, hl, findBank_of hroles rfl hb]

/-- Settles O33: the phase reads record after record, and ends at its end or at the word. -/
theorem tariffApplyReplacesTheTariff : Obligations.TariffApplyReplacesTheTariff := by
  intro s b id total t hr hroles hl hb ht r items
  have hexec := exec_applyTariff hr hroles hb hl
  have hfew := (parseTariff_encodable ht).records_le
  have hcount := tariffWidths_length t
  obtain ⟨-, -, -, hclasses, hbase, hproducts⟩ := parseTariff_encodable ht
  refine ⟨fun hclear => ?_, fun u o hs hloc hu => ?_⟩
  · rw [hexec, applyTariff_done ht fun lo hi u hu o ho => absurd ho (hclear u hu o), packageDone_uncounted (by omega), hcount,
      hclasses, hbase, hproducts]
    rfl
  · intro widths refused
    refine ⟨fun ho => ?_, fun n hn hlo hhi => ?_⟩
    · rw [hexec, applyTariff_headerRefused ht hs hloc hu (by omega), packageRefused_faulted (Nat.zero_le _)]
      rfl
    · have hn' : n < (tariffWidths t).length := hn
      rw [hexec, applyTariff_recordRefused ht hs hloc hu hn hlo hhi, packageRefused_faulted (by omega)]
      rfl

end Sys2Proof.Machine
end

section
/-!
PROOFS. The device reset (R83, R198), which settles O4.
-/

namespace Sys2Proof.Machine

/-- A RESET_END ends a reset in progress. -/
theorem leaveReset_enterReset (s : State) : leaveReset (enterReset s) = resetBlocks s := if_pos rfl

/-- A RESET_END with no reset in progress does nothing (log 3). -/
theorem leaveReset_running {s : State} (h : s.inReset = false) : leaveReset s = s := if_neg (Bool.eq_false_iff.mp h)

/-- DEVICE_RESET has no response, and what the port and the queries held is lost with it (R198). -/
theorem exec_deviceReset {s : State} (tag : Half) (h : s.portReady) : exec (.deviceReset tag) s = .next (resetBlocks s) :=
  congrArg _ (gateway_ready (own := deviceReset) h rfl)

/-- Settles O4: each of the four commands is `resetBlocks`, held or at an end. -/
theorem deviceResetSetsEveryBlock : Obligations.DeviceResetSetsEveryBlock := fun s =>
  ⟨rfl, rfl, congrArg _ (leaveReset_enterReset s), fun h => congrArg _ (leaveReset_running h),
    fun tag h => exec_deviceReset tag h⟩

end Sys2Proof.Machine
end

section
/-!
PROOFS. SEGMENT: its checks in their order, and what a segment that is taken makes of the package (R70 to R75, R80, R180), which
settles O29 and O30.
-/

namespace Sys2Proof.Machine

variable {s : State} {id index count : Half} {payload : List Byte} {r : Receiving} {b : BankId}

/-! ### The checks on the fields and on the headers (R70 to R72) -/

theorem segmentFieldsOk_iff :
    segmentFieldsOk index count payload = true ↔
      ¬(count = 0#16 ∨ 274 < count.toNat ∨ count ≤ index ∨ payload = [] ∨ 240 < payload.length) := by
  have hcount : count = 0#16 ↔ ¬1 ≤ count.toNat := by bv_omega
  have hpayload : payload = [] ↔ ¬1 ≤ payload.length := by
    rw [Nat.not_le, Nat.lt_one_iff, List.length_eq_zero_iff]
  simp only [segmentFieldsOk, Bool.and_eq_true, decide_eq_true_eq, hcount, hpayload, not_or, Nat.not_lt, BitVec.not_le,
    Decidable.not_not, and_assoc]

/-- The total length in a package's header (R70, R200). -/
def totalOf (payload : List Byte) : Nat :=
  (payload.getD 1 0#8).toNat * 65536 + (payload.getD 2 0#8).toNat * 256 + (payload.getD 3 0#8).toNat

theorem append_toNat {m n : Nat} (x : BitVec m) (y : BitVec n) : (x ++ y).toNat = x.toNat * 2 ^ n + y.toNat := by
  rw [BitVec.toNat_append, ← Nat.shiftLeft_add_eq_or_of_lt y.isLt, Nat.shiftLeft_eq]

theorem word24_toNat (x y z : Byte) : (word24 x y z).toNat = x.toNat * 65536 + y.toNat * 256 + z.toNat := by
  rw [word24, append_toNat, append_toNat]
  omega

theorem headerOf_short (h : payload.length < 8) : headerOf payload = none := by
  unfold headerOf
  split
  · simp only [List.length_cons] at h
    omega
  · rfl

/-- Check 3 of R72 on a payload that holds a whole common header. -/
theorem headerOf_whole (h : 8 ≤ payload.length) :
    headerOf payload =
      (packageKindOf (payload.getD 0 0#8)).bind fun kind =>
        if totalOf payload < kind.least ∨ 65536 < totalOf payload ∨ payload.length < kind.least then none
        else
          some ⟨kind, totalOf payload,
            word32 (payload.getD 4 0#8) (payload.getD 5 0#8) (payload.getD 6 0#8) (payload.getD 7 0#8)⟩ := by
  unfold headerOf
  split
  · simp only [totalOf, List.getD_cons_zero, List.getD_cons_succ, ← word24_toNat]
    split
    · next hk => rw [hk]; rfl
    · next kind hk => rw [hk]; rfl
  · next hshort =>
    match payload, h with
    | _ :: _ :: _ :: _ :: _ :: _ :: _ :: _ :: _, _ => exact absurd rfl (hshort _ _ _ _ _ _ _ _ _)

theorem PackageKind.eight_le_least (kind : PackageKind) : 8 ≤ kind.least := by cases kind <;> decide

/-- The bytes that name a kind, with the least length of each (R70, R200). -/
theorem packageKindOf_some {k : Byte} {kind : PackageKind} (h : packageKindOf k = some kind) :
    k ∈ [1#8, 2#8, 3#8] ∧ kind.least = if k = 1#8 then 16 else 18 := by
  unfold packageKindOf at h
  repeat' split at h
  all_goals cases h
  all_goals
    subst k
    decide

theorem headerOf_wrong
    (h : payload.getD 0 0#8 ∉ [1#8, 2#8, 3#8] ∨ payload.length < (if payload.getD 0 0#8 = 1#8 then 16 else 18) ∨
      totalOf payload < (if payload.getD 0 0#8 = 1#8 then 16 else 18) ∨ 65536 < totalOf payload) :
    headerOf payload = none := by
  rcases Nat.lt_or_ge payload.length 8 with hshort | hwhole
  · exact headerOf_short hshort
  · rw [headerOf_whole hwhole]
    cases hkind : packageKindOf (payload.getD 0 0#8) with
    | none => rfl
    | some kind =>
      obtain ⟨hk, hleast⟩ := packageKindOf_some hkind
      refine if_pos ?_
      rw [hleast]
      exact (h.resolve_left (not_not_intro hk)).elim (fun h => .inr (.inr h)) (Or.imp_right .inl)

theorem headerOf_right {k : Byte} {rest : List Byte} {kind : PackageKind} (hp : payload = k :: rest)
    (hk : packageKindOf k = some kind) (hleast : kind.least ≤ totalOf payload) (htotal : totalOf payload ≤ 65536)
    (hlength : kind.least ≤ payload.length) :
    headerOf payload =
      some ⟨kind, totalOf payload,
        word32 (payload.getD 4 0#8) (payload.getD 5 0#8) (payload.getD 6 0#8) (payload.getD 7 0#8)⟩ := by
  have hkind : packageKindOf (payload.getD 0 0#8) = some kind := by rw [hp]; exact hk
  rw [headerOf_whole (kind.eight_le_least.trans hlength), hkind]
  exact if_neg (by omega)

/-! ### The bank being built -/

theorem building_found (h : ∃ b, (s.recOf b).state = .building) : ∃ b, s.findBank .building = some b :=
  Option.ne_none_iff_exists'.mp fun hn => findBank_none.mp hn h.choose h.choose_spec

/-! ### SEGMENT refused (R71 to R73) -/

theorem segment_badArg (h : segmentFieldsOk index count payload = false) :
    segment id index count payload s = refuse .badArg s := by
  rw [segment, h]
  rfl

theorem segment_start (h : segmentFieldsOk 0#16 count payload = true) :
    segment id 0#16 count payload s = startPackage id count payload s := by
  rw [segment, h]
  rfl

theorem segment_continue (h : segmentFieldsOk index count payload = true) (hi : index ≠ 0#16) :
    segment id index count payload s = continuePackage id index count payload s := by
  rw [segment, h]
  exact if_neg hi

theorem segment_busy {id' : Half} {kind : PackageKind} {total : Nat} {phase : LoadPhase}
    (h : segmentFieldsOk index count payload = true) (hl : s.loader.state = .applying id' kind total phase) :
    segment id index count payload s = refuse .busy s := by
  by_cases hi : index = 0#16
  · subst hi
    rw [segment_start h, startPackage, hl]
  · rw [segment_continue h hi, continuePackage, hl]

/-- A segment 0 that finds no package being applied. -/
theorem startPackage_free (hl : ∀ id' kind total phase, s.loader.state ≠ .applying id' kind total phase) :
    startPackage id count payload s =
      match s.findBank .building with
      | none => refuse .noBuild s
      | some _ =>
        match headerOf payload with
        | none => refuse .badArg s
        | some h =>
          segmentStored (decide (count = 1#16))
            ⟨id, h.kind, count, 1#16, payload.length, h.total, h.crc, crc32Feed crc32Preset (payload.drop 8)⟩
            (storePayload 0 (decide (count = 1#16)) payload s) := by
  unfold startPackage
  split
  · next heq => exact absurd heq (hl _ _ _ _)
  · rfl

theorem startPackage_noBuild (hl : ∀ id' kind total phase, s.loader.state ≠ .applying id' kind total phase)
    (hb : ∀ b, (s.recOf b).state ≠ .building) : startPackage id count payload s = refuse .noBuild s := by
  rw [startPackage_free hl, findBank_none.mpr hb]

theorem startPackage_badArg (hl : ∀ id' kind total phase, s.loader.state ≠ .applying id' kind total phase)
    (hb : ∃ b, (s.recOf b).state = .building) (hh : headerOf payload = none) :
    startPackage id count payload s = refuse .badArg s := by
  obtain ⟨b, hb⟩ := building_found hb
  rw [startPackage_free hl, hb, hh]

theorem continuePackage_unexpected (hl : s.loader.state = .receiving r)
    (h : id ≠ r.packageId ∨ count ≠ r.count ∨ index ≠ r.expected) :
    continuePackage id index count payload s = answer .sequence (expectedBytes r) s := by
  rw [continuePackage, hl]
  exact if_pos h

/-- Settles O29: the branches of `segment`, one by one. -/
theorem segmentIsCheckedInOrder : Obligations.SegmentIsCheckedInOrder := by
  intro s tag id index count payload hr _ i wrongFields applying least total kind wrongHeader
  have unchanged : ∀ code out,
      (∀ p, segment id index count payload { s with port := p } = answer code out { s with port := p }) →
      exec i s = .next (s.answered i tag code out) := fun code out ho => congrArg _ (gateway_unchanged hr rfl (ho _))
  have free : ¬applying → ∀ id' kind total phase, s.loader.state ≠ .applying id' kind total phase :=
    fun h id' kind total phase hl => h ⟨id', kind, total, phase, hl⟩
  refine ⟨fun h => ?_, fun hf h => ?_, fun hf hi h hb => ?_, fun hf hi h hb hh => ?_, fun hf hi h => ?_,
    fun hf hi r hl h => ?_⟩
  · refine unchanged _ _ fun _ => segment_badArg (Bool.eq_false_iff.mpr fun hok => segmentFieldsOk_iff.mp hok h)
  · obtain ⟨id', kind, total, phase, hl⟩ := h
    exact unchanged _ _ fun p => segment_busy (s := { s with port := p }) (segmentFieldsOk_iff.mpr hf) hl
  · subst hi
    refine unchanged _ _ fun p => ?_
    rw [segment_start (segmentFieldsOk_iff.mpr hf)]
    exact startPackage_noBuild (s := { s with port := p }) (free h) hb
  · subst hi
    refine unchanged _ _ fun p => ?_
    rw [segment_start (segmentFieldsOk_iff.mpr hf)]
    exact startPackage_badArg (s := { s with port := p }) (free h) hb (headerOf_wrong hh)
  · refine unchanged _ _ fun p => ?_
    rw [segment_continue (segmentFieldsOk_iff.mpr hf) hi, continuePackage, h]
    rfl
  · refine unchanged _ _ fun p => ?_
    rw [segment_continue (segmentFieldsOk_iff.mpr hf) hi, continuePackage_unexpected (s := { s with port := p }) hl h]
    rfl

/-! ### SEGMENT taken (R72, R74, R75) -/

/-- The package has ended REFUSED, with no counts (R80). -/
def State.packageEnded (id : Half) (kind : PackageKind) (code : ResultCode) (index : Option Nat) (s : State) : State :=
  { s with
    loader := ⟨.idle, ⟨.refused, id, some kind, code, index.map (BitVec.ofNat 16), 0#16, 0#16, 0#16⟩, []⟩
    events := { s.events with flags := s.events.flags ||| 2#24 }
    free := s.free + 3 }

theorem packageRefused_uncounted (id : Half) (kind : PackageKind) (code : ResultCode) (index : Option Nat) (s : State) :
    packageRefused id kind code index Counts.zero s = s.packageEnded id kind code index := by
  rw [packageRefused, finishWith_eq]
  rfl

/-- R74 and R75: the segment is answered BAD_CRC and its package ends. -/
theorem abandonPackage_eq (r : Receiving) (s : State) :
    abandonPackage r s = answer .badCrc [] (s.packageEnded r.packageId r.kind .badCrc none) := by
  rw [abandonPackage, packageRefused_uncounted]

theorem startPackage_taken {h : CommonHeader} (hl : ∀ id' kind total phase, s.loader.state ≠ .applying id' kind total phase)
    (hb : ∃ b, (s.recOf b).state = .building) (hh : headerOf payload = some h) :
    startPackage id count payload s =
      segmentStored (decide (count = 1#16))
        ⟨id, h.kind, count, 1#16, payload.length, h.total, h.crc, crc32Feed crc32Preset (payload.drop 8)⟩
        (storePayload 0 (decide (count = 1#16)) payload s) := by
  obtain ⟨b, hb⟩ := building_found hb
  rw [startPackage_free hl, hb, hh]

theorem continuePackage_taken (hl : s.loader.state = .receiving r) :
    continuePackage r.packageId r.expected r.count payload s = takeSegment r payload s := by
  rw [continuePackage, hl]
  exact if_neg (by simp)

theorem wholePackage_wrong (h : r.bytes ≠ r.total ∨ r.running ^^^ 0xFFFFFFFF#32 ≠ r.packageCrc) :
    wholePackage r s = answer .badCrc [] (s.packageEnded r.packageId r.kind .badCrc none) :=
  (if_pos h).trans (abandonPackage_eq r s)

theorem wholePackage_right (h : ¬(r.bytes ≠ r.total ∨ r.running ^^^ 0xFFFFFFFF#32 ≠ r.packageCrc)) :
    wholePackage r s =
      answer .accepted [] { s with loader := { s.loader with state := .applying r.packageId r.kind r.total .check } } := if_neg h

theorem Receiving.fields_eq (r : Receiving) :
    r = ⟨r.packageId, r.kind, r.count, r.expected, r.bytes, r.total, r.packageCrc, r.running⟩ := rfl

/-- What a segment that is taken, its package standing at `before` and then at `after`, makes of a state (R72, R74). -/
def takenFrom (before after : Receiving) (index : Half) (payload : List Byte) (s : State) : Reply :=
  if index ≠ 0#16 ∧ after.total < after.bytes then abandonPackage after s
  else
    segmentStored (decide (index + 1#16 = after.count)) after
      (storePayload before.bytes (decide (index + 1#16 = after.count)) payload s)

section
variable {before after : Receiving}

theorem takenFrom_tooLong (h : index ≠ 0#16 ∧ after.total < after.bytes) :
    takenFrom before after index payload s = answer .badCrc [] (s.packageEnded after.packageId after.kind .badCrc none) :=
  (if_pos h).trans (abandonPackage_eq after s)

theorem takenFrom_more (h : ¬(index ≠ 0#16 ∧ after.total < after.bytes)) (hlast : index + 1#16 ≠ after.count) :
    takenFrom before after index payload s =
      answer .ok (progressBytes after)
        { storePayload before.bytes false payload s with
          loader := ⟨.receiving after, s.loader.result, s.loader.buffer.take before.bytes ++ payload⟩ } := by
  rw [takenFrom, if_neg h, decide_eq_false hlast]
  rfl

theorem takenFrom_last (h : ¬(index ≠ 0#16 ∧ after.total < after.bytes)) (hlast : index + 1#16 = after.count) :
    takenFrom before after index payload s = wholePackage after (storePayload before.bytes true payload s) := by
  rw [takenFrom, if_neg h, decide_eq_true hlast]
  rfl

end

/-- The expected segment continues the package (R74). -/
theorem segment_continues {before after : Receiving} (hf : segmentFieldsOk before.expected before.count payload = true)
    (hi : before.expected ≠ 0#16) (hl : s.loader.state = .receiving before)
    (hafter : after =
      { before with
        expected := before.expected + 1#16
        bytes := before.bytes + payload.length
        running := crc32Feed before.running payload }) :
    segment before.packageId before.expected before.count payload s = takenFrom before after before.expected payload s := by
  rw [segment_continue hf hi, continuePackage_taken hl, takeSegment, takenFrom, hafter]
  split
  · next h => rw [if_pos ⟨hi, h⟩]; rfl
  · next h => rw [if_neg fun hx => h hx.2]

/-- A segment 0 whose header passes starts the package (R72). -/
theorem segment_starts {before after : Receiving} {h : CommonHeader} (hf : segmentFieldsOk 0#16 count payload = true)
    (hl : ∀ id' kind total phase, s.loader.state ≠ .applying id' kind total phase)
    (hb : ∃ b, (s.recOf b).state = .building) (hh : headerOf payload = some h) (hbefore : before.bytes = 0)
    (hafter : after = ⟨id, h.kind, count, 1#16, payload.length, h.total, h.crc, crc32Feed crc32Preset (payload.drop 8)⟩) :
    segment id 0#16 count payload s = takenFrom before after 0#16 payload s := by
  have hlast : decide (0#16 + 1#16 = count) = decide (count = 1#16) := decide_eq_decide.mpr eq_comm
  rw [segment_start hf, startPackage_taken hl hb hh, takenFrom, hafter, if_neg fun h => h.1 rfl, hbefore]
  dsimp only
  rw [hlast]

/-- Settles O30: a segment 0 and an expected segment both do `takenFrom`, whose branches are the three outcomes. -/
theorem segmentStoresItsPayload : Obligations.SegmentStoresItsPayload := by
  intro s tag id index count payload before after hr _ hb hcount1 hcount274 hindex hpay1 hpay240 hbytes hid hcount hexpected
    hkind htotal hcrc hcase i last tooLong wrong refused
  have hf : segmentFieldsOk index count payload = true := by
    simp [segmentFieldsOk, hcount1, hcount274, hindex, hpay1, hpay240]
  have taken : ∀ p, segment id index count payload { s with port := p } =
      takenFrom before after index payload { s with port := p } := by
    rcases hcase with ⟨rfl, hl, hbefore, ⟨k, rest, hp, hk⟩, ht, hleast, hmax, hlength, hc, hrun⟩ |
      ⟨hi, hl, rfl, rfl, rfl, hrun⟩
    · have ht : before.total = totalOf payload := ht
      have free : ∀ id' kind total phase, s.loader.state ≠ .applying id' kind total phase := fun _ _ _ _ he => by
        rcases hl with hl | ⟨r, hl⟩ <;> rw [hl] at he <;> cases he
      have hh := headerOf_right hp hk (ht ▸ hleast) (ht ▸ hmax) hlength
      refine fun p => segment_starts (s := { s with port := p }) hf free hb hh hbefore ?_
      rw [Receiving.fields_eq after, hid, hkind, hcount, hexpected, hbytes, htotal, hcrc, hrun, hbefore, Nat.zero_add, ht, hc]
      rfl
    · refine fun p => segment_continues (s := { s with port := p }) hf hi hl ?_
      rw [Receiving.fields_eq after, hid, hkind, hcount, hexpected, hbytes, htotal, hcrc, hrun]
  have replies : ∀ (t : State) code out, t.port = s.port →
      (∀ p, takenFrom before after index payload { s with port := p } = answer code out { t with port := p }) →
      exec i s = .next (t.answered i tag code out) := fun t code out ht ho =>
    congrArg _ (gateway_does hr rfl t ht fun p => (taken p).trans (ho p))
  by_cases htoo : tooLong
  · refine ⟨(s.packageEnded id after.kind .badCrc none).answered i tag .badCrc [], replies _ _ _ rfl fun p => ?_, rfl,
      (if_pos htoo).symm, fun h => absurd htoo h, fun _ => ⟨rfl, rfl, rfl⟩, fun h => absurd htoo h⟩
    rw [takenFrom_tooLong htoo, hid]
    rfl
  · rw [if_neg htoo]
    by_cases hlast : last
    · have hlast' : index + 1#16 = after.count := hlast.trans hcount.symm
      rw [if_pos hlast, hbytes]
      by_cases hwrong : wrong
      · refine ⟨((storePayload before.bytes true payload s).packageEnded id after.kind .badCrc none).answered i tag .badCrc [],
          replies _ _ _ rfl fun p => ?_, rfl, rfl, fun _ h => absurd hlast h, fun _ => ⟨rfl, rfl, rfl⟩,
          fun _ _ h => absurd hwrong h⟩
        rw [takenFrom_last htoo hlast', wholePackage_wrong hwrong, hid]
        rfl
      · refine ⟨State.answered i tag .accepted []
            { storePayload before.bytes true payload s with
              loader :=
                ⟨.applying id after.kind after.total .check, s.loader.result, s.loader.buffer.take before.bytes ++ payload⟩ },
          replies _ _ _ rfl fun p => ?_, rfl, rfl, fun _ h => absurd hlast h,
          fun h => absurd h (not_or_intro htoo fun h => hwrong h.2), fun _ _ _ => ⟨rfl, rfl, rfl⟩⟩
        rw [takenFrom_last htoo hlast', wholePackage_right hwrong, hid]
        rfl
    · rw [if_neg hlast, hbytes]
      refine ⟨State.answered i tag .ok (progressBytes after)
          { storePayload before.bytes false payload s with
            loader := ⟨.receiving after, s.loader.result, s.loader.buffer.take before.bytes ++ payload⟩ },
        replies _ _ _ rfl fun p => ?_, rfl, rfl, fun _ _ => ⟨rfl, rfl, ?_⟩, fun h => ?_, fun _ h => absurd h hlast⟩
      · rw [takenFrom_more htoo fun h => hlast (h.trans hcount)]
        rfl
      · rw [← hbytes, ← hid]
        rfl
      · exact absurd h (not_or_intro htoo fun h => hlast h.1)

end Sys2Proof.Machine
end

section
/-!
PROOFS. The end of the check phase: how far its reads come, and what it then decides (R54, R76, R77, R80, R182), which settles
O31.
-/

namespace Sys2Proof.Machine

variable {s : State} {id : Half} {kind : PackageKind} {total : Nat} {b : BankId} {u : Upset} {buffer : List Byte}

/-! ### How far the checks of a TARIFF package read (R54) -/

theorem parseClasses_rest {n : Nat} {bs rest : List Byte} {cs : List ClassRec} (h : parseClasses n bs = some (cs, rest)) :
    rest = bs.drop (7 * n) ∧ bs.length = 7 * n + rest.length := by
  induction n, bs using parseClasses.induct generalizing cs with
  | case1 bs => cases h; exact ⟨rfl, (Nat.zero_add _).symm⟩
  | case2 n f1 f0 u m1 m0 c1 c0 bs ih =>
    obtain ⟨⟨cs', rest'⟩, hparse, heq⟩ := Option.map_eq_some_iff.mp h
    cases heq
    obtain ⟨hdrop, hlength⟩ := ih hparse
    refine ⟨hdrop, ?_⟩
    simp only [List.length_cons, hlength]
    omega
  | case3 n bs hshort =>
    rw [parseClasses] at h
    · cases h
    · exact hshort

theorem parseFares_rest {n : Nat} {bs rest : List Byte} {fs : List Half} (h : parseFares n bs = some (fs, rest)) :
    rest = bs.drop (2 * n) ∧ bs.length = 2 * n + rest.length := by
  induction n, bs using parseFares.induct generalizing fs with
  | case1 bs => cases h; exact ⟨rfl, (Nat.zero_add _).symm⟩
  | case2 n h l bs ih =>
    obtain ⟨⟨fs', rest'⟩, hparse, heq⟩ := Option.map_eq_some_iff.mp h
    cases heq
    obtain ⟨hdrop, hlength⟩ := ih hparse
    refine ⟨hdrop, ?_⟩
    simp only [List.length_cons, hlength]
    omega
  | case3 n bs hshort =>
    rw [parseFares] at h
    · cases h
    · exact hshort

/-- What is left behind an optional field. -/
theorem take16If_rest {present : Bool} {bs rest : List Byte} {v : Option Half} (h : take16If present bs = some (v, rest)) :
    rest.length ≤ bs.length := by
  unfold take16If at h
  split at h
  · obtain ⟨⟨w, rest'⟩, htake, heq⟩ := Option.map_eq_some_iff.mp h
    cases heq
    unfold take16 at htake
    split at htake
    · cases htake
      exact (Nat.le_succ _).trans (Nat.le_succ _)
    · cases htake
  · cases h
    exact Nat.le_refl _

/-- What is left behind a product record is no longer than what the record began. -/
theorem parseProduct_rest {bs rest : List Byte} {p : Product} (h : parseProduct bs = some (p, rest)) :
    rest.length ≤ bs.length := by
  unfold parseProduct at h
  repeat' split at h
  all_goals cases h
  next hto _ _ _ _ hduration _ _ _ hwindow _ _ hprice =>
    have hto := take16If_rest hto
    have hduration := take16If_rest hduration
    have hwindow := take16If_rest hwindow
    have hprice := take16If_rest hprice
    simp only [List.length_cons, List.length_drop] at *
    omega

/-- Products that parse to the end are read to the end. -/
theorem productsReach_whole {n place : Nat} {bs : List Byte} {ps : List Product} (h : parseProducts n bs = some ps) :
    productsReach place n bs = place + bs.length := by
  induction n generalizing place bs ps with
  | zero =>
    cases bs with
    | nil => rfl
    | cons x xs => cases h
  | succ n ih =>
    rw [parseProducts] at h
    split at h
    · cases h
    · next p rest hp =>
      obtain ⟨ps', hparse, -⟩ := Option.map_eq_some_iff.mp h
      have := parseProduct_rest hp
      rw [productsReach, hp]
      dsimp only
      rw [ih hparse]
      omega

/-- The dimensions and the products of a tariff that parses: the products begin behind the class records and the base
matrix (R53). -/
theorem parseTariff_products {t : TariffPackage} (h : parseTariff (buffer.drop 8) = some t) :
    ∃ z k p1 p0 body, buffer.drop 12 = z :: k :: p1 :: p0 :: body ∧ buffer.length = 16 + body.length ∧
      ¬(z.toNat = 0 ∨ 32 < z.toNat ∨ k.toNat = 0 ∨ 8 < k.toNat ∨ Config.productCapacity < (half p1 p0).toNat) ∧
      7 * k.toNat + 2 * (z.toNat * z.toNat) ≤ body.length ∧
      parseProducts (half p1 p0).toNat (body.drop (7 * k.toNat + 2 * (z.toNat * z.toNat))) = some t.products := by
  unfold parseTariff at h
  split at h
  · next v3 v2 v1 v0 z k p1 p0 body heq =>
    have hdrop : buffer.drop 12 = z :: k :: p1 :: p0 :: body := by
      rw [show 12 = 8 + 4 from rfl, ← List.drop_drop, heq]
      rfl
    have hlength := congrArg List.length heq
    simp only [List.length_drop, List.length_cons] at hlength
    dsimp only at h
    repeat' split at h
    all_goals cases h
    next hdims _ _ _ hclasses _ _ _ hfares _ _ hproducts =>
      obtain ⟨rfl, hbody⟩ := parseClasses_rest hclasses
      obtain ⟨rfl, hmatrix⟩ := parseFares_rest hfares
      rw [List.drop_drop] at hproducts
      exact ⟨z, k, p1, p0, body, hdrop, by omega, hdims, by omega, hproducts⟩
  · cases h

/-- A TARIFF package that parses is read to its end. -/
theorem tariffReach_whole {t : TariffPackage} (h : parseTariff (buffer.drop 8) = some t) :
    tariffReach buffer = buffer.length := by
  obtain ⟨z, k, p1, p0, body, hdrop, hlength, hdims, hfixed, hproducts⟩ := parseTariff_products h
  have hdims : ¬(z = 0#8 ∨ 32 < z.toNat ∨ k = 0#8 ∨ 8 < k.toNat ∨ Config.productCapacity < (half p1 p0).toNat) := by
    simpa only [BitVec.toNat_eq, BitVec.toNat_ofNat] using hdims
  rw [tariffReach, hdrop]
  dsimp only
  rw [if_neg hdims, if_neg (Nat.not_lt.mpr hfixed), productsReach_whole hproducts, List.length_drop]
  omega

/-! ### How far the checks of a package read (R76, R77) -/

/-- The end of the bytes that the checks of a package come to, by what they find. -/
def checkReach (kind : PackageKind) (buffer : List Byte) : Finding → Nat
  | none => buffer.length
  | some (_, some i) => 18 + (if kind = .blockBase then 17 else 18) * (i + 1)
  | some (_, none) => 18

theorem recordsReach_eq {width count : Nat} {finding : Finding} (hw : width = if kind = .blockBase then 17 else 18)
    (hnone : finding = none → buffer.length = 18 + width * count) :
    recordsReach width count finding = checkReach kind buffer finding := by
  match finding with
  | none => exact (hnone rfl).symm
  | some (_, some i) => rw [recordsReach, checkReach, hw]
  | some (_, none) => rfl

theorem le_recordsReach (width count : Nat) (finding : Finding) : 18 ≤ recordsReach width count finding := by
  match finding with
  | none => exact Nat.le_add_right _ _
  | some (_, some i) => exact Nat.le_add_right _ _
  | some (_, none) => exact Nat.le_refl _

/-- A base part is checked by its headers alone, or also by its entries, which then fill the body. -/
theorem baseReads_cases (x : Bank) (buffer : List Byte) :
    (baseReads x buffer = [.bytes 0 18] ∧ ∃ code, checkBase x buffer = some (code, none)) ∨
      ∃ h body, baseHeaderOf buffer = some (h, body) ∧ buffer.length = 18 + 17 * h.entries.toNat ∧
        baseReads x buffer =
          .bytes 0 18 :: ((if h.part = 1#16 then [] else [.items (appendItems x.ranges)]) ++
            [.bytes 18 (recordsReach 17 h.entries.toNat (checkBase x buffer))]) := by
  cases hh : baseHeaderOf buffer with
  | none => exact .inl ⟨by rw [baseReads, hh], .badContent, by rw [checkBase, hh]⟩
  | some p =>
    obtain ⟨h, body⟩ := p
    cases hok : baseHeaderOk h body with
    | false => exact .inl ⟨by simp [baseReads, hh, hok], .badContent, by simp [checkBase, hh, hok]⟩
    | true =>
      cases hseq : partInSequence h x.record.blockStatus with
      | false => exact .inl ⟨by simp [baseReads, hh, hok, hseq], .sequence, by simp [checkBase, hh, hok, hseq]⟩
      | true =>
        have hbody : body.length = 17 * h.entries.toNat := by
          simp only [baseHeaderOk, Bool.and_eq_true, decide_eq_true_eq] at hok
          exact hok.2
        refine .inr ⟨h, body, rfl, hbody ▸ baseHeaderOf_length hh, ?_⟩
        rw [baseReads, hh]
        dsimp only
        rw [hok, hseq]
        rfl

/-- A delta is read in one go (R36, R77). -/
theorem deltaReads_eq (x : Bank) (buffer : List Byte) :
    deltaReads x buffer = [.bytes 0 (checkReach .blockDelta buffer (checkDelta x.record buffer))] := by
  cases hh : deltaHeaderOf buffer with
  | none => rw [deltaReads, checkDelta, hh]; rfl
  | some p =>
    obtain ⟨h, body⟩ := p
    have hnone : checkDelta x.record buffer = none → buffer.length = 18 + 18 * h.ops.toNat := fun hn => by
      have hlength := deltaHeaderOf_length hh
      rw [checkDelta, hh] at hn
      dsimp only at hn
      split at hn
      · cases hn
      · next hbody => rw [hlength, Decidable.not_not.mp hbody]
    rw [deltaReads, hh]
    dsimp only
    rw [recordsReach_eq (kind := .blockDelta) (width := 18) rfl hnone]

/-- A TARIFF package in which the checks find nothing is read to its end. -/
theorem tariffReach_checked (h : checkTariff buffer = none) : tariffReach buffer = buffer.length := by
  cases ht : parseTariff (buffer.drop 8) with
  | none => rw [checkTariff_unparsed ht] at h; cases h
  | some t => exact tariffReach_whole ht

/-! ### One unreadable word in the check phase (R182) -/

section
variable {o : Nat} (hs : s.upsets = [u]) (hl : u.loc = .buffer o) (hu : fatal u.kind = true)
include hs hl

theorem runCheckReads_items {items : List Item} {rs : List CheckRead} :
    runCheckReads b (.items items :: rs) s = runCheckReads b rs s := by
  rw [runCheckReads, readItems_sound .loader b items s (hs ▸ itemsClear_buffer hl)]
  rfl

theorem runCheckReads_passed {lo hi : Nat} {rs : List CheckRead} (h : 8 * o < lo ∨ hi ≤ 8 * o) :
    runCheckReads b (.bytes lo hi :: rs) s = runCheckReads b rs s := by
  rw [runCheckReads, readNewBytes_clear (hs ▸ bytesClear_buffer hl h)]
  rfl

include hu

theorem runCheckReads_stopped {lo hi : Nat} {rs : List CheckRead} (hlo : lo ≤ 8 * o) (hhi : 8 * o < hi) :
    runCheckReads b (.bytes lo hi :: rs) s = (s.faulted b u none, false) := by
  rw [runCheckReads, readNewBytes_single hs hl hu hlo hhi, uncorrectable_ofBuffer (b := b) hl]
  rfl

/-- One read of the bytes up to `hi`. -/
theorem runCheckReads_upTo (hi : Nat) :
    runCheckReads b [.bytes 0 hi] s = if o * 8 < hi then (s.faulted b u none, false) else (s, true) := by
  split
  · exact runCheckReads_stopped hs hl hu (Nat.zero_le _) (by omega)
  · exact runCheckReads_passed hs hl (.inr (by omega))

/-- A word of the buffer ends the phase when it lies below the end of the bytes that the checks come to. -/
theorem runCheckReads_reach {x : Bank} (h : kind ≠ .tariff ∨ checkContent x kind buffer = none) :
    runCheckReads b (checkReads x kind buffer) s =
      if o * 8 < checkReach kind buffer (checkContent x kind buffer) then (s.faulted b u none, false) else (s, true) := by
  cases kind with
  | tariff =>
    have hnone : checkTariff buffer = none := h.resolve_left (not_not_intro rfl)
    rw [checkReads, checkContent, hnone, tariffReach_checked hnone]
    exact runCheckReads_upTo hs hl hu _
  | blockBase =>
    rw [checkReads, checkContent]
    rcases baseReads_cases x buffer with ⟨hreads, code, hcode⟩ | ⟨h, body, -, hlength, hreads⟩
    · rw [hreads, hcode]
      exact runCheckReads_upTo hs hl hu 18
    · have hitems : ∀ rs, runCheckReads b ((if h.part = 1#16 then [] else [.items (appendItems x.ranges)]) ++ rs) s =
          runCheckReads b rs s := fun rs => by
        split
        · rfl
        · exact runCheckReads_items hs hl
      have hle := le_recordsReach 17 h.entries.toNat (checkBase x buffer)
      rw [hreads, ← recordsReach_eq (kind := .blockBase) (width := 17) rfl fun _ => hlength]
      by_cases h18 : o * 8 < 18
      · rw [if_pos (Nat.lt_of_lt_of_le h18 hle)]
        exact runCheckReads_stopped hs hl hu (Nat.zero_le _) (by omega)
      · rw [runCheckReads_passed hs hl (.inr (by omega)), hitems]
        split
        · exact runCheckReads_stopped hs hl hu (by omega) (by omega)
        · exact runCheckReads_passed hs hl (.inr (by omega))
  | blockDelta =>
    rw [checkReads, checkContent, deltaReads_eq]
    exact runCheckReads_upTo hs hl hu _

end

/-- A word of the table that the check of a later base part reads ends the phase with the mark on the table (R77, R182). -/
theorem runCheckReads_table {o : Nat} {h : BaseHeader} {body : List Byte} (hs : s.upsets = [u]) (hl : u.loc = .bank b .ranges o)
    (hu : fatal u.kind = true) (hb : (s.recOf b).state = .building) (hh : baseHeaderOf buffer = some (h, body))
    (hpart : h.part ≠ 1#16) (hnone : checkBase (s.bank b) buffer = none)
    (hi : inItems b (appendItems (s.bank b).ranges) u.loc = true) :
    runCheckReads b (baseReads (s.bank b) buffer) s =
      ((s.setRec b { s.recOf b with marks := (s.recOf b).marks.mark .ranges o }).faulted b u (some .building), false) := by
  rcases baseReads_cases (s.bank b) buffer with ⟨-, code, hcode⟩ | ⟨h', body', hh', -, hreads⟩
  · rw [hnone] at hcode
    cases hcode
  · obtain rfl : h = h' := by rw [hh] at hh'; cases hh'; rfl
    rw [hreads, if_neg hpart, runCheckReads, readNewBytes_clear (hs ▸ bytesClear_bank hl)]
    dsimp only
    rw [if_pos rfl, List.singleton_append, runCheckReads, readItems_single hs hi hu, uncorrectable_ofTable hl hb]
    rfl

/-! ### What the phase decides (R76) -/

/-- What the check phase does when every word that it reads can be given (R76). -/
def State.checked (id : Half) (kind : PackageKind) (total : Nat) (finding : Finding) (s : State) : State :=
  match finding with
  | none => { s with loader := { s.loader with state := .applying id kind total .apply } }
  | some (code, index) => s.packageEnded id kind code index

section
variable (hf : s.findBank .building = some b) (hl : s.loader.state = .applying id kind total .check)
include hf hl

theorem checkPhaseEnd_readable (h : runCheckReads b (checkReads (s.bank b) kind s.loader.buffer) s = (s, true)) :
    checkPhaseEnd s = s.checked id kind total (checkContent (s.bank b) kind s.loader.buffer) := by
  rw [checkPhaseEnd, hl, hf]
  dsimp only
  rw [h]
  dsimp only
  rw [if_pos rfl]
  cases checkContent (s.bank b) kind s.loader.buffer with
  | none => rfl
  | some finding => exact packageRefused_uncounted id kind finding.1 finding.2 s

theorem checkPhaseEnd_unreadable {t : State}
    (h : runCheckReads b (checkReads (s.bank b) kind s.loader.buffer) s = (t, false)) :
    checkPhaseEnd s = t.packageEnded id kind .memory none := by
  rw [checkPhaseEnd, hl, hf]
  dsimp only
  rw [h]
  exact packageRefused_uncounted id kind .memory none t

end

theorem checkPhaseEnd_idle (h : ∀ id kind total, s.loader.state ≠ .applying id kind total .check) : checkPhaseEnd s = s := by
  unfold checkPhaseEnd
  split
  · next hl _ => exact absurd hl (h _ _ _)
  · rfl

/-- Settles O31: the phase reads as far as its checks come, and ends at a word that it cannot read or at what they find. -/
theorem checkPhaseDecides : Obligations.CheckPhaseDecides := by
  intro s hr hroles
  have hexec : exec .checkPhaseEnd s = .next (checkPhaseEnd s) := congrArg _ (event_running hr)
  rw [hexec]
  refine ⟨fun h => congrArg _ (checkPhaseEnd_idle h), fun id kind total b hl hb => ?_⟩
  intro buffer finding refused outcome unreadable reach
  have hf := findBank_of hroles rfl hb
  refine ⟨fun hs => ?_, fun u o hs hloc hu hkind => ?_, fun u o h body hs hloc hu hkind hh hpart hnone hi => ?_⟩
  · rw [checkPhaseEnd_readable hf hl (runCheckReads_clean b _ s hs)]
    rfl
  · have hrun := runCheckReads_reach (b := b) hs hloc hu (x := s.bank b) hkind
    by_cases ho : o * 8 < reach
    · rw [if_pos ho, checkPhaseEnd_unreadable hf hl (hrun.trans (if_pos ho))]
      rfl
    · rw [if_neg ho, checkPhaseEnd_readable hf hl (hrun.trans (if_neg ho))]
      rfl
  · subst hkind
    rw [checkPhaseEnd_unreadable hf hl (runCheckReads_table hs hloc hu hb hh hpart hnone hi)]
    rfl

end Sys2Proof.Machine
end

section
/-!
PROOFS. The carousel's commands: CAROUSEL_CONFIG, CAROUSEL_START and CAROUSEL_STOP (R87, R89, R90, R91), which settles O35.
-/

namespace Sys2Proof.Machine

/-! ### The settings (R87) -/

theorem settingsTaken_eq (il rf li fg : Byte) (cg : Half) :
    settingsTaken il rf li fg cg =
      ⟨min 15 il.toNat, max 1 rf.toNat, max 2 (min 64 li.toNat), fg.toNat, min 4095 cg.toNat⟩ := by
  have hrf : min 255 rf.toNat = rf.toNat := by omega
  unfold settingsTaken clamp
  rw [Nat.zero_max, Nat.zero_max, hrf]

theorem carouselConfig_of {il rf li fg : Byte} {cg : Half} {c : Settings} (h : settingsTaken il rf li fg cg = c) (s : State) :
    carouselConfig il rf li fg cg s = answer .ok (settingsBytes c) { s with carousel := { s.carousel with settings := c } } := by
  subst h
  rfl

/-! ### The start (R89, R91) -/

/-- The carousel RUNNING, with every ENABLED link that was OFF in its cycle gap. -/
def State.carouselStarted (s : State) : State :=
  { mapLinks Link.enterGap s with carousel := { s.carousel with state := .running } }

theorem carouselStart_running {s : State} (h : s.carousel.state = .running) : carouselStart s = answer .ok [] s := if_pos h

theorem carouselStart_halted {s : State} (h : s.carousel.state ≠ .running) :
    carouselStart s = answer .ok [] s.carouselStarted := if_neg h

theorem carouselStarted_link (s : State) (k : LinkId) :
    s.carouselStarted.link k =
      if (s.link k).state = .enabled ∧ (s.link k).phase = .off then { s.link k with phase := .gap } else s.link k :=
  State.link_mapLinks _ s k

/-! ### The stop (R90, R91) -/

theorem anyInCycle_eq_false (s : State) : s.anyInCycle = false ↔ ∀ k, (s.link k).phase ≠ .inCycle := by
  unfold State.anyInCycle
  simp only [List.any_eq_false, PerLink.mem_toList, Link.inCycle, decide_eq_true_eq, forall_exists_index,
    forall_apply_eq_imp_iff]
  rfl

/-- Leaving the gap takes no link out of a cycle. -/
theorem leaveGap_inCycle (l : Link) : l.leaveGap.phase = .inCycle ↔ l.phase = .inCycle := by
  unfold Link.leaveGap
  split
  · next h => simp [h]
  · exact Iff.rfl

/-- The carousel STOPPING, or at once STOPPED, with the links that were in their gap OFF. -/
def State.carouselHalted (s : State) : State :=
  { mapLinks Link.leaveGap s with
    carousel := { s.carousel with state := if ∀ k, (s.link k).phase ≠ .inCycle then .stopped else .stopping }
    events :=
      { s.events with
        flags := s.events.flags ||| (if ∀ k, (s.link k).phase ≠ .inCycle then 0x40000#24 else 0#24) } }

theorem carouselStop_halted {s : State} (h : s.carousel.state ≠ .running) : carouselStop s = answer .ok [] s := if_neg h

theorem carouselStop_running {s : State} (h : s.carousel.state = .running) :
    carouselStop s = answer .ok [] s.carouselHalted := by
  refine (if_pos h).trans (congrArg (answer .ok []) ?_)
  refine leftCycle_eq ((and_iff_right rfl).trans ((anyInCycle_eq_false _).trans (forall_congr' fun k => ?_)))
  rw [State.link_mapLinks]
  exact not_congr (leaveGap_inCycle _)

theorem carouselHalted_link (s : State) (k : LinkId) :
    s.carouselHalted.link k = if (s.link k).phase = .gap then { s.link k with phase := .off } else s.link k :=
  State.link_mapLinks _ s k

theorem carouselHalted_inCycle {s : State} (h : ∃ k, (s.link k).phase = .inCycle) :
    s.carouselHalted.carousel.state = .stopping ∧ s.carouselHalted.events = s.events := by
  have hn : ¬∀ k, (s.link k).phase ≠ .inCycle := fun hall => h.elim hall
  unfold State.carouselHalted
  exact ⟨if_neg hn, by simp only [if_neg hn, BitVec.or_zero]⟩

theorem carouselHalted_idle {s : State} (h : ∀ k, (s.link k).phase ≠ .inCycle) :
    s.carouselHalted.carousel.state = .stopped ∧
      s.carouselHalted.events = { s.events with flags := s.events.flags ||| 0x40000#24 } := by
  unfold State.carouselHalted
  exact ⟨if_pos h, by simp only [if_pos h]⟩

/-- Settles O35: each command's owner answers, with the settings taken, the carousel started or the carousel halted. -/
theorem carouselCommandsSetStateAndSettings : Obligations.CarouselCommandsSetStateAndSettings := by
  unfold Obligations.CarouselCommandsSetStateAndSettings
  intro s tag hr
  refine ⟨?_, fun h => ?_, fun h => ⟨s.carouselStarted.answered (.carouselStart tag) tag .ok [], ?_,
    carouselStarted_link s, rfl⟩, fun h => ?_, fun h => ⟨s.carouselHalted.answered (.carouselStop tag) tag .ok [], ?_,
    carouselHalted_link s, carouselHalted_inCycle, carouselHalted_idle, rfl⟩⟩
  · intro il rf li fg cg i c
    exact congrArg _ (gateway_does hr rfl { s with carousel := { s.carousel with settings := c } } rfl
      fun p => carouselConfig_of (settingsTaken_eq il rf li fg cg) _)
  · exact congrArg _ (gateway_reads hr rfl fun p => carouselStart_running h)
  · exact congrArg _ (gateway_does hr rfl s.carouselStarted rfl fun p => carouselStart_halted h)
  · exact congrArg _ (gateway_reads hr rfl fun p => carouselStop_halted h)
  · exact congrArg _ (gateway_does hr rfl s.carouselHalted rfl fun p => carouselStop_running h)

end Sys2Proof.Machine
end

section
/-!
PROOFS. LINK_CONFIG and LINK_ENABLE (R88, R91, R113, R114), which settles O38.
-/

namespace Sys2Proof.Machine

/-! ### LINK_CONFIG (R113) -/

theorem linkConfig_refuses {link : Byte} (h : 7 < link.toNat) (divider : Byte) (threshold : Half) (s : State) :
    linkConfig link divider threshold s = refuse .badArg s := by
  unfold linkConfig
  rw [linkOf_none h]

section
variable {s : State} {k : LinkId}

theorem linkConfig_busy (h : (s.link k).state ≠ .disabled) (divider : Byte) (threshold : Half) :
    linkConfig (BitVec.ofNat 8 k.val) divider threshold s = refuse .badState s := by
  unfold linkConfig
  rw [linkOf_val]
  exact if_pos h

theorem linkConfig_disabled (h : (s.link k).state = .disabled) (divider : Byte) (threshold : Half) :
    linkConfig (BitVec.ofNat 8 k.val) divider threshold s =
      answer .ok
        (n8 k.val :: n8 (clamp 1 8 divider.toNat) ::
          (n16 (clamp 64 960 threshold.toNat) ++ n32 (rateOf (clamp 1 8 divider.toNat))))
        (s.setLink k
          { s.link k with divider := clamp 1 8 divider.toNat, threshold := clamp 64 960 threshold.toNat }) := by
  unfold linkConfig
  rw [linkOf_val]
  exact if_neg (not_not_intro h)

/-! ### LINK_ENABLE (R88, R91, R114) -/

theorem linkEnable_refuses {link : Byte} (h : 7 < link.toNat) (s : State) : linkEnable link s = refuse .badArg s := by
  unfold linkEnable
  rw [linkOf_none h]

theorem linkEnable_testing (h : (s.link k).state = .testing) :
    linkEnable (BitVec.ofNat 8 k.val) s = refuse .badState s := by
  unfold linkEnable
  simp only [linkOf_val, h]

theorem linkEnable_enabled (h : (s.link k).state = .enabled) :
    linkEnable (BitVec.ofNat 8 k.val) s = answer .ok [] s := by
  unfold linkEnable
  simp only [linkOf_val, h]

theorem linkEnable_disabled (h : (s.link k).state = .disabled) :
    linkEnable (BitVec.ofNat 8 k.val) s = answer .ok [] (enableLink k s) := by
  unfold linkEnable
  simp only [linkOf_val, h]

end

/-- Settles O38: each command's owner refuses or answers by the state of the link. -/
theorem linkConfigAndEnableSetTheLink : Obligations.LinkConfigAndEnableSetTheLink := by
  unfold Obligations.LinkConfigAndEnableSetTheLink
  intro s tag link divider threshold hr config enable
  refine ⟨fun h => ⟨?_, ?_⟩, ?_⟩
  · exact congrArg _ (gateway_reads hr rfl fun p => linkConfig_refuses h _ _ _)
  · exact congrArg _ (gateway_reads hr rfl fun p => linkEnable_refuses h _)
  · rintro k rfl l d th
    refine ⟨fun h => ?_, fun h => ?_, fun h => ?_, fun h => ?_, fun h => ?_⟩
    · exact congrArg _ (gateway_reads hr rfl fun p => linkConfig_busy (s := { s with port := p }) h divider threshold)
    · exact congrArg _ (gateway_does hr rfl (s.setLink k { l with divider := d, threshold := th }) rfl
        fun p => linkConfig_disabled (s := { s with port := p }) h divider threshold)
    · exact congrArg _ (gateway_reads hr rfl fun p => linkEnable_testing (s := { s with port := p }) h)
    · exact congrArg _ (gateway_reads hr rfl fun p => linkEnable_enabled (s := { s with port := p }) h)
    · exact congrArg _ (gateway_does hr rfl (enableLink k s) rfl fun p => linkEnable_disabled (s := { s with port := p }) h)

end Sys2Proof.Machine
end

section
/-!
PROOFS. The end of a frame on a link's line: transmitted (R90, R91, R120, R124, R125), which settles O41, or aborted by an
underrun (R97, R109, R119), which settles O42.
-/

namespace Sys2Proof.Machine

section
variable {s : State} {k : LinkId}

/-! ### No frame on the line (log 3) -/

theorem frameTransmitted_idle (h : (s.link k).state ≠ .enabled ∨ (s.link k).tx = .gap ∨ (s.link k).tx = .idle) :
    frameTransmitted k s = s := by
  unfold frameTransmitted
  rcases h with h | h | h
  · exact if_neg h
  · simp only [h, ite_self]
  · simp only [h, ite_self]

theorem carouselSent_unfinished (h : ∀ f rest, (s.link k).txFifo = f :: rest → f.whole = false) : carouselSent k s = s := by
  unfold carouselSent
  dsimp only
  split
  · rfl
  · next f rest hf => exact if_neg (by rw [h f rest hf]; decide)

/-! ### A frame transmitted (R120, R124, R125) -/

section
variable (he : (s.link k).state = .enabled)
include he

theorem frameTransmitted_notice {bytes : List Byte} (h : (s.link k).tx = .notice bytes) :
    frameTransmitted k s =
      s.setLink k
        { s.link k with
          tx := .gap
          counters := { (s.link k).counters with noticesSent := tick32 (s.link k).counters.noticesSent } } := by
  unfold frameTransmitted
  simp only [if_pos he, h]

theorem frameTransmitted_answer {bytes : List Byte} (h : (s.link k).tx = .answer bytes) :
    frameTransmitted k s =
      s.setLink k
        { s.link k with
          tx := .gap
          slots := (s.link k).slots - 1
          counters := { (s.link k).counters with answersSent := tick32 (s.link k).counters.answersSent } } := by
  unfold frameTransmitted
  simp only [if_pos he, h]

theorem frameTransmitted_carousel {kind : FrameKind} (h : (s.link k).tx = .carousel kind) :
    frameTransmitted k s = carouselSent k s := by
  unfold frameTransmitted
  simp only [if_pos he, h]

end

/-- A carousel frame has left the FIFO and the line, and is counted (R120). -/
def Link.frameGone (l : Link) (rest : List FifoFrame) : Link :=
  { l with
    txFifo := rest
    tx := .gap
    counters := { l.counters with framesSent := tick32 l.counters.framesSent } }

theorem carouselSent_whole {f : FifoFrame} {rest : List FifoFrame} (hf : (s.link k).txFifo = f :: rest)
    (hw : f.whole = true) :
    carouselSent k s =
      if f.kind = .cycleEnd then endCycle k (s.setLink k ((s.link k).frameGone rest))
      else s.setLink k ((s.link k).frameGone rest) := by
  unfold carouselSent
  simp only [hf, if_pos hw]
  rfl

/-! ### The end of a cycle (R90, R91) -/

/-- A link's phase when its cycle is over: its gap while the carousel runs, else OFF. -/
abbrev State.phaseAfter (s : State) : Phase := if s.carousel.state = .running then .gap else .off

theorem phaseAfter_ne (s : State) : s.phaseAfter ≠ .inCycle := by
  unfold State.phaseAfter
  split <;> decide

theorem endCycle_setLink (l : Link) :
    endCycle k (s.setLink k l) =
      if s.stopsAt k then
        { s.setLink k { l with phase := s.phaseAfter } with
          carousel := { s.carousel with state := .stopped }
          events := { s.events with flags := s.events.flags ||| 0x40000#24 } }
      else s.setLink k { l with phase := s.phaseAfter } := by
  have hend : endCycle k (s.setLink k l) = leftCycle (s.setLink k { l with phase := s.phaseAfter }) := by
    unfold endCycle
    simp only [State.link_setLink_same, State.setLink_setLink, State.setLink_carousel]
    rfl
  have hstops : (s.setLink k { l with phase := s.phaseAfter }).carousel.state = .stopping ∧
      (s.setLink k { l with phase := s.phaseAfter }).anyInCycle = false ↔ s.stopsAt k :=
    and_congr_right fun _ => anyInCycle_setLink k _ s (phaseAfter_ne s)
  rw [hend, leftCycle_eq hstops]
  split
  · rfl
  · rw [BitVec.or_zero]

end

/-- Settles O41: the frame on the line is a notice, an answer or the whole carousel frame at the head of the FIFO, and a
CYCLE_END among these ends the cycle. -/
theorem frameTransmittedCountsTheFrame : Obligations.FrameTransmittedCountsTheFrame := by
  unfold Obligations.FrameTransmittedCountsTheFrame
  intro s k hr l up
  have hexec : exec (.frameTransmitted k) s = .next (frameTransmitted k s) := congrArg _ (event_running hr)
  rw [hexec]
  refine ⟨fun h => congrArg _ (frameTransmitted_idle h), fun kind hk hf => congrArg _ ?_, fun he => ⟨fun bytes h => ?_,
    fun bytes h => ?_, fun kind f rest hk hf hw => ?_⟩⟩
  · by_cases he : l.state = .enabled
    · rw [frameTransmitted_carousel he hk, carouselSent_unfinished hf]
    · exact frameTransmitted_idle (.inl he)
  · exact congrArg _ (frameTransmitted_notice he h)
  · exact congrArg _ (frameTransmitted_answer he h)
  · rw [frameTransmitted_carousel he hk, carouselSent_whole hf hw]
    refine ⟨fun hend => congrArg _ (if_neg hend), fun hend => ?_⟩
    rw [if_pos hend, endCycle_setLink]
    rfl

/-! ### An underrun (R119) -/

section
variable {s : State} {k : LinkId}

theorem underrun_idle
    (h : (s.link k).state ≠ .enabled ∨ (s.link k).txFifo = [] ∨ (∀ kind, (s.link k).tx ≠ .carousel kind) ∨
      ∃ f rest, (s.link k).txFifo = f :: rest ∧ f.whole = true) : underrun k s = s := by
  unfold underrun
  dsimp only
  split
  · next kind f rest hk hf =>
    refine if_neg fun ⟨he, hw⟩ => ?_
    rcases h with h | h | h | ⟨g, gs, h, hg⟩
    · exact h he
    · rw [hf] at h
      cases h
    · exact h kind hk
    · rw [hf] at h
      cases h
      rw [hg] at hw
      cases hw
  · rfl

/-- The frame on the line is given up, with its place in the FIFO and what is not yet written of it (R97, R109, R119). -/
def State.frameAborted (s : State) (k : LinkId) (rest : List FifoFrame) : Link :=
  { s.link k with
    tx := .gap
    txFifo := rest
    discard := (s.link k).ctx.unwritten ((s.link k).ctx.content.map s.bank)
    ctx := (s.link k).ctx.abortWip
    counters := { (s.link k).counters with framesAborted := tick32 (s.link k).counters.framesAborted } }

theorem underrun_aborts {kind : FrameKind} {f : FifoFrame} {rest : List FifoFrame} (he : (s.link k).state = .enabled)
    (hk : (s.link k).tx = .carousel kind) (hf : (s.link k).txFifo = f :: rest) (hw : f.whole = false) :
    underrun k s = State.raiseLink .linkFault k (s.setLink k (s.frameAborted k rest)) := by
  have hc : (s.link k).state = .enabled ∧ (!f.whole) = true := ⟨he, by rw [hw]; rfl⟩
  unfold underrun
  simp only [hk, hf, if_pos hc]
  rfl

theorem abortWip_none {c : Context} (h : c.wip = none) : c.abortWip = c := by
  unfold Context.abortWip
  rw [h]

theorem abortWip_some {c : Context} {w : Wip} (h : c.wip = some w) :
    c.abortWip =
      { c with
        aborted := if w.kind = .cycleEnd ∨ w.aborted = true then c.aborted else c.aborted + 1
        wip := some { w with aborted := true } } := by
  have hcount : c.aborted + (if w.aborted || decide (w.kind = .cycleEnd) then 0 else 1) =
      if w.kind = .cycleEnd ∨ w.aborted = true then c.aborted else c.aborted + 1 := by
    simp only [Bool.or_eq_true, decide_eq_true_eq, or_comm (a := w.aborted = true)]
    split <;> rfl
  unfold Context.abortWip
  rw [h, ← hcount]

end

/-- Settles O42: a frame on the line that is not whole is given up, and LINK_FAULT raised. -/
theorem underrunAbortsTheFrame : Obligations.UnderrunAbortsTheFrame := by
  unfold Obligations.UnderrunAbortsTheFrame
  intro s k hr l
  have hexec : exec (.underrun k) s = .next (underrun k s) := congrArg _ (event_running hr)
  rw [hexec]
  refine ⟨fun h => congrArg _ (underrun_idle h), fun kind f rest he hk hf hw => ⟨_, congrArg _ (underrun_aborts he hk hf hw), ?_⟩⟩
  have hlink : ∀ j, (State.raiseLink .linkFault k (s.setLink k (s.frameAborted k rest))).link j =
      if j = k then s.frameAborted k rest else s.link j := fun j => State.link_setLink k j _ s
  rw [hlink k, if_pos rfl]
  exact ⟨rfl, abortWip_none, fun w => abortWip_some, rfl, fun j hj => (hlink j).trans (if_neg hj), rfl⟩

end Sys2Proof.Machine
end

section
/-!
PROOFS. What the laws of the slots, the turn, the gateway slot and the response buffer see of a state (R124, R167, R169, R170,
R194), and the shared operations that leave it alone.
-/

namespace Sys2Proof.Machine

/-- What the laws see of a link: its state, its line, its slots in use and its answers (R112, R117, R124, R125). -/
def Link.querying (l : Link) : LinkState × TxLine × Nat × List Answer := (l.state, l.tx, l.slots, l.answers)

/-- What the laws see of a state. -/
def State.querying (s : State) : PerLink (LinkState × TxLine × Nat × List Answer) × Lookups × Port :=
  (s.links.map Link.querying, s.lookups, s.port)

variable {s t : State}

theorem querying_of (hl : t.links = s.links) (hu : t.lookups = s.lookups) (hp : t.port = s.port) : t.querying = s.querying := by
  unfold State.querying
  rw [hl, hu, hp]

/-- A change of links that leaves what the laws see of each. -/
theorem querying_of_links (hl : ∀ k, (t.link k).querying = (s.link k).querying) (hu : t.lookups = s.lookups)
    (hp : t.port = s.port) : t.querying = s.querying := by
  have h : t.links.map Link.querying = s.links.map Link.querying := PerLink.ext_get fun k => by
    rw [PerLink.get_map, PerLink.get_map]
    exact hl k
  unfold State.querying
  rw [h, hu, hp]

theorem querying_setLink {k : LinkId} {l : Link} (h : l.querying = (s.link k).querying) : (s.setLink k l).querying = s.querying := by
  refine querying_of_links (fun j => ?_) rfl rfl
  rw [State.link_setLink]
  split
  · next e => rw [e]; exact h
  · rfl

/-! ### Builds, readers and cuts (R4 to R8, R101, R102) -/

theorem drainDone_querying (b : BankId) (s : State) : (drainDone b s).querying = s.querying :=
  querying_of (drainDone_links b s) (drainDone_lookups b s) (drainDone_port b s)

theorem releaseReader_querying (b : BankId) (s : State) : (releaseReader b s).querying = s.querying :=
  querying_of (releaseReader_links b s) (releaseReader_lookups b s) (releaseReader_port b s)

theorem takeCut_querying (k : LinkId) (s : State) : (takeCut k s).querying = s.querying := by
  unfold takeCut
  dsimp only
  split
  · rfl
  · exact (releaseReader_querying _ _).trans (querying_setLink rfl)

theorem composeEnd_querying (k : LinkId) (s : State) : (composeEnd k s).querying = s.querying := by
  unfold composeEnd
  dsimp only
  split
  · exact querying_setLink rfl
  · exact (releaseReader_querying _ _).trans (querying_setLink rfl)

theorem cutCyclesOf_querying (b : BankId) (s : State) : (cutCyclesOf b s).querying = s.querying :=
  foldl_keeps State.querying _ (fun s k => by split; exacts [takeCut_querying k s, rfl]) _ _

/-! ### Readiness, cutovers and withdrawals (R146, R160 to R166, R19) -/

theorem evalReady_querying (s : State) : (evalReady s).querying = s.querying :=
  querying_of (evalReady_links s) (evalReady_lookups s) (evalReady_port s)

theorem performCutover_querying (c : Option Cause) (e : CutEnd) (s : State) : (performCutover c e s).querying = s.querying := by
  unfold performCutover
  split
  · rfl
  · next p _ =>
    have counts : (mapLinks (fun l => { l with interleave := 0, refresh := 0 }) (mapEntries Entry.atCutover (promote p s))).querying =
        s.querying := by
      refine querying_of_links (fun k => ?_) (promote_lookups p s) (promote_port p s)
      rw [State.link_mapLinks, State.link, mapEntries_links, promote_links]
      rfl
    dsimp only
    split
    · exact (cutCyclesOf_querying _ _).trans ((evalReady_querying _).trans counts)
    · exact (evalReady_querying _).trans counts

theorem takeTrigger_querying (c : Cause) (s : State) : (takeTrigger c s).querying = s.querying := by
  unfold takeTrigger
  repeat' split
  · exact performCutover_querying _ _ s
  · rfl
  · exact performCutover_querying _ _ s

theorem reevaluate_querying (s : State) : (reevaluate s).querying = s.querying := by
  unfold reevaluate tellReady
  repeat' split
  · exact (takeTrigger_querying _ _).trans (evalReady_querying s)
  · exact evalReady_querying s
  · exact evalReady_querying s

theorem examineAt_querying (s : State) : (examineAt s).querying = s.querying := by
  unfold examineAt
  split
  · exact takeTrigger_querying _ s
  · rfl

theorem withdrawBank_querying (b : BankId) (s : State) : (withdrawBank b s).querying = s.querying := by
  unfold withdrawBank
  exact (cutCyclesOf_querying b _).trans (evalReady_querying _)

/-! ### Marks, reads and copies (R8, R22, R23, R180 to R182) -/

theorem setMark_querying (b : BankId) (r : Region) (o : Nat) (s : State) : (setMark b r o s).querying = s.querying := by
  have marked : (markRegion b r o s).querying = s.querying := rfl
  have leaves : ∀ u : State, (scrubLeaves b r u).querying = u.querying := fun _ => rfl
  unfold setMark
  dsimp only
  rw [leaves, ← marked]
  split
  · rw [cutCyclesOf_querying]
    exact querying_of (failCopyFrom_links b _) (failCopyFrom_lookups b _) (failCopyFrom_port b _)
  · exact withdrawBank_querying b _
  · exact querying_of (failCloseAt_links b _ _) (failCloseAt_lookups b _ _) (failCloseAt_port b _ _)
  all_goals rfl

theorem uncorrectable_querying (l : WordLoc) (r : Reader) (s : State) : (uncorrectable l r s).querying = s.querying := by
  unfold uncorrectable
  dsimp only
  split
  · exact setMark_querying _ _ _ _
  · rfl

theorem readHits_querying (r : Reader) (us : List Upset) (s : State) : (readHits r us s).1.querying = s.querying := by
  induction us generalizing s with
  | nil => rfl
  | cons u us ih =>
    unfold readHits
    split
    · exact uncorrectable_querying _ _ s
    · exact ih (correctWord u s)

theorem readOn_querying (r : Reader) (us : List Upset) (s : State) : (readOn r us s).1.querying = s.querying := by
  induction us generalizing s with
  | nil => rfl
  | cons u us ih =>
    unfold readOn
    split
    · exact (ih _).trans (uncorrectable_querying _ _ s)
    · exact ih (correctWord u s)

theorem readItems_querying (r : Reader) (b : BankId) (is : List Item) (s : State) : (readItems r b is s).1.querying = s.querying :=
  readHits_querying r _ s

theorem readNewBytes_querying (lo hi : Nat) (s : State) : (readNewBytes lo hi s).1.querying = s.querying := readHits_querying _ _ s

theorem copyTo_querying (t f : BankId) (c : Copied) (s : State) : (copyTo t f c s).1.querying = s.querying := by
  unfold copyTo
  dsimp only
  split
  · exact readHits_querying _ _ s
  · exact readHits_querying _ _ s

theorem copyOn_querying (s : State) : (copyOn s).querying = s.querying := by
  unfold copyOn
  split
  · exact copyTo_querying _ _ _ s
  · rfl

theorem runActs_querying (b : BankId) (kept : Option WordLoc) (acts : List CloseAct) (pt : ClosePoint) (s : State) :
    (runActs b kept acts pt s).1.querying = s.querying :=
  querying_of (runActs_links b kept acts pt s) (runActs_lookups b kept acts pt s) (runActs_port b kept acts pt s)

theorem failOwnRead_querying (b : BankId) (r : Region) (o : Nat) (pt : ClosePoint) (s : State) :
    (failOwnRead b r o pt s).querying = s.querying :=
  querying_of (failOwnRead_links b r o pt s) (failOwnRead_lookups b r o pt s) (failOwnRead_port b r o pt s)

theorem beginBuild_querying (b : BankId) (o : BuildOption) (s : State) : (beginBuild b o s).querying = s.querying :=
  querying_of (beginBuild_links b o s) (beginBuild_lookups b o s) (beginBuild_port b o s)

end Sys2Proof.Machine
end

section
/-!
PROOFS. The commands that leave alone what the laws of the slots, the turn, the gateway slot and the response buffer see.
-/

namespace Sys2Proof.Machine

variable {s : State}

/-! ### Bank Control (chapter 1) -/

theorem openBuild_querying (option : Byte) (s : State) : (openBuild option s).state.querying = s.querying := by
  have take : ∀ o, (takeOpenBuild o s).state.querying = s.querying := fun o => by
    unfold takeOpenBuild
    dsimp only
    repeat' split
    · rfl
    all_goals exact beginBuild_querying _ _ s
  unfold openBuild
  repeat' split
  any_goals rfl
  all_goals exact take _

theorem closeBuild_querying (mode : Byte) (day minute : Half) (s : State) :
    (closeBuild mode day minute s).state.querying = s.querying := by
  unfold closeBuild
  dsimp only
  repeat' split
  all_goals rfl

theorem withdraw_querying (s : State) : (withdraw s).state.querying = s.querying := by
  unfold withdraw
  split
  · rfl
  · rw [answer_state]; exact withdrawBank_querying _ s

theorem discardBuild_querying (s : State) : (discardBuild s).state.querying = s.querying := by
  unfold discardBuild
  repeat' split
  all_goals rfl

theorem drainComplete_querying (s : State) : (drainComplete s).querying = s.querying := by
  unfold drainComplete
  repeat' split
  · exact drainDone_querying _ s
  all_goals rfl

theorem copyComplete_querying (s : State) : (copyComplete s).querying = s.querying := by
  unfold copyComplete
  repeat' split
  · dsimp only
    split
    · exact readHits_querying _ _ s
    · exact readHits_querying _ _ s
  · rfl

theorem copyFailure_querying (r : Region) (o : Nat) (s : State) : (copyFailure r o s).querying = s.querying := by
  unfold copyFailure
  split
  · dsimp only
    repeat' split
    · exact (uncorrectable_querying _ _ _).trans (copyTo_querying _ _ _ s)
    · exact copyTo_querying _ _ _ s
    · rfl
  · rfl

theorem enterWaiting_querying (s : State) : (enterWaiting s).querying = s.querying := by
  unfold enterWaiting
  dsimp only
  repeat' split
  · exact takeTrigger_querying _ _
  · rfl
  · exact examineAt_querying _

theorem closeRunComplete_querying (s : State) : (closeRunComplete s).querying = s.querying := by
  unfold closeRunComplete
  split
  · rfl
  · next b _ =>
    have run := runActs_querying b none (closeActs s.closeDay (s.bank b)) (.prune 0) s
    generalize runActs b none (closeActs s.closeDay (s.bank b)) (.prune 0) s = x at run ⊢
    split
    · exact (failOwnRead_querying _ _ _ _ _).trans run
    · exact (enterWaiting_querying _).trans ((evalReady_querying _).trans run)

theorem closingRunFailure_querying (r : Region) (o again : Nat) (s : State) :
    (closingRunFailure r o again s).querying = s.querying := by
  unfold closingRunFailure
  split
  · rfl
  · next b _ =>
    split
    · rfl
    · next acts _ =>
      have run := runActs_querying b none acts (.prune 0) s
      generalize runActs b none acts (.prune 0) s = x at run ⊢
      split
      · exact (failOwnRead_querying _ _ _ _ _).trans run
      · exact (failOwnRead_querying _ _ _ _ _).trans run

/-! ### The reads of a bank (R47, R67) -/

theorem rangeRead_querying (bank : Byte) (shelf index : Half) (s : State) :
    (rangeRead bank shelf index s).state.querying = s.querying := by
  have served : ∀ b, (serveRangeRead b shelf index s).state.querying = s.querying := fun b => by
    have replied : ∀ (r : State × Bool) body, (if r.2 = true then answer .ok body r.1 else refuse .damaged r.1).state = r.1 :=
      fun r body => by split <;> rfl
    unfold serveRangeRead
    dsimp only
    rw [replied]
    exact readItems_querying _ _ _ s
  unfold rangeRead
  repeat' split
  any_goals rfl
  exact served _

theorem tariffRead_querying (bank item arg1 arg2 arg3 : Byte) (s : State) :
    (tariffRead bank item arg1 arg2 arg3 s).state.querying = s.querying := by
  have served : ∀ b i, (serveTariffRead b i s).state.querying = s.querying := fun b i => by
    have header := readItems_querying .gatewayRead b [.dims] s
    unfold serveTariffRead
    dsimp only
    generalize readItems .gatewayRead b [.dims] s = r at header ⊢
    repeat' split
    any_goals exact header
    all_goals exact (readItems_querying _ _ _ _).trans header
  unfold tariffRead
  repeat' split
  any_goals rfl
  exact served _ _

/-! ### The Package Loader (chapter 3) -/

theorem finishWith_querying (result : PackageResult) (n : Nat) (e : Event) (s : State) :
    (finishWith result n e s).querying = s.querying := by
  unfold finishWith
  dsimp only
  split <;> rfl

theorem packageDone_querying (id : Half) (kind : PackageKind) (c : Counts) (s : State) :
    (packageDone id kind c s).querying = s.querying := finishWith_querying _ _ _ _

theorem packageRefused_querying (id : Half) (kind : PackageKind) (code : ResultCode) (index : Option Nat) (c : Counts)
    (s : State) : (packageRefused id kind code index c s).querying = s.querying := finishWith_querying _ _ _ _

theorem segmentStored_querying (last : Bool) (r : Receiving) (s : State) :
    (segmentStored last r s).state.querying = s.querying := by
  unfold segmentStored wholePackage abandonPackage
  repeat' split
  · exact packageRefused_querying _ _ _ _ _ s
  all_goals rfl

theorem segment_querying (id index count : Half) (payload : List Byte) (s : State) :
    (segment id index count payload s).state.querying = s.querying := by
  unfold segment startPackage continuePackage takeSegment abandonPackage
  repeat' split
  any_goals rfl
  all_goals exact segmentStored_querying _ _ (storePayload _ _ _ s)

theorem runCheckReads_querying (b : BankId) (rs : List CheckRead) (s : State) : (runCheckReads b rs s).1.querying = s.querying := by
  induction rs generalizing s with
  | nil => rfl
  | cons r rs ih =>
    cases r with
    | bytes lo hi =>
      unfold runCheckReads
      dsimp only
      split
      · exact (ih _).trans (readNewBytes_querying lo hi s)
      · exact readNewBytes_querying lo hi s
    | items is =>
      unfold runCheckReads
      dsimp only
      split
      · exact (ih _).trans (readItems_querying _ _ _ s)
      · exact readItems_querying _ _ _ s

theorem checkPhaseEnd_querying (s : State) : (checkPhaseEnd s).querying = s.querying := by
  unfold checkPhaseEnd
  split
  · dsimp only
    repeat' split
    · exact runCheckReads_querying _ _ s
    all_goals exact (packageRefused_querying _ _ _ _ _ _).trans (runCheckReads_querying _ _ s)
  · rfl

theorem readRecords_querying (lo : Nat) (ws : List Nat) (n : Nat) (s : State) : (readRecords lo ws n s).1.querying = s.querying := by
  induction ws generalizing lo n s with
  | nil => rfl
  | cons w ws ih =>
    unfold readRecords
    dsimp only
    split
    · exact (ih _ _ _).trans (readNewBytes_querying _ _ s)
    · exact readNewBytes_querying _ _ s

theorem applyTariff_querying (b : BankId) (id : Half) (s : State) : (applyTariff b id s).querying = s.querying := by
  unfold applyTariff
  split
  · rfl
  · next t _ =>
    have header : (readBuffer 0 16 s).1.querying = s.querying := readHits_querying _ _ s
    have records := (readRecords_querying 16 (tariffWidths t) 0 (readBuffer 0 16 s).1).trans header
    dsimp only
    repeat' split
    · exact (packageRefused_querying _ _ _ _ _ _).trans header
    · exact (packageDone_querying _ _ _ _).trans records
    · exact (packageRefused_querying _ _ _ _ _ _).trans records

theorem applyEntries_querying (b : BankId) (lo : Nat) (bss : List (List Byte)) (c : Counts) (s : State) :
    (applyEntries b lo bss c s).state.querying = s.querying := by
  induction bss generalizing lo c s with
  | nil => rfl
  | cons bs bss ih =>
    have bytes := readNewBytes_querying lo (lo + 17) s
    unfold applyEntries
    dsimp only
    repeat' split
    · exact bytes
    · exact bytes
    · exact (readItems_querying _ _ _ _).trans bytes
    · exact (ih _ _ _).trans ((readItems_querying _ _ _ _).trans bytes)

theorem applyOps_querying (b : BankId) (lo : Nat) (bss : List (List Byte)) (c : Counts) (s : State) :
    (applyOps b lo bss c s).state.querying = s.querying := by
  induction bss generalizing lo c s with
  | nil => rfl
  | cons bs bss ih =>
    have bytes := readNewBytes_querying lo (lo + 18) s
    unfold applyOps
    dsimp only
    repeat' split
    · exact bytes
    · exact bytes
    · exact (readItems_querying _ _ _ _).trans bytes
    · exact (ih _ _ _).trans ((readItems_querying _ _ _ _).trans bytes)

theorem endRangeApply_querying (b : BankId) (id : Half) (kind : PackageKind) (done : BankRecord → BankRecord) (r : ApplyRun) :
    (endRangeApply b id kind done r).querying = r.state.querying := by
  unfold endRangeApply
  split
  · exact packageDone_querying _ _ _ _
  · exact packageRefused_querying _ _ _ _ _ _
  · exact packageRefused_querying _ _ _ _ _ _

theorem applyPhaseEnd_querying (s : State) : (applyPhaseEnd s).querying = s.querying := by
  have header : (readBuffer 0 18 s).1.querying = s.querying := readHits_querying _ _ s
  unfold applyPhaseEnd
  split
  · split
    · exact applyTariff_querying _ _ s
    · unfold applyBase
      split
      · rfl
      · refine (endRangeApply_querying _ _ _ _ _).trans ?_
        split
        · refine (applyEntries_querying _ _ _ _ _).trans ?_
          split <;> exact header
        · exact header
    · unfold applyDelta
      split
      · rfl
      · refine (endRangeApply_querying _ _ _ _ _).trans ?_
        split
        · exact (applyOps_querying _ _ _ _ _).trans header
        · exact header
  · rfl

/-! ### The Carousel Engine (chapter 5) -/

theorem mapLinks_querying {f : Link → Link} (hf : ∀ l, (f l).querying = l.querying) (s : State) :
    (mapLinks f s).querying = s.querying :=
  querying_of_links (fun k => (congrArg Link.querying (State.link_mapLinks f s k)).trans (hf _)) rfl rfl

theorem leftCycle_querying (s : State) : (leftCycle s).querying = s.querying :=
  querying_of (leftCycle_links s) (leftCycle_lookups s) (leftCycle_port s)

theorem carouselStart_querying (s : State) : (carouselStart s).state.querying = s.querying := by
  unfold carouselStart
  split
  · rfl
  · exact mapLinks_querying (fun l => by unfold Link.enterGap; split <;> rfl) _

theorem carouselStop_querying (s : State) : (carouselStop s).state.querying = s.querying := by
  unfold carouselStop
  split
  · exact (leftCycle_querying _).trans (mapLinks_querying (fun l => by unfold Link.leaveGap; split <;> rfl) _)
  · rfl

theorem fixCycle_querying (k : LinkId) (c : Choice) (s : State) : (fixCycle k c s).querying = s.querying := by
  unfold fixCycle
  dsimp only
  split
  · exact querying_setLink (s := s) rfl
  · exact querying_setLink rfl

theorem cycleStart_querying (k : LinkId) (s : State) : (cycleStart k s).querying = s.querying := by
  unfold cycleStart
  dsimp only
  split
  · have chosen := settleChoice_keeps (Q := fun u => u.querying = s.querying) (k := k) (n := 3)
      (fun b is u hu => (readItems_querying _ b is u).trans hu)
      (querying_setLink (s := s) (k := k) (l := { (s.link k).takeUp s.carousel.settings with
        cycleCounter := ((s.link k).takeUp s.carousel.settings).cycleCounter + 1#16 }) rfl)
    exact (fixCycle_querying k _ _).trans chosen
  · rfl

theorem frameBoundary_querying (k : LinkId) (s : State) : (frameBoundary k s).querying = s.querying := by
  unfold frameBoundary
  dsimp only
  repeat' split
  · exact takeCut_querying k s
  · exact composeEnd_querying k s
  · rfl
  · exact composeEnd_querying k s
  · rfl

theorem beginFrame_querying (bank : Option Bank) (l : Link) : (l.beginFrame bank).querying = l.querying := by
  unfold Link.beginFrame
  repeat' split
  all_goals rfl

theorem storeBytes_querying (kind : FrameKind) (first whole : Bool) (out : List Byte) (l : Link) :
    (l.storeBytes kind first whole out).querying = l.querying := by
  unfold Link.storeBytes
  repeat' split
  all_goals rfl

theorem passLines_querying (passed : List (Nat × List Byte)) (s : State) : (passLines passed s).querying = s.querying := by
  obtain ⟨links, rest⟩ := passLines_eq passed s
  have drained : ∀ (l : Link) n, (l.drain n).querying = l.querying := fun l n => by
    unfold Link.drain
    split <;> rfl
  have arrived : ∀ (l : Link) bs, (l.arrive bs).querying = l.querying := fun l bs => by
    unfold Link.arrive
    split <;> rfl
  generalize passLines passed s = t at links rest ⊢
  rw [rest]
  refine querying_of_links (fun k => ?_) rfl rfl
  exact (congrArg Link.querying (links k)).trans ((arrived _ _).trans (drained _ _))

/-- What a service has written and composed, before the transmitter is asked to begin (R107). -/
theorem serveLink_querying (k : LinkId) (s : State) :
    ∃ u, u.querying = s.querying ∧ (serveLink k s = u ∨ serveLink k s = tryBegin k u) := by
  generalize hl : (s.link k).beginFrame ((s.link k).ctx.content.map s.bank) = l
  have begun : (s.setLink k l).querying = s.querying := querying_setLink (by rw [← hl]; exact beginFrame_querying _ _)
  unfold serveLink
  dsimp only
  rw [hl]
  split
  · exact ⟨s, rfl, .inl rfl⟩
  · next w _ =>
    generalize (if 0 < l.discard then l.discard else Config.txFifoBytes - l.txFill) = room
    have emitted := emitPieces_keeps (Q := fun u => u.querying = s.querying) (content := l.ctx.content) (ps := w.pieces)
      (e := ⟨s.setLink k l, w.pieces, w.crc, [], room, w.unreadable⟩)
      (fun b i u hu => (readOn_querying _ _ u).trans hu) (fun _ _ hu => hu) begun
    generalize emitPieces l.ctx.content w.pieces _ = e at emitted ⊢
    have stored := (querying_setLink (k := k) (storeBytes_querying w.kind (decide (w.written = 0)) (decide (e.left = [])) e.out
      { e.state.link k with ctx := (e.state.link k).ctx.wrote w e })).trans emitted
    refine ⟨_, ?_, .inr rfl⟩
    split
    · exact (frameBoundary_querying _ _).trans stored
    · exact stored

/-! ### The Validator Table (chapter 7) -/

theorem evaluateReport_querying (k : LinkId) (r : ReportBody) (s : State) : (evaluateReport k r s).querying = s.querying := by
  unfold evaluateReport
  dsimp only
  refine (reevaluate_querying _).trans ?_
  repeat' split
  all_goals rfl

theorem silenceTest_querying (k : LinkId) (s : State) : (silenceTest k s).querying = s.querying := by
  unfold silenceTest
  dsimp only
  split
  · exact reevaluate_querying _
  · rfl

theorem validatorSilent_querying (k : LinkId) (s : State) : (validatorSilent k s).querying = s.querying := by
  unfold validatorSilent
  split
  · exact silenceTest_querying k s
  · rfl

theorem validatorConfig_querying (limit : Half) (mismatch : Byte) (s : State) :
    (validatorConfig limit mismatch s).state.querying = s.querying := by
  unfold validatorConfig
  dsimp only
  rw [answer_state]
  exact foldl_keeps State.querying _ (fun s k => silenceTest_querying k s) _ _

theorem validatorExclude_querying (link : Byte) (s : State) : (validatorExclude link s).state.querying = s.querying := by
  unfold validatorExclude
  split
  · rfl
  · exact reevaluate_querying _

theorem validatorInclude_querying (link : Byte) (s : State) : (validatorInclude link s).state.querying = s.querying := by
  unfold validatorInclude
  split
  · rfl
  · exact reevaluate_querying _

/-! ### Cutover Control (chapter 8) -/

theorem timeSet_querying (day minute : Half) (s : State) : (timeSet day minute s).state.querying = s.querying := by
  unfold timeSet
  split
  · rfl
  · exact examineAt_querying _

theorem minuteEvent_querying (s : State) : (minuteEvent s).querying = s.querying := by
  unfold minuteEvent
  split
  · exact examineAt_querying _
  · rfl

theorem expireWait_querying (s : State) : (expireWait s).querying = s.querying := takeTrigger_querying _ _

theorem endDeferral_querying (e : CutEnd) (s : State) : (endDeferral e s).querying = s.querying := performCutover_querying _ _ s

theorem cutoverConfig_querying (w : Byte) (g : Half) (s : State) : (cutoverConfig w g s).state.querying = s.querying := by
  unfold cutoverConfig applyLimits
  dsimp only
  rw [answer_state]
  repeat' split
  · exact expireWait_querying _
  · exact endDeferral_querying _ _
  · rfl

theorem waitExpired_querying (s : State) : (waitExpired s).querying = s.querying := by
  unfold waitExpired
  split
  · exact expireWait_querying s
  · rfl

theorem graceRunOut_querying (s : State) : (graceRunOut s).querying = s.querying := by
  unfold graceRunOut
  split
  · exact endDeferral_querying _ s
  · rfl

theorem inhibitDeassertion_querying (s : State) : (inhibitDeassertion s).querying = s.querying := by
  unfold inhibitDeassertion
  split
  · exact endDeferral_querying _ _
  · rfl

theorem cutoverNow_querying (option : Byte) (s : State) : (cutoverNow option s).state.querying = s.querying := by
  have answered : ∀ seq u, (cutoverAnswer seq u).state = u := fun seq u => by
    unfold cutoverAnswer
    split <;> rfl
  unfold cutoverNow
  dsimp only
  repeat' split
  any_goals rfl
  · exact performCutover_querying _ _ s
  · rw [answered]; exact takeTrigger_querying _ s
  · exact endDeferral_querying _ s

/-! ### Events, the scrubber and the millisecond (chapter 10, R152) -/

theorem eventsClear_querying (named : FlagSet) (s : State) : (eventsClear named s).state.querying = s.querying := by
  unfold eventsClear
  split <;> rfl

theorem eventMask_querying (masks : FlagSet) (s : State) : (eventMask masks s).state.querying = s.querying := by
  unfold eventMask
  split <;> rfl

theorem scrubPeriod_querying (s : State) : (scrubPeriod s).querying = s.querying := by
  unfold scrubPeriod
  split <;> rfl

theorem scrubRead_querying (us : List Upset) (s : State) : (scrubRead us s).querying = s.querying := by
  have struck : (strikeAll us (copyOn s)).querying = s.querying := copyOn_querying s
  have one : ∀ b r o u, (scrubOne b r o u).querying = u.querying := fun b r o u => readHits_querying _ _ _
  have ended : ∀ u, (endPassIfDone u).querying = u.querying := fun u => by
    unfold endPassIfDone
    repeat' split
    all_goals rfl
  unfold scrubRead
  dsimp only
  repeat' split
  · rw [one, struck]
  · rw [ended, one, struck]
  · rw [ended, struck]

theorem tick_querying (s : State) : (tick s).querying = s.querying := by
  unfold tick
  repeat' split
  · rfl
  · rfl
  · exact copyOn_querying s

end Sys2Proof.Machine
end

section
/-!
PROOFS. The laws of the slots, the gateway slot and the response buffer (`Accounted`), and the operations of the links and of
the Lookup Engine that keep them (R124, R125, R130, R167 to R172, R177, R179, R194).
-/

namespace Sys2Proof.Machine

variable {s t : State}

/-! ### The laws, link by link -/

/-- The queries of a link that the Lookup Engine holds: those in its queue, and the one in service that will be answered. -/
def Lookups.asked (u : Lookups) (k : LinkId) : Nat := (u.queues.get k).length + if u.serves k then 1 else 0

/-- What the law of the slots asks of a link of which the Lookup Engine holds so many queries (R124, R130, R167). -/
def Link.slotted (l : Link) (asked : Nat) : Prop :=
  l.slots = asked + l.answers.length + (if l.tx.isAnswer then 1 else 0) ∧ l.slots ≤ 4 ∧ (l.state = .disabled → l.tx = .gap) ∧
    (l.state = .testing → l.tx.testOnly = true)

/-- The laws of O60 but for the turn, which takes restore. -/
structure Accounted (s : State) : Prop where
  slots : ∀ k, (s.link k).slotted (s.lookups.asked k)
  gateway : gatewaySlotLaw s
  port : portLaw s

theorem slotted_congr {l m : Link} {n : Nat} (h : l.slotted n) (e : m.querying = l.querying) : m.slotted n := by
  simp only [Link.querying, Prod.mk.injEq] at e
  obtain ⟨hs, ht, hn, ha⟩ := e
  unfold Link.slotted
  rwa [hs, ht, hn, ha]

theorem querying_links (h : t.querying = s.querying) (k : LinkId) : (t.link k).querying = (s.link k).querying := by
  have hk := congrArg (fun x => x.1.get k) h
  exact (PerLink.get_map Link.querying t.links k).symm.trans (hk.trans (PerLink.get_map Link.querying s.links k))

theorem querying_lookups (h : t.querying = s.querying) : t.lookups = s.lookups := congrArg (fun x => x.2.1) h

theorem querying_port (h : t.querying = s.querying) : t.port = s.port := congrArg (fun x => x.2.2) h

theorem Accounted.of_querying (h : Accounted s) (e : t.querying = s.querying) : Accounted t := by
  refine ⟨fun k => ?_, ?_, ?_⟩
  · rw [querying_lookups e]
    exact slotted_congr (h.slots k) (querying_links e k)
  · unfold gatewaySlotLaw
    rw [querying_lookups e]
    exact h.gateway
  · unfold portLaw
    rw [querying_port e]
    exact h.port

theorem Accounted.raise_link {e : Event} {k : LinkId} (h : Accounted s) : Accounted (s.raiseLink e k) := h.of_querying rfl

/-- A link replaced by one that accounts for its slots. -/
theorem Accounted.set_link {k : LinkId} {l : Link} (h : Accounted s) (hl : l.slotted (s.lookups.asked k)) :
    Accounted (s.setLink k l) := by
  refine ⟨fun j => ?_, h.gateway, h.port⟩
  rw [State.link_setLink]
  split
  · next e => rw [e]; exact hl
  · exact h.slots j

/-- Lookups that hold as many queries of each link, with the gateway slot as its law says. -/
theorem Accounted.set_lookups {u : Lookups} (h : Accounted s) (hu : ∀ k, u.asked k = s.lookups.asked k)
    (hg : gatewaySlotLaw { s with lookups := u }) : Accounted { s with lookups := u } :=
  ⟨fun k => (congrArg (Link.slotted _) (hu k)).mpr (h.slots k), hg, h.port⟩

theorem accounted_iff : Accounted s ↔ slotsLaw s ∧ gatewaySlotLaw s ∧ portLaw s :=
  ⟨fun h => ⟨h.slots, h.gateway, h.port⟩, fun ⟨hs, hg, hp⟩ => ⟨hs, hg, hp⟩⟩

/-! ### Transmitters (R117 to R120, R125) -/

/-- A link that idles accounts for its slots when it has begun an answer: the query has moved to its line (R125). -/
theorem begin_slotted {l : Link} {n : Nat} (h : l.slotted n) (he : l.state = .enabled) (hi : l.tx = .idle) :
    l.begin.slotted n := by
  obtain ⟨hs, hle, -, -⟩ := h
  rw [hi] at hs
  have enabled : ∀ m : Link, m.state = l.state → m.slots = l.slots → m.answers.length + (if m.tx.isAnswer then 1 else 0) =
      l.answers.length → m.slotted n := fun m hm hn ha =>
    ⟨by rw [hn, hs, Nat.add_assoc, Nat.add_assoc, ha]; rfl, hn.trans_le hle, fun hd => (by cases (hm.trans he).symm.trans hd),
      fun hd => by cases (hm.trans he).symm.trans hd⟩
  unfold Link.begin
  split
  · exact enabled _ rfl rfl rfl
  · split
    · next a rest ha => exact enabled _ rfl rfl (by rw [ha]; rfl)
    · split
      · exact enabled _ rfl rfl rfl
      · exact enabled _ rfl rfl (by rw [hi]; rfl)

theorem Accounted.try_begin {k : LinkId} (h : Accounted s) : Accounted (tryBegin k s) := by
  unfold tryBegin
  dsimp only
  split
  · next hk => exact h.set_link (begin_slotted (h.slots k) hk.1 hk.2)
  · exact h

/-- A link on whose line nothing of a query stands accounts for its slots when the line changes to such another. -/
theorem slotted_line {l m : Link} {n : Nat} (h : l.slotted n) (hl : l.tx.isAnswer = false) (hm : m.tx.isAnswer = false)
    (hs : m.slots = l.slots) (ha : m.answers = l.answers) (hd : m.state = .disabled → m.tx = .gap)
    (ht : m.state = .testing → m.tx.testOnly = true) : m.slotted n := by
  obtain ⟨hn, hle, -, -⟩ := h
  exact ⟨by rw [hs, ha, hn, hl, hm], hs.trans_le hle, hd, ht⟩

theorem Accounted.transmit_boundary {k : LinkId} (h : Accounted s) : Accounted (transmitBoundary k s) := by
  unfold transmitBoundary
  dsimp only
  split
  · next hk =>
    refine Accounted.try_begin (h.set_link (slotted_line (h.slots k) ?_ ?_ ?_ ?_ (fun hd => ?_) fun ht => ?_))
    · rw [hk.2]; rfl
    · rfl
    · rfl
    · rfl
    · cases hk.1.symm.trans hd
    · cases hk.1.symm.trans ht
  · exact h

/-- A link on whose line nothing of a query stood, at its frame gap. -/
theorem Accounted.gap_follows {k : LinkId} {m : Link} (h : Accounted s) (hk : (s.link k).tx.isAnswer = false) (ht : m.tx = .gap)
    (hs : m.slots = (s.link k).slots) (ha : m.answers = (s.link k).answers) : Accounted (s.setLink k m) :=
  h.set_link (slotted_line (h.slots k) hk (by rw [ht]; rfl) hs ha (fun _ => ht) fun _ => by rw [ht]; rfl)

theorem endCycle_querying (k : LinkId) (s : State) : (endCycle k s).querying = s.querying := by
  unfold endCycle
  exact (leftCycle_querying _).trans (querying_setLink rfl)

theorem Accounted.carousel_sent {k : LinkId} (h : Accounted s) (hk : (s.link k).tx.isAnswer = false) :
    Accounted (carouselSent k s) := by
  unfold carouselSent
  dsimp only
  split
  · exact h
  · split
    · split
      · refine Accounted.of_querying ?_ (endCycle_querying k _)
        exact h.gap_follows hk rfl rfl rfl
      · exact h.gap_follows hk rfl rfl rfl
    · exact h

theorem Accounted.frame_transmitted {k : LinkId} (h : Accounted s) : Accounted (frameTransmitted k s) := by
  unfold frameTransmitted
  dsimp only
  split
  · split
    · next ht => exact h.gap_follows (by rw [ht]; rfl) rfl rfl rfl
    · next ht =>
      obtain ⟨hs, hle, -, -⟩ := h.slots k
      rw [ht] at hs
      exact h.set_link ⟨congrArg (· - 1) hs, (Nat.sub_le _ _).trans hle, fun _ => rfl, fun _ => rfl⟩
    · next ht => exact h.carousel_sent (by rw [ht]; rfl)
    all_goals exact h
  · exact h

theorem Accounted.underrun_met {k : LinkId} (h : Accounted s) : Accounted (underrun k s) := by
  unfold underrun
  dsimp only
  split
  · next ht _ =>
    split
    · refine Accounted.raise_link (h.gap_follows ?_ rfl rfl rfl)
      rw [ht]
      rfl
    · exact h
  · exact h

theorem isAnswer_of_testOnly {x : TxLine} (h : x.testOnly = true) : x.isAnswer = false := by
  cases x with
  | answer => cases h
  | _ => rfl

/-! ### Configuration and tests (R112 to R115, R129 to R131) -/

theorem linkConfig_querying (link divider : Byte) (threshold : Half) (s : State) :
    (linkConfig link divider threshold s).state.querying = s.querying := by
  unfold linkConfig
  dsimp only
  repeat' split
  · rfl
  · rfl
  · exact querying_setLink rfl

/-- A DISABLED link that leaves its state with a line on which nothing of a query stands. -/
theorem Accounted.leave_disabled {k : LinkId} {m : Link} (h : Accounted s) (hk : (s.link k).state = .disabled)
    (hm : m.tx.testOnly = true) (hs : m.slots = (s.link k).slots) (ha : m.answers = (s.link k).answers)
    (hd : m.state ≠ .disabled) : Accounted (s.setLink k m) := by
  obtain ⟨-, -, hgap, -⟩ := h.slots k
  exact h.set_link (slotted_line (h.slots k) (by rw [hgap hk]; rfl) (isAnswer_of_testOnly hm) hs ha (fun e => absurd e hd) fun _ => hm)

theorem Accounted.link_enable {link : Byte} (h : Accounted s) : Accounted (linkEnable link s).state := by
  unfold linkEnable
  split
  · exact h
  · next k _ =>
    split
    · exact h
    · exact h
    · next hk => exact h.leave_disabled hk rfl rfl rfl nofun

theorem Accounted.link_test {link mode count : Byte} (h : Accounted s) : Accounted (linkTest link mode count s).state := by
  unfold linkTest
  dsimp only
  split
  · next k m _ _ =>
    split
    · exact h
    · split
      · exact h
      · next hk => exact h.leave_disabled (not_not.mp hk) (by cases m <;> rfl) rfl rfl nofun
  · exact h

section
variable {k : LinkId} (hk : (s.link k).state = .testing)
include hk

/-- On the line of a TESTING link nothing of a query stands. -/
theorem Accounted.testing_line (h : Accounted s) : (s.link k).tx.isAnswer = false := by
  obtain ⟨-, -, -, htest⟩ := h.slots k
  exact isAnswer_of_testOnly (htest hk)

theorem Accounted.test_goes_on {m : Link} (h : Accounted s) (hm : m.tx.testOnly = true) (hs : m.slots = (s.link k).slots)
    (ha : m.answers = (s.link k).answers) (hst : m.state = .testing ∨ m.tx = .gap) : Accounted (s.setLink k m) := by
  exact h.set_link (slotted_line (h.slots k) (h.testing_line hk) (isAnswer_of_testOnly hm) hs ha
    (fun e => hst.resolve_left fun e' => by cases e'.symm.trans e) fun _ => hm)

theorem Accounted.end_test {result : LastTest} (h : Accounted s) : Accounted (endTest k result s) := by
  unfold endTest
  exact Accounted.raise_link (h.test_goes_on hk rfl rfl rfl (.inr rfl))

end

theorem Accounted.test_frame_start {k : LinkId} (h : Accounted s) : Accounted (testFrameStart k s) := by
  unfold testFrameStart
  dsimp only
  split
  · next r hk _ => exact h.test_goes_on hk (by cases r.mode <;> rfl) rfl rfl (.inl hk)
  · exact h

theorem Accounted.test_frame_returned {k : LinkId} {bytes : List Byte} {extra : Nat} (h : Accounted s) :
    Accounted (testFrameReturned k bytes extra s) := by
  unfold testFrameReturned
  dsimp only
  split
  · next hk _ =>
    repeat' split
    · exact h.end_test hk
    · exact h.test_goes_on hk rfl rfl rfl (.inl hk)
    · exact h.end_test hk
    · exact h
  · exact h

theorem Accounted.test_no_echo {k : LinkId} (h : Accounted s) : Accounted (testNoEcho k s) := by
  unfold testNoEcho
  dsimp only
  split
  · next hk _ =>
    split
    · exact h.end_test hk
    · exact h
  · exact h

end Sys2Proof.Machine
end

section
/-!
PROOFS. Queries that arrive, are taken and are answered keep the laws of the slots and the gateway slot, and takes restore the
law of the turn (R124, R167 to R172, R177, R179).
-/

namespace Sys2Proof.Machine

variable {s t : State}

/-! ### A query that has left the Lookup Engine and is not yet answered (R171, R172) -/

/-- The laws while one query of requester `r` has left its place in the Lookup Engine, with no lookup in service. -/
structure Answering (r : Requester) (s : State) : Prop where
  slots : ∀ k, (s.link k).slotted (s.lookups.asked k + if r = .link k then 1 else 0)
  service : s.lookups.service = none
  slot : s.lookups.slot = .inService ↔ r = .gateway
  port : portLaw s

theorem Answering.of_querying {r : Requester} (h : Answering r s) (e : t.querying = s.querying) : Answering r t := by
  obtain ⟨hslots, hservice, hslot, hport⟩ := h
  refine ⟨fun k => ?_, by rwa [querying_lookups e], by rwa [querying_lookups e], by unfold portLaw; rwa [querying_port e]⟩
  rw [querying_lookups e]
  exact slotted_congr (hslots k) (querying_links e k)

/-- While no lookup is in service the gateway slot is not in service, and that is all its law says. -/
theorem gatewaySlotLaw_idle (h : s.lookups.service = none) : gatewaySlotLaw s ↔ s.lookups.slot ≠ .inService := by
  unfold gatewaySlotLaw
  rw [h]
  refine ⟨fun hg hs => ?_, fun hg => ⟨⟨fun hs => absurd hs hg, nofun⟩, nofun⟩⟩
  obtain ⟨_, hv, _⟩ := hg.1.mp hs
  cases hv

/-- While a lookup is in service the gateway slot follows its requester. -/
theorem gatewaySlotLaw_serving {v : Service} (h : s.lookups.service = some v) :
    gatewaySlotLaw s ↔ (s.lookups.slot = .inService ↔ v.requester = .gateway) ∧ (v.requester = .gateway → v.discard = false) := by
  unfold gatewaySlotLaw
  rw [h]
  simp only [Option.mem_def, Option.some.injEq, exists_eq_left', forall_eq']

/-- An answer that joins its link's answer queue still stands for its query. -/
theorem slotted_answered {l : Link} {n : Nat} (a : Answer) (h : l.slotted (n + 1)) :
    { l with answers := l.answers ++ [a] }.slotted n := by
  obtain ⟨hs, hrest⟩ := h
  refine ⟨?_, hrest⟩
  dsimp only
  rw [List.length_append, List.length_singleton, hs]
  omega

/-- The answer delivered stands for the query (R125, R169). -/
theorem Answering.delivered {r : Requester} (h : Answering r s) (a : Answer) : Accounted (delivered r a s) := by
  obtain ⟨hslots, hservice, hslot, hport⟩ := h
  cases r with
  | gateway =>
    refine ⟨hslots, (gatewaySlotLaw_idle ?_).mpr ?_, nofun⟩
    · exact hservice
    · show GatewaySlot.answered ≠ .inService
      exact nofun
  | link k =>
    have queued : Accounted (s.setLink k { s.link k with answers := (s.link k).answers ++ [a] }) := by
      refine ⟨fun j => ?_, (gatewaySlotLaw_idle hservice).mpr (fun hs => nomatch hslot.mp hs), hport⟩
      rw [State.link_setLink]
      split
      · next e =>
        have hj := hslots j
        rw [e, if_pos rfl] at hj
        rw [e]
        exact slotted_answered a hj
      · next e =>
        have hj := hslots j
        rwa [if_neg fun hx => e (by cases hx; rfl)] at hj
    exact Accounted.try_begin (queued.of_querying rfl)

/-! ### A completion (R172, R177, R179) -/

theorem leaveService_querying (v : Service) (s : State) :
    (leaveService v s).querying = State.querying { s with lookups := { s.lookups with service := none } } := by
  cases hb : v.bank with
  | none => rw [leaveService_none hb]
  | some b => rw [leaveService_some hb]; exact releaseReader_querying b _

theorem asked_left {u : Lookups} {v : Service} (h : u.service = some v) (k : LinkId) :
    u.asked k = { u with service := none }.asked k + if v.requester = .link k ∧ v.discard = false then 1 else 0 := by
  unfold Lookups.asked Lookups.serves
  rw [h]
  cases hd : v.discard with
  | true => simp [hd]
  | false => simp [hd]

section
variable {v : Service} (h : Accounted s) (hv : s.lookups.service = some v)
include h hv

theorem Accounted.discarded (hd : v.discard = true) : Accounted (leaveService v s) := by
  obtain ⟨hslot, hgateway⟩ := (gatewaySlotLaw_serving hv).mp h.gateway
  refine Accounted.of_querying (h.set_lookups (fun k => ?_) ((gatewaySlotLaw_idle (by rfl)).mpr fun hs => ?_)) (leaveService_querying v s)
  · rw [asked_left hv k, if_neg fun hx => by rw [hd] at hx; cases hx.2]
    rfl
  · have := hgateway (hslot.mp hs)
    rw [hd] at this
    cases this

theorem Accounted.served (hd : v.discard = false) : Answering v.requester (leaveService v s) := by
  obtain ⟨hslot, -⟩ := (gatewaySlotLaw_serving hv).mp h.gateway
  refine Answering.of_querying (s := { s with lookups := { s.lookups with service := none } }) ⟨fun k => ?_, rfl, hslot, h.port⟩
    (leaveService_querying v s)
  have hk := h.slots k
  rw [asked_left hv k] at hk
  simp only [hd, and_true] at hk
  exact hk

theorem Accounted.finish_lookup (verdict : Verdict) : Accounted (finishLookup v verdict s) := by
  cases hd : v.discard with
  | true => rw [finishLookup_discarded hd]; exact h.discarded hv hd
  | false => rw [finishLookup_delivers hd]; exact (h.served hv hd).delivered _

end

/-! ### The takes (R170, R171) -/

theorem asked_removeOldest {u : Lookups} {r : Requester} {q : Query} (h : u.oldest r = some q) (k : LinkId) :
    u.asked k = (u.removeOldest r).asked k + if r = .link k then 1 else 0 := by
  cases r with
  | gateway => rfl
  | link j =>
    unfold Lookups.asked
    rw [show (u.removeOldest (.link j)).serves k = u.serves k from rfl]
    by_cases e : j = k
    · subst e
      have hq : (u.queues.get j).length = (u.queues.get j).tail.length + 1 := by
        cases hu : u.queues.get j with
        | nil => rw [show u.oldest (.link j) = (u.queues.get j).head? from rfl, hu] at h; cases h
        | cons x xs => rfl
      rw [if_pos rfl, hq]
      show _ = (((u.queues.set j (u.queues.get j).tail).get j).length + _) + 1
      rw [PerLink.get_set_same]
      omega
    · have hne : Requester.link j ≠ .link k := fun hx => e (by cases hx; rfl)
      rw [if_neg hne]
      show _ = ((u.queues.set j (u.queues.get j).tail).get k).length + _
      rw [PerLink.get_set, if_neg (Ne.symm e)]

section
variable {r : Requester} {q : Query} (h : Accounted s) (hs : s.lookups.service = none) (ho : s.lookups.oldest r = some q)
include h hs ho

/-- The query of a take has left its place. -/
theorem Accounted.removed : Answering r { s with lookups := s.lookups.removeOldest r } := by
  have hslot := (gatewaySlotLaw_idle hs).mp h.gateway
  refine ⟨fun k => ?_, (removeOldest_service r _).trans hs, ?_, h.port⟩
  · have hk := h.slots k
    rwa [asked_removeOldest ho k] at hk
  · cases r with
    | gateway => exact ⟨fun _ => rfl, fun _ => rfl⟩
    | link k => exact ⟨fun hx => absurd hx hslot, nofun⟩

theorem Accounted.in_service (f : BankId) : Accounted (inService r q f s) := by
  obtain ⟨hslots, -, hslot, hport⟩ := h.removed hs ho
  refine ⟨fun k => ?_, (gatewaySlotLaw_serving (v := ⟨r, q, some f, if s.clock.valid then some s.clock.day else none, false⟩) rfl).mpr
    ⟨hslot, fun _ => rfl⟩, hport⟩
  have hk := hslots k
  unfold Lookups.asked Lookups.serves at hk ⊢
  rw [show (State.lookups { s with lookups := s.lookups.removeOldest r }).service = none from
    (removeOldest_service r _).trans hs] at hk
  simp only [inService, Bool.not_false, Bool.and_true, decide_eq_true_eq, Bool.false_eq_true, if_false, Nat.add_zero] at hk ⊢
  exact hk

end

theorem Accounted.attempt_take (h : Accounted s) : Accounted (attemptTake s) := by
  revert h
  induction s using takes_induction with
  | idle u hi => rw [attemptTake_idle hi]; exact id
  | answered u r q seq c he ho ih =>
    intro h
    by_cases hs : u.lookups.service = none
    · rw [he]; exact ih ((h.removed hs ho).delivered _)
    · rw [attemptTake_idle (.inl hs)]; exact h
  | taken u r q f he ho =>
    intro h
    by_cases hs : u.lookups.service = none
    · rw [he]; exact h.in_service hs ho f
    · rw [attemptTake_idle (.inl hs)]; exact h

/-! ### The laws with that of the turn -/

/-- The laws of O60. -/
structure Consistent (s : State) : Prop where
  accounted : Accounted s
  turn : turnLaw s

theorem Consistent.of_querying (h : Consistent s) (e : t.querying = s.querying) : Consistent t := by
  refine ⟨h.accounted.of_querying e, ?_⟩
  unfold turnLaw
  rw [querying_lookups e]
  exact h.turn

/-- What leaves the Lookup Engine alone keeps the law of the turn. -/
theorem Consistent.of_lookups (h : Consistent s) (ha : Accounted t) (e : t.lookups = s.lookups) : Consistent t := by
  refine ⟨ha, ?_⟩
  unfold turnLaw
  rw [e]
  exact h.turn

theorem Accounted.taken (h : Accounted s) : Consistent (attemptTake s) := ⟨h.attempt_take, attemptTake_exhausts s⟩

theorem Consistent.try_begin {k : LinkId} (h : Consistent s) : Consistent (tryBegin k s) :=
  h.of_lookups h.accounted.try_begin (tryBegin_lookups k s)

theorem Consistent.lookup_complete (h : Consistent s) : Consistent (lookupComplete s) := by
  cases hv : s.lookups.service with
  | none => rw [lookupComplete_idle hv]; exact h
  | some v =>
    cases hb : v.bank with
    | none =>
      unfold lookupComplete
      rw [hv]
      dsimp only
      rw [hb]
      exact (h.accounted.finish_lookup hv _).taken
    | some b =>
      have read : (lookUp b v.day v.query.args s).1.querying = s.querying :=
        lookUp_keeps (Q := fun u => u.querying = s.querying) (fun is u hu => (readItems_querying .lookup b is u).trans hu) rfl
      rw [lookupComplete_of hv hb]
      refine Accounted.taken (Accounted.finish_lookup (h.accounted.of_querying read) ?_ _)
      rw [querying_lookups read]
      exact hv

/-! ### Queries that arrive (R124, R169) -/

/-- A query accepted takes a slot and joins the link's queue. -/
theorem Accounted.query_accepted {k : LinkId} (h : Accounted s) (q : Query) (hk : (s.link k).slots < 4) :
    Accounted { s.setLink k { s.link k with slots := (s.link k).slots + 1 } with
      lookups := { s.lookups with queues := s.lookups.queues.set k (s.lookups.queues.get k ++ [q]) } } := by
  refine ⟨fun j => ?_, h.gateway, h.port⟩
  show ((s.setLink k _).link j).slotted (((s.lookups.queues.set k _).get j).length + _)
  rw [State.link_setLink, PerLink.get_set]
  obtain ⟨hs, -, hrest⟩ := h.slots j
  split
  · next e =>
    subst e
    rw [List.length_append, List.length_singleton]
    refine ⟨?_, hk, hrest⟩
    unfold Lookups.asked Lookups.serves at hs
    unfold Lookups.serves
    dsimp only
    omega
  · exact h.slots j

theorem Consistent.judge_query {k : LinkId} {kind : QueryKind} {q : Query} (h : Consistent s) :
    Consistent (judgeQuery k kind q s) := by
  unfold judgeQuery
  dsimp only
  split
  · next hk => exact (h.accounted.query_accepted q hk).taken
  · exact Consistent.try_begin (h.of_querying (querying_setLink rfl))

theorem Consistent.judge_queries {k : LinkId} (n : Nat) (h : Consistent s) : Consistent (judgeQueries k n s) := by
  induction n generalizing s with
  | zero => exact h
  | succ n ih =>
    unfold judgeQueries
    dsimp only
    have freed : ∀ rest, Consistent (s.setLink k { s.link k with rxFifo := rest }) := fun _ => h.of_querying (querying_setLink rfl)
    repeat' split
    · exact h
    · exact h
    · exact ih (freed _)
    · exact ih (freed _).judge_query

theorem Consistent.frame_received {k : LinkId} {bytes : List Byte} {extra : Nat} {dropped begun : Bool} (h : Consistent s) :
    Consistent (frameReceived k bytes extra dropped begun s) := by
  unfold frameReceived
  dsimp only
  repeat' split
  · exact h.of_querying (querying_setLink rfl)
  · exact Consistent.judge_queries _ (h.of_querying (querying_setLink rfl))
  · exact h

theorem Consistent.report_taken {k : LinkId} (h : Consistent s) : Consistent (report k s) := by
  unfold report
  dsimp only
  have freed : ∀ rest, (s.setLink k { s.link k with rxFifo := rest }).querying = s.querying := fun _ => querying_setLink rfl
  repeat' split
  · exact h
  · exact h
  · exact Consistent.judge_queries _ (h.of_querying (freed _))
  · exact Consistent.judge_queries _ (h.of_querying ((evaluateReport_querying _ _ _).trans (freed _)))

theorem Consistent.query_met {kind : Byte} {tag : Half} {args : List Byte} (h : Consistent s) :
    Consistent (query kind tag args s).state := by
  unfold query
  repeat' split
  · exact h
  · exact h
  · next hfree =>
    refine Accounted.taken (h.accounted.set_lookups (fun _ => rfl) ?_)
    have hslot : s.lookups.slot ≠ .inService := fun hx => by rw [not_not.mp hfree] at hx; cases hx
    obtain ⟨h1, h2⟩ := h.accounted.gateway
    exact ⟨⟨nofun, fun hx => absurd (h1.mpr hx) hslot⟩, h2⟩

end Sys2Proof.Machine
end

section
/-!
PROOFS. The link reset, the port and the resets keep the laws of the slots, the turn, the gateway slot and the response buffer,
and with them every step does, which settles O60.
-/

namespace Sys2Proof.Machine

variable {s t : State}

/-! ### The link reset (R127, R128, R179) -/

theorem dropLink_serves (k j : LinkId) (u : Lookups) : (u.dropLink k).serves j = if j = k then false else u.serves j := by
  unfold Lookups.serves Lookups.dropLink
  cases u.service with
  | none => simp
  | some v =>
    by_cases hv : v.requester = .link k
    · by_cases e : j = k
      · simp [hv, e]
      · simp [hv, e, Ne.symm e]
    · by_cases e : j = k
      · simp [hv, e]
      · simp [hv, e]

theorem dropLink_asked (k j : LinkId) (u : Lookups) : (u.dropLink k).asked j = if j = k then 0 else u.asked j := by
  unfold Lookups.asked
  rw [dropLink_serves]
  show ((u.queues.set k []).get j).length + _ = _
  rw [PerLink.get_set]
  split <;> rfl

/-- The mark of a link reset leaves the lookup in service its requester, and that of another requester as it was. -/
theorem dropLink_service {k : LinkId} {u : Lookups} {w : Service} (h : (u.dropLink k).service = some w) :
    ∃ v, u.service = some v ∧ w.requester = v.requester ∧ (v.requester = .gateway → w = v) := by
  obtain ⟨v, hv, hw⟩ := Option.map_eq_some_iff.mp h
  refine ⟨v, hv, ?_⟩
  split at hw
  · next hr => exact ⟨by rw [← hw], fun hg => nomatch hr.symm.trans hg⟩
  · exact ⟨by rw [hw], fun _ => hw.symm⟩

theorem Accounted.link_dropped {k : LinkId} (h : Accounted s) :
    Accounted { s.setLink k (s.link k).afterReset with lookups := s.lookups.dropLink k } := by
  refine ⟨fun j => ?_, ?_, h.port⟩
  · show ((s.setLink k _).link j).slotted ((s.lookups.dropLink k).asked j)
    rw [State.link_setLink, dropLink_asked]
    split
    · exact ⟨rfl, Nat.zero_le 4, fun _ => rfl, fun _ => rfl⟩
    · exact h.slots j
  · cases hs : s.lookups.service with
    | none =>
      refine (gatewaySlotLaw_idle ?_).mpr ((gatewaySlotLaw_idle hs).mp h.gateway)
      show s.lookups.service.map _ = none
      rw [hs]
      rfl
    | some v =>
      obtain ⟨hslot, hgateway⟩ := (gatewaySlotLaw_serving hs).mp h.gateway
      cases hw : (s.lookups.dropLink k).service with
      | none => rw [show (s.lookups.dropLink k).service = s.lookups.service.map _ from rfl, hs] at hw; cases hw
      | some w =>
        obtain ⟨x, hx, hr, he⟩ := dropLink_service hw
        cases hs.symm.trans hx
        refine (gatewaySlotLaw_serving hw).mpr ⟨hr ▸ hslot, fun hg => ?_⟩
        rw [he (hr ▸ hg)]
        exact hgateway (hr ▸ hg)

theorem Consistent.link_reset {k : LinkId} (h : Consistent s) : Consistent (linkReset k s) := by
  have dropped : Consistent { s.setLink k (s.link k).afterReset with lookups := s.lookups.dropLink k } := by
    refine ⟨h.accounted.link_dropped, fun hn r => ?_⟩
    have hn : s.lookups.service.map _ = none := hn
    have ho := h.turn (Option.map_eq_none_iff.mp hn) r
    cases r with
    | gateway => exact ho
    | link j =>
      show ((s.lookups.queues.set k []).get j).head? = none
      rw [PerLink.get_set]
      split
      · rfl
      · exact ho
  unfold linkReset
  dsimp only
  refine Consistent.of_querying ?_ (reevaluate_querying _)
  refine Consistent.of_querying (s := leftCycle _) ?_ rfl
  refine Consistent.of_querying ?_ (leftCycle_querying _)
  split
  · exact dropped.of_querying (releaseReader_querying _ _)
  · exact dropped

/-! ### The commands and events of a link (chapters 5 and 6) -/

theorem linkEnable_lookups (link : Byte) (s : State) : (linkEnable link s).state.lookups = s.lookups := by
  unfold linkEnable
  repeat' split
  all_goals rfl

theorem linkTest_lookups (link mode count : Byte) (s : State) : (linkTest link mode count s).state.lookups = s.lookups := by
  unfold linkTest
  dsimp only
  repeat' split
  all_goals rfl

theorem transmitBoundary_lookups (k : LinkId) (s : State) : (transmitBoundary k s).lookups = s.lookups := by
  unfold transmitBoundary
  dsimp only
  split
  · exact tryBegin_lookups k _
  · rfl

theorem carouselSent_lookups (k : LinkId) (s : State) : (carouselSent k s).lookups = s.lookups := by
  unfold carouselSent
  dsimp only
  repeat' split
  · rfl
  · exact (querying_lookups (endCycle_querying k _)).trans rfl
  · rfl
  · rfl

theorem frameTransmitted_lookups (k : LinkId) (s : State) : (frameTransmitted k s).lookups = s.lookups := by
  unfold frameTransmitted
  dsimp only
  split
  · split
    case h_3 => exact carouselSent_lookups k s
    all_goals rfl
  · rfl

theorem underrun_lookups (k : LinkId) (s : State) : (underrun k s).lookups = s.lookups := by
  unfold underrun
  dsimp only
  repeat' split
  all_goals rfl

theorem testFrameStart_lookups (k : LinkId) (s : State) : (testFrameStart k s).lookups = s.lookups := by
  unfold testFrameStart
  dsimp only
  split <;> rfl

theorem testFrameReturned_lookups (k : LinkId) (bytes : List Byte) (extra : Nat) (s : State) :
    (testFrameReturned k bytes extra s).lookups = s.lookups := by
  unfold testFrameReturned
  dsimp only
  repeat' split
  all_goals rfl

theorem testNoEcho_lookups (k : LinkId) (s : State) : (testNoEcho k s).lookups = s.lookups := by
  unfold testNoEcho
  dsimp only
  repeat' split
  all_goals rfl

theorem Consistent.link_disable {link : Byte} (h : Consistent s) : Consistent (linkDisable link s).state := by
  unfold linkDisable
  repeat' split
  · exact h
  · exact h
  · exact h.link_reset

theorem Consistent.refill_service {passed : List (Nat × List Byte)} (h : Consistent s) : Consistent (refillService passed s) := by
  have h1 : Consistent (passLines passed s) := h.of_querying (passLines_querying passed s)
  unfold refillService
  dsimp only
  split
  · exact h1
  · next k _ =>
    obtain ⟨u, hu, e | e⟩ := serveLink_querying k { passLines passed s with carousel := { (passLines passed s).carousel with pointer := k } }
    · rw [e]; exact h1.of_querying hu
    · rw [e]; exact (h1.of_querying hu).try_begin

/-! ### The port (R193 to R195) -/

/-- A change outside the links and the Lookup Engine with a port that keeps its law. -/
theorem Consistent.of_port (h : Consistent s) (hl : t.links = s.links) (hu : t.lookups = s.lookups) (hp : portLaw t) :
    Consistent t := by
  refine h.of_lookups ⟨fun k => ?_, ?_, hp⟩ hu
  · rw [hu, show t.link k = s.link k from congrArg (PerLink.get · k) hl]
    exact h.accounted.slots k
  · unfold gatewaySlotLaw
    rw [hu]
    exact h.accounted.gateway

/-- A port that keeps its law. -/
theorem Consistent.set_port (h : Consistent s) {p : Port} (hp : p.rdy = false → p.response = .empty) :
    Consistent { s with port := p } := h.of_port rfl rfl hp

/-- An answer fetched or lost frees the gateway slot (R169). -/
theorem Consistent.answer_gone (h : Consistent s) {p : Port} (hp : p.rdy = false → p.response = .empty) :
    Consistent { s with
      port := p, lookups := { s.lookups with slot := if s.lookups.slot = .answered then .free else s.lookups.slot } } := by
  by_cases e : s.lookups.slot = .answered
  · obtain ⟨⟨hslots, ⟨hslot, hgateway⟩, -⟩, hturn⟩ := h
    simp only [e, if_true]
    refine ⟨⟨hslots, ⟨⟨nofun, fun hv => ?_⟩, hgateway⟩, hp⟩, fun hn r => ?_⟩
    · exact nomatch e.symm.trans (hslot.mpr hv)
    · cases r with
      | link k => exact hturn hn (.link k)
      | gateway => rfl
  · simp only [e, if_false]
    exact h.set_port hp

theorem Consistent.responded {code : ResultCode} {body : List Byte} (h : Consistent s) : Consistent (respond code body s) :=
  h.answer_gone nofun

theorem Consistent.overrun_met {n : Nat} (h : Consistent s) : Consistent (overrun n s) := h.set_port h.accounted.port

theorem Consistent.message_begun {tag : Half} {bytes : List Byte} (h : Consistent s) : Consistent (beginMessage tag bytes s) :=
  h.set_port fun _ => rfl

theorem Consistent.write_message {low : Bool} {bytes : List Byte} (h : Consistent s) : Consistent (writeMessage low bytes s) := by
  have h1 : Consistent (beginMessage (messageTag bytes) bytes s) := h.message_begun
  unfold writeMessage
  split
  · exact h.overrun_met
  · unfold judgeArrival
    dsimp only
    split
    · exact h1.responded
    · exact h1.responded
    · exact h1.responded
    · exact h1.set_port h1.accounted.port

/-- A response is HELD with RDY high, so the fetch leaves a port that keeps its law (R195). -/
theorem Consistent.read_response {late : Bool} {clocked : Nat} (h : Consistent s) : Consistent (readResponse late clocked s) := by
  have sent : ∀ {u}, Consistent u → Consistent { u with port := { u.port with miso := misoBytes (responseToSend late s) clocked } } :=
    fun hu => hu.set_port hu.accounted.port
  unfold readResponse
  dsimp only
  split
  · next r hr =>
    split
    · exact sent (h.answer_gone fun hrdy => nomatch hr.symm.trans (h.accounted.port hrdy))
    · exact sent h
  · exact sent h
  · exact sent h

theorem Consistent.ignored_transaction {bytes : List Byte} (h : Consistent s) : Consistent (ignoredTransaction bytes s) := by
  unfold ignoredTransaction
  split
  · exact h.set_port h.accounted.port
  · exact h

/-- A message that meets the port and its owner: it does nothing, is discarded, or is taken from the port or as it arrives, and
the owner's answer, if there is one, becomes the response (R193 to R195). -/
theorem Consistent.through_gateway {i : Instr} {own : State → Reply} (hown : ∀ u, Consistent u → Consistent (own u).state)
    (h : Consistent s) : Consistent (gateway i own s) := by
  have replied : ∀ r : Reply, Consistent r.state → Consistent
      (match r.answer with
        | none => r.state
        | some (code, body) => respond code body r.state) := fun r hr => by
    split
    · exact hr
    · exact hr.responded
  unfold gateway
  split
  · exact h
  · split
    · exact h
    · by_cases hd : s.port.dispatched = some i
      · simp only [hd, if_true]
        exact replied _ (hown _ (h.set_port h.accounted.port))
      · by_cases hr : s.port.rdy = true
        · simp only [hd, hr, if_true, if_false]
          exact replied _ (hown _ h.message_begun)
        · simp only [hd, hr, if_false]
          exact h.overrun_met

theorem Consistent.through_event {f : State → State} (hf : ∀ u, Consistent u → Consistent (f u)) (h : Consistent s) :
    Consistent (event f s) := by
  unfold event
  split
  · exact h
  · exact hf s h

/-! ### The resets (R198) -/

theorem consistent_iff : Consistent s ↔ slotsLaw s ∧ turnLaw s ∧ gatewaySlotLaw s ∧ portLaw s :=
  ⟨fun h => ⟨h.accounted.slots, h.turn, h.accounted.gateway, h.accounted.port⟩,
    fun ⟨hslots, hturn, hgateway, hport⟩ => ⟨⟨hslots, hgateway, hport⟩, hturn⟩⟩

theorem Consistent.reset_blocks (s : State) : Consistent (resetBlocks s) :=
  Consistent.of_querying (consistent_iff.mpr ⟨reset_slotsLaw, reset_turnLaw, reset_gatewaySlotLaw, nofun⟩) rfl

theorem Consistent.enter_reset (s : State) : Consistent (enterReset s) := by
  refine Consistent.of_port (reset_blocks s) rfl rfl ?_
  exact fun _ => rfl

theorem Consistent.leave_reset (h : Consistent s) : Consistent (leaveReset s) := by
  unfold leaveReset
  split
  · exact h.of_port rfl rfl nofun
  · exact h

/-! ### Every command, every step -/

theorem Consistent.executed {i : Instr} (h : Consistent s) (ht : exec i s = .next t) : Consistent t := by
  have at_port : ∀ {own : State → Reply}, (∀ u, Consistent u → Consistent (own u).state) → exec i s = .next (gateway i own s) →
      Consistent t := fun hown he => by
    rw [he] at ht
    cases ht
    exact h.through_gateway hown
  have in_part : ∀ {f : State → State}, (∀ u, Consistent u → Consistent (f u)) → exec i s = .next (event f s) → Consistent t :=
    fun hf he => by
      rw [he] at ht
      cases ht
      exact h.through_event hf
  have answers : ∀ {own : State → Reply}, (∀ u, (own u).state.querying = u.querying) → ∀ u, Consistent u →
      Consistent (own u).state := fun hown u hu => hu.of_querying (hown u)
  have happens : ∀ {f : State → State}, (∀ u, (f u).querying = u.querying) → ∀ u, Consistent u → Consistent (f u) :=
    fun hf u hu => hu.of_querying (hf u)
  have on_link : ∀ {f : State → State}, (∀ u, Accounted u → Accounted (f u)) → (∀ u, (f u).lookups = u.lookups) →
      ∀ u, Consistent u → Consistent (f u) := fun hf hu u h => h.of_lookups (hf u h.accounted) (hu u)
  cases i with
  | powerOn => cases ht; exact .enter_reset s
  | resetNLow => cases ht; exact .enter_reset s
  | resetEnd => cases ht; exact h.leave_reset
  | deviceReset => exact at_port (fun u _ => .reset_blocks u) rfl
  | writeMessage => exact in_part (fun _ => .write_message) rfl
  | readResponse => exact in_part (fun _ => .read_response) rfl
  | ignoredTransaction => exact in_part (fun _ => .ignored_transaction) rfl
  | openBuild => exact at_port (answers (openBuild_querying _)) rfl
  | closeBuild => exact at_port (answers (closeBuild_querying _ _ _)) rfl
  | withdraw => exact at_port (answers withdraw_querying) rfl
  | discardBuild => exact at_port (answers discardBuild_querying) rfl
  | bankRead => exact at_port (fun _ h => by rw [bankRead_state]; exact h) rfl
  | rangeRead => exact at_port (answers (rangeRead_querying _ _ _)) rfl
  | tariffRead => exact at_port (answers (tariffRead_querying _ _ _ _ _)) rfl
  | segment => exact at_port (answers (segment_querying _ _ _ _)) rfl
  | carouselConfig => exact at_port (answers fun _ => rfl) rfl
  | carouselStart => exact at_port (answers carouselStart_querying) rfl
  | carouselStop => exact at_port (answers carouselStop_querying) rfl
  | linkConfig => exact at_port (answers (linkConfig_querying _ _ _)) rfl
  | linkEnable => exact at_port (on_link (fun _ => .link_enable) (linkEnable_lookups _)) rfl
  | linkDisable => exact at_port (fun _ => .link_disable) rfl
  | linkTest => exact at_port (on_link (fun _ => .link_test) (linkTest_lookups _ _ _)) rfl
  | linkRead => exact at_port (fun _ h => by rw [linkRead_state]; exact h) rfl
  | validatorConfig => exact at_port (answers (validatorConfig_querying _ _)) rfl
  | validatorRead => exact at_port (fun _ h => by rw [validatorRead_state]; exact h) rfl
  | validatorExclude => exact at_port (answers (validatorExclude_querying _)) rfl
  | validatorInclude => exact at_port (answers (validatorInclude_querying _)) rfl
  | timeSet => exact at_port (answers (timeSet_querying _ _)) rfl
  | cutoverConfig => exact at_port (answers (cutoverConfig_querying _ _)) rfl
  | cutoverNow => exact at_port (answers (cutoverNow_querying _)) rfl
  | query => exact at_port (fun _ => .query_met) rfl
  | eventsRead => exact at_port (fun _ h => h) rfl
  | eventsClear => exact at_port (answers (eventsClear_querying _)) rfl
  | eventMask => exact at_port (answers (eventMask_querying _)) rfl
  | scrubConfig => exact at_port (answers fun _ => rfl) rfl
  | identify => exact at_port (fun _ h => h) rfl
  | status => exact at_port (fun _ h => h) rfl
  | copyComplete => exact in_part (happens copyComplete_querying) rfl
  | drainComplete => exact in_part (happens drainComplete_querying) rfl
  | closeRunComplete => exact in_part (happens closeRunComplete_querying) rfl
  | checkPhaseEnd => exact in_part (happens checkPhaseEnd_querying) rfl
  | applyPhaseEnd => exact in_part (happens applyPhaseEnd_querying) rfl
  | cycleStart => exact in_part (happens (cycleStart_querying _)) rfl
  | refillService => exact in_part (fun _ => .refill_service) rfl
  | transmitBoundary => exact in_part (on_link (fun _ => .transmit_boundary) (transmitBoundary_lookups _)) rfl
  | frameTransmitted => exact in_part (on_link (fun _ => .frame_transmitted) (frameTransmitted_lookups _)) rfl
  | underrun => exact in_part (on_link (fun _ => .underrun_met) (underrun_lookups _)) rfl
  | frameReceived => exact in_part (fun _ => .frame_received) rfl
  | report => exact in_part (fun _ => .report_taken) rfl
  | validatorSilent => exact in_part (happens (validatorSilent_querying _)) rfl
  | minuteEvent => exact in_part (happens minuteEvent_querying) rfl
  | waitExpired => exact in_part (happens waitExpired_querying) rfl
  | inhibitAssertion => exact in_part (f := inhibitAssertion) (happens fun _ => rfl) rfl
  | inhibitDeassertion => exact in_part (happens inhibitDeassertion_querying) rfl
  | graceRunOut => exact in_part (happens graceRunOut_querying) rfl
  | lookupComplete => exact in_part (fun _ => .lookup_complete) rfl
  | scrubPeriod => exact in_part (happens scrubPeriod_querying) rfl
  | scrubRead => exact in_part (happens (scrubRead_querying _)) rfl
  | testFrameReturned => exact in_part (on_link (fun _ => .test_frame_returned) (testFrameReturned_lookups _ _ _)) rfl
  | testNoEcho => exact in_part (on_link (fun _ => .test_no_echo) (testNoEcho_lookups _)) rfl
  | testFrameStart => exact in_part (on_link (fun _ => .test_frame_start) (testFrameStart_lookups _)) rfl
  | copyFailure => exact in_part (happens (copyFailure_querying _ _)) rfl
  | closingRunFailure => exact in_part (happens (closingRunFailure_querying _ _ _)) rfl

/-- The laws survive every step. -/
theorem Consistent.stepped (h : Consistent s) (ht : step s = .next t) : Consistent t := by
  unfold step at ht
  split at ht
  · cases ht
    exact h.of_querying (tick_querying s)
  · next rest _ =>
    have taken : Consistent { s with pending := rest } := h.of_querying rfl
    exact taken.executed ht

/-- Settles O60: the laws but for the turn survive every change of a link, of the Lookup Engine and of the port, and takes
restore the turn (`Accounted`, `Consistent`). -/
theorem stepKeepsQueriesAndPort : Obligations.StepKeepsQueriesAndPort := by
  unfold Obligations.StepKeepsQueriesAndPort
  intro s t hslots hturn hgateway hport ht
  exact consistent_iff.mp ((consistent_iff.mpr ⟨hslots, hturn, hgateway, hport⟩).stepped ht)

end Sys2Proof.Machine
end

section
/-!
PROOFS. The message of a gateway command decodes to the command, which settles O6 (R116, R193).
-/

namespace Sys2Proof.Machine

/-! ### The bodies (R193) -/

/-- The SEGMENT body in its ranges is read back. -/
theorem decodeBody_segment {tag id index count : Half} {payload : List Byte} (h : 1 ≤ payload.length ∧ payload.length ≤ 240) :
    decodeBody 0x1C#8 tag (be16 id ++ be16 index ++ be16 count ++ payload) = .good (.segment tag id index count payload) := by
  obtain ⟨hlow, hhigh⟩ := h
  cases payload with
  | nil => cases hlow
  | cons x xs =>
    rw [List.length_cons] at hhigh
    simp [decodeBody, be16, show xs.length ≤ 239 by omega]

/-- The QUERY body with arguments of a length that R193 allows is read back. -/
theorem decodeBody_query {tag qtag : Half} {kind : Byte} {args : List Byte}
    (h : args.length = 2 ∨ args.length = 3 ∨ args.length = 7) :
    decodeBody 0x40#8 tag (kind :: (be16 qtag ++ args)) = .good (.query tag kind qtag args) := by
  simp [decodeBody, be16, h]

section
variable {i : Instr} {type : Byte} {tag : Half} {body : List Byte} (hm : messageOf i = some (type, tag, body)) (hw : i.wf = true)
include hm hw

/-- Each fixed body is read back field by field; SEGMENT and QUERY end in a field of many lengths. -/
theorem decodeBody_messageOf : decodeBody type tag body = .good i := by
  cases i with
  | segment =>
    cases hm
    exact decodeBody_segment (by simpa [Instr.wf] using hw)
  | query =>
    cases hm
    exact decodeBody_query (by simpa [Instr.wf, or_assoc] using hw)
  | _ =>
    cases hm <;> simp [decodeBody, be16, be24]

/-- No body is longer than the 250 bytes of R193. -/
theorem messageOf_length : body.length ≤ 250 := by
  cases i with
  | segment _ _ _ _ payload =>
    cases hm
    have hlen : 1 ≤ payload.length ∧ payload.length ≤ 240 := by simpa [Instr.wf] using hw
    simp [be16]
    omega
  | query _ _ _ args =>
    cases hm
    have hlen : args.length = 2 ∨ args.length = 3 ∨ args.length = 7 := by simpa [Instr.wf, or_assoc] using hw
    simp [be16]
    omega
  | _ => cases hm <;> simp [be16, be24]

end

/-- Settles O6: the envelope is opened and the body is read back field by field. -/
theorem messageDecodesAsEncoded : Obligations.MessageDecodesAsEncoded := by
  unfold Obligations.MessageDecodesAsEncoded
  intro i hw hm
  obtain ⟨⟨type, tag, body⟩, hm⟩ := Option.ne_none_iff_exists'.mp hm
  rw [encodeMessage_of i type tag body hm, judgeMessage_sealMessage type tag body (messageOf_length hm hw)]
  exact decodeBody_messageOf hm hw

end Sys2Proof.Machine
end

section
/-!
PROOFS. What an idle transmitter begins (R117, R119, R125, R126), which settles O40.
-/

namespace Sys2Proof.Machine

variable {k : LinkId} {s : State} {l : Link}

/-! ### The order of what comes next (R117) -/

theorem begin_notice {tag : Half} {kind : QueryKind} (h : l.notice = some (tag, kind)) :
    l.begin = { l with notice := none, tx := .notice (busyFrame tag kind) } := by
  unfold Link.begin
  rw [h]

theorem begin_answer (hn : l.notice = none) {a : Answer} {rest : List Answer} (ha : l.answers = a :: rest) :
    l.begin = { l with answers := rest, tx := .answer (answerFrame a) } := by
  unfold Link.begin
  rw [hn, ha]

theorem begin_carousel (hn : l.notice = none) (ha : l.answers = []) {kind : FrameKind} (hc : l.nextCarousel = some kind) :
    l.begin = { l with tx := .carousel kind } := by
  unfold Link.begin
  simp only [hn, ha, hc]

theorem begin_nothing (hn : l.notice = none) (ha : l.answers = []) (hc : l.nextCarousel = none) : l.begin = l := by
  unfold Link.begin
  simp only [hn, ha, hc]

/-- The next carousel frame has its first byte in the FIFO with nothing left to discard (R119, R126). -/
theorem nextCarousel_some {f : FifoFrame} {rest : List FifoFrame} (hf : l.txFifo = f :: rest) (hb : f.bytes ≠ [])
    (hd : l.discard = 0) : l.nextCarousel = some f.kind := by
  unfold Link.nextCarousel
  simp [hf, hb, hd]

theorem nextCarousel_none (h : l.discard ≠ 0 ∨ ∀ f rest, l.txFifo = f :: rest → f.bytes = []) : l.nextCarousel = none := by
  unfold Link.nextCarousel
  cases hf : l.txFifo with
  | nil => rfl
  | cons f rest =>
    have : l.discard ≠ 0 ∨ f.bytes = [] := h.imp_right fun h => h f rest hf
    simpa [← not_or, imp_iff_not_or] using this

/-- An idle transmitter begins the first that there is. -/
theorem begins_begin (l : Link) : Begins l { l with tx := .idle }.begin where
  notice _ _ h := begin_notice (l := { l with tx := .idle }) h
  answer hn _ _ ha := begin_answer (l := { l with tx := .idle }) hn ha
  carousel hn ha _ _ hf hb hd := begin_carousel (l := { l with tx := .idle }) hn ha (nextCarousel_some hf hb hd)
  idle hn ha h := begin_nothing (l := { l with tx := .idle }) hn ha (nextCarousel_none h)

/-! ### A link that may begin (R117) -/

theorem tryBegin_else (h : ¬((s.link k).state = .enabled ∧ (s.link k).tx = .idle)) : tryBegin k s = s := if_neg h

theorem tryBegin_idle (he : (s.link k).state = .enabled) (ht : (s.link k).tx = .idle) :
    tryBegin k s = s.setLink k { s.link k with tx := .idle }.begin := by
  rw [show { s.link k with tx := .idle } = s.link k by rw [← ht]]
  exact if_pos ⟨he, ht⟩

theorem transmitBoundary_else (h : ¬((s.link k).state = .enabled ∧ (s.link k).tx = .gap)) : transmitBoundary k s = s := if_neg h

theorem transmitBoundary_gap (he : (s.link k).state = .enabled) (ht : (s.link k).tx = .gap) :
    transmitBoundary k s = s.setLink k { s.link k with tx := .idle }.begin := by
  have hl : (s.setLink k { s.link k with tx := .idle }).link k = { s.link k with tx := .idle } := State.link_setLink_same k _ s
  unfold transmitBoundary
  dsimp only
  rw [if_pos ⟨he, ht⟩, tryBegin_idle (by rw [hl]; exact he) (by rw [hl]), hl]
  exact State.setLink_setLink k _ _ s

/-- Settles O40: a boundary and an idle link begin the same way (`begins_begin`). -/
theorem transmitBoundaryTakesTheFirst : Obligations.TransmitBoundaryTakesTheFirst := by
  unfold Obligations.TransmitBoundaryTakesTheFirst
  refine ⟨fun s k hr => ⟨fun hx => ?_, fun he ht => ⟨_, begins_begin _, ?_⟩⟩,
    fun u k => ⟨tryBegin_else, fun he ht => ⟨_, begins_begin _, tryBegin_idle he ht⟩⟩⟩
  · exact congrArg Host.Outcome.next ((event_running hr).trans (transmitBoundary_else hx))
  · exact congrArg Host.Outcome.next ((event_running hr).trans (transmitBoundary_gap he ht))

end Sys2Proof.Machine
end

section
/-!
PROOFS. LINK_TEST and the loopback run (R129 to R131), which settles O44.
-/

namespace Sys2Proof.Machine

/-! ### What returns against what was sent (R131) -/

/-- Two byte strings differ first at the position up to which they agree and at which they do not. -/
theorem firstDifference_of {xs ys : List Byte} {n : Nat} (he : xs.take n = ys.take n) (hn : xs[n]? ≠ ys[n]?) :
    firstDifference xs ys = n := by
  induction n generalizing xs ys with
  | zero =>
    cases xs with
    | nil => rfl
    | cons x xs =>
      cases ys with
      | nil => rfl
      | cons y ys => exact if_neg fun e => hn (congrArg some e)
  | succ n ih =>
    cases xs with
    | nil =>
      cases ys with
      | nil => exact absurd rfl hn
      | cons y ys => cases he
    | cons x xs =>
      cases ys with
      | nil => cases he
      | cons y ys =>
        obtain ⟨hx, he⟩ := List.cons.inj he
        rw [firstDifference, if_pos hx, ih he hn]

/-- Against itself a byte string differs first past its end. -/
theorem firstDifference_self (xs : List Byte) : firstDifference xs xs = xs.length := by
  induction xs with
  | nil => rfl
  | cons x xs ih => rw [firstDifference, if_pos rfl, ih, List.length_cons]

theorem testFrame_length (n : Nat) : (testFrame n).length = 37 := by
  unfold testFrame
  rw [linkFrame_length, List.length_map, List.length_range]

theorem line_eq (m : TestMode) (frame : List Byte) : m.line frame = if m = .internal then .gap else .test frame := by
  cases m <;> rfl

theorem returnedEqual_iff (m : TestMode) (n : Nat) (bytes : List Byte) (extra : Nat) :
    returnedEqual m n bytes extra = true ↔ m = .internal ∨ (bytes = testFrame n ∧ extra = 0) := by
  cases m with
  | internal => exact ⟨fun _ => .inl rfl, fun _ => rfl⟩
  | external => simp [returnedEqual, and_comm]

theorem testModeOf_none {mode : Byte} (h : 1 < mode.toNat) : testModeOf mode = none := by
  unfold testModeOf
  rw [if_neg (by rintro rfl; exact absurd h (by decide)), if_neg (by rintro rfl; exact absurd h (by decide))]

theorem testModeOf_some {mode : Byte} (h : mode.toNat ≤ 1) :
    testModeOf mode = some (if mode = 0#8 then .internal else .external) := by
  unfold testModeOf
  split
  · rfl
  · next h0 =>
    rw [if_pos (by bv_omega)]

/-- An event of the part outside a device reset. -/
theorem event_happens {f : State → State} {s t : State} (h : s.inReset = false) (hf : f s = t) :
    (.next (event f s) : Result) = .next t := congrArg _ ((event_running h).trans hf)

/-! ### LINK_TEST (R129, R130) -/

theorem linkTest_refuses {link mode count : Byte} (h : 7 < link.toNat ∨ 1 < mode.toNat ∨ count = 0#8) (s : State) :
    linkTest link mode count s = refuse .badArg s := by
  unfold linkTest
  split
  · next hk hm =>
    refine if_pos (h.elim (fun h => ?_) fun h => h.resolve_left fun h => ?_)
    · rw [linkOf_none h] at hk; cases hk
    · rw [testModeOf_none h] at hm; cases hm
  · rfl

section
variable {s : State} {k : LinkId} {mode count : Byte} (hm : mode.toNat ≤ 1) (hc : count ≠ 0#8)
include hm hc

theorem linkTest_busy (h : (s.link k).state ≠ .disabled) :
    linkTest (BitVec.ofNat 8 k.val) mode count s = refuse .badState s := by
  unfold linkTest
  rw [linkOf_val, testModeOf_some hm]
  exact (if_neg hc).trans (if_pos h)

theorem linkTest_disabled (h : (s.link k).state = .disabled) :
    linkTest (BitVec.ofNat 8 k.val) mode count s =
      answer .accepted []
        (s.setLink k
          { s.link k with
            state := .testing
            tx := if (if mode = 0#8 then TestMode.internal else .external) = .internal then .gap else .test (testFrame 0)
            run := some ⟨if mode = 0#8 then .internal else .external, count.toNat, 0, true, s.carousel.settings.frameGap⟩ }) := by
  unfold linkTest
  rw [linkOf_val, testModeOf_some hm, ← line_eq]
  exact (if_neg hc).trans (if_neg (not_not_intro h))

end

/-! ### The run (R130, R131) -/

section
variable {s : State} {k : LinkId}

/-- The three events of a run off a link that is not TESTING (log 3). -/
theorem test_events_idle (h : (s.link k).state ≠ .testing) :
    testFrameStart k s = s ∧ testNoEcho k s = s ∧ ∀ bytes extra, testFrameReturned k bytes extra s = s := by
  unfold testFrameStart testNoEcho testFrameReturned
  dsimp only
  refine ⟨?_, ?_, fun bytes extra => ?_⟩ <;> split
  · next ht _ => exact absurd ht h
  · rfl
  · next ht _ => exact absurd ht h
  · rfl
  · next ht _ => exact absurd ht h
  · rfl

variable {r : TestRun} (ht : (s.link k).state = .testing) (hr : (s.link k).run = some r)
include ht hr

theorem testFrameStart_of :
    testFrameStart k s =
      s.setLink k
        { s.link k with
          tx := if r.mode = .internal then .gap else .test (testFrame r.frame)
          run := some { r with sent := true } } := by
  unfold testFrameStart
  simp only [ht, hr, line_eq]

theorem testNoEcho_of (hs : r.sent = true) :
    testNoEcho k s = if r.mode = .external then endTest k ⟨.noEcho, r.frame, 0⟩ s else s := by
  unfold testNoEcho
  simp only [ht, hr, hs, true_and]

theorem testFrameReturned_equal (hs : r.sent = true) {bytes : List Byte} {extra : Nat}
    (he : returnedEqual r.mode r.frame bytes extra = true) :
    testFrameReturned k bytes extra s =
      if r.frame + 1 = r.count then endTest k ⟨.pass, r.count, 0⟩ s
      else s.setLink k { s.link k with tx := .gap, run := some { r with frame := r.frame + 1, sent := false } } := by
  unfold testFrameReturned
  simp only [ht, hr, hs, he, if_true]

theorem testFrameReturned_differs (hs : r.sent = true) {bytes : List Byte} {extra : Nat}
    (he : ¬returnedEqual r.mode r.frame bytes extra = true) :
    testFrameReturned k bytes extra s = endTest k ⟨.fail, r.frame, firstDifference bytes (testFrame r.frame)⟩ s := by
  unfold testFrameReturned
  simp only [ht, hr, hs, he, if_true, if_false, Bool.false_eq_true]

end

/-- Settles O44: LINK_TEST by its checks, each event of the run by the state of the link. -/
theorem loopbackRunReportsItsResult : Obligations.LoopbackRunReportsItsResult := by
  unfold Obligations.LoopbackRunReportsItsResult
  intro s tag link mode count k l i frame line ended
  refine ⟨fun hr => ⟨fun h => ?_, fun hk hm hc => ⟨fun h => ?_, fun h => ?_⟩⟩, fun hr h => ?_, fun r hr ht hrun => ⟨?_, fun hs => ?_⟩⟩
  · exact congrArg _ (gateway_reads hr rfl fun p => linkTest_refuses h _)
  · subst hk
    exact congrArg _ (gateway_reads hr rfl fun p => linkTest_busy (s := { s with port := p }) hm hc h)
  · subst hk
    exact congrArg _ (gateway_does hr rfl (s.setLink k _) rfl fun p => linkTest_disabled (s := { s with port := p }) hm hc h)
  · obtain ⟨h1, h2, h3⟩ := test_events_idle h
    exact ⟨event_happens hr h1, event_happens hr h2, fun bytes extra => event_happens hr (h3 bytes extra)⟩
  · exact event_happens hr (testFrameStart_of ht hrun)
  · have echo := testNoEcho_of ht hrun hs
    refine ⟨fun hm => event_happens hr ?_, fun hm => event_happens hr ?_, fun bytes extra => ?_⟩
    · rw [echo, hm]; rfl
    · rw [echo, hm]; rfl
    · have heq := returnedEqual_iff r.mode r.frame bytes extra
      refine ⟨fun he hn => event_happens hr ?_, fun he hn => event_happens hr ?_, fun n he htake hn => event_happens hr ?_⟩
      · rw [testFrameReturned_equal ht hrun hs (heq.mpr he), if_pos hn]; rfl
      · rw [testFrameReturned_equal ht hrun hs (heq.mpr he), if_neg hn]
      · have hd : firstDifference bytes (testFrame r.frame) = n := by
          rcases hn with hn | ⟨-, hb, rfl⟩
          · exact firstDifference_of htake hn
          · rw [show bytes = testFrame r.frame from hb, firstDifference_self, testFrame_length]
        rw [testFrameReturned_differs ht hrun hs fun hx => he (heq.mp hx), hd]
        rfl

end Sys2Proof.Machine
end

section
/-!
PROOFS. REPORT and VALIDATOR_SILENT (R135 to R142, R147), which settles O46.
-/

namespace Sys2Proof.Machine

/-! ### The body of a report (R135, R137, R201) -/

/-- A REPORT body is read back field by field. -/
theorem reportOf_body (id ucrc ncrc : Word32) (useq nseq lacking : Half) (complete : Byte) :
    reportOf (be32 id ++ be16 useq ++ be32 ucrc ++ be16 nseq ++ [complete] ++ be32 ncrc ++ be16 lacking) =
      some ⟨id, ⟨useq, ucrc, nseq, decide (complete ≠ 0#8), ncrc, min 256 lacking.toNat⟩⟩ := by
  simp [reportOf, be32, be16]

/-! ### What a report says of the entry and the banks (R136, R138 to R140) -/

theorem replacedBy_iff (e : Entry) (id : Word32) :
    e.replacedBy id = true ↔ ∃ old, e.validatorId = some old ∧ old ≠ id := by
  unfold Entry.replacedBy
  cases e.validatorId with
  | none => exact ⟨nofun, fun ⟨_, h, _⟩ => nomatch h⟩
  | some old => simp

section
variable (r : LastReport) (s : State)

theorem holdingOf_or : holdingOf r s = .holds ∨ holdingOf r s = .lacks := by
  unfold holdingOf
  repeat' split
  · exact .inl rfl
  · exact .inr rfl
  · exact .inr rfl

theorem holdingOf_holds :
    holdingOf r s = .holds ↔ ∃ f, s.inForce = some f ∧ r.usingSeq = (s.recOf f).seq ∧ r.usingCrc = (s.recOf f).imageCrc := by
  unfold holdingOf
  cases s.inForce with
  | none => exact ⟨nofun, fun ⟨_, h, _⟩ => nomatch h⟩
  | some f =>
    dsimp only
    split
    · next h => exact ⟨fun _ => ⟨f, rfl, h⟩, fun _ => rfl⟩
    · next h => exact ⟨nofun, fun ⟨_, hf, hx⟩ => absurd (by cases hf; exact hx) h⟩

theorem pendingOf_none : pendingOf r s = .none ↔ s.pendingBank = none := by
  unfold pendingOf
  cases s.pendingBank with
  | none => exact ⟨fun _ => rfl, fun _ => rfl⟩
  | some p =>
    dsimp only
    split
    · exact ⟨nofun, nofun⟩
    · exact ⟨nofun, nofun⟩

theorem pendingOf_ready :
    pendingOf r s = .ready ↔
      ∃ p, s.pendingBank = some p ∧ r.nextSeq = (s.recOf p).seq ∧ r.nextComplete = true ∧ r.nextCrc = (s.recOf p).imageCrc := by
  unfold pendingOf
  cases s.pendingBank with
  | none => exact ⟨nofun, fun ⟨_, h, _⟩ => nomatch h⟩
  | some p =>
    dsimp only
    split
    · next h => exact ⟨fun _ => ⟨p, rfl, h⟩, fun _ => rfl⟩
    · next h => exact ⟨nofun, fun ⟨_, hp, hx⟩ => absurd (by cases hp; exact hx) h⟩

theorem mismatches_iff :
    mismatches r s = true ↔
      (∃ f, s.inForce = some f ∧ r.usingSeq = (s.recOf f).seq ∧ r.usingCrc ≠ (s.recOf f).imageCrc) ∨
        ∃ p, s.pendingBank = some p ∧ r.nextSeq = (s.recOf p).seq ∧ r.nextComplete = true ∧
          r.nextCrc ≠ (s.recOf p).imageCrc := by
  simp only [mismatches, Bool.or_eq_true, Option.any_eq_true, Bool.and_eq_true, decide_eq_true_eq, and_assoc]

end

/-! ### The entry after a report (R136 to R140) -/

/-- A changed validator ID begins the entry afresh; the report replaces the rest. -/
theorem entryAfter_eq (e : Entry) (r : ReportBody) (s : State) :
    let base : Entry := if e.replacedBy r.validatorId then { Entry.reset with excluded := e.excluded } else e
    let count := if mismatches r.report s then min 15 (base.mismatches + 1) else base.mismatches
    entryAfter e r s =
      { validatorId := some r.validatorId
        presence := .active
        excluded := e.excluded
        suspect := base.suspect || (mismatches r.report s && decide (s.table.mismatchLimit ≤ count))
        holding := holdingOf r.report s
        pending := pendingOf r.report s
        lastReport := r.report
        interval := 0
        lastInterval := base.interval
        mismatches := count
        reports := min 65535 (base.reports + 1)
        lookups := base.lookups } := by
  intro base count
  have recorded : { (if e.replacedBy r.validatorId then freshEntry s e.excluded else e).recorded r with
        holding := holdingOf r.report s, pending := pendingOf r.report s } =
      { base.recorded r with excluded := e.excluded, holding := holdingOf r.report s, pending := pendingOf r.report s } := by
    show _ = { (if e.replacedBy r.validatorId then { Entry.reset with excluded := e.excluded } else e).recorded r with
      excluded := e.excluded, holding := holdingOf r.report s, pending := pendingOf r.report s }
    split <;> rfl
  show (if mismatches r.report s then Entry.mismatched s.table.mismatchLimit _ else _) = _
  rw [recorded]
  cases hm : mismatches r.report s with
  | true => rw [if_pos rfl, Bool.true_and, show count = min 15 (base.mismatches + 1) from if_pos hm]; rfl
  | false => rw [if_neg Bool.false_ne_true, Bool.false_and, Bool.or_false, show count = base.mismatches from if_neg (by simp [hm])]; rfl

/-! ### The events of a report (R136, R140, R188) -/

/-- The events that a report of link `k` raises, for a changed ID and for a mismatch. -/
def Events.reported (k : LinkId) (changed mismatch : Bool) (u : Events) : Events :=
  let v := if changed then (u.raise .validatorChanged).joinSet .validatorChanged k else u
  if mismatch then (v.raise .validatorMismatch).joinSet .validatorMismatch k else v

theorem raised_changed (k : LinkId) (c : Bool) (u : Events) :
    (if c then (u.raise .validatorChanged).joinSet .validatorChanged k else u) =
      { u with
        flags := u.flags ||| (if c then 0x400#24 else 0#24)
        sets := { u.sets with changed := u.sets.changed ||| (if c then 1#8 <<< k.val else 0#8) } } := by
  cases c with
  | true => rfl
  | false => simp

theorem raised_mismatch (k : LinkId) (c : Bool) (u : Events) :
    (if c then (u.raise .validatorMismatch).joinSet .validatorMismatch k else u) =
      { u with
        flags := u.flags ||| (if c then 0x1000#24 else 0#24)
        sets := { u.sets with mismatch := u.sets.mismatch ||| (if c then 1#8 <<< k.val else 0#8) } } := by
  cases c with
  | true => rfl
  | false => simp

theorem reported_eq (k : LinkId) (changed mismatch : Bool) (u : Events) :
    u.reported k changed mismatch =
      { u with
        flags := u.flags ||| (if changed then 0x400#24 else 0#24) ||| (if mismatch then 0x1000#24 else 0#24)
        sets :=
          { u.sets with
            changed := u.sets.changed ||| (if changed then 1#8 <<< k.val else 0#8)
            mismatch := u.sets.mismatch ||| (if mismatch then 1#8 <<< k.val else 0#8) } } := by
  unfold Events.reported
  rw [raised_changed, raised_mismatch]

/-- A report changes the entry and raises its events; readiness is evaluated. -/
theorem evaluateReport_eq (k : LinkId) (r : ReportBody) (s : State) :
    evaluateReport k r s =
      reevaluate { s.setEntry k (entryAfter (s.entry k) r s) with
        events := s.events.reported k ((s.entry k).replacedBy r.validatorId) (mismatches r.report s) } := by
  have raised : ∀ (c : Bool) e (u : State), (if c then State.raiseLink e k u else u) =
      { u with events := if c then (u.events.raise e).joinSet e k else u.events } := fun c e u => by
    cases c <;> rfl
  unfold evaluateReport
  dsimp only
  rw [raised, raised]
  rfl

/-! ### The two events (R135, R142) -/

section
variable {s : State} {k : LinkId}

theorem report_none (h : ∀ f rest, (s.link k).rxFifo = f :: rest → f.kind ≠ .report) : report k s = s := by
  unfold report
  dsimp only
  split
  · rfl
  · next f rest hf =>
    split
    · rfl
    · next hk => exact absurd hk (h f rest hf)

theorem report_head {body : List Byte} {rest : List RxFrame} {r : ReportBody} (hf : (s.link k).rxFifo = ⟨.report, body⟩ :: rest)
    (hb : reportOf body = some r) :
    report k s = handOn k (evaluateReport k r (s.setLink k { s.link k with rxFifo := rest })) := by
  unfold report
  simp only [hf, hb]

theorem validatorSilent_else
    (h : ¬((s.link k).state = .enabled ∧ (s.entry k).presence = .active ∧ s.table.silenceLimit ≤ (s.entry k).interval)) :
    validatorSilent k s = s := by
  unfold validatorSilent
  split
  · next he => exact if_neg fun hx => h ⟨he, hx⟩
  · rfl

theorem validatorSilent_due (he : (s.link k).state = .enabled)
    (h : (s.entry k).presence = .active ∧ s.table.silenceLimit ≤ (s.entry k).interval) : validatorSilent k s = silence k s :=
  (if_pos he).trans (if_pos h)

end

/-- Settles O46: the entry and the events after a report, and after silence, are those that readiness then follows. -/
theorem reportsAndSilenceUpdateTheEntry : Obligations.ReportsAndSilenceUpdateTheEntry := by
  unfold Obligations.ReportsAndSilenceUpdateTheEntry
  intro s k hr e l
  refine ⟨fun h => event_happens hr (report_none h), ?_, fun h => event_happens hr (validatorSilent_else h), fun ⟨he, h⟩ =>
    ⟨_, event_happens hr (validatorSilent_due he h), reevaluate_follows _⟩⟩
  intro id ucrc ncrc useq nseq lacking complete rest changed mismatch hf hchanged hmismatch base count
  generalize hrep : (⟨useq, ucrc, nseq, decide (complete ≠ 0#8), ncrc, min 256 lacking.toNat⟩ : LastReport) = rep
  have hc : e.replacedBy id = changed := Bool.eq_iff_iff.mpr ((replacedBy_iff e id).trans hchanged.symm)
  have hm : mismatches rep s = mismatch := by
    refine Bool.eq_iff_iff.mpr ((mismatches_iff rep s).trans (Iff.trans ?_ hmismatch.symm))
    rw [← hrep]
    simp
  refine ⟨holdingOf rep s, pendingOf rep s, holdingOf_or rep s, ?_, pendingOf_none rep s, ?_, ?_⟩
  · rw [holdingOf_holds, ← hrep]
  · rw [pendingOf_ready, ← hrep]
    simp
  · refine ⟨_, event_happens hr (report_head hf ((reportOf_body ..).trans (by rw [hrep]))), ?_⟩
    rw [evaluateReport_eq, entryAfter_eq, reported_eq]
    subst hc hm
    exact reevaluate_follows _

end Sys2Proof.Machine
end

section
/-!
PROOFS. The judgement of a received frame and of the queries that wait (R121 to R124), which settles O43.
-/

namespace Sys2Proof.Machine

/-! ### The four checks (R122) -/

/-- The body length that a frame declares. -/
def declaredLength (frame : List Byte) : Nat := (frame.getD 1 0#8).toNat * 256 + (frame.getD 2 0#8).toNat

/-- The body of a frame, as long as it declares. -/
def frameBody (frame : List Byte) : List Byte := (frame.drop 3).take (declaredLength frame)

theorem half_toNat (h l : Byte) : (half h l).toNat = h.toNat * 256 + l.toNat := by
  unfold half
  rw [BitVec.toNat_append, ← Nat.shiftLeft_add_eq_or_of_lt l.isLt, Nat.shiftLeft_eq]

theorem judgeFrame_framing {extra : Nat} (h : extra ≠ 0) (frame : List Byte) (full : Bool) :
    judgeFrame frame extra full = .error .framing := if_pos h

theorem judgeFrame_length {frame : List Byte} {full : Bool}
    (h : full = true ∨ 64 < frame.length ∨ frame.length < 5 ∨ declaredLength frame + 5 ≠ frame.length) :
    judgeFrame frame 0 full = .error .length := by
  unfold judgeFrame
  rw [if_neg (not_not_intro rfl)]
  split
  · next kind x y rest =>
    have hd : (half x y).toNat = declaredLength (kind :: x :: y :: rest) := half_toNat x y
    refine if_pos ?_
    simpa only [hd, Bool.or_eq_true, decide_eq_true_eq, or_assoc] using h
  · rfl

/-- A frame of a sound length stands or falls by its CRC and its kind. -/
theorem judgeFrame_sound {frame : List Byte} {full : Bool}
    (h : ¬(full = true ∨ 64 < frame.length ∨ frame.length < 5 ∨ declaredLength frame + 5 ≠ frame.length)) :
    judgeFrame frame 0 full =
      if be16 (crc16 (frame.take (declaredLength frame + 3))) ≠ frame.drop (declaredLength frame + 3) then .error .crc
      else (upKindOf (frame.getD 0 0#8) (frameBody frame).length).elim (.error .kind) fun u => .ok ⟨u, frameBody frame⟩ := by
  match frame with
  | kind :: x :: y :: rest =>
    have hd : (half x y).toNat = declaredLength (kind :: x :: y :: rest) := half_toNat x y
    unfold judgeFrame
    rw [if_neg (not_not_intro rfl)]
    dsimp only
    rw [hd, if_neg (by simpa only [Bool.or_eq_true, decide_eq_true_eq, or_assoc] using h)]
    unfold frameBody
    generalize declaredLength (kind :: x :: y :: rest) = n
    simp only [List.take_succ_cons, List.drop_succ_cons, List.drop_zero, List.getD_cons_zero]
    congr 1
    cases upKindOf kind (rest.take n).length <;> rfl
  | [] | [_] | [_, _] => exact absurd (.inr (.inr (.inl (by simp)))) h

/-! ### Kinds (R199, R201) -/

theorem upKindOf_none {kind : Byte} {n : Nat} (h : (kind.toNat, n) ∉ [(0x40, 19), (0x41, 9), (0x42, 5), (0x43, 4)]) :
    upKindOf kind n = none := by
  unfold upKindOf
  split
  case h_5 => rfl
  all_goals next hk => exact absurd (by rw [hk]; decide) h

theorem upKindOf_report : upKindOf 0x40#8 19 = some .report := rfl

/-- The body length that each kind of query must have. -/
def QueryKind.bodyLength : QueryKind → Nat
  | .cardCheck => 9
  | .fareQuote => 5
  | .productInfo => 4

theorem bodyLength_of {qk : QueryKind} {n : Nat} (h : (qk.code.toNat, n) ∈ [(0x40, 19), (0x41, 9), (0x42, 5), (0x43, 4)]) :
    n = qk.bodyLength := by
  cases qk <;> simpa [QueryKind.code, QueryKind.bodyLength] using h

theorem bodyLength_after_tag (qk : QueryKind) : qk.bodyLength - 2 + 2 = qk.bodyLength := by
  cases qk <;> rfl

theorem upKindOf_query (qk : QueryKind) : upKindOf qk.code qk.bodyLength = some (.query qk) := by
  cases qk <;> rfl

/-- A body as long as its kind asks carries a query. -/
theorem queryOf_some {qk : QueryKind} {tag : Half} {args : List Byte} (h : args.length + 2 = qk.bodyLength) :
    ∃ q, queryOf qk.code tag args = some q := by
  cases qk with
  | cardCheck =>
    match args with
    | [a, b, c, d, e, f, g] => exact ⟨_, rfl⟩
  | fareQuote =>
    match args with
    | [c, o, d] => exact ⟨_, rfl⟩
  | productInfo =>
    match args with
    | [x, y] => exact ⟨_, rfl⟩

theorem queryOf_nil (kind : Byte) (tag : Half) : queryOf kind tag [] = none := by
  unfold queryOf
  split
  case h_4 => rfl
  all_goals next h => cases h

/-- A body begins with the query's tag; one too short for it carries no query. -/
theorem queryOfBody_eq (qk : QueryKind) (body : List Byte) :
    queryOfBody qk body = queryOf qk.code (half (body.getD 0 0#8) (body.getD 1 0#8)) (body.drop 2) := by
  match body with
  | [] => exact (queryOf_nil _ _).symm
  | [_] => exact (queryOf_nil _ _).symm
  | _ :: _ :: _ => rfl

/-! ### The queries at the head of the receive FIFO (R123, R124) -/

section
variable {k : LinkId} {u : State}

theorem judgeQueries_wait (h : ∀ f rest, (u.link k).rxFifo = f :: rest → f.kind = .report) (n : Nat) : judgeQueries k n u = u := by
  cases n with
  | zero => rfl
  | succ n =>
    unfold judgeQueries
    dsimp only
    split
    · rfl
    · next f rest hf =>
      split
      · rfl
      · next hk => exact nomatch (h f rest hf).symm.trans hk

theorem handOn_wait (h : ∀ f rest, (u.link k).rxFifo = f :: rest → f.kind = .report) : handOn k u = u := judgeQueries_wait h _

/-- A report behind reports, or alone, leaves a report at the head. -/
theorem report_heads {fs : List RxFrame} {g : RxFrame} (h : ∀ f rest, fs = f :: rest → f.kind = .report) (hg : g.kind = .report) :
    ∀ f rest, fs ++ [g] = f :: rest → f.kind = .report := by
  intro f rest hf
  cases fs with
  | nil => cases hf; exact hg
  | cons x xs =>
    obtain ⟨rfl, -⟩ := List.cons.inj hf
    exact h _ xs rfl

/-- A query accepted takes a slot and joins the queue, and a take is attempted (R124). -/
theorem judgeQuery_accepts {qk : QueryKind} {q : Query} (h : (u.link k).slots < 4) :
    judgeQuery k qk q u =
      attemptTake
        { u.setLink k { u.link k with slots := (u.link k).slots + 1 } with
          lookups := { u.lookups with queues := u.lookups.queues.set k (u.lookups.queues.get k ++ [q]) } } := if_pos h

/-- A query refused sets the BUSY notice and is counted (R126). -/
theorem judgeQuery_refuses {qk : QueryKind} {q : Query} (h : 4 ≤ (u.link k).slots) :
    judgeQuery k qk q u =
      tryBegin k
        (u.setLink k
          { u.link k with
            notice := some (q.tag, qk)
            counters := { (u.link k).counters with busyOverflows := tick32 (u.link k).counters.busyOverflows } }) :=
  if_neg (Nat.not_lt.mpr h)

theorem judgeQueries_query {qk : QueryKind} {q : Query} {body : List Byte} {rest : List RxFrame}
    (hf : (u.link k).rxFifo = ⟨.query qk, body⟩ :: rest) (hq : queryOfBody qk body = some q) (n : Nat) :
    judgeQueries k (n + 1) u = judgeQueries k n (judgeQuery k qk q (u.setLink k { u.link k with rxFifo := rest })) := by
  rw [judgeQueries]
  simp only [hf, hq]

/-- The query at the head is judged, and then those behind it. -/
theorem handOn_query {qk : QueryKind} {q : Query} {body : List Byte} {rest : List RxFrame}
    (hf : (u.link k).rxFifo = ⟨.query qk, body⟩ :: rest) (hq : queryOfBody qk body = some q) :
    handOn k u = handOn k (judgeQuery k qk q (u.setLink k { u.link k with rxFifo := rest })) := by
  unfold handOn
  rw [hf, List.length_cons, judgeQueries_query hf hq, judgeQuery_rxFifo, State.link_setLink_same]

end

/-- A query alone in the receive FIFO. -/
theorem handOn_only {k : LinkId} {u : State} {qk : QueryKind} {q : Query} {body : List Byte}
    (hf : (u.link k).rxFifo = [⟨.query qk, body⟩]) (hq : queryOfBody qk body = some q) :
    handOn k u = judgeQuery k qk q (u.setLink k { u.link k with rxFifo := [] }) := by
  rw [handOn_query hf hq]
  refine handOn_wait ?_
  rw [judgeQuery_rxFifo, State.link_setLink_same]
  exact nofun

/-! ### The end of an envelope (R121, R123) -/

section
variable {s : State} {k : LinkId} {bytes : List Byte} {extra : Nat} {dropped : Bool}

/-- The bytes of the frame, or of those it held, found the receive FIFO full (R121). -/
def Link.overflows (l : Link) (n : Nat) (dropped : Bool) : Bool :=
  dropped || l.rxDropped || decide (Config.rxFifoBytes < l.rxFill + n)

theorem overflows_iff (l : Link) (bytes : List Byte) (dropped : Bool) :
    l.overflows bytes.length dropped = true ↔
      dropped = true ∨ l.rxDropped = true ∨ 256 < (l.rxFifo.map fun f => f.body.length + 5).sum + (l.rxFrame ++ bytes).length := by
  unfold Link.overflows Link.rxFill
  rw [List.length_append, ← Nat.add_assoc, Bool.or_eq_true, Bool.or_eq_true, or_assoc, decide_eq_true_eq]
  rfl

theorem frameReceived_else {begun : Bool} (h : ¬((s.link k).state = .enabled ∧ begun = false)) :
    frameReceived k bytes extra dropped begun s = s := if_neg (by simpa using h)

variable (he : (s.link k).state = .enabled)
include he

theorem frameReceived_discarded {d : Discard}
    (h : judgeFrame ((s.link k).rxFrame ++ bytes) extra ((s.link k).overflows bytes.length dropped) = .error d) :
    frameReceived k bytes extra dropped false s =
      s.setLink k { s.link k with rxFrame := [], rxDropped := false, counters := (s.link k).counters.discarded d } := by
  unfold Link.overflows at h
  unfold frameReceived
  simp only [he, h, Bool.not_false, and_self, if_true]

theorem frameReceived_good {f : RxFrame}
    (h : judgeFrame ((s.link k).rxFrame ++ bytes) extra ((s.link k).overflows bytes.length dropped) = .ok f) :
    frameReceived k bytes extra dropped false s =
      handOn k
        (s.setLink k
          { s.link k with
            rxFrame := []
            rxDropped := false
            rxFifo := (s.link k).rxFifo ++ [f]
            counters := { (s.link k).counters with framesGood := tick32 (s.link k).counters.framesGood } }) := by
  unfold Link.overflows at h
  unfold frameReceived
  simp only [he, h, Bool.not_false, and_self, if_true]

/-- A good query that finds the receive FIFO empty is judged at once. -/
theorem frameReceived_query {qk : QueryKind} {q : Query} {body : List Byte} (hf : (s.link k).rxFifo = [])
    (h : judgeFrame ((s.link k).rxFrame ++ bytes) extra ((s.link k).overflows bytes.length dropped) = .ok ⟨.query qk, body⟩)
    (hq : queryOfBody qk body = some q) :
    frameReceived k bytes extra dropped false s =
      judgeQuery k qk q
        (s.setLink k
          { s.link k with
            rxFrame := []
            rxDropped := false
            counters := { (s.link k).counters with framesGood := tick32 (s.link k).counters.framesGood } }) := by
  rw [frameReceived_good he h, handOn_only (by rw [State.link_setLink_same, hf]; rfl) hq, State.link_setLink_same,
    State.setLink_setLink]
  congr 3
  dsimp only
  rw [hf]

end

/-- Settles O43: the frame is judged by its checks in order, and a query at the head of the receive FIFO by the slots. -/
theorem frameReceivedIsJudged : Obligations.FrameReceivedIsJudged := by
  unfold Obligations.FrameReceivedIsJudged
  intro up accepted refused
  refine ⟨?_, fun u k => ⟨handOn_wait, ?_⟩⟩
  · intro s k bytes extra dropped hr l judged counted frame declared overflow wrongLength body kind wrongCrc wrongKind
    have sound : ¬wrongLength → judgeFrame frame 0 (l.overflows bytes.length dropped) =
        if wrongCrc then .error .crc else (upKindOf kind body.length).elim (.error .kind) fun u => .ok ⟨u, body⟩ := fun hw =>
      judgeFrame_sound (by rw [overflows_iff]; exact hw)
    have good : ∀ {u}, ¬wrongLength → ¬wrongCrc → upKindOf kind body.length = some u →
        judgeFrame frame 0 (l.overflows bytes.length dropped) = .ok ⟨u, body⟩ := fun hw hc hu => by
      rw [sound hw, if_neg hc, hu]
      rfl
    refine ⟨fun h old => event_happens hr (frameReceived_else fun hx => h hx.1),
      event_happens hr (frameReceived_else fun hx => nomatch hx.2), fun he => ⟨fun hx => ?_, ?_, ?_, ?_, ?_, fun qk => ?_⟩⟩
    · exact event_happens hr (frameReceived_discarded he (judgeFrame_framing hx _ _))
    · rintro rfl hw
      exact event_happens hr (frameReceived_discarded he (judgeFrame_length (by rw [overflows_iff]; exact hw)))
    · rintro rfl hw hc
      exact event_happens hr (frameReceived_discarded he ((sound hw).trans (if_pos hc)))
    · rintro rfl hw hc hk
      refine event_happens hr (frameReceived_discarded he (d := .kind) ?_)
      rw [sound hw, if_neg hc, upKindOf_none hk]
      rfl
    · rintro rfl hw hc hk hn hwait
      refine event_happens hr ((frameReceived_good he (good hw hc (by rw [hk, hn]; exact upKindOf_report))).trans (handOn_wait ?_))
      rw [State.link_setLink_same]
      exact report_heads hwait rfl
    · rintro rfl hw hc hk hqk goodLink
      have hn : body.length = qk.bodyLength := bodyLength_of (by rw [← hqk]; exact not_not.mp hk)
      have hgood := good hw hc (by rw [hqk, hn]; exact upKindOf_query qk)
      refine ⟨fun f rest hf hrep => ?_, fun hempty => ?_⟩
      · refine event_happens hr ((frameReceived_good he hgood).trans (handOn_wait ?_))
        rw [State.link_setLink_same, show (s.link k).rxFifo = f :: rest from hf]
        rintro _ _ ⟨⟩
        exact hrep
      · obtain ⟨q, hq⟩ := queryOf_some (tag := half (body.getD 0 0#8) (body.getD 1 0#8)) (args := body.drop 2) (qk := qk)
          (by rw [List.length_drop, hn]; exact bodyLength_after_tag qk)
        have hjudged := frameReceived_query he hempty hgood ((queryOfBody_eq qk body).trans hq)
        refine ⟨q, by rw [hqk]; exact hq, fun hs => event_happens hr (hjudged.trans ?_),
          fun hs => event_happens hr (hjudged.trans ?_)⟩
        · exact judgeQuery_accepts (by rw [State.link_setLink_same]; exact hs)
        · exact judgeQuery_refuses (by rw [State.link_setLink_same]; exact hs)
  · intro qk q body rest hf hq freed
    have hjudged := handOn_query hf ((queryOfBody_eq qk body).trans hq)
    refine ⟨fun hs => hjudged.trans (congrArg (handOn k) ?_), fun hs => hjudged.trans (congrArg (handOn k) ?_)⟩
    · exact judgeQuery_accepts (by rw [State.link_setLink_same]; exact hs)
    · exact judgeQuery_refuses (by rw [State.link_setLink_same]; exact hs)

end Sys2Proof.Machine
end
